-- ==== Sys2Proof/Word.lean ====
section
/-! DEFINITION. The words of the machine (R2, R75, R76, R45). -/

namespace Sys2Proof

/-- A 64-bit register, address or control register (R75, R81). -/
abbrev Word := BitVec 64
/-- A byte of storage. -/
abbrev Byte := BitVec 8
/-- A 64-byte block, vector register or tile row (R45, R75, R76). -/
abbrev Block := BitVec 512
/-- A block tag or register tag: scale byte in bits 15 to 8, format byte in bits 7 to 0 (R45). -/
abbrev Tag := BitVec 16
/-- A compute core. Bits 9 to 0 are its named location, as bits 31 to 22 of a window address hold it: die, cluster, core
(R66). Bits 16 to 10 tell the contexts apart that use one name (R252): the context's number plus 1, or 0 for the physical
core of that name. -/
abbrev CoreId := BitVec 17
/-- A 5-bit register field of an instruction word (R87). -/
abbrev Reg := BitVec 5
/-- A 3-bit predicate field (R90, R93). -/
abbrev PReg := BitVec 3
/-- A 6-bit operand-slot field (R87). -/
abbrev Slot := BitVec 6

end Sys2Proof
end

