-- ==== Sys2Proof/Config.lean ====
section
/-! DEFINITION. What the spec leaves open: free values, each an opaque constant applied to the step counter of the state
or to the operands it depends on. Nothing can be proved about their values. -/

namespace Sys2Proof.Config

/-- DESIGN CHOICE (log 2): which of several enabled agents and events acts next, at a step. -/
opaque pick : Nat → Nat
/-- DESIGN CHOICE (log 2): which of several candidates an event acts on, at a step. -/
opaque choose : Nat → Nat
/-- DESIGN CHOICE (log 2): how many pending writes of an agent to its own slice are performed before an issue (R361). -/
opaque sliceWrites : Nat → Nat → Nat
/-- DESIGN CHOICE (log 8): whether a refresh takes in every write already performed, published or not (R369). -/
opaque refreshAll : Nat → Bool
/-- DESIGN CHOICE (log 7): arithmetic clocks between two observations of CYCLE (R81, R127). -/
opaque cycleGap : Nat → Nat
/-- DESIGN CHOICE (log 8): which entry of a full TLB a fill replaces (R302). -/
opaque tlbVictim : Nat → Nat
/-- DESIGN CHOICE (log 21): a byte of a save area once the firmware has written there, by step and location (R256). -/
opaque saveByte : Nat → Nat → Byte
/-- DESIGN CHOICE (log 21): a block's tag there. -/
opaque saveTag : Nat → Nat → Tag
/-- DESIGN CHOICE (log 10): the nonces tried for a signature, by step and by their number (R421). -/
opaque signNonce : Nat → Nat → Nat
/-- DESIGN CHOICE (log 10): the start-up pattern of the key SRAM, at a reset (R417). -/
opaque startPattern : Nat → BitVec 65536
/-- DESIGN CHOICE (log 10): the octets of the Horonabor root public key held in ROM (R418). -/
opaque rootOctet : Nat → Byte
/-- DESIGN CHOICE (log 10): the identity private key that an identity blob wraps, unwrapped by a pattern (R417). -/
opaque unwrapKey : BitVec 65536 → List Byte → BitVec 384
/-- DESIGN CHOICE (log 11): where the owner key lies in the body of an identity blob (R418). -/
opaque ownerAt : Nat
/-- DESIGN CHOICE (log 11): where the items of R419 lie in the body of a configuration blob, in the order of its table. -/
opaque identityAt : Nat
/-- DESIGN CHOICE (log 11): see identityAt. -/
opaque positionAt : Nat
/-- DESIGN CHOICE (log 11): see identityAt. -/
opaque routingAt : Nat
/-- DESIGN CHOICE (log 11): see identityAt. -/
opaque storeAt : Nat
/-- DESIGN CHOICE (log 11): see identityAt. -/
opaque spareAt : Nat
/-- DESIGN CHOICE (log 11): see identityAt. -/
opaque powerAt : Nat
/-- DESIGN CHOICE (log 11): whether a Svailaet port finds a peer at bring-up, and the version and partition it offers
(R403), by step and port. -/
opaque peerTrains : Nat → Nat → Bool
/-- DESIGN CHOICE (log 11): the major version of that peer. -/
opaque peerMajor : Nat → Nat → BitVec 8
/-- DESIGN CHOICE (log 11): the minor version of that peer. -/
opaque peerMinor : Nat → Nat → BitVec 8
/-- DESIGN CHOICE (log 11): the package position of that peer. -/
opaque peerPosition : Nat → Nat → BitVec 8
/-- DESIGN CHOICE (log 11): the partition of that peer. -/
opaque peerPartition : Nat → Nat → Word
/-- DESIGN CHOICE (log 10): the measurement of the ROM (R421). -/
opaque romMeasure : BitVec 384
/-- DESIGN CHOICE (log 13): energy of a power window, in the unit of R424, by step and die. -/
opaque windowEnergy : Nat → Nat → Nat
/-- DESIGN CHOICE (log 13): temperature sensors of R424, by step and die. -/
opaque temperature : Nat → Nat → BitVec 16
/-- DESIGN CHOICE (log 17): the CRC-32 of R401: its register before the first bit, what is added to the remainder, whether a
byte's low bit comes first, and whether the remainder is reversed. R401 gives the polynomial. -/
opaque crcStart : BitVec 32
/-- DESIGN CHOICE (log 17): see crcStart. -/
opaque crcEnd : BitVec 32
/-- DESIGN CHOICE (log 17): see crcStart. -/
opaque crcLowFirst : Bool
/-- DESIGN CHOICE (log 17): see crcStart. -/
opaque crcReversed : Bool
/-- DESIGN CHOICE (log 17): the CRC-16 of R400: its register before the first bit. R400 gives the polynomial. -/
opaque crc16Start : BitVec 16
/-- DESIGN CHOICE (log 1): an instance has a group on a core of another package, by context, instance, package and core. -/
opaque farGroup : Nat → Nat → Nat → Nat → Bool
/-- DESIGN CHOICE (log 30): the package, and the 64 KiB page of its HBM, to which a 64 KiB physical page outside the ranges of R67 leads: a
number below 256 is a position in the partition, a higher one a peer partition's. -/
opaque farPage : Nat → Option (Nat × Nat)
/-- DESIGN CHOICE (log 30): the Svailaet port by which a peer partition is reached. -/
opaque peerPort : Nat → BitVec 3
/-- DESIGN CHOICE (log 15): value of an operand the spec gives no result for. -/
opaque unstated : Nat → Word

end Sys2Proof.Config
end

