-- ==== Sys2Proof/Syntax.lean ====
section
/-! DEFINITION. The instructions of the machine: one constructor for each row of spec/opcode_table.json, the 176
instruction words first, then the 85 events of the device, the host and the fabric. -/

namespace Sys2Proof

/-- Lane types of R88. -/
inductive VTy | b8 | i16 | i32 | i64 | bf16 | f16 | f32 | f64
  deriving DecidableEq, Repr, Inhabited

/-- Source and destination types of FCVT (R121): as R88, with n64 in place of b8. -/
inductive CvTy | n64 | i16 | i32 | i64 | bf16 | f16 | f32 | f64
  deriving DecidableEq, Repr, Inhabited

/-- Integer fitting mode (R89, R109). -/
inductive IMode | byStatus | wrap | sat
  deriving DecidableEq, Repr, Inhabited

/-- Rounding field RM (R110). -/
inductive RMode | byStatus | rne | rtz | rup | rdn | rto
  deriving DecidableEq, Repr, Inhabited

/-- Integer conditions (R111). -/
inductive ICond | eq | ne | lt | ge | le | gt
  deriving DecidableEq, Repr, Inhabited

/-- Floating conditions of FCMP (R120). -/
inductive FCond | eq | lt | le | un | ne
  deriving DecidableEq, Repr, Inhabited

/-- Conditions of VCMP (R135). -/
inductive VCond | eq | ne | lt | ge | le | gt | un
  deriving DecidableEq, Repr, Inhabited

/-- Scopes (R92, R177). -/
inductive Scope | agent | core | cluster | stack | die | package | fabric | peer | host | system
  deriving DecidableEq, Repr, Inhabited

/-- Operations of AMO (R173). -/
inductive AmoOp | swap | add | and | or | xor | min | max
  deriving DecidableEq, Repr, Inhabited

/-- Load forms of the modifier (R91). -/
inductive LdSz | d64 | i32 | i16 | i8 | n32 | n16 | n8
  deriving DecidableEq, Repr, Inhabited

/-- Store forms of the modifier (R91). -/
inductive StSz | d64 | w32 | h16 | b8
  deriving DecidableEq, Repr, Inhabited

/-- Operations of VRED and VSCAN (R139). -/
inductive RedOp | sum | min | max | and | or | xor
  deriving DecidableEq, Repr, Inhabited

/-- Codes of SSSNAP (R211). -/
inductive SnapCode | record | pin | unpin | repin
  deriving DecidableEq, Repr, Inhabited

/-- Destination codes of ARD (R165). -/
inductive ArdTy | f32 | bf16 | b8 | i32 | a48 | f16
  deriving DecidableEq, Repr, Inhabited

/-- Source codes of AWR (R163). -/
inductive AwrTy | f32 | i32 | a48
  deriving DecidableEq, Repr, Inhabited

/-- Forms of MOVI (R225). -/
inductive MoviForm | sext | zext | hi
  deriving DecidableEq, Repr, Inhabited

/-- Who the peer of a Svailaet port is: its partition's identity and its position there (R403). -/
structure PeerId where
  partition : Word
  position : BitVec 8
  deriving DecidableEq, Repr, Inhabited

/-- Second source of a format V instruction: vb, or sb broadcast (R90). -/
inductive VSrc | v (r : Reg) | s (r : Reg)
  deriving DecidableEq, Repr, Inhabited

/-- Source of VBCAST: lane k of va, or sb (R141). -/
inductive BcSrc | lane (va : Reg) (k : Reg) | s (r : Reg)
  deriving DecidableEq, Repr, Inhabited

/-- Lane number of VEXT and VINS: a constant, or sb (R141). -/
inductive LaneIx | k (k : Reg) | s (r : Reg)
  deriving DecidableEq, Repr, Inhabited

/-- Version bytes of a host command (R420). -/
structure CmdVer where
  minor : BitVec 8
  major : BitVec 8
  deriving DecidableEq, Repr, Inhabited

/-- A direction round a cluster ring: clockwise is towards rising stop numbers (R9). -/
inductive Dir | cw | acw
  deriving DecidableEq, Repr, Inhabited

/-- One instruction word, or one event of the device, the host or the fabric. -/
inductive Instr
  -- class 0b00 (R112 to R128)
  | add (d a b : Reg) (m : IMode) (u : Bool)
  | sub (d a b : Reg) (m : IMode) (u : Bool)
  | mul (d a b : Reg) (m : IMode) (u : Bool)
  | mulh (d a b : Reg) (u : Bool)
  | div (d a b : Reg) (m : IMode) (u : Bool)
  | rem (d a b : Reg) (u : Bool)
  | and (d a b : Reg)
  | or (d a b : Reg)
  | xor (d a b : Reg)
  | andn (d a b : Reg)
  | shl (d a b : Reg)
  | shr (d a b : Reg)
  | sar (d a b : Reg)
  | rot (d a b : Reg)
  | min (d a b : Reg) (u : Bool)
  | max (d a b : Reg) (u : Bool)
  | clz (d a : Reg)
  | popc (d a : Reg)
  | sel (d a b : Reg) (k : PReg)
  | cmp (d a b : Reg) (u : Bool) (c : ICond)
  | addi (d a : Reg) (imm : BitVec 14)
  | andi (d a : Reg) (imm : BitVec 14)
  | ori (d a : Reg) (imm : BitVec 14)
  | xori (d a : Reg) (imm : BitVec 14)
  | shli (d a : Reg) (n : BitVec 6)
  | shri (d a : Reg) (n : BitVec 6)
  | sari (d a : Reg) (n : BitVec 6)
  | cmpi (d a : Reg) (c : ICond) (u : Bool) (imm : BitVec 10)
  | fadd (d a b : Reg) (r : RMode) (p : Bool)
  | fsub (d a b : Reg) (r : RMode) (p : Bool)
  | fmul (d a b : Reg) (r : RMode) (p : Bool)
  | fdiv (d a b : Reg) (r : RMode) (p : Bool)
  | fsqrt (d a : Reg) (r : RMode) (p : Bool)
  | fma (d a b : Reg) (r : RMode) (p : Bool)
  | fcmp (d a b : Reg) (c : FCond) (p : Bool)
  | fcvt (d a : Reg) (r : RMode) (dst src : CvTy)
  | fmin (d a b : Reg) (p : Bool)
  | fmax (d a b : Reg) (p : Bool)
  | fclass (d a : Reg) (p : Bool)
  | br (k : PReg) (off : BitVec 21)
  | jmp (a : Reg)
  | call (off : BitVec 21)
  | loop (d : Reg) (off : BitVec 14)
  | crd (d : Reg) (n : BitVec 12)
  | cwr (n : BitVec 12) (a : Reg)
  | trap (code : BitVec 14)
  -- class 0b01, vector (R133 to R149)
  | vadd (d a : Reg) (b : VSrc) (t : VTy) (p : PReg) (m : IMode)
  | vsub (d a : Reg) (b : VSrc) (t : VTy) (p : PReg) (m : IMode)
  | vmul (d a : Reg) (b : VSrc) (t : VTy) (p : PReg) (m : IMode)
  | vfma (d a : Reg) (b : VSrc) (t : VTy) (p : PReg) (m : IMode)
  | vmin (d a : Reg) (b : VSrc) (t : VTy) (p : PReg)
  | vmax (d a : Reg) (b : VSrc) (t : VTy) (p : PReg)
  | vand (d a : Reg) (b : VSrc) (t : VTy) (p : PReg)
  | vor (d a : Reg) (b : VSrc) (t : VTy) (p : PReg)
  | vxor (d a : Reg) (b : VSrc) (t : VTy) (p : PReg)
  | vshl (d a : Reg) (b : VSrc) (t : VTy) (p : PReg)
  | vshr (d a : Reg) (b : VSrc) (t : VTy) (p : PReg)
  | vsar (d a : Reg) (b : VSrc) (t : VTy) (p : PReg)
  | vcmp (k : PReg) (a : Reg) (b : VSrc) (t : VTy) (p : PReg) (c : VCond)
  | vsel (d a : Reg) (b : VSrc) (t : VTy) (p : PReg)
  | vcvt (d a b : Reg) (t : VTy) (p : PReg) (m : IMode)
  | vred (d a : Reg) (op : RedOp) (t : VTy) (p : PReg) (m : IMode)
  | vscan (d a : Reg) (op : RedOp) (t : VTy) (p : PReg) (m : IMode)
  | vperm (d a : Reg) (b : VSrc) (t : VTy) (p : PReg)
  | vbcast (d : Reg) (src : BcSrc) (t : VTy) (p : PReg)
  | vexp2 (d a : Reg) (p : PReg)
  | vlog2 (d a : Reg) (p : PReg)
  | vrcp (d a : Reg) (p : PReg)
  | vrsqrt (d a : Reg) (p : PReg)
  | vabs (d a : Reg) (t : VTy) (p : PReg) (m : IMode)
  | vneg (d a : Reg) (t : VTy) (p : PReg) (m : IMode)
  | vmov (d a : Reg) (t : VTy) (p : PReg)
  | vext (d a : Reg) (ix : LaneIx) (t : VTy)
  | vins (d a : Reg) (ix : LaneIx) (t : VTy)
  | vld (d a : Reg) (t : VTy) (off : BitVec 11)
  | vst (d a : Reg) (t : VTy) (off : BitVec 11)
  | vlds (d a b : Reg) (t : VTy) (p : PReg)
  | vsts (d a b : Reg) (t : VTy) (p : PReg)
  | vgath (d a b : Reg) (t : VTy) (p : PReg)
  | vscat (d a b : Reg) (t : VTy) (p : PReg)
  | vtopk (d a b : Reg) (p : PReg) (fresh : Bool)
  | vpopc (d a : Reg) (t : VTy) (p : PReg)
  -- class 0b01, tile and matrix (R152 to R165)
  | tcfg (n a : Reg)
  | tld (n a : Reg) (off : BitVec 11)
  | tst (n a : Reg) (off : BitVec 11)
  | trow (d a b : Reg) (w : Bool)
  | tcol (d a b : Reg) (w : Bool)
  | tzero (n : Reg)
  | tmma (c a b : Reg)
  | tclean (n : Reg)
  | oclaim (d a : Reg) (acc : Bool)
  | orel (a : Reg) (acc : Bool)
  | oload (d a : Reg) (o : Slot)
  | mma (n : Reg) (oa ob : Slot) (z : Bool)
  | azero (n : Reg)
  | ard (n a b : Reg) (m : IMode) (z : Bool) (t : ArdTy)
  | awr (n a b : Reg) (t : AwrTy)
  | vsmpl (d a b : Reg)
  | vaccept (d a b : Reg) (p : PReg)
  | vrng (d b : Reg) (p : PReg)
  | vcnt (d k : Reg) (t : VTy) (lead : Bool)
  | vidx (d b : Reg) (t : VTy) (p : PReg)
  -- class 0b10, memory and synchronisation (R170 to R188)
  | ld (d a : Reg) (sz : LdSz) (off : BitVec 11)
  | st (d a : Reg) (sz : StSz) (off : BitVec 11)
  | ldt (d a : Reg) (off : BitVec 11)
  | stt (d a : Reg) (off : BitVec 11)
  | pref (a : Reg) (off : BitVec 11)
  | amo (d a b : Reg) (w u : Bool) (op : AmoOp)
  | cas (d a b : Reg) (w u : Bool)
  | fence (sc : Scope)
  | phase (sc : Scope)
  | bari (a b : Reg)
  | bara (d a b : Reg) (sc : Scope)
  | barw (a b : Reg) (sc : Scope)
  | waitf (d a : Reg) (e : Bool) (sc : Scope)
  | fill (d a b : Reg) (sc : Scope)
  | qput (q a : Reg)
  | qget (d q : Reg)
  | qstream (q b : Reg)
  | qflush (q : Reg)
  -- class 0b10, net, engine and system (R192 to R221)
  | new (d a : Reg) (h : Bool)
  | free (a : Reg)
  | link (d a b : Reg)
  | wire (d a b : Reg)
  | pushx (d a b : Reg)
  | tshare (d a : Reg)
  | tdrop (d a : Reg)
  | enq (d a b : Reg)
  | enwait (a b : Reg)
  | gather (d a b : Reg)
  | scatter (d a b : Reg)
  | publish (d a : Reg)
  | ssopen (d a b : Reg)
  | ssld (d a b : Reg)
  | ssst (d a b : Reg)
  | sssnap (d a b : Reg) (c : SnapCode)
  | ssroll (d a b : Reg) (t : Bool)
  | ssfork (d a b : Reg)
  | ssclose (a : Reg)
  | launch (d a b : Reg)
  | hintsucc (a : Reg)
  | sleep (d a : Reg)
  | wake (d a : Reg)
  | migrate (d a : Reg)
  | take (d a : Reg) (n : Bool)
  | extq (d a : Reg)
  -- class 0b11, long forms (R225 to R233)
  | movi (d : Reg) (f : MoviForm) (imm : BitVec 32)
  | addl (d a : Reg) (m : IMode) (imm : BitVec 32)
  | ldl (d a : Reg) (sz : LdSz) (off : BitVec 32)
  | stl (d a : Reg) (sz : StSz) (off : BitVec 32)
  | brl (k : PReg) (off : BitVec 32)
  | calll (off : BitVec 32)
  | vldl (d a : Reg) (t : VTy) (off : BitVec 32)
  | vstl (d a : Reg) (t : VTy) (off : BitVec 32)
  | cpy (d a b : Reg) (len : BitVec 32)
  | enqi (d a : Reg) (imm : BitVec 32)
  | pushk (d a : Reg) (w1 : BitVec 32)
  | andl (d a : Reg) (z : Bool) (imm : BitVec 32)
  | cmpl (d a : Reg) (u : Bool) (c : ICond) (imm : BitVec 32)
  | orl (d a : Reg) (z : Bool) (imm : BitVec 32)
  | xorl (d a : Reg) (z : Bool) (imm : BitVec 32)
  | mmal (n : Reg) (oa ob : Slot) (ovb ova z : Bool) (w1 : BitVec 32)
  | vbcasti (d : Reg) (t : VTy) (imm : BitVec 32)
  | tcfgi (n : Reg) (w1 : BitVec 32)
  | sssnapi (d a : Reg) (c : SnapCode) (pos : BitVec 32)
  | jmpl (d : Reg) (r : Option Reg) (off : BitVec 32)
  | amol (d a b : Reg) (w u : Bool) (op : AmoOp) (off : BitVec 32)
  | casl (d a b : Reg) (w u : Bool) (off : BitVec 32)
  | ldpair (d a b : Reg) (off : BitVec 32)
  | stpair (d a b : Reg) (off : BitVec 32)
  -- package and host events
  | getVersion (v : CmdVer)
  | create (v : CmdVer) (ctx : BitVec 6) (asid : BitVec 16) (root : Word) (topx : Bool) (prio : BitVec 3)
      (clusters : BitVec 8) (save saveLen : Word)
  | destroy (v : CmdVer) (ctx : BitVec 6)
  | stop (v : CmdVer) (ctx : BitVec 6)
  | resume (v : CmdVer) (ctx : BitVec 6)
  | switchOut (v : CmdVer) (ctx : BitVec 6)
  | switchOutProceed (ctx : BitVec 6)
  | switchIn (v : CmdVer) (ctx : BitVec 6)
  | evacuate (v : CmdVer) (die : BitVec 2)
  | uploadPlan (v : CmdVer) (ctx : BitVec 6) (plan : Word)
  | readInstance (v : CmdVer) (ctx : BitVec 6) (inst : BitVec 32)
  | tagWrite (blk : Block)
  | faultRead (blk : Block)
  | map (blk : Block)
  | refuse (blk : Block)
  | replay (blk : Block)
  | flush (blk : Block)
  | invalidate (blk : Block)
  | readCounters (v : CmdVer) (core : CoreId)
  | telemetry (v : CmdVer)
  | kick (ctx : BitVec 6) (val : Word)
  | progressWrite (ctx : BitVec 6) (val : Word)
  | hostRegisterWrite (off : Word) (data : List Byte)
  | cxlMemWrite (pa : Word) (data : List Byte)
  | cxlMemRead (pa : Word) (n : Nat)
  -- events of cores, homes, queues and the distributor
  | gangStopArrival (core : CoreId)
  | remoteImmediateOp (core : CoreId)
  | stackRequest (stack : BitVec 4) (culm : Bool)
  | replyArrival (aid : Nat)
  | refusalArrival (aid : Nat)
  | lateTrapDelivery (aid : Nat)
  | waitTableRetry (core : CoreId)
  | waiterWake (core : CoreId)
  | wakeArrival (aid : Nat)
  | sleepTimeout (aid : Nat)
  | pushAdmit (core : CoreId)
  | spillDrain (core : CoreId)
  | queueDispatch (core : CoreId)
  | transitReoffer (core : CoreId)
  | sequencerRewrite (core : CoreId)
  | linkUnitRequest (core : CoreId)
  | terminationWave (ctx : BitVec 6) (inst : BitVec 32)
  | freeCountReport (die : BitVec 2)
  | instancePrepare (ctx : BitVec 6) (inst : BitVec 32)
  | instanceDone (ctx : BitVec 6) (inst : BitVec 32)
  | instanceFault (ctx : BitVec 6) (inst : BitVec 32)
  | migrationCapture (aid : Nat)
  | migrationResume (aid : Nat)
  | extensionTargetFree (aid : Nat)
  | forwardingExpiry (core : CoreId)
  | messageReturn (msg : Nat)
  | tileRestoreDone (aid : Nat) (n : BitVec 3)
  -- translation, engines
  | faultMessage (cluster : BitVec 5)
  | pageWalkResult (cluster : BitVec 5)
  | translationAnswer (cluster : BitVec 5)
  | coprocEntry (core : CoreId)
  | tmmaResult (aid : Nat)
  | stripFetch (core : CoreId) (q : BitVec 3)
  | cpyBlock (core : CoreId)
  | engineNop (core : CoreId) (hdr : Word)
  | copyCmd (core : CoreId) (hdr : Word)
  | gatherCmd (core : CoreId) (hdr : Word)
  | ssHeadToMemory (core : CoreId) (hdr : Word)
  | ssMemoryToHead (core : CoreId) (hdr : Word)
  | countersCmd (core : CoreId) (hdr : Word)
  | engineReadReply (core : CoreId) (hdr : Word)
  | enginePost (core : CoreId) (num : BitVec 8) (n : BitVec 40)
  | gatherReply (core : CoreId)
  -- fabric
  | d2dFlitReceive (die : BitVec 2) (up : Bool) (crcOk : Bool)
  | ringHop (cluster : BitVec 5) (stop : BitVec 3) (dir : Dir) (parityOk : Bool)
  | meshHop (die : BitVec 2) (router : BitVec 3) (reply parityOk : Bool)
  | packetDelivery (msg : Nat)
  | ringFreeCounts (cluster : BitVec 5) (stop : BitVec 3) (dir : Dir)
  | svailaetGroupSend (port : BitVec 3)
  -- errors, links and attestation (R402, R421, R422)
  | attest (blk : Block)
  | patrolScrub (stack : BitVec 4) (pa : Word) (uncorrectable : Bool)
  | svailaetGroupReceive (port : BitVec 3) (gseq ackseq : BitVec 12) (crcOk nak : Bool) (flits : List (BitVec 256))
  | svailaetRetrainDone (port : BitVec 3) (ok : Bool) (peerMajor peerMinor : BitVec 8) (peer : PeerId)
  | svailaetPortReturns (port : BitVec 3)
  -- instructions and events without operands, of every class
  | nop
  | ret
  | retire
  | waitpred
  | rte
  | halt
  | packageReset
  | thermalReset
  | powerWindow
  | instancePlacement
  | placementAgeLimit
  | launchAccept
  deriving DecidableEq, Repr

end Sys2Proof
end

