-- ==== Sys2Proof/Machine/State.lean ====
section
/-! DEFINITION. The state of one KX-9600 package, and its state after reset. A *location* is a natural number: a physical
address below 2^52 (R67), or the linear window address of a byte of a slice (R66); `draws` is the model's own counter. -/

namespace Sys2Proof.Machine

/-- Why the machine stops: it never does. The spec gives every instruction and event an effect, and every exception an
entry; so no definition raises a fault. -/
inductive Fault
  deriving DecidableEq, Repr

/-- Why an instruction is refused. -/
inductive Refusal
  /-- The instruction has no meaning in this model. Raised by the arms of exec. Safe. -/
  | notModelled (mnemonic : String)
  deriving DecidableEq, Repr

/-- Bytes and block tags by location, in canonical form: locations rise strictly, and no entry equals what an unlisted
location reads as (byte 0, tag 0x7FC0). A tag stands at the location of its block's first byte (R45). -/
structure Mem where
  bytes : List Host.Cell
  tags : List (Nat × Tag)
  deriving DecidableEq, Repr, Inhabited

/-- A tile register or its saved image: 16 rows with their tags (R75, R151). -/
structure Tile where
  rows : Vector Block 16
  tags : Vector Tag 16
  deriving DecidableEq, Repr

/-- Zero rows tagged 0x7FC0 (R151). -/
def Tile.zero : Tile := ⟨Vector.replicate 16 0, Vector.replicate 16 0x7FC0⟩

/-- A pending result of TMMA (R156): the tile it writes and the rows to be written. -/
structure TmmaResult where
  tile : Nat
  rows : List Block
  deriving DecidableEq, Repr

/-- A late trap whose answer has arrived (R238, R239). -/
structure LateTrap where
  cause : BitVec 8
  trapa : Word
  seq : BitVec 24
  deriving DecidableEq, Repr

/-- A token register still pending: the scalar register and what writes it (R202). The key names the command. -/
structure PendingToken where
  reg : Nat
  key : Nat
  /-- The token belongs to GATHER or SCATTER, which count in OUTREQ until it is written (R190). -/
  counts : Bool
  deriving DecidableEq, Repr

/-- An ordinary store of bytes of one block, issued and not yet performed at its home (R361, R367). -/
structure PWrite where
  /-- The model's number of the write, and the number of its instruction: the writes of one instruction are performed in
  ascending order of their lanes (R132). -/
  id : Nat
  ins : Nat
  /-- Bytes in ascending order of storing. -/
  bytes : List (Nat × Byte)
  /-- Block tags written. -/
  tags : List (Nat × Tag)
  /-- Its home lay beyond the core at issue: it counts in OUTREQ and has a request number (R167, R238). -/
  remote : Bool
  seq : BitVec 24
  /-- Its data are known: the rows of a queued ARD are not, until the engine performs it (R158, R165). -/
  ready : Bool
  /-- Its packet has left the core. -/
  sent : Bool
  deriving DecidableEq, Repr

/-- Where an address leads, and whether its page is poisoned (R299, R301). -/
structure XOk where
  loc : Nat
  poison : Bool
  deriving DecidableEq, Repr

/-! ## Operations at other parties (R167, R190) -/

/-- An operation of a stack on its state store (R207 to R213, R233). A handle is the word that names it. -/
inductive SeqOp
  | open_ (stack : Word) (bytes : Nat)
  | load (h off : Word)
  | store (h off : Word) (b : Block) (t : Tag)
  | snap (h : Word) (c : SnapCode) (pos : Word)
  | roll (h pos : Word) (t : Bool)
  | fork (h pos : Word)
  | close (h : Word)
  deriving DecidableEq, Repr

/-- What a request asks of the party at which an operation acts (R167, R190). Locations and core names are translated before it
leaves. -/
inductive HomeOp
  /-- Operation, W, U, the locations of the bytes, the operand, and whether the page is poisoned (R173). -/
  | amo (op : AmoOp) (w u : Bool) (locs : List Nat) (b : Word) (bad : Bool)
  /-- W, U, the locations, the value expected and the new one (R175). -/
  | cas (w u : Bool) (locs : List Nat) (old new : Word) (bad : Bool)
  /-- Core, barrier number, count of the arrival, and the handle (R182). -/
  | bara (core : CoreId) (n k : Nat) (h : Word)
  /-- Core, barrier number, and the phase that has passed (R183). -/
  | barw (core : CoreId) (n : Nat) (phase : BitVec 16)
  /-- The word's location, and E (R185). -/
  | waitf (l : Nat) (e : Bool)
  /-- The word's location and its value (R186). -/
  | fill (l : Nat) (v : Word)
  /-- Address of the record, its location, and the header (R192, R193). -/
  | new (a : Word) (l : Nat) (h : Word)
  /-- Ports (R195, R197). -/
  | link (sn sa : Word)
  | wire (a b : Word)
  /-- Core and number of a tile buffer, and its handle (R201). -/
  | tshare (core : CoreId) (b : Nat) (h : Word)
  | tdrop (core : CoreId) (b : Nat) (h : Word)
  /-- The label of a shadow pair (R206). -/
  | publish (va : Word)
  | seq (op : SeqOp)
  /-- The place, and the word that names it (R218). -/
  | wake (core : CoreId) (h : Word)
  /-- The token's register, the header's location, its view, and the command (R203). -/
  | enq (d : Reg) (l : Nat) (skew : Bool) (b : Block)
  /-- The chain's core, its header's offset, and the sequence number (R204). -/
  | enwait (core : CoreId) (hdr : Nat) (n : Word)
  /-- Step of the plan, and KPARAM (R214). -/
  | launch (step : Nat) (kparam : Vector Word 16)
  /-- The predecessors of the agent's instance (R215). -/
  | preds
  /-- The copy of a tile buffer on first write (R322). -/
  | guard (core : CoreId) (b : Nat)
  deriving DecidableEq, Repr

/-- What an operation that has acted answers: a value, or a block with its tag, which it then brings; PSN where the bytes read were
poisoned. -/
structure OpData where
  value : Word
  block : Block
  tag : Tag
  psn : Bool
  brings : Bool
  deriving DecidableEq, Repr

/-- The answer to an operation. -/
inductive OpAnswer
  | done (d : OpData)
  /-- It has not acted: the cause of its trap, and TRAPA. -/
  | trapped (cause : BitVec 8) (a : Word)
  /-- The wait table, or the chain's ring, has no room (R184, R203). -/
  | tableFull
  | ringFull
  /-- The first locations of a tile buffer and of its copy (R322). -/
  | guarded (l copy : Nat)
  deriving DecidableEq, Repr

/-- Who published a write that an agent has yet to take in (R369, R379, R386). -/
inductive IncSrc
  /-- A command of a chain, named by its header's location and its sequence number; the copy unit and the GATHER
  instruction count as chains of their own. -/
  | engine (chain seq : Nat)
  | host
  /-- An agent, its place when it published, and the scope. -/
  | agent (aid : Nat) (place : CoreId) (sc : Scope)
  /-- An instance at its completion, for WAITPRED (R412). -/
  | instance_ (ctx : Nat) (num : BitVec 32)
  /-- A party of another package, in a peer partition or not (R376, R381). -/
  | far (peer : Bool)
  deriving DecidableEq, Repr

/-- A published byte or tag: its key and its publisher. -/
structure Incoming where
  key : Nat
  src : IncSrc
  deriving DecidableEq, Repr

/-- A push between packages: the other package, the agent that makes it, and its request (R270). -/
structure FarId where
  pkg : BitVec 8
  place : CoreId
  num : BitVec 3
  seq : BitVec 24
  deriving DecidableEq, Repr

/-- The record an agent is handling (R27, R28, R268). -/
structure HandlerRec where
  key : Word
  rule : Nat
  fanout : Nat
  pushes : Nat
  /-- Places still reserved for its pushes. -/
  reserved : Nat
  /-- The core whose queue leases the entry, and its place number. -/
  core : CoreId
  place : Nat
  /-- The nodes of a rewrite record (R28), or none. -/
  nodes : Option (Word × Word)
  /-- Its pushes to other packages that hold them as staged records (R268, R270). -/
  far : List FarId
  deriving DecidableEq, Repr

/-- What a blocked agent waits for. -/
inductive Wait
  /-- The answer of its teff core to its fault message, by the number of that request (R239, R303). -/
  | translation (seq : BitVec 24)
  /-- Every request acknowledged, its coprocessor entries finished and its slice writes performed (R176). -/
  | quiet
  /-- Every request acknowledged, and every token written too (R206, R217). -/
  | quietTokens
  /-- Its coprocessor queue entries and its copies finished (R127). -/
  | engines
  /-- Registers that pending tokens will write, and tiles with pending results (R156, R202). -/
  | scoreboard (regs tiles : List Nat)
  /-- Its coprocessor queue entries finished: an ARD writes bytes that the instruction names (R158). -/
  | coproc
  /-- Replies to its read requests: the number of the reads, the replies still to come, whether one that has come is
  poisoned (R394, R422), and where the addresses of its lanes lead. -/
  | reads (key left : Nat) (bad : Bool) (locs : List (List XOk))
  /-- The answer to its operation at another party, by the number of the request; then the answer (R167, R190). -/
  | op (key : Nat) (ans : Option OpData)
  /-- Its earlier writes to the home of its immediate operation to leave, or its stores before a command to be performed (R355,
  R356, R395). -/
  | order
  /-- Room in the coprocessor queue (R158). -/
  | coprocRoom
  /-- An entry of queue register q; the number orders those blocked (R78). -/
  | queueEntry (q : Nat) (order : Nat)
  /-- Room in queue register q (R78). -/
  | queueRoom (q : Nat) (order : Nat)
  /-- A wait-table entry or a repeated request for one (R184). -/
  | waitTable
  /-- Its entry in a wait table, whether its request counts in OUTREQ until the wake, and the value that the wake hands it: a
  FILL's value for WAITF, nothing for BARW (R167, R183, R185). -/
  | woken (counts : Bool) (value : Option Word)
  /-- RETIRE step 5, since the given order number (R28, R29). -/
  | retire (since : Nat)
  /-- RETIRE step 5, since the given order number: the page of a node of the record offered to it is asked of its teff core,
  by the number of that request (R193, R303). -/
  | nodePage (since : Nat) (seq : BitVec 24)
  /-- The kernel has terminated while it waited in RETIRE: it ends as if by HALT (R28). -/
  | ending
  /-- SLEEP until the deadline, or for ever (R218). -/
  | sleep (deadline : Option Nat)
  /-- SLEEP has ended: the value written to sd (R218). -/
  | slept (value : Word)
  /-- An entry of the keyed queue for TAKE (R220). -/
  | take
  /-- A target with the extension (R289). -/
  | extension
  /-- A free forwarding entry, or a free target agent, for a migration (R249, R250). -/
  | migration
  /-- A tile restore (R251): the number of its reads, and the replies still to come. -/
  | tileRestore (n key left : Nat)
  /-- Room in an engine's queue (R203, R229). -/
  | engineRoom
  /-- A sequence number reached by an engine (R204). -/
  | sequence
  /-- The predecessors of its instance (R215). -/
  | predecessors
  deriving DecidableEq, Repr

/-- What an agent is doing (R240, R249, R279, R290). -/
inductive Run
  | free
  | running
  | blocked (w : Wait)
  | halted
  /-- Stopped by a double trap (R240). -/
  | dead
  deriving DecidableEq, Repr

/-- One agent. -/
structure Agent where
  /-- Named core and agent number (R83). -/
  place : CoreId
  num : BitVec 3
  /-- The model's name of the agent, kept across migration. -/
  aid : Nat
  ctx : Nat
  inst : BitVec 32
  run : Run
  /-- The last instruction that it has fetched: where it is blocked in one, this one, unless it waits for a fetch. -/
  inhand : Option Instr
  /-- It has issued an instruction since its start: its snapshot is taken then (R369, R412). -/
  begun : Bool
  lastIssue : Nat
  s : Vector Word 32
  v : Vector Block 32
  vtag : Vector Tag 32
  p : Vector Word 8
  t : Vector Tile 8
  timg : Vector Tile 8
  /-- Tiles whose restore from the saved image is outstanding (R251). -/
  trest : BitVec 8
  tmma : List TmmaResult
  pc : Word
  status : Word
  tshape : Word
  tdirty : BitVec 8
  groupid : Word
  trapc : Word
  trappc : Word
  trapa : Word
  trapseq : Word
  trapvec : Word
  outreq : BitVec 16
  phasen : BitVec 32
  rngkey : Word
  handler : Bool
  late : List LateTrap
  reqseq : BitVec 24
  tokens : List PendingToken
  wake : Bool
  /-- Where it was when it began the WAITF or BARW in which it has migrated since (R364). -/
  waitAt : Option CoreId
  hrec : Option HandlerRec
  young : List Nat
  /-- The snapshot of every byte and tag outside the own slice, own writes included (R353, R368). -/
  view : Mem
  posted : List PWrite
  /-- Keys of the bytes and tags that its publications carry (R177). -/
  written : List Nat
  /-- Keys that the commands whose tokens it has taken in wrote, for PUBLISH (R206, R389). -/
  cmdKeys : List Nat
  /-- Published writes not yet taken in (R369). -/
  incoming : List Incoming
  /-- Keys of the bytes and tags of other packages' memory that its snapshot holds (R368, R376). -/
  farSeen : List Nat
  /-- Other packages in whose memory it has written what it has not published to them yet. -/
  farDirty : List Nat
  /-- Tile buffers whose writes go to a private copy (R322). -/
  redirects : List (Nat × Nat)
  /-- Declared register counts (R75). -/
  ns : Nat
  nv : Nat
  np : Nat
  nt : Nat
  deriving DecidableEq, Repr

/-- An agent that no instance has started. -/
def Agent.fresh (place : CoreId) (num : BitVec 3) : Agent where
  place := place
  num := num
  aid := 0
  ctx := 0
  inst := 0
  run := .free
  inhand := none
  begun := false
  lastIssue := 0
  s := Vector.replicate 32 0
  v := Vector.replicate 32 0
  vtag := Vector.replicate 32 0x7FC0
  p := Vector.replicate 8 0
  t := Vector.replicate 8 Tile.zero
  timg := Vector.replicate 8 Tile.zero
  trest := 0
  tmma := []
  pc := 0
  status := 0
  tshape := 0xFFFFFFFFFFFFFFFF
  tdirty := 0
  groupid := 0
  trapc := 0
  trappc := 0
  trapa := 0
  trapseq := 0
  trapvec := 0
  outreq := 0
  phasen := 0
  rngkey := 0
  handler := false
  late := []
  reqseq := 0
  tokens := []
  wake := false
  waitAt := none
  hrec := none
  young := []
  view := ⟨[], []⟩
  posted := []
  written := []
  cmdKeys := []
  incoming := []
  farSeen := []
  farDirty := []
  redirects := []
  ns := 1
  nv := 1
  np := 1
  nt := 0

/-! ## Compute cores -/

/-- A block that an engine reads and has not yet written (R346, R385): its number in the command, its locations, whether its
page is poisoned, its data and tag once it has been read, and how far the read has come. -/
structure Inflight where
  ix : Nat
  id : Nat
  locs : List Nat
  poison : Bool
  data : Block
  tag : Tag
  /-- The data and tag have reached the engine. -/
  here : Bool
  /-- Its write has left for another home, and whether that home has performed it (R167). -/
  out : Bool
  acked : Bool
  /-- An uncorrectable error lies in it (R345, R422). -/
  bad : Bool
  deriving DecidableEq, Repr

/-- A strip in a streaming queue register, or an entry of one in normal mode (R78 to R80). -/
inductive QEntry
  | data (b : Block) (tag : Tag)
  /-- A strip whose fetch was refused or broke R65 to R67: the cause and its address (R80). -/
  | failed (cause : BitVec 8) (addr : Word)
  /-- A strip whose reply is under way. -/
  | coming (x : Inflight)
  deriving DecidableEq, Repr

/-- The descriptor of a stream and how many of its strips have been fetched (R79). -/
structure Stream where
  base : Word
  count1 : Nat
  count2 : Nat
  count3 : Nat
  stride1 : Word
  stride2 : Word
  stride3 : Word
  /-- Strips fetched or failed so far. -/
  next : Nat
  /-- A fetch waits on the teff core (R80). -/
  parked : Bool
  deriving DecidableEq, Repr

/-- A queue register (R78). -/
structure QReg where
  entries : List QEntry
  stream : Option Stream
  deriving DecidableEq, Repr, Inhabited

/-- A TLB entry (R302). -/
structure TlbEntry where
  asid : BitVec 16
  gen : BitVec 8
  /-- Page virtual address. -/
  va : Nat
  /-- Page size in bits: 16, 26 or 36 (R298). -/
  bits : Nat
  pa : Nat
  r : Bool
  w : Bool
  x : Bool
  poison : Bool
  deriving DecidableEq, Repr

/-- A barrier word (R179). -/
structure Barrier where
  phase : BitVec 16
  expect : BitVec 24
  count : BitVec 24
  deriving DecidableEq, Repr, Inhabited

/-- A blocked WAITF or BARW (R184). -/
structure Waiter where
  aid : Nat
  /-- A future word's offset for WAITF, a barrier number for BARW. -/
  at_ : Nat
  isBar : Bool
  /-- WAITF with E = 1. -/
  empty : Bool
  /-- Its request came from another core, and counts in OUTREQ until the wake (R167). -/
  counts : Bool
  deriving DecidableEq, Repr

/-- State of a tile buffer (R70). -/
inductive BufState | free | empty | full
  deriving DecidableEq, Repr, Inhabited

/-- A tile buffer (R70). -/
structure TileBuf where
  state : BufState
  share : Nat
  waiter : Bool
  deriving DecidableEq, Repr, Inhabited

/-- Kind of an accumulator slot (R157). -/
inductive AccKind | open_ | float | int
  deriving DecidableEq, Repr, Inhabited

/-- An operand slot: rows, their tags and zero-row bits (R157). -/
structure OSlot where
  rows : Vector Block 32
  tags : Vector Tag 32
  zero : BitVec 32
  deriving DecidableEq, Repr

/-- A slot no OLOAD has written since kernel start (R157, R162). -/
def OSlot.initial : OSlot := ⟨Vector.replicate 32 0, Vector.replicate 32 0x7FC0, 0xFFFFFFFF⟩

/-- An accumulator slot: 1,024 A48 elements, element (i, j) at 32i + j, its kind (R54, R157), and whether an uncorrectable error lies
in it (R422). -/
structure ASlot where
  elems : List (BitVec 48)
  kind : AccKind
  bad : Bool
  deriving DecidableEq, Repr

/-- A zero accumulator (R157). -/
def ASlot.zero : ASlot := ⟨List.replicate 1024 0, .open_, false⟩

/-- An entry of the coprocessor queue, its checks made and its reads done (R158). -/
inductive CoOp
  | azero (n : Nat)
  | oload (o : Nat) (slot : OSlot)
  /-- Tag overrides of MMAL for A and B, or none (R228). -/
  | mma (n oa ob : Nat) (z sat : Bool) (ova ovb : Option Tag)
  | awr (n : Nat) (elems : List (BitVec 48))
  /-- Destination code, mode saturates, rounding code, DTAG, the locations of the bytes of every block of every row, and the
  instruction number of its pending writes. -/
  | ard (n : Nat) (t : ArdTy) (sat z : Bool) (rm : BitVec 3) (dtag : Tag) (locs : List Nat) (ins : Nat)
  | orel (acc : Bool) (mask : Word)
  deriving DecidableEq, Repr

/-- A queued entry and its agent (R158). -/
structure CoEntry where
  aid : Nat
  op : CoOp
  deriving DecidableEq, Repr

/-- State of a place of the keyed queue (R260). FREE places are not listed. -/
inductive KState | waiting | leased | staged | transit
  deriving DecidableEq, Repr, Inhabited

/-- An occupied place of a keyed queue: KEY, CONTROL and payload (R260). BEHIND follows from the order of the list, which
is the order of age (R261). -/
structure KEntry where
  /-- Place number: 0 to 511 are entries, 512 to 4,607 spill slots. -/
  place : Nat
  /-- It takes one of the 36 places held back for reservations (R268). -/
  held : Bool
  key : Word
  payload : Block
  tag : Tag
  /-- Overflow blocks held, first first (OVFLINK and OVFN). -/
  ovf : List Nat
  rule : Nat
  op : Nat
  missing : Bool
  topx : Bool
  overflow : Bool
  xmis : Bool
  rwr : Bool
  builtin : Bool
  /-- Lease holder or staging agent: its model name; none stands for the rewrite sequencer or the loader. -/
  holder : Option Nat
  state : KState
  /-- The two nodes of an active-pair record (R22). -/
  nodes : Option (Word × Word)
  /-- The core a TRANSIT record is for, and whether its handler has retired (R268). -/
  target : CoreId
  retired : Bool
  /-- It has waited in TRANSIT (R263). -/
  waited : Bool
  /-- Queue target word and request number, for a refusal (R199). -/
  word : Word
  seq : BitVec 24
  /-- The package that a TRANSIT record is for, if it is another one, and whether it is being offered there; the identity of a
  push from or to another package (R268, R270). -/
  far : Option (BitVec 8)
  asking : Bool
  origin : Option FarId
  deriving DecidableEq, Repr

/-- The kernel descriptor in force on a core, and its rule table (R26, R273). -/
structure KDesc where
  entry : Word
  ns : Nat
  nv : Nat
  np : Nat
  nt : Nat
  tiles : Nat
  barriers : Nat
  spad : Nat
  futures : Nat
  arena : Nat
  level : Nat
  agents : Nat
  ext : Nat
  nodes : Nat
  nodeimg : List Block
  sliceimg : Word
  shadows : List (Word × Nat × Nat)
  hrecs : Nat
  harena : Word
  /-- Word 0 and word 1 of every rule. -/
  rules : List (Word × Word)
  deriving DecidableEq, Repr, Inhabited

/-- The most permissive declarations without queue, barriers or storage: what an idle core shows. -/
def KDesc.none : KDesc where
  entry := 0
  ns := 1
  nv := 1
  np := 1
  nt := 0
  tiles := 0
  barriers := 0
  spad := 0
  futures := 0
  arena := 0
  level := 0
  agents := 1
  ext := 0
  nodes := 0
  nodeimg := []
  sliceimg := 0
  shadows := []
  hrecs := 0
  harena := 0
  rules := []


/-- Progress of the engine command in hand on a chain (R344). -/
structure EngCmd where
  seq : Nat
  cmd : Block
  topx : Bool
  /-- Blocks begun. -/
  next : Nat
  /-- Blocks written. -/
  done : Nat
  inflight : List Inflight
  /-- A post sent and not yet answered (R294). -/
  posting : Bool
  /-- Posts answered. -/
  posted : Nat
  /-- A source or destination waits on the teff core. -/
  parked : Bool
  /-- The tile buffer being filled (R320). -/
  fill : Option (CoreId × Nat)
  /-- The failure with which the command ends once the blocks in flight are written. -/
  fail : Option Nat
  /-- Keys of the bytes and tags written so far. -/
  keys : List Nat
  deriving DecidableEq, Repr

/-- The state of a chain that its header's home keeps (R342, R343). -/
structure Chain where
  /-- Slice offset of the header's block. -/
  hdr : Nat
  kind : Nat
  ringlog : Nat
  stack : Nat
  /-- Slice offset of the ring. -/
  ring : Nat
  /-- The header and the ring were named through the skewed view (R69). -/
  skew : Bool
  ringSkew : Bool
  tail : Nat
  comp : Nat
  cmd : Option EngCmd
  /-- The agents whose tokens wait: sequence number, agent, token key. -/
  toks : List (Nat × Nat × Nat)
  deriving DecidableEq, Repr

/-- A CPY handed to the copy unit (R229). -/
structure CpyCmd where
  aid : Nat
  key : Nat
  seq : Nat
  dst : Word
  src : Word
  /-- Blocks to copy, and blocks written. -/
  blocks : Nat
  done : Nat
  inflight : List Inflight
  parked : Bool
  fill : Option (CoreId × Nat)
  keys : List Nat
  deriving DecidableEq, Repr

/-- A GATHER or SCATTER instruction in the network interface (R205). -/
structure GatherOp where
  aid : Nat
  key : Nat
  scatter : Bool
  base : Word
  /-- The lanes that hold an address: number and address. -/
  lanes : List (Nat × Word)
  /-- How many of them have been written. -/
  next : Nat
  inflight : List Inflight
  keys : List Nat
  deriving DecidableEq, Repr

/-- A forwarding entry: the agent number that left and the core it went to (R250). -/
structure Fwd where
  num : BitVec 3
  aid : Nat
  target : CoreId
  deriving DecidableEq, Repr

/-- A LINK or WIRE that waits at the link unit of its wire's home (R195, R309). -/
structure LinkReq where
  aid : Nat
  /-- The model's number of the agent's request, and its request sequence number. -/
  key : Nat
  seq : BitVec 24
  sn : Word
  sa : Word
  deriving DecidableEq, Repr

/-- The record that the rewrite sequencer works on (R29). -/
structure SeqRec where
  place : Nat
  n1 : Word
  n2 : Word
  /-- Places still reserved for its pushes. -/
  reserved : Nat
  /-- The rewrite is made, and its pushes are on their way. -/
  ending : Bool
  deriving DecidableEq, Repr

/-- One compute core (R10). -/
structure Core where
  id : CoreId
  /-- The physical core that it is, from the core map (R252). -/
  phys : CoreId
  /-- The context it hosts, and the instance (R51, R283). -/
  ctx : Option Nat
  inst : BitVec 32
  topx : Bool
  kd : KDesc
  kparam : Vector Word 16
  q : Vector QReg 8
  tlb : List TlbEntry
  /-- Barrier words by number; an unlisted barrier is zero (R179). -/
  bars : List (Nat × Barrier)
  waiters : List Waiter
  refused : List Waiter
  /-- Slice offsets of the future words whose bit is full (R71). -/
  full : List Nat
  /-- Tile buffers by number; an unlisted one is FREE with count 0 (R70). -/
  bufs : List (Nat × TileBuf)
  /-- Node arena records allocated, and those release-pending (R192, R194). -/
  arena : List Nat
  relpend : List Nat
  kq : List KEntry
  /-- Free blocks of the overflow pool are those not listed here (R260). -/
  pool : List Nat
  folds : Word
  dispatches : Word
  ovdispatches : Word
  sumovf : Bool
  refusals : Word
  seq : Option SeqRec
  /-- The rewrite sequencer keeps a lease for ever after a DUP and TIL share overflow (R24). -/
  seqstuck : Bool
  /-- The rewrite sequencer waits on its teff core for the page of a node (R193, R303). -/
  seqpark : Bool
  linkq : List LinkReq
  oslots : Vector OSlot 64
  aslots : Vector ASlot 16
  oclaim : Vector (Option (BitVec 3)) 64
  aclaim : Vector (Option (BitVec 3)) 16
  coq : List CoEntry
  cpys : List CpyCmd
  cpyCount : BitVec 48
  gathers : List GatherOp
  chains : List Chain
  /-- What the copy unit and the gather engine served last: 0 for CPY, one more than its header's offset for a chain
  (R344). -/
  lastCopy : Nat
  lastGather : Nat
  fwd : List Fwd
  stopped : Bool
  stopcnt : Word
  sentcnt : Word
  rcvdcnt : Word
  /-- Event counters (R423). -/
  events : Vector Word 5
  /-- Engine counters (R349). -/
  engines : Vector Word 8
  /-- It lies in the save area of its switched-out context, and is no physical core (R256). -/
  out : Bool
  /-- It has been prepared for its instance (R276); while it is, the blocks of its slice image that have been asked for. -/
  prepared : Bool
  image : Option (List Inflight)
  deriving DecidableEq, Repr

/-- A core that no instance uses. -/
def Core.fresh (id : CoreId) : Core where
  id := id
  phys := BitVec.ofNat 17 (id.toNat % 1024)
  ctx := none
  inst := 0
  topx := false
  kd := KDesc.none
  kparam := Vector.replicate 16 0
  q := Vector.replicate 8 ⟨[], none⟩
  tlb := []
  bars := []
  waiters := []
  refused := []
  full := []
  bufs := []
  arena := []
  relpend := []
  kq := []
  pool := []
  folds := 0
  dispatches := 0
  ovdispatches := 0
  sumovf := false
  refusals := 0
  seq := none
  seqstuck := false
  seqpark := false
  linkq := []
  oslots := Vector.replicate 64 OSlot.initial
  aslots := Vector.replicate 16 ASlot.zero
  oclaim := Vector.replicate 64 none
  aclaim := Vector.replicate 16 none
  coq := []
  cpys := []
  cpyCount := 0
  gathers := []
  chains := []
  lastCopy := 0
  lastGather := 0
  fwd := []
  stopped := false
  stopcnt := 0
  sentcnt := 0
  rcvdcnt := 0
  events := Vector.replicate 5 0
  engines := Vector.replicate 8 0
  out := false
  prepared := false
  image := none


/-! ## Contexts, instances and the distributor -/

/-- State of a context (R243). -/
inductive CtxState | free | parked | running | stopped | out
  deriving DecidableEq, Repr, Inhabited

/-- A kick captured in the pending latch (R246). -/
structure Kick where
  seq : BitVec 16
  mask : BitVec 16
  patch : Vector Word 16
  deriving DecidableEq, Repr

/-- A step of an installed launch plan (R277). -/
structure Step where
  kd : KDesc
  groups : Nat
  device : Bool
  preds : List Nat
  deriving DecidableEq, Repr

/-- The HBM node arena of a kernel (R193): its address, and its records that are allocated and release-pending. -/
structure HArena where
  base : Word
  used : List Nat
  pend : List Nat
  deriving DecidableEq, Repr

/-- One context (R243, R244). -/
structure Ctx where
  num : Nat
  /-- The model's own name of it, which no other context of its number has had. -/
  era : Nat
  state : CtxState
  /-- The state before the stop was RUNNING (R243). -/
  wasRunning : Bool
  asid : BitVec 16
  root : Word
  topx : Bool
  prio : BitVec 3
  /-- The clusters of its reservation, by package-wide number (R244, R287). -/
  reserve : List Nat
  save : Word
  saveLen : Word
  plan : List Step
  planSlots : Vector Word 16
  kparam : Vector Word 16
  /-- A first replay has started, so KPARAM no longer comes from the plan (R246). -/
  replayed : Bool
  latch : List Kick
  overrun : Bool
  lastseq : BitVec 16
  done : BitVec 32
  /-- PROGRESS bits 47 to 0 as saved at switch-out (R247). -/
  savedProg : Word
  /-- SEQ of the replay in progress. -/
  curseq : BitVec 16
  /-- Replays started so far. -/
  replays : Nat
  /-- Keys of what the instances of the replay have written, for the publication at its end (R379). -/
  wrote : List Nat
  /-- Instances created so far (R278). -/
  created : BitVec 32
  /-- The distributor waits for consistency to switch it out (R256, R257). -/
  switching : Bool
  /-- Gang stops so far, and the message counts of cores that it no longer holds (R253, R254). -/
  stops : Word
  sentGone : Word
  rcvdGone : Word
  /-- The measurement of the installed plan and its kernels; 0 with none (R421). -/
  measure : BitVec 384
  /-- The HBM node arenas of its kernels (R193). -/
  harenas : List HArena
  deriving DecidableEq, Repr

/-- State of an instance (R279). -/
inductive InstState | pending | ready | early | running | done | faulted
  deriving DecidableEq, Repr, Inhabited

/-- A shadow pair: its label address, bytes, scope, selector and publication count (R206, R389). -/
structure Shadow where
  va : Word
  bytes : Nat
  scope : Nat
  /-- The core its scope is taken around (R389). -/
  home : CoreId
  flipped : Bool
  count : Word
  deriving DecidableEq, Repr

/-- One instance of a step (R278, R279). -/
structure Inst where
  ctx : Nat
  num : BitVec 32
  step : Nat
  state : InstState
  /-- It was placed early (R279). -/
  early : Bool
  /-- Order of entry into the ready pool, and whether its 1 ms wait has expired (R287). -/
  age : Nat
  overdue : Bool
  kparam : Vector Word 16
  /-- Created by LAUNCH, and so without predecessors (R278). -/
  launched : Bool
  /-- The replay it belongs to. -/
  replay : Nat
  cores : List CoreId
  shadows : List Shadow
  /-- Totals of the last wave that found every core idle (R34). -/
  wave : Option (Word × Word)
  terminated : Bool
  /-- Its cores are prepared and its agents have started (R276). -/
  started : Bool
  /-- Memory as it stood at the acceptance of the LAUNCH that created it, and what has been published since: the key, and the
  publisher's scope and place, or none for a publication to everyone (R379, R382). -/
  base : Option Mem
  news : List (Nat × Option (Scope × CoreId))
  deriving DecidableEq, Repr

/-- An agent blocked in LAUNCH until the distributor accepts (R214). -/
structure LaunchReq where
  aid : Nat
  /-- The model's number of the agent's request, and its request sequence number. -/
  key : Nat
  seq : BitVec 24
  ctx : Nat
  step : Nat
  kparam : Vector Word 16
  deriving DecidableEq, Repr

/-- A live migration under way (R249). -/
structure Move where
  aid : Nat
  /-- The core and number of the reserved target agent. -/
  target : CoreId
  num : BitVec 3
  captured : Bool
  /-- The register of MIGRATE's result; none for a migration to an extension or one that the distributor decides. -/
  ret : Option Reg
  deriving DecidableEq, Repr

/-! ## Translation -/

/-- Kind of a fault record (R304). -/
inductive FKind | read | write | readWrite | fetch | engRead | engWrite
  deriving DecidableEq, Repr, Inhabited

/-- Who waits on a translation. -/
inductive Parked
  | agent (aid : Nat)
  | strip (core : CoreId) (q : Nat)
  | cpy (core : CoreId) (key : Nat)
  | chain (core : CoreId) (hdr : Nat)
  | gather (core : CoreId) (key : Nat)
  | prepare (core : CoreId)
  | sequencer (core : CoreId)
  deriving DecidableEq, Repr

/-- An access parked at a teff core (R303). -/
structure Access where
  who : Parked
  asid : BitVec 16
  root : Word
  va : Word
  /-- The address that a REFUSED answer reports (R226, R236). -/
  report : Word
  kind : FKind
  place : Word
  seq : BitVec 24
  /-- Where it stands at its teff core: 1 a walk is under way, 2 on a record, 3 parked without record. -/
  stage : Nat
  record : Option Nat
  deriving DecidableEq, Repr

/-- A fault buffer record (R304). -/
structure FRecord where
  idx : Nat
  va : Word
  asid : BitVec 16
  kind : FKind
  waiters : Nat
  place : Word
  seq : BitVec 24
  deriving DecidableEq, Repr

/-- An answer of a teff core on its way to a parked access (R303). -/
structure Answer where
  who : Parked
  va : Word
  report : Word
  kind : FKind
  seq : BitVec 24
  mapped : Bool
  deriving DecidableEq, Repr

/-- A teff core: one per cluster (R298 to R305). -/
structure Teff where
  parked : List Access
  records : List FRecord
  gen : BitVec 8
  full : Bool
  deriving DecidableEq, Repr, Inhabited

/-! ## The recurrent state store -/

/-- A snapshot of a sequence: position, granules and pin (R211, R330). -/
structure Snap where
  pos : Word
  head : List Nat
  pinned : Bool
  deriving DecidableEq, Repr

/-- A sequence slot (R207, R208, R329). A head maps each 4 KiB of state to a granule number. -/
structure SeqSlot where
  /-- CLOSED slots keep only their generation. -/
  isOpen : Bool
  active : Bool
  gen : BitVec 12
  ctx : Nat
  size : Nat
  head : List Nat
  ring : List Snap
  latest : Word
  deriving DecidableEq, Repr, Inhabited

/-- A granule: 64 blocks with their tags, sparse (R328). -/
structure Granule where
  num : Nat
  blocks : List (Nat × (Block × Tag))
  deriving DecidableEq, Repr

/-- The state store of a stack (R327): slots by number, granules in use, and the chain that its engine served last, by its
header's location (R344). -/
structure StateStore where
  slots : List (Nat × SeqSlot)
  granules : List Granule
  last : Nat
  deriving DecidableEq, Repr, Inhabited


/-! ## Messages and fabrics -/

/-- A record on its way to a keyed queue (R199, R270). -/
structure PushRec where
  key : Word
  payload : Block
  tag : Tag
  rule : Nat
  op : Nat
  topx : Bool
  /-- The two nodes of an active pair (R22), with the lookup of R25. -/
  nodes : Option (Word × Word)
  missing : Bool
  builtin : Bool
  /-- The pushing agent, or none for the sequencer and the loader. -/
  pusher : Option Nat
  /-- The push was made inside a handler, or by the sequencer's rewrite (R199, R268). -/
  staged : Bool
  /-- The queue target word, for a refusal (R236). -/
  target : Word
  seq : BitVec 24
  /-- The agent of another package that made it (R270). -/
  origin : Option FarId
  /-- It has waited in TRANSIT (R263). -/
  waited : Bool
  deriving DecidableEq, Repr

/-- A push to another package that has not been answered (R270): its target, and its pusher's model name. -/
structure FarPush where
  pkg : BitVec 8
  dst : CoreId
  aid : Nat
  place : CoreId
  num : BitVec 3
  rcd : PushRec
  deriving DecidableEq, Repr

/-- An answer to a push from another package, or word of a retirement there (R268, R270). -/
inductive FarCode | admitted | compatible | refused | retired
  deriving DecidableEq, Repr

/-- A request of one package for the memory of another, at a physical address there (R376, R381): a write of the bytes of a block that a
mask names, with a tag if it writes one, poisoned where a parity error has struck it, by a writer whose publication they await or are; a
read of a block; an immediate operation of a writer; and a writer's publication. -/
inductive FarReq
  | write (l : Nat) (mask : Word) (data : Block) (tag : Option Tag) (bad : Bool) (who : BitVec 32) (published : Bool)
  | read (l : Nat)
  | amo (op : AmoOp) (w u : Bool) (l : Nat) (b : Word) (who : BitVec 32)
  | cas (w u : Bool) (l : Nat) (old new : Word) (who : BitVec 32)
  | publish (who : BitVec 32)
  deriving DecidableEq, Repr

/-- The answer to such a request. -/
inductive FarAns
  | ack
  | data (b : Block) (t : Tag)
  | value (old : Word) (psn : Bool)
  deriving DecidableEq, Repr

/-- What another package's writer has written here and not published: the package, the writer, and the keys. -/
structure FarWrote where
  pkg : Nat
  who : BitVec 32
  keys : List Nat
  deriving DecidableEq, Repr

/-- Who waits for the answer to a request packet. -/
inductive Asker
  /-- No one: the packets only travel. -/
  | nobody
  /-- An agent blocked on the reads of this number. -/
  | agent (aid key : Nat)
  /-- An agent that waits for the restore of a tile, by the number of its reads. -/
  | tile (aid key : Nat)
  /-- A block of an engine of a core, by the number of its read. -/
  | engine (core : CoreId) (id : Nat)
  deriving DecidableEq, Repr

/-- What a message carries. -/
inductive Body
  | push (r : PushRec)
  /-- A push that leaves the package for a core of another one (R270). -/
  | farPush (pkg : BitVec 8) (dst : CoreId) (src : FarId) (r : PushRec)
  /-- An answer that leaves the package, and one that has come in, with a refused push's target word (R270). -/
  | farAnswer (dest : FarId) (code : FarCode) (word : Word)
  | farReply (dest : FarId) (src : BitVec 8) (code : FarCode) (word : Word)
  /-- A FREE of a node (R194). -/
  | free (node : Word) (aid : Nat) (seq : BitVec 24)
  /-- An acknowledgement to an agent (R167). -/
  | reply (aid : Nat)
  /-- A refusing answer to an agent (R238). -/
  | refusal (aid : Nat) (t : LateTrap)
  /-- A WAKE that a forwarding entry sends on to the agent it names (R218, R250). -/
  | wake (aid : Nat)
  /-- The wake of a wait-table entry (R184, R186). -/
  | waiter (aid : Nat) (value : Word)
  /-- A captured agent on its way to the core that takes it (R249). -/
  | stream (aid : Nat)
  /-- A post of an engine command: barrier number, count, and the chain that waits; and its answer, for the chain of a core
  (R294). -/
  | post (num : BitVec 8) (n : BitVec 40) (hdr : Nat)
  | posted (core : CoreId) (hdr : Nat) (ok : Bool)
  /-- A token for an agent: its key, its word, and the keys that its command has written (R202). -/
  | token (aid key : Nat) (w : Word) (keys : List Nat)
  /-- An ordinary write of an agent, by its number (R367). -/
  | write (aid id : Nat)
  /-- An agent's operation and its answer, by the number of the request (R167, R190). -/
  | op (aid key : Nat) (o : HomeOp)
  | result (aid key : Nat) (counts : Bool) (ans : OpAnswer)
  /-- A write of an engine of a core, by the number of its block: the chain and command that publish it, its bytes and its tags
  (R386). -/
  | store (core : CoreId) (id chain seq : Nat) (bytes : List (Nat × Byte)) (tags : List (Nat × Tag))
  /-- HINTSUCC's hint (R215): the instance that gives it, and the step. -/
  | hint (inst : BitVec 32) (step : Nat)
  /-- A tiller die's report to the master distributor: its free cores, and the free agents of cores of agent-level instances (R286). -/
  | report (die : Nat) (free : List CoreId) (agents : List (Nat × Nat))
  /-- A fault message to the teff core of a cluster, and its MAPPED answer (R303). -/
  | fault (a : Access)
  | mapped (a : Answer)
  /-- A write of the host by a service core; a read, whose bytes stand from `off` on in what the host reads; and the bytes read
  (R404). -/
  | hostWrite (l : Nat) (bytes : List Byte)
  | hostRead (l n off : Nat)
  | hostData (off : Nat) (bytes : List Byte)
  /-- A host command at the party that performs it, and its answer: OPCODE, the command block, STATUS, the location of the buffer that
  the answer fills or none for what the mailbox returns, and the bytes (R404, R420). -/
  | command (op : Nat) (blk : Block)
  | commanded (op : Nat) (blk : Block) (status : Nat) (buf : Option Nat) (data : List Byte)
  /-- A read of a block of another package's memory, and the block; word that an agent publishes to that package (R376). -/
  | readFar (who : Asker) (l : Nat)
  | farData (who : Asker) (l : Nat) (b : Block) (t : Tag)
  | tellFar (aid : Nat)
  /-- A request of another package, by the number that it gave it, and the answer on its way out (R376). -/
  | farReq (pkg id : Nat) (r : FarReq)
  | farAns (pkg id : Nat) (a : FarAns)
  /-- A request, and its answer, each with a block of data or without (R394). -/
  | request (who : Asker) (up down : Bool)
  | answer (who : Asker) (block : Bool)
  deriving DecidableEq, Repr

/-- Where the packet of a message is (R9, R12, R399, R400). -/
inductive Site
  /-- At the interface of its sender. -/
  | start
  /-- Its flits are on a ring; or it waits at stop 4 of a cluster, by its package-wide number, for that ring. -/
  | ring
  | toRing (cl : Nat)
  /-- Its flits are in a mesh; or it waits at a router of a die. -/
  | mesh
  | toMesh (die router : Nat)
  /-- It waits in a channel of the culm die's crossbar. -/
  | xbar
  /-- Its flits are on a die-to-die link; or it waits for that of a die, towards the culm die or away from it. -/
  | link
  | toLink (die : Nat) (up : Bool)
  /-- At the interface of its destination. -/
  | there
  deriving DecidableEq, Repr

/-- A message in flight, numbered by its sender for its destination (R395). -/
structure Msg where
  id : Nat
  src : CoreId
  dst : CoreId
  num : Nat
  /-- The parties that count it (R253): the sender and receiver, but for a state store engine the core that it serves. -/
  sndr : CoreId
  rcvr : CoreId
  ctx : Nat
  /-- The context that sent it, by the model's own name. -/
  era : Nat
  /-- Request sequence number and sender's TOPX, of the header flit (R394). -/
  seq : BitVec 24
  topx : Bool
  /-- A parity error has struck one of its flits (R399, R422). -/
  bad : Bool
  /-- It has reached the destination's interface and may be performed in its turn. -/
  arrived : Bool
  /-- When it arrived, at the crossbar and then at its destination. -/
  order : Nat
  /-- A push that its queue has received and has no room for yet: its pusher waits (R268). -/
  waiting : Bool
  site : Site
  body : Body
  deriving DecidableEq, Repr

/-- A flit (R394): its packet, which is a message, its place in it, whether it is the last, its destination stop, its
channel (0 VC0, 1 VC1, 2 ESC) and whether it holds a shared slot; and, on a ring, the fabric clocks since it was sent. -/
structure Flit where
  pkt : Nat
  idx : Nat
  last : Bool
  dst : Nat
  chan : Nat
  shared : Bool
  age : Nat
  deriving DecidableEq, Repr

/-- Free counts of a stop's input buffer (R397). -/
structure FreeCounts where
  shared : Nat
  vc0 : Nat
  vc1 : Nat
  esc : Nat
  deriving DecidableEq, Repr, Inhabited

/-- The input of a stop from one direction, and the output link that continues it (R397, R398, R405). -/
structure RingIn where
  buf : List Flit
  /-- The last counts its upstream neighbour has received, less the slots of the flits sent since. -/
  seen : FreeCounts
  /-- Flits still to follow of packets that this stop injects on the output link. -/
  inj : List Flit
  /-- Channel of each packet that has started on the output link. -/
  chans : List (Nat × Nat)
  /-- The last packet to start was an injected one, and the source whose injection turn it is. -/
  lastInjected : Bool
  rot : Nat
  /-- FLITS0, FLITS1, FLITSE, DATELINE, ESCAPE, STALL. -/
  counts : Vector Word 6
  deriving DecidableEq, Repr

/-- An empty input with every slot free. -/
def RingIn.empty : RingIn where
  buf := []
  seen := ⟨16, 2, 2, 2⟩
  inj := []
  chans := []
  lastInjected := false
  rot := 0
  counts := Vector.replicate 6 0

/-- A ring stop (R9): its input from each direction. -/
structure RingStop where
  cw : RingIn
  acw : RingIn
  deriving DecidableEq, Repr

/-- A mesh router of a tiller die: flits by channel, each with the router it goes to (R399). -/
structure Router where
  req : List (Nat × Flit)
  rep : List (Nat × Flit)
  deriving DecidableEq, Repr, Inhabited

/-- One direction of a die-to-die link (R400): the sender's replay buffer and what lies on the wire. -/
structure D2dLink where
  replay : List Flit
  /-- Each flit with its CRC-16. -/
  wire : List (Flit × BitVec 16)
  /-- The receiver has asked for a resend and discards until it starts. -/
  discarding : Bool
  deriving DecidableEq, Repr, Inhabited

/-- What an end of a link sends at training: its version, its partition and its package position (R403). -/
structure Hello where
  major : BitVec 8
  minor : BitVec 8
  partition : Word
  position : BitVec 8
  deriving DecidableEq, Repr

/-- A Svailaet port (R401 to R403). A flit stands with the number of its packet's context. -/
structure Port where
  up : Bool
  retraining : Bool
  /-- What this end sent at the last training, and what the peer sent. -/
  sentHello : Option Hello
  peerHello : Option Hello
  /-- System software has been told that the port is down (R402). -/
  reported : Bool
  gseq : BitVec 12
  ackseq : BitVec 12
  /-- Groups sent and not acknowledged, first first (at most 128). -/
  replay : List (BitVec 12 × List (Nat × BitVec 256))
  /-- How many of the replay buffer's groups are to be sent again. -/
  resend : Nat
  /-- Flits waiting to be sent. -/
  tosend : List (Nat × BitVec 256)
  received : List (BitVec 256)
  discarding : Bool
  /-- Failed receptions of the group expected, and failed retrainings in a row. -/
  failures : Nat
  failedTrains : Nat
  /-- The group last sent: its trailer and its flits. -/
  line : Option (Word × List (BitVec 256))
  deriving DecidableEq, Repr

/-- An idle port before training. -/
def Port.idle : Port where
  up := false
  retraining := false
  sentHello := none
  peerHello := none
  reported := false
  gseq := 0
  ackseq := 0xFFF
  replay := []
  resend := 0
  tosend := []
  received := []
  discarding := false
  failures := 0
  failedTrains := 0
  line := none

/-- A stop with empty buffers. -/
def RingStop.empty : RingStop := ⟨RingIn.empty, RingIn.empty⟩

/-- The fabrics of the package (R394). -/
structure Fabric where
  /-- 24 rings of 8 stops. -/
  rings : Vector (Vector RingStop 8) 24
  meshes : Vector (Vector Router 6) 4
  /-- Towards the culm die and away from it, by tiller die. -/
  d2dUp : Vector D2dLink 4
  d2dDown : Vector D2dLink 4
  ports : Vector Port 8
  deriving DecidableEq, Repr

/-! ## Bring-up, configuration, power -/

/-- The partition configuration (R419). -/
structure PartCfg where
  identity : Word
  position : BitVec 8
  routing : Vector (BitVec 8) 256
  store : Vector Nat 12
  spare : BitVec 384
  powerLimit : Nat
  deriving DecidableEq, Repr

/-- A blob in the configuration flash: its KIND and its bytes (R418). -/
structure Blob where
  kind : Nat
  bytes : List Byte
  deriving DecidableEq, Repr

/-- The security core (R417 to R419, R421). -/
structure Boot where
  /-- Steps completed: 7 once step 6 has completed. -/
  reached : Nat
  failed : Option Nat
  flash : List Blob
  /-- SEQ recorded in flash for KIND 1, 2, 3. -/
  recorded : Vector Word 3
  /-- SEQ and digest of the blobs applied. -/
  seqs : Vector Word 3
  digests : Vector (BitVec 384) 3
  keySram : BitVec 65536
  derivation : BitVec 65536
  identityKey : BitVec 384
  ownerKey : BitVec 768
  deriving DecidableEq, Repr

/-- Power and temperature (R424). -/
structure Power where
  window : Nat
  withheld : Word
  temps : Vector (BitVec 16) 17
  deriving DecidableEq, Repr

/-- An error that the check of a core's SRAM or of a register file finds (R422). Which core and which agent it strikes comes
from outside the model. -/
inductive SoftError
  /-- SRAM of a physical core, at an offset of its slice: corrected, or not. -/
  | sram (core : CoreId) (off : BitVec 20) (uncorrectable : Bool)
  /-- Parity of the reorder buffer of a core's gather engine, for the oldest block of a chain (R347). -/
  | reorder (core : CoreId) (hdr : Nat)
  /-- Parity of the register file, found at an issue of the agent of this model name. -/
  | registerFile (aid : Nat)
  /-- Operand memory of a core, at a row of a slot: corrected, or not. -/
  | operand (core : CoreId) (slot row : Nat) (uncorrectable : Bool)
  /-- Accumulator memory of a core, at a slot: corrected, or not. -/
  | accumulator (core : CoreId) (slot : Nat) (uncorrectable : Bool)
  deriving DecidableEq, Repr

/-- The state of the package. -/
structure State where
  /-- The agent whose instruction is performed, and its core. -/
  ag : Agent
  core : Core
  /-- The other agents that are not free, and the other cores that an instance has used. -/
  agents : List Agent
  cores : List Core
  mem : Mem
  /-- CYCLE as it was last observed (R81). -/
  cycle : Word
  /-- The model's own step counter: ages, issue order and free values are taken from it. -/
  draws : Nat
  /-- The model's own list of host commands and device events that wait to be performed. -/
  inputs : List Instr
  /-- The model's own list of errors in SRAM and register files that come from outside. -/
  softErrors : List SoftError
  /-- Blocks whose tag an uncorrectable error has poisoned (R345, R422). -/
  struck : List Nat
  ctxs : List Ctx
  /-- PATCHV0 to PATCHV15 of each launch port (R245). -/
  patchv : Vector (Vector Word 16) 64
  insts : List Inst
  launches : List LaunchReq
  moves : List Move
  /-- Reports to the master distributor of a double trap or another cause of FAULTED (R279). -/
  faultReports : List (Nat × BitVec 32)
  /-- The last free-core report of each die: cores that host no instance (R286). -/
  reports : List CoreId
  /-- The last reports of free agents of cores of agent-level instances, by core (R286). -/
  freeAgents : List (Nat × Nat)
  teffs : Vector Teff 24
  /-- Tiller dies that are evacuated and stopped (R13). -/
  evacuated : List Nat
  /-- ASID generations; an unlisted ASID has generation 0 (R307). -/
  asidGen : List (Nat × BitVec 8)
  stores : Vector StateStore 12
  net : List Msg
  msgs : Nat
  farOut : List FarPush
  /-- Requests for the memory of other packages that have left and are not answered; and what other packages have written here
  and not published (R376). -/
  farWait : List Msg
  farWrote : List FarWrote
  cfg : PartCfg
  boot : Boot
  /-- The command block as the device has left it, and the last data it returned (R420). -/
  mailbox : Block
  hostOut : List Byte
  /-- The context whose SWITCH_OUT command waits for consistency, and that whose SWITCH_IN waits for its reservation (R256, R257). -/
  pendingOut : Option Nat
  pendingIn : Option Nat
  fabric : Fabric
  power : Power
  /-- Corrected and uncorrectable HBM counts of each stack (R423). -/
  hbmErr : Vector (Word × Word) 12
  deriving DecidableEq, Repr

/-- The package right after reset, before the security core has run (R417); registers by the assumption log. -/
def State.reset : State where
  ag := Agent.fresh 0 0
  core := Core.fresh 0
  agents := []
  cores := []
  mem := ⟨[], []⟩
  cycle := 0
  draws := 0
  inputs := []
  softErrors := []
  struck := []
  ctxs := []
  patchv := Vector.replicate 64 (Vector.replicate 16 0)
  insts := []
  launches := []
  moves := []
  faultReports := []
  reports := []
  freeAgents := []
  teffs := Vector.replicate 24 ⟨[], [], 0, false⟩
  evacuated := []
  asidGen := []
  stores := Vector.replicate 12 ⟨[], [], 0⟩
  net := []
  msgs := 0
  farOut := []
  farWait := []
  farWrote := []
  cfg := ⟨0, 0, Vector.replicate 256 0xFF, Vector.replicate 12 0, 0, 600⟩
  boot := ⟨0, none, [], Vector.replicate 3 0, Vector.replicate 3 0, Vector.replicate 3 0, 0, 0, 0, 0⟩
  mailbox := 0
  hostOut := []
  pendingOut := none
  pendingIn := none
  fabric := ⟨Vector.replicate 24 (Vector.replicate 8 RingStop.empty), Vector.replicate 4 (Vector.replicate 6 ⟨[], []⟩),
    Vector.replicate 4 ⟨[], [], false⟩, Vector.replicate 4 ⟨[], [], false⟩, Vector.replicate 8 Port.idle⟩
  power := ⟨0, 0, Vector.replicate 17 0⟩
  hbmErr := Vector.replicate 12 (0, 0)

end Sys2Proof.Machine
end

