-- ==== Sys2Proof/Machine/Crypto.lean ====
section
/-! DEFINITION. SHA-384 and ECDSA on brainpoolP384r1, which R1 and R418 name: FIPS 180-4, FIPS 186-4 and RFC 5639 give the
algorithms and their constants (PRESUMED, log 10). Octet strings are big-endian (R2). -/

namespace Sys2Proof.Machine

/-! ## Octet strings (R2) -/

/-- A big-endian octet string as a number. -/
def octetsNat (bs : List Byte) : Nat := bs.foldl (fun n b => 256 * n + b.toNat) 0

/-- A number as a big-endian octet string of n bytes. -/
def octets (n x : Nat) : List Byte := (List.range n).map fun i => BitVec.ofNat 8 (x / 256 ^ (n - 1 - i))

/-! ## SHA-384 -/

/-- The greatest r with r ^ n at most x, of the low k bits above what is known: bit by bit from the top. -/
def rootBits (n x : Nat) : Nat → Nat → Nat
  | 0, r => r
  | k + 1, r => rootBits n x k (if (r + 2 ^ k) ^ n ≤ x then r + 2 ^ k else r)

/-- The first 64 bits of the fraction of the n-th root of p. -/
def rootFraction (n p : Nat) : BitVec 64 := BitVec.ofNat 64 (rootBits n (p * 2 ^ (64 * n)) 70 0)

/-- The primes below 410, in order: the first 80. -/
def shaPrimes : List Nat := (List.range 410).filter fun p => 2 ≤ p && (List.range 21).all fun d => d < 2 || p ≤ d || p % d != 0

/-- The round constants: the fractions of the cube roots of the first 80 primes. -/
def shaRounds : List (BitVec 64) := shaPrimes.map (rootFraction 3)

/-- The initial hash value: the fractions of the square roots of the ninth to sixteenth prime. -/
def shaStart : List (BitVec 64) := ((shaPrimes.drop 8).take 8).map (rootFraction 2)

/-- Append the padding: a one bit, zeros, and the length in bits, to a multiple of 128 bytes. -/
def shaPad (bs : List Byte) : List Byte :=
  bs ++ 0x80 :: List.replicate ((239 - bs.length % 128) % 128) 0 ++ octets 16 (8 * bs.length)

/-- Word i of a 128-byte block. -/
def shaWord (blk : List Byte) (i : Nat) : BitVec 64 := BitVec.ofNat 64 (octetsNat ((blk.drop (8 * i)).take 8))

/-- The next word of the message schedule, from the last 16, the newest first. -/
def shaNext (w : List (BitVec 64)) : BitVec 64 :=
  let x := w.getD 14 0
  let y := w.getD 1 0
  (x.rotateRight 1 ^^^ x.rotateRight 8 ^^^ x >>> 7) + w.getD 6 0 +
    (y.rotateRight 19 ^^^ y.rotateRight 61 ^^^ y >>> 6) + w.getD 15 0

/-- One round on the eight working words. -/
def shaRound (h : List (BitVec 64)) (k w : BitVec 64) : List (BitVec 64) :=
  match h with
  | [a, b, c, d, e, f, g, x] =>
    let t1 := x + (e.rotateRight 14 ^^^ e.rotateRight 18 ^^^ e.rotateRight 41) + (e &&& f ^^^ ~~~e &&& g) + k + w
    let t2 := (a.rotateRight 28 ^^^ a.rotateRight 34 ^^^ a.rotateRight 39) + (a &&& b ^^^ a &&& c ^^^ b &&& c)
    [t1 + t2, a, b, c, d + t1, e, f, g]
  | _ => h

/-- The rounds of a block: each takes the oldest of the last 16 words of the schedule, the newest first. -/
def shaRun : List (BitVec 64) → List (BitVec 64) → List (BitVec 64) → List (BitVec 64)
  | [], _, h => h
  | k :: ks, w, h => shaRun ks (shaNext w :: w.take 15) (shaRound h k (w.getD 15 0))

/-- A block taken into the hash value. -/
def shaBlock (h : List (BitVec 64)) (blk : List Byte) : List (BitVec 64) :=
  let w := (List.range 16).map fun i => shaWord blk (15 - i)
  (h.zip (shaRun shaRounds w h)).map fun p => p.1 + p.2

/-- SHA-384 of a message, its digest read as a big-endian octet string (R2, R418). -/
def sha384 (bs : List Byte) : BitVec 384 :=
  let m := shaPad bs
  let h := (List.range (m.length / 128)).foldl (fun h i => shaBlock h ((m.drop (128 * i)).take 128)) shaStart
  BitVec.ofNat 384 ((h.take 6).foldl (fun n w => 2 ^ 64 * n + w.toNat) 0)

/-! ## brainpoolP384r1 -/

/-- The prime of the field. -/
def curveP : Nat := 0x8cb91e82a3386d280f5d6f7e50e641df152f7109ed5456b412b1da197fb71123acd3a729901d1a71874700133107ec53
/-- Coefficient A. -/
def curveA : Nat := 0x7bc382c63d8c150c3c72080ace05afa0c2bea28e4fb22787139165efba91f90f8aa5814a503ad4eb04a8c7dd22ce2826
/-- Coefficient B. -/
def curveB : Nat := 0x4a8c7dd22ce28268b39b55416f0447c2fb77de107dcd2a62e880ea53eeb62d57cb4390295dbc9943ab78696fa504c11
/-- The order of the base point. -/
def curveQ : Nat := 0x8cb91e82a3386d280f5d6f7e50e641df152f7109ed5456b31f166e6cac0425a7cf3ab6af6b7fc3103b883202e9046565
/-- The base point. -/
def curveG : Nat × Nat :=
  (0x1d1c64f068cf45ffa2a63a81b7c13f6b8847a3e77ef14fe3db7fcafe0cbd10e8e826e03436d646aaef87b2e247d4af1e,
   0x8abe1d7520f9c2a45cb1eb8e95cfd55262b70b29feec5864e19c054ff99129280e4646217791811142820341263c5315)

/-- x to the power e modulo m: fuel is the number of bits of e that are taken. -/
def powMod (m : Nat) : Nat → Nat → Nat → Nat
  | 0, _, _ => 1 % m
  | n + 1, x, e =>
    let y := powMod m n (x * x % m) (e / 2)
    if e % 2 = 1 then x * y % m else y

/-- The inverse modulo a prime below 2^384. -/
def invMod (m x : Nat) : Nat := powMod m 384 (x % m) (m - 2)

/-- The sum of two points on a line of a slope. -/
def chord (l : Nat) (a b : Nat × Nat) : Nat × Nat :=
  let x := (l * l + 2 * curveP - a.1 - b.1) % curveP
  (x, (l * (a.1 + curveP - x) + curveP - a.2) % curveP)

/-- The sum of two points; none is the point at infinity. -/
def addPoint : Option (Nat × Nat) → Option (Nat × Nat) → Option (Nat × Nat)
  | none, b => b
  | a, none => a
  | some a, some b =>
    if a.1 = b.1 then
      if (a.2 + b.2) % curveP = 0 then none
      else some (chord ((3 * a.1 * a.1 + curveA) * invMod curveP (2 * a.2) % curveP) a b)
    else some (chord ((b.2 + curveP - a.2) * invMod curveP (b.1 + curveP - a.1) % curveP) a b)

/-- A multiple of a point: fuel is the number of bits of k that are taken. -/
def mulPoint : Nat → Nat → Option (Nat × Nat) → Option (Nat × Nat)
  | 0, _, _ => none
  | n + 1, k, a =>
    let b := mulPoint n (k / 2) (addPoint a a)
    if k % 2 = 1 then addPoint a b else b

/-- A public key: its two coordinates, 48 bytes each, one after the other; none where they name no point of the curve. -/
def keyPoint (key : BitVec 768) : Option (Nat × Nat) :=
  let x := key.toNat / 2 ^ 384
  let y := key.toNat % 2 ^ 384
  if x < curveP && y < curveP && y * y % curveP == (x * x * x + curveA * x + curveB) % curveP then some (x, y) else none

/-- A signature over a digest, r before s, verifies under a public key (R418). -/
def ecdsaOk (key : BitVec 768) (digest : BitVec 384) (sig : BitVec 768) : Bool :=
  let r := sig.toNat / 2 ^ 384
  let s := sig.toNat % 2 ^ 384
  match keyPoint key with
  | none => false
  | some a =>
    if r = 0 || curveQ ≤ r || s = 0 || curveQ ≤ s then false
    else
      let w := invMod curveQ s
      match addPoint (mulPoint 384 (digest.toNat * w % curveQ) (some curveG)) (mulPoint 384 (r * w % curveQ) (some a)) with
      | none => false
      | some b => b.1 % curveQ == r

/-- The signature with a private key that a nonce gives, where the standard accepts the nonce (R421). -/
def signWith (key digest : BitVec 384) (k : Nat) : Option (BitVec 768) :=
  match mulPoint 384 k (some curveG) with
  | none => none
  | some a =>
    let r := a.1 % curveQ
    let s := invMod curveQ k * (digest.toNat + r * key.toNat) % curveQ
    if r = 0 || s = 0 then none else some (BitVec.ofNat 768 (r * 2 ^ 384 + s))

/-- A signature over a digest with a private key (R421), made at a step: the first of the free nonces that the standard
accepts (log 10). -/
def ecdsaSign (n : Nat) (key digest : BitVec 384) : BitVec 768 :=
  ((List.range 64).findSome? fun i => signWith key digest (Config.signNonce n i % (curveQ - 1) + 1)).getD 0

end Sys2Proof.Machine
end

