-- ==== Sys2Proof/WellFormed.lean ====
section
/-! DEFINITION. Which instruction terms are well formed: the values that an entry of the spec lists (R89, R92, R95 step 2).
A word that breaks one of these checks traps ILLEGAL_OP; the decoder never produces such a term. -/

namespace Sys2Proof

/-- Width of a lane in bytes (R88). -/
def VTy.bytes : VTy → Nat
  | .b8 => 1 | .i16 => 2 | .i32 => 4 | .i64 => 8 | .bf16 => 2 | .f16 => 2 | .f32 => 4 | .f64 => 8

/-- Number of lanes (R88). -/
def VTy.lanes (t : VTy) : Nat := 64 / t.bytes

/-- The type code is floating (R88). -/
def VTy.isFloat : VTy → Bool
  | .bf16 | .f16 | .f32 | .f64 => true
  | .b8 | .i16 | .i32 | .i64 => false

/-- The type code of FCVT is floating (R121). -/
def CvTy.isFloat : CvTy → Bool
  | .bf16 | .f16 | .f32 | .f64 => true
  | .n64 | .i16 | .i32 | .i64 => false

/-- A mode of .wrap or .sat is listed for integer types only (R89). -/
def VTy.modeOk (t : VTy) (m : IMode) : Bool := m == .byStatus || !t.isFloat

/-- The bit operations of VRED and VSCAN (R139). -/
def RedOp.isBitwise : RedOp → Bool
  | .and | .or | .xor => true
  | .sum | .min | .max => false

/-- A constant lane number of VBCAST lies below the lane count (R141). -/
def BcSrc.laneOk (t : VTy) : BcSrc → Bool
  | .lane _ k => k.toNat < t.lanes
  | .s _ => true

/-- A constant lane number of VEXT or VINS lies below the lane count (R141). -/
def LaneIx.laneOk (t : VTy) : LaneIx → Bool
  | .k n => n.toNat < t.lanes
  | .s _ => true

/-- Every value of the instruction is one that its entry lists. DESIGN CHOICE (log 29): VRED and VSCAN on an integer type list
mode R89 for every op, so a mode of .wrap or .sat is accepted with min, max, and, or, xor too, which it does not affect. -/
def Instr.wf : Instr → Bool
  | .vadd _ _ _ t _ m | .vsub _ _ _ t _ m | .vmul _ _ _ t _ m | .vfma _ _ _ t _ m | .vcvt _ _ _ t _ m => t.modeOk m
  | .vabs _ _ t _ m | .vneg _ _ t _ m => t.modeOk m
  | .vshl _ _ _ t _ | .vshr _ _ _ t _ | .vsar _ _ _ t _ => !t.isFloat
  | .vpopc _ _ t _ => !t.isFloat
  | .vidx _ _ t _ => !t.isFloat
  | .vcmp _ _ _ t _ c => c != .un || t.isFloat
  | .vred _ _ op t _ m | .vscan _ _ op t _ m => t.modeOk m && (!op.isBitwise || !t.isFloat)
  | .vbcast _ src t _ => src.laneOk t
  | .vext _ _ ix t | .vins _ _ ix t => ix.laneOk t
  | .fcvt _ _ _ d s => d.isFloat || s.isFloat
  | .ard _ _ _ m _ t => m == .byStatus || t == .i32 || t == .b8
  | .phase sc | .bara _ _ _ sc | .barw _ _ sc | .waitf _ _ _ sc | .fill _ _ _ sc => sc != .agent
  | .nop | .add .. | .sub .. | .mul .. | .mulh .. | .div .. | .rem .. | .and .. | .or .. | .xor .. | .andn ..
  | .shl .. | .shr .. | .sar .. | .rot .. | .min .. | .max .. | .clz .. | .popc .. | .sel .. | .cmp .. | .addi ..
  | .andi .. | .ori .. | .xori .. | .shli .. | .shri .. | .sari .. | .cmpi .. | .fadd .. | .fsub .. | .fmul ..
  | .fdiv .. | .fsqrt .. | .fma .. | .fcmp .. | .fmin .. | .fmax .. | .fclass .. | .br .. | .jmp .. | .call ..
  | .ret | .loop .. | .crd .. | .cwr .. | .trap .. | .vmin .. | .vmax .. | .vand .. | .vor .. | .vxor ..
  | .vsel .. | .vperm .. | .vexp2 .. | .vlog2 .. | .vrcp .. | .vrsqrt .. | .vmov .. | .vld .. | .vst .. | .vlds ..
  | .vsts .. | .vgath .. | .vscat .. | .vtopk .. | .tcfg .. | .tld .. | .tst .. | .trow .. | .tcol .. | .tzero ..
  | .tmma .. | .tclean .. | .oclaim .. | .orel .. | .oload .. | .mma .. | .azero .. | .awr .. | .vsmpl ..
  | .vaccept .. | .vrng .. | .vcnt .. | .ld .. | .st .. | .ldt .. | .stt .. | .pref .. | .amo .. | .cas ..
  | .fence .. | .bari .. | .qput .. | .qget .. | .qstream .. | .qflush .. | .new .. | .free .. | .link ..
  | .wire .. | .pushx .. | .retire | .tshare .. | .tdrop .. | .enq .. | .enwait .. | .gather .. | .scatter ..
  | .publish .. | .ssopen .. | .ssld .. | .ssst .. | .sssnap .. | .ssroll .. | .ssfork .. | .ssclose ..
  | .launch .. | .hintsucc .. | .waitpred | .rte | .halt | .sleep .. | .wake .. | .migrate .. | .take ..
  | .extq .. | .movi .. | .addl .. | .ldl .. | .stl .. | .brl .. | .calll .. | .vldl .. | .vstl .. | .cpy ..
  | .enqi .. | .pushk .. | .andl .. | .cmpl .. | .orl .. | .xorl .. | .mmal .. | .vbcasti .. | .tcfgi ..
  | .sssnapi .. | .jmpl .. | .amol .. | .casl .. | .stpair .. | .packageReset | .thermalReset | .powerWindow
  | .getVersion .. | .attest .. | .create .. | .destroy .. | .stop .. | .resume .. | .switchOut ..
  | .switchOutProceed .. | .switchIn .. | .evacuate .. | .uploadPlan .. | .readInstance .. | .tagWrite ..
  | .faultRead .. | .map .. | .refuse .. | .replay .. | .flush .. | .invalidate .. | .readCounters ..
  | .telemetry .. | .kick .. | .progressWrite .. | .hostRegisterWrite .. | .cxlMemWrite .. | .cxlMemRead ..
  | .gangStopArrival .. | .remoteImmediateOp .. | .stackRequest .. | .replyArrival .. | .refusalArrival ..
  | .lateTrapDelivery .. | .waitTableRetry .. | .waiterWake .. | .wakeArrival .. | .sleepTimeout ..
  | .pushAdmit .. | .spillDrain .. | .queueDispatch .. | .transitReoffer .. | .sequencerRewrite ..
  | .linkUnitRequest .. | .terminationWave .. | .freeCountReport .. | .instancePlacement | .placementAgeLimit
  | .instancePrepare .. | .launchAccept | .instanceDone .. | .instanceFault .. | .migrationCapture ..
  | .migrationResume .. | .extensionTargetFree .. | .forwardingExpiry .. | .messageReturn .. | .tileRestoreDone ..
  | .faultMessage .. | .pageWalkResult .. | .translationAnswer .. | .coprocEntry .. | .tmmaResult ..
  | .stripFetch .. | .cpyBlock .. | .engineNop .. | .copyCmd .. | .gatherCmd .. | .ssHeadToMemory ..
  | .ssMemoryToHead .. | .countersCmd .. | .engineReadReply .. | .enginePost .. | .gatherReply ..
  | .patrolScrub .. | .svailaetGroupReceive .. | .svailaetRetrainDone .. | .d2dFlitReceive .. | .ringHop ..
  | .meshHop .. | .packetDelivery .. | .ringFreeCounts .. | .svailaetGroupSend .. | .svailaetPortReturns .. | .ldpair .. => true

/-- The instruction is an event: it has no instruction word. -/
def Instr.isEvent : Instr → Bool
  | .nop | .add .. | .sub .. | .mul .. | .mulh .. | .div .. | .rem .. | .and .. | .or .. | .xor .. | .andn ..
  | .shl .. | .shr .. | .sar .. | .rot .. | .min .. | .max .. | .clz .. | .popc .. | .sel .. | .cmp .. | .addi ..
  | .andi .. | .ori .. | .xori .. | .shli .. | .shri .. | .sari .. | .cmpi .. | .fadd .. | .fsub .. | .fmul ..
  | .fdiv .. | .fsqrt .. | .fma .. | .fcmp .. | .fcvt .. | .fmin .. | .fmax .. | .fclass .. | .br .. | .jmp ..
  | .call .. | .ret | .loop .. | .crd .. | .cwr .. | .trap .. | .vadd .. | .vsub .. | .vmul .. | .vfma ..
  | .vmin .. | .vmax .. | .vand .. | .vor .. | .vxor .. | .vshl .. | .vshr .. | .vsar .. | .vcmp .. | .vsel ..
  | .vcvt .. | .vred .. | .vscan .. | .vperm .. | .vbcast .. | .vexp2 .. | .vlog2 .. | .vrcp .. | .vrsqrt ..
  | .vabs .. | .vneg .. | .vmov .. | .vext .. | .vins .. | .vld .. | .vst .. | .vlds .. | .vsts .. | .vgath ..
  | .vscat .. | .vtopk .. | .vpopc .. | .tcfg .. | .tld .. | .tst .. | .trow .. | .tcol .. | .tzero .. | .tmma ..
  | .tclean .. | .oclaim .. | .orel .. | .oload .. | .mma .. | .azero .. | .ard .. | .awr .. | .vsmpl ..
  | .vaccept .. | .vrng .. | .vcnt .. | .vidx .. | .ld .. | .st .. | .ldt .. | .stt .. | .pref .. | .amo ..
  | .cas .. | .fence .. | .phase .. | .bari .. | .bara .. | .barw .. | .waitf .. | .fill .. | .qput .. | .qget ..
  | .qstream .. | .qflush .. | .new .. | .free .. | .link .. | .wire .. | .pushx .. | .retire | .tshare ..
  | .tdrop .. | .enq .. | .enwait .. | .gather .. | .scatter .. | .publish .. | .ssopen .. | .ssld .. | .ssst ..
  | .sssnap .. | .ssroll .. | .ssfork .. | .ssclose .. | .launch .. | .hintsucc .. | .waitpred | .rte | .halt
  | .sleep .. | .wake .. | .migrate .. | .take .. | .extq .. | .movi .. | .addl .. | .ldl .. | .stl .. | .brl ..
  | .calll .. | .vldl .. | .vstl .. | .cpy .. | .enqi .. | .pushk .. | .andl .. | .cmpl .. | .orl .. | .xorl ..
  | .mmal .. | .vbcasti .. | .tcfgi .. | .sssnapi .. | .jmpl .. | .amol .. | .casl .. | .ldpair .. | .stpair .. => false
  | .packageReset | .thermalReset | .powerWindow | .getVersion .. | .attest .. | .create .. | .destroy ..
  | .stop .. | .resume .. | .switchOut .. | .switchOutProceed .. | .switchIn .. | .evacuate .. | .uploadPlan ..
  | .readInstance .. | .tagWrite .. | .faultRead .. | .map .. | .refuse .. | .replay .. | .flush ..
  | .invalidate .. | .readCounters .. | .telemetry .. | .kick .. | .progressWrite .. | .hostRegisterWrite ..
  | .cxlMemWrite .. | .cxlMemRead .. | .gangStopArrival .. | .remoteImmediateOp .. | .stackRequest ..
  | .replyArrival .. | .refusalArrival .. | .lateTrapDelivery .. | .waitTableRetry .. | .waiterWake ..
  | .wakeArrival .. | .sleepTimeout .. | .pushAdmit .. | .spillDrain .. | .queueDispatch .. | .transitReoffer ..
  | .sequencerRewrite .. | .linkUnitRequest .. | .terminationWave .. | .freeCountReport .. | .instancePlacement
  | .placementAgeLimit | .instancePrepare .. | .launchAccept | .instanceDone .. | .instanceFault ..
  | .migrationCapture .. | .migrationResume .. | .extensionTargetFree .. | .forwardingExpiry ..
  | .messageReturn .. | .tileRestoreDone .. | .faultMessage .. | .pageWalkResult .. | .translationAnswer ..
  | .coprocEntry .. | .tmmaResult .. | .stripFetch .. | .cpyBlock .. | .engineNop .. | .copyCmd .. | .gatherCmd ..
  | .ssHeadToMemory .. | .ssMemoryToHead .. | .countersCmd .. | .engineReadReply .. | .enginePost ..
  | .gatherReply .. | .patrolScrub .. | .svailaetGroupReceive .. | .svailaetRetrainDone .. | .d2dFlitReceive ..
  | .ringHop .. | .meshHop .. | .packetDelivery .. | .ringFreeCounts .. | .svailaetGroupSend ..
  | .svailaetPortReturns .. => true

/-- The instruction has two words (R85, class 0b11). -/
def Instr.isLong : Instr → Bool
  | .movi .. | .addl .. | .ldl .. | .stl .. | .brl .. | .calll .. | .vldl .. | .vstl .. | .cpy .. | .enqi ..
  | .pushk .. | .andl .. | .cmpl .. | .orl .. | .xorl .. | .mmal .. | .vbcasti .. | .tcfgi .. | .sssnapi ..
  | .jmpl .. | .amol .. | .casl .. | .ldpair .. | .stpair .. => true
  | .nop | .add .. | .sub .. | .mul .. | .mulh .. | .div .. | .rem .. | .and .. | .or .. | .xor .. | .andn ..
  | .shl .. | .shr .. | .sar .. | .rot .. | .min .. | .max .. | .clz .. | .popc .. | .sel .. | .cmp .. | .addi ..
  | .andi .. | .ori .. | .xori .. | .shli .. | .shri .. | .sari .. | .cmpi .. | .fadd .. | .fsub .. | .fmul ..
  | .fdiv .. | .fsqrt .. | .fma .. | .fcmp .. | .fcvt .. | .fmin .. | .fmax .. | .fclass .. | .br .. | .jmp ..
  | .call .. | .ret | .loop .. | .crd .. | .cwr .. | .trap .. | .vadd .. | .vsub .. | .vmul .. | .vfma ..
  | .vmin .. | .vmax .. | .vand .. | .vor .. | .vxor .. | .vshl .. | .vshr .. | .vsar .. | .vcmp .. | .vsel ..
  | .vcvt .. | .vred .. | .vscan .. | .vperm .. | .vbcast .. | .vexp2 .. | .vlog2 .. | .vrcp .. | .vrsqrt ..
  | .vabs .. | .vneg .. | .vmov .. | .vext .. | .vins .. | .vld .. | .vst .. | .vlds .. | .vsts .. | .vgath ..
  | .vscat .. | .vtopk .. | .vpopc .. | .tcfg .. | .tld .. | .tst .. | .trow .. | .tcol .. | .tzero .. | .tmma ..
  | .tclean .. | .oclaim .. | .orel .. | .oload .. | .mma .. | .azero .. | .ard .. | .awr .. | .vsmpl ..
  | .vaccept .. | .vrng .. | .vcnt .. | .vidx .. | .ld .. | .st .. | .ldt .. | .stt .. | .pref .. | .amo ..
  | .cas .. | .fence .. | .phase .. | .bari .. | .bara .. | .barw .. | .waitf .. | .fill .. | .qput .. | .qget ..
  | .qstream .. | .qflush .. | .new .. | .free .. | .link .. | .wire .. | .pushx .. | .retire | .tshare ..
  | .tdrop .. | .enq .. | .enwait .. | .gather .. | .scatter .. | .publish .. | .ssopen .. | .ssld .. | .ssst ..
  | .sssnap .. | .ssroll .. | .ssfork .. | .ssclose .. | .launch .. | .hintsucc .. | .waitpred | .rte | .halt
  | .sleep .. | .wake .. | .migrate .. | .take .. | .extq .. | .packageReset | .thermalReset | .powerWindow
  | .getVersion .. | .attest .. | .create .. | .destroy .. | .stop .. | .resume .. | .switchOut ..
  | .switchOutProceed .. | .switchIn .. | .evacuate .. | .uploadPlan .. | .readInstance .. | .tagWrite ..
  | .faultRead .. | .map .. | .refuse .. | .replay .. | .flush .. | .invalidate .. | .readCounters ..
  | .telemetry .. | .kick .. | .progressWrite .. | .hostRegisterWrite .. | .cxlMemWrite .. | .cxlMemRead ..
  | .gangStopArrival .. | .remoteImmediateOp .. | .stackRequest .. | .replyArrival .. | .refusalArrival ..
  | .lateTrapDelivery .. | .waitTableRetry .. | .waiterWake .. | .wakeArrival .. | .sleepTimeout ..
  | .pushAdmit .. | .spillDrain .. | .queueDispatch .. | .transitReoffer .. | .sequencerRewrite ..
  | .linkUnitRequest .. | .terminationWave .. | .freeCountReport .. | .instancePlacement | .placementAgeLimit
  | .instancePrepare .. | .launchAccept | .instanceDone .. | .instanceFault .. | .migrationCapture ..
  | .migrationResume .. | .extensionTargetFree .. | .forwardingExpiry .. | .messageReturn .. | .tileRestoreDone ..
  | .faultMessage .. | .pageWalkResult .. | .translationAnswer .. | .coprocEntry .. | .tmmaResult ..
  | .stripFetch .. | .cpyBlock .. | .engineNop .. | .copyCmd .. | .gatherCmd .. | .ssHeadToMemory ..
  | .ssMemoryToHead .. | .countersCmd .. | .engineReadReply .. | .enginePost .. | .gatherReply ..
  | .patrolScrub .. | .svailaetGroupReceive .. | .svailaetRetrainDone .. | .d2dFlitReceive .. | .ringHop ..
  | .meshHop .. | .packetDelivery .. | .ringFreeCounts .. | .svailaetGroupSend .. | .svailaetPortReturns .. => false

end Sys2Proof
end

