-- ==== Sys2Proof/Decode.lean ====
section
/-! DEFINITION. Decoding of instruction words (R85 to R95 step 2, R224) and the encoder written from the same tables.
Words are natural numbers here; a field is a quotient and a remainder, so bit 0 is the least significant bit (R2). -/

namespace Sys2Proof

/-- Why a word is no instruction (R95 steps 1 and 2). Every one of them is ILLEGAL_OP. -/
inductive DecodeError
  /-- Word 0 names an unassigned major opcode (R95 step 1). -/
  | unassigned
  /-- A reserved or unused field is not zero (R87, R95 step 2). -/
  | reserved
  /-- A variant, func, mode, modifier, condition or scope that the entry does not list (R95 step 2). -/
  | unlisted
  deriving DecidableEq, Repr

/-- Bits lo + n − 1 down to lo of a word. -/
def fld (w lo n : Nat) : Nat := w / 2 ^ lo % 2 ^ n

/-- Field d (R86). -/
def fD (w : Nat) : Reg := BitVec.ofNat 5 (w / 2 ^ 19)
/-- Field a (R86). -/
def fA (w : Nat) : Reg := BitVec.ofNat 5 (w / 2 ^ 14)
/-- Field b (R86). -/
def fB (w : Nat) : Reg := BitVec.ofNat 5 (w / 2 ^ 9)
/-- Field pred of format V (R90). -/
def fP (w : Nat) : PReg := BitVec.ofNat 3 (w / 2 ^ 2)
/-- Operand slot named through field a: func[5] is its bit 5 (R87). -/
def fOA (w : Nat) : Slot := BitVec.ofNat 6 (fld w 14 5 + 32 * fld w 5 1)
/-- Operand slot named through field b: func[4] is its bit 5 (R87). -/
def fOB (w : Nat) : Slot := BitVec.ofNat 6 (fld w 9 5 + 32 * fld w 4 1)
/-- Immediate of format I (R86). -/
def fImm (w : Nat) : BitVec 14 := BitVec.ofNat 14 w
/-- Byte offset of a memory operand (R91). -/
def fOff (w : Nat) : BitVec 11 := BitVec.ofNat 11 w

/-- Type codes of R88. -/
def VTy.ofCode (n : Nat) : VTy :=
  match n with
  | 0 => .b8 | 1 => .i16 | 2 => .i32 | 3 => .i64 | 4 => .bf16 | 5 => .f16 | 6 => .f32 | _ => .f64
/-- Type codes of R88. -/
def VTy.code : VTy → Nat
  | .b8 => 0 | .i16 => 1 | .i32 => 2 | .i64 => 3 | .bf16 => 4 | .f16 => 5 | .f32 => 6 | .f64 => 7
/-- Type codes of FCVT (R121). -/
def CvTy.ofCode (n : Nat) : CvTy :=
  match n with
  | 0 => .n64 | 1 => .i16 | 2 => .i32 | 3 => .i64 | 4 => .bf16 | 5 => .f16 | 6 => .f32 | _ => .f64
/-- Type codes of FCVT (R121). -/
def CvTy.code : CvTy → Nat
  | .n64 => 0 | .i16 => 1 | .i32 => 2 | .i64 => 3 | .bf16 => 4 | .f16 => 5 | .f32 => 6 | .f64 => 7
/-- Mode codes of R89 and R109. -/
def IMode.ofCode (n : Nat) : Option IMode :=
  match n with
  | 0 => some .byStatus | 1 => some .wrap | 2 => some .sat | _ => none
/-- Mode codes of R89 and R109. -/
def IMode.code : IMode → Nat
  | .byStatus => 0 | .wrap => 1 | .sat => 2
/-- Rounding codes of R110. -/
def RMode.ofCode (n : Nat) : Option RMode :=
  match n with
  | 0 => some .byStatus | 1 => some .rne | 2 => some .rtz | 3 => some .rup | 4 => some .rdn | 5 => some .rto | _ => none
/-- Rounding codes of R110. -/
def RMode.code : RMode → Nat
  | .byStatus => 0 | .rne => 1 | .rtz => 2 | .rup => 3 | .rdn => 4 | .rto => 5
/-- Condition codes of R111. -/
def ICond.ofCode (n : Nat) : Option ICond :=
  match n with
  | 0 => some .eq | 1 => some .ne | 2 => some .lt | 3 => some .ge | 4 => some .le | 5 => some .gt | _ => none
/-- Condition codes of R111. -/
def ICond.code : ICond → Nat
  | .eq => 0 | .ne => 1 | .lt => 2 | .ge => 3 | .le => 4 | .gt => 5
/-- Condition codes of FCMP. -/
def FCond.ofCode (n : Nat) : Option FCond :=
  match n with
  | 0 => some .eq | 1 => some .lt | 2 => some .le | 3 => some .un | 4 => some .ne | _ => none
/-- Condition codes of FCMP. -/
def FCond.code : FCond → Nat
  | .eq => 0 | .lt => 1 | .le => 2 | .un => 3 | .ne => 4
/-- Condition codes of VCMP. -/
def VCond.ofCode (n : Nat) : Option VCond :=
  match n with
  | 0 => some .eq | 1 => some .ne | 2 => some .lt | 3 => some .ge | 4 => some .le | 5 => some .gt | 6 => some .un
  | _ => none
/-- Condition codes of VCMP. -/
def VCond.code : VCond → Nat
  | .eq => 0 | .ne => 1 | .lt => 2 | .ge => 3 | .le => 4 | .gt => 5 | .un => 6
/-- Scope codes of R92. -/
def Scope.ofCode (n : Nat) : Option Scope :=
  match n with
  | 0 => some .agent | 1 => some .core | 2 => some .cluster | 3 => some .stack | 4 => some .die | 5 => some .package
  | 6 => some .fabric | 7 => some .peer | 8 => some .host | 9 => some .system | _ => none
/-- Scope codes of R92. -/
def Scope.code : Scope → Nat
  | .agent => 0 | .core => 1 | .cluster => 2 | .stack => 3 | .die => 4 | .package => 5 | .fabric => 6 | .peer => 7
  | .host => 8 | .system => 9
/-- Operation codes of AMO (R173). -/
def AmoOp.ofCode (n : Nat) : Option AmoOp :=
  match n with
  | 0 => some .swap | 1 => some .add | 2 => some .and | 3 => some .or | 4 => some .xor | 5 => some .min | 6 => some .max
  | _ => none
/-- Operation codes of AMO (R173). -/
def AmoOp.code : AmoOp → Nat
  | .swap => 0 | .add => 1 | .and => 2 | .or => 3 | .xor => 4 | .min => 5 | .max => 6
/-- Load modifiers of R91. -/
def LdSz.ofCode (n : Nat) : Option LdSz :=
  match n with
  | 0 => some .d64 | 1 => some .i32 | 2 => some .i16 | 3 => some .i8 | 5 => some .n32 | 6 => some .n16 | 7 => some .n8
  | _ => none
/-- Load modifiers of R91. -/
def LdSz.code : LdSz → Nat
  | .d64 => 0 | .i32 => 1 | .i16 => 2 | .i8 => 3 | .n32 => 5 | .n16 => 6 | .n8 => 7
/-- Store modifiers of R91. -/
def StSz.ofCode (n : Nat) : Option StSz :=
  match n with
  | 0 => some .d64 | 1 => some .w32 | 2 => some .h16 | 3 => some .b8 | _ => none
/-- Store modifiers of R91. -/
def StSz.code : StSz → Nat
  | .d64 => 0 | .w32 => 1 | .h16 => 2 | .b8 => 3
/-- Reduction codes of R139. -/
def RedOp.ofCode (n : Nat) : Option RedOp :=
  match n with
  | 0 => some .sum | 1 => some .min | 2 => some .max | 3 => some .and | 4 => some .or | 5 => some .xor | _ => none
/-- Reduction codes of R139. -/
def RedOp.code : RedOp → Nat
  | .sum => 0 | .min => 1 | .max => 2 | .and => 3 | .or => 4 | .xor => 5
/-- Snapshot codes of R211. -/
def SnapCode.ofCode (n : Nat) : SnapCode :=
  match n with
  | 0 => .record | 1 => .pin | 2 => .unpin | _ => .repin
/-- Snapshot codes of R211. -/
def SnapCode.code : SnapCode → Nat
  | .record => 0 | .pin => 1 | .unpin => 2 | .repin => 3
/-- Destination codes of ARD (R165). -/
def ArdTy.ofCode (n : Nat) : Option ArdTy :=
  match n with
  | 0 => some .f32 | 1 => some .bf16 | 2 => some .b8 | 3 => some .i32 | 4 => some .a48 | 5 => some .f16 | _ => none
/-- Destination codes of ARD (R165). -/
def ArdTy.code : ArdTy → Nat
  | .f32 => 0 | .bf16 => 1 | .b8 => 2 | .i32 => 3 | .a48 => 4 | .f16 => 5
/-- Source codes of AWR (R163). -/
def AwrTy.ofCode (n : Nat) : Option AwrTy :=
  match n with
  | 0 => some .f32 | 3 => some .i32 | 4 => some .a48 | _ => none
/-- Source codes of AWR (R163). -/
def AwrTy.code : AwrTy → Nat
  | .f32 => 0 | .i32 => 3 | .a48 => 4

/-- A bit as a Bool. -/
def fBit (w lo : Nat) : Bool := fld w lo 1 == 1

/-- Go on when a reserved or unused field is zero. -/
def zero (x : Nat) (r : Except DecodeError Instr) : Except DecodeError Instr :=
  if x = 0 then r else .error .reserved

/-- Go on with a listed value. -/
def listed {α : Type} (o : Option α) (f : α → Except DecodeError Instr) : Except DecodeError Instr :=
  match o with
  | some a => f a
  | none => .error .unlisted

/-- Accept a term whose values are all listed. -/
def accept (i : Instr) : Except DecodeError Instr := if i.wf then .ok i else .error .unlisted

/-- The second source of format V (R90). -/
def fSrc (w : Nat) : VSrc := if fBit w 8 then .s (fB w) else .v (fB w)
/-- Type field of format V (R88). -/
def fT (w : Nat) : VTy := VTy.ofCode (fld w 5 3)
/-- Lane number of VEXT and VINS (R141). -/
def fIx (w : Nat) : LaneIx := if fBit w 8 then .s (fB w) else .k (fB w)

/-- Integer arithmetic with MODE and U (R109, R113). -/
def decArith (w : Nat) (mk : Reg → Reg → Reg → IMode → Bool → Instr) : Except DecodeError Instr :=
  zero (fld w 0 6) <| listed (IMode.ofCode (fld w 7 2)) fun m => accept (mk (fD w) (fA w) (fB w) m (fBit w 6))
/-- Integer arithmetic with U only (R113). -/
def decArithU (w : Nat) (mk : Reg → Reg → Reg → Bool → Instr) : Except DecodeError Instr :=
  zero (fld w 0 6) <| zero (fld w 7 2) <| accept (mk (fD w) (fA w) (fB w) (fBit w 6))
/-- Three registers and nothing else (R114 and others). -/
def decDAB (w : Nat) (mk : Reg → Reg → Reg → Instr) : Except DecodeError Instr :=
  zero (fld w 0 9) <| accept (mk (fD w) (fA w) (fB w))
/-- Fields d and a and nothing else. -/
def decDA (w : Nat) (mk : Reg → Reg → Instr) : Except DecodeError Instr :=
  zero (fld w 0 14) <| accept (mk (fD w) (fA w))
/-- Fields a and b and nothing else. -/
def decAB (w : Nat) (mk : Reg → Reg → Instr) : Except DecodeError Instr :=
  zero (fld w 19 5) <| zero (fld w 0 9) <| accept (mk (fA w) (fB w))
/-- Field a and nothing else. -/
def decA (w : Nat) (mk : Reg → Instr) : Except DecodeError Instr :=
  zero (fld w 19 5) <| zero (fld w 0 14) <| accept (mk (fA w))
/-- Field d and nothing else. -/
def decD (w : Nat) (mk : Reg → Instr) : Except DecodeError Instr :=
  zero (fld w 0 19) <| accept (mk (fD w))
/-- No field at all. -/
def decNone (w : Nat) (i : Instr) : Except DecodeError Instr := zero (fld w 0 24) <| accept i
/-- Floating arithmetic on two sources (R110, R119). -/
def decFloat (w : Nat) (mk : Reg → Reg → Reg → RMode → Bool → Instr) : Except DecodeError Instr :=
  zero (fld w 1 5) <| listed (RMode.ofCode (fld w 6 3)) fun r => accept (mk (fD w) (fA w) (fB w) r (fBit w 0))
/-- Shift by an immediate (R118). -/
def decShi (w : Nat) (mk : Reg → Reg → BitVec 6 → Instr) : Except DecodeError Instr :=
  zero (fld w 6 8) <| accept (mk (fD w) (fA w) (BitVec.ofNat 6 w))
/-- Format V with a mode (R133). -/
def decVM (w : Nat) (mk : Reg → Reg → VSrc → VTy → PReg → IMode → Instr) : Except DecodeError Instr :=
  listed (IMode.ofCode (fld w 0 2)) fun m => accept (mk (fD w) (fA w) (fSrc w) (fT w) (fP w) m)
/-- Format V with mode 0 (R134 and others). -/
def decV (w : Nat) (mk : Reg → Reg → VSrc → VTy → PReg → Instr) : Except DecodeError Instr :=
  zero (fld w 0 2) <| accept (mk (fD w) (fA w) (fSrc w) (fT w) (fP w))
/-- Format V with one source, type f32 (R140). -/
def decVF1 (w : Nat) (mk : Reg → Reg → PReg → Instr) : Except DecodeError Instr :=
  zero (fld w 0 2) <| zero (fld w 8 6) <| if fld w 5 3 = 6 then accept (mk (fD w) (fA w) (fP w)) else .error .unlisted
/-- VLDS and VSTS (R143): S = 1; VGATH and VSCAT (R144): S = 0. -/
def decVMem (w s : Nat) (mk : Reg → Reg → Reg → VTy → PReg → Instr) : Except DecodeError Instr :=
  zero (fld w 0 2) <| if fld w 8 1 = s then accept (mk (fD w) (fA w) (fB w) (fT w) (fP w)) else .error .reserved
/-- A memory operand whose modifier must be zero (R91). -/
def decOff (w : Nat) (mk : Reg → Reg → BitVec 11 → Instr) : Except DecodeError Instr :=
  if fld w 11 3 = 0 then accept (mk (fD w) (fA w) (fOff w)) else .error .unlisted
/-- A scope in func[3:0] (R92), with fields d, a, b and bits 8 to 4 as given. -/
def decScope (w : Nat) (mk : Scope → Instr) : Except DecodeError Instr :=
  listed (Scope.ofCode (fld w 0 4)) fun s => accept (mk s)
/-- One flag in bit 0 (R160 and others). -/
def decDAF (w : Nat) (mk : Reg → Reg → Bool → Instr) : Except DecodeError Instr :=
  zero (fld w 1 13) <| accept (mk (fD w) (fA w) (fBit w 0))

/-- Class 0b00 (R94, R108 to R128). -/
def decode00 (op w : Nat) : Except DecodeError Instr :=
  match op with
  | 0x00 => decNone w .nop
  | 0x01 => decArith w .add
  | 0x02 => decArith w .sub
  | 0x03 => decArith w .mul
  | 0x04 => decArithU w .mulh
  | 0x05 => decArith w .div
  | 0x06 => decArithU w .rem
  | 0x07 => decDAB w .and
  | 0x08 => decDAB w .or
  | 0x09 => decDAB w .xor
  | 0x0A => decDAB w .andn
  | 0x0B => decDAB w .shl
  | 0x0C => decDAB w .shr
  | 0x0D => decDAB w .sar
  | 0x0E => decDAB w .rot
  | 0x0F => decArithU w .min
  | 0x10 => decArithU w .max
  | 0x11 => decDA w .clz
  | 0x12 => decDA w .popc
  | 0x13 => zero (fld w 3 6) <| accept (.sel (fD w) (fA w) (fB w) (BitVec.ofNat 3 w))
  | 0x14 => zero (fld w 3 3) <| zero (fld w 7 2) <| listed (ICond.ofCode (fld w 0 3)) fun c =>
      accept (.cmp (fD w) (fA w) (fB w) (fBit w 6) c)
  | 0x15 => accept (.addi (fD w) (fA w) (fImm w))
  | 0x16 => accept (.andi (fD w) (fA w) (fImm w))
  | 0x17 => accept (.ori (fD w) (fA w) (fImm w))
  | 0x18 => accept (.xori (fD w) (fA w) (fImm w))
  | 0x19 => decShi w .shli
  | 0x1A => decShi w .shri
  | 0x1B => decShi w .sari
  | 0x1C => listed (ICond.ofCode (fld w 11 3)) fun c => accept (.cmpi (fD w) (fA w) c (fBit w 10) (BitVec.ofNat 10 w))
  | 0x1D => decFloat w .fadd
  | 0x1E => decFloat w .fsub
  | 0x1F => decFloat w .fmul
  | 0x20 => decFloat w .fdiv
  | 0x21 => zero (fld w 9 5) <| decFloat w fun d a _ r p => .fsqrt d a r p
  | 0x22 => decFloat w .fma
  | 0x23 => zero (fld w 4 5) <| listed (FCond.ofCode (fld w 1 3)) fun c =>
      accept (.fcmp (fD w) (fA w) (fB w) c (fBit w 0))
  | 0x24 => zero (fld w 9 5) <| listed (RMode.ofCode (fld w 6 3)) fun r =>
      accept (.fcvt (fD w) (fA w) r (CvTy.ofCode (fld w 3 3)) (CvTy.ofCode (fld w 0 3)))
  | 0x25 => zero (fld w 1 8) <| accept (.fmin (fD w) (fA w) (fB w) (fBit w 0))
  | 0x26 => zero (fld w 1 8) <| accept (.fmax (fD w) (fA w) (fB w) (fBit w 0))
  | 0x27 => zero (fld w 1 13) <| accept (.fclass (fD w) (fA w) (fBit w 0))
  | 0x28 => accept (.br (BitVec.ofNat 3 (w / 2 ^ 21)) (BitVec.ofNat 21 w))
  | 0x29 => decA w .jmp
  | 0x2A => if fld w 21 3 = 0 then accept (.call (BitVec.ofNat 21 w)) else .error .unlisted
  | 0x2B => decNone w .ret
  | 0x2C => zero (fld w 14 5) <| accept (.loop (fD w) (fImm w))
  | 0x2D => zero (fld w 12 7) <| accept (.crd (fD w) (BitVec.ofNat 12 w))
  | 0x2E => zero (fld w 12 2) <| zero (fld w 19 5) <| accept (.cwr (BitVec.ofNat 12 w) (fA w))
  | 0x2F => zero (fld w 14 10) <| accept (.trap (fImm w))
  | _ => .error .unassigned

/-- Class 0b01 (R94, R130 to R165). -/
def decode01 (op w : Nat) : Except DecodeError Instr :=
  match op with
  | 0x00 => decVM w .vadd
  | 0x01 => decVM w .vsub
  | 0x02 => decVM w .vmul
  | 0x03 => decVM w .vfma
  | 0x04 => decV w .vmin
  | 0x05 => decV w .vmax
  | 0x06 => decV w .vand
  | 0x07 => decV w .vor
  | 0x08 => decV w .vxor
  | 0x09 => decV w .vshl
  | 0x0A => decV w .vshr
  | 0x0B => decV w .vsar
  | 0x0C => listed (VCond.ofCode (4 * fld w 22 2 + fld w 0 2)) fun c =>
      accept (.vcmp (BitVec.ofNat 3 (w / 2 ^ 19)) (fA w) (fSrc w) (fT w) (fP w) c)
  | 0x0D => decV w .vsel
  | 0x0E => if fld w 8 1 = 1 then listed (IMode.ofCode (fld w 0 2)) fun m =>
      accept (.vcvt (fD w) (fA w) (fB w) (fT w) (fP w) m) else .error .reserved
  | 0x0F => zero (fld w 8 1) <| listed (RedOp.ofCode (fld w 9 5)) fun o => listed (IMode.ofCode (fld w 0 2)) fun m =>
      accept (.vred (fD w) (fA w) o (fT w) (fP w) m)
  | 0x10 => zero (fld w 8 1) <| listed (RedOp.ofCode (fld w 9 5)) fun o => listed (IMode.ofCode (fld w 0 2)) fun m =>
      accept (.vscan (fD w) (fA w) o (fT w) (fP w) m)
  | 0x11 => decV w .vperm
  | 0x12 => zero (fld w 0 2) <|
      if fBit w 8 then zero (fld w 14 5) <| accept (.vbcast (fD w) (.s (fB w)) (fT w) (fP w))
      else accept (.vbcast (fD w) (.lane (fA w) (fB w)) (fT w) (fP w))
  | 0x13 => decVF1 w .vexp2
  | 0x14 => decVF1 w .vlog2
  | 0x15 => decVF1 w .vrcp
  | 0x16 => decVF1 w .vrsqrt
  | 0x17 => zero (fld w 8 6) <| listed (IMode.ofCode (fld w 0 2)) fun m => accept (.vabs (fD w) (fA w) (fT w) (fP w) m)
  | 0x18 => zero (fld w 8 6) <| listed (IMode.ofCode (fld w 0 2)) fun m => accept (.vneg (fD w) (fA w) (fT w) (fP w) m)
  | 0x19 => zero (fld w 8 6) <| zero (fld w 0 2) <| accept (.vmov (fD w) (fA w) (fT w) (fP w))
  | 0x1A => zero (fld w 0 5) <| accept (.vext (fD w) (fA w) (fIx w) (fT w))
  | 0x1B => zero (fld w 0 5) <| accept (.vins (fD w) (fA w) (fIx w) (fT w))
  | 0x1C => accept (.vld (fD w) (fA w) (VTy.ofCode (fld w 11 3)) (fOff w))
  | 0x1D => accept (.vst (fD w) (fA w) (VTy.ofCode (fld w 11 3)) (fOff w))
  | 0x1E => decVMem w 1 .vlds
  | 0x1F => decVMem w 1 .vsts
  | 0x20 => decVMem w 0 .vgath
  | 0x21 => decVMem w 0 .vscat
  | 0x22 => zero (fld w 1 1) <| if fld w 5 4 = 14 then accept (.vtopk (fD w) (fA w) (fB w) (fP w) (fBit w 0))
      else .error .unlisted
  | 0x23 => zero (fld w 8 6) <| zero (fld w 0 2) <| accept (.vpopc (fD w) (fA w) (fT w) (fP w))
  | 0x24 => decDA w .tcfg
  | 0x25 => decOff w .tld
  | 0x26 => decOff w .tst
  | 0x27 => zero (fld w 1 8) <| accept (.trow (fD w) (fA w) (fB w) (fBit w 0))
  | 0x28 => zero (fld w 1 8) <| accept (.tcol (fD w) (fA w) (fB w) (fBit w 0))
  | 0x29 => decD w .tzero
  | 0x2A => decDAB w .tmma
  | 0x2B => decD w .tclean
  | 0x2C => decDAF w .oclaim
  | 0x2D => zero (fld w 19 5) <| zero (fld w 1 13) <| accept (.orel (fA w) (fBit w 0))
  | 0x2E => zero (fld w 0 4) <| zero (fld w 5 4) <| accept (.oload (fD w) (fA w) (fOB w))
  | 0x2F => zero (fld w 1 3) <| zero (fld w 6 3) <| accept (.mma (fD w) (fOA w) (fOB w) (fBit w 0))
  | 0x30 => decD w .azero
  | 0x31 => zero (fld w 4 2) <| listed (ArdTy.ofCode (fld w 0 4)) fun t => listed (IMode.ofCode (fld w 7 2)) fun m =>
      accept (.ard (fD w) (fA w) (fB w) m (fBit w 6) t)
  | 0x32 => zero (fld w 4 5) <| listed (AwrTy.ofCode (fld w 0 4)) fun t => accept (.awr (fD w) (fA w) (fB w) t)
  | 0x33 => zero (fld w 0 5) <| if fld w 5 4 = 14 then accept (.vsmpl (fD w) (fA w) (fB w)) else .error .unlisted
  | 0x34 => zero (fld w 0 2) <| if fld w 5 4 = 10 then accept (.vaccept (fD w) (fA w) (fB w) (fP w))
      else .error .unlisted
  | 0x35 => zero (fld w 0 2) <| zero (fld w 14 5) <| if fld w 5 4 = 11 then accept (.vrng (fD w) (fB w) (fP w))
      else .error .unlisted
  | 0x36 => zero (fld w 1 4) <| zero (fld w 8 6) <| accept (.vcnt (fD w) (fA w) (fT w) (fBit w 0))
  | 0x37 => zero (fld w 0 2) <| zero (fld w 14 5) <| if fBit w 8 then accept (.vidx (fD w) (fB w) (fT w) (fP w))
      else .error .reserved
  | _ => .error .unassigned

/-- Class 0b10 (R94, R167 to R221). -/
def decode10 (op w : Nat) : Except DecodeError Instr :=
  match op with
  | 0x00 => listed (LdSz.ofCode (fld w 11 3)) fun z => accept (.ld (fD w) (fA w) z (fOff w))
  | 0x01 => listed (StSz.ofCode (fld w 11 3)) fun z => accept (.st (fD w) (fA w) z (fOff w))
  | 0x02 => decOff w .ldt
  | 0x03 => decOff w .stt
  | 0x04 => zero (fld w 19 5) <| decOff w fun _ a o => .pref a o
  | 0x05 => zero (fld w 7 1) <| zero (fld w 4 2) <| listed (AmoOp.ofCode (fld w 0 4)) fun o =>
      accept (.amo (fD w) (fA w) (fB w) (fBit w 8) (fBit w 6) o)
  | 0x06 => zero (fld w 7 1) <| zero (fld w 0 6) <| accept (.cas (fD w) (fA w) (fB w) (fBit w 8) (fBit w 6))
  | 0x07 => zero (fld w 4 20) <| decScope w .fence
  | 0x08 => zero (fld w 4 20) <| decScope w .phase
  | 0x09 => decAB w .bari
  | 0x0A => zero (fld w 4 5) <| decScope w fun s => .bara (fD w) (fA w) (fB w) s
  | 0x0B => zero (fld w 4 5) <| zero (fld w 19 5) <| decScope w fun s => .barw (fA w) (fB w) s
  | 0x0C => zero (fld w 4 2) <| zero (fld w 7 7) <| decScope w fun s => .waitf (fD w) (fA w) (fBit w 6) s
  | 0x0D => zero (fld w 4 5) <| decScope w fun s => .fill (fD w) (fA w) (fB w) s
  | 0x0E => decDA w .qput
  | 0x0F => decDA w .qget
  | 0x10 => decDA w .qstream
  | 0x11 => decD w .qflush
  | 0x12 => decDAF w .new
  | 0x13 => decA w .free
  | 0x14 => decDAB w .link
  | 0x15 => decDAB w .wire
  | 0x16 => decDAB w .pushx
  | 0x17 => decNone w .retire
  | 0x18 => decDA w .tshare
  | 0x19 => decDA w .tdrop
  | 0x1A => decDAB w .enq
  | 0x1B => decAB w .enwait
  | 0x1C => decDAB w .gather
  | 0x1D => decDAB w .scatter
  | 0x1E => decDA w .publish
  | 0x1F => decDAB w .ssopen
  | 0x20 => decDAB w .ssld
  | 0x21 => decDAB w .ssst
  | 0x22 => zero (fld w 2 7) <| accept (.sssnap (fD w) (fA w) (fB w) (SnapCode.ofCode (fld w 0 2)))
  | 0x23 => zero (fld w 1 8) <| accept (.ssroll (fD w) (fA w) (fB w) (fBit w 0))
  | 0x24 => decDAB w .ssfork
  | 0x25 => decA w .ssclose
  | 0x26 => decDAB w .launch
  | 0x27 => decA w .hintsucc
  | 0x28 => decNone w .waitpred
  | 0x29 => decNone w .rte
  | 0x2A => decNone w .halt
  | 0x2B => decDA w .sleep
  | 0x2C => decDA w .wake
  | 0x2D => decDA w .migrate
  | 0x2E => decDAF w .take
  | 0x2F => decDA w .extq
  | _ => .error .unassigned

/-- The form of MOVI from H and U (R225). -/
def MoviForm.ofCode (hu : Nat) : Option MoviForm :=
  match hu with
  | 0 => some .sext | 1 => some .zext | 2 => some .hi | _ => none
/-- The form of MOVI as H and U (R225). -/
def MoviForm.code : MoviForm → Nat
  | .sext => 0 | .zext => 1 | .hi => 2

/-- A logic operation with a wide immediate (R224, R225). -/
def decLogic (w : Nat) (i : BitVec 32) (mk : Reg → Reg → Bool → BitVec 32 → Instr) : Except DecodeError Instr :=
  zero (fld w 0 6) <| zero (fld w 7 7) <| accept (mk (fD w) (fA w) (fBit w 6) i)

/-- Class 0b11 (R94, R224). Word 1 never decides whether word 0 is accepted; its reserved bits are checked by the
instruction (R223). -/
def decode11 (op w : Nat) (i : BitVec 32) : Except DecodeError Instr :=
  match op with
  | 0x00 => zero (fld w 0 6) <| zero (fld w 8 11) <| listed (MoviForm.ofCode (fld w 6 2)) fun f =>
      accept (.movi (fD w) f i)
  | 0x01 => zero (fld w 0 7) <| zero (fld w 9 5) <| listed (IMode.ofCode (fld w 7 2)) fun m =>
      accept (.addl (fD w) (fA w) m i)
  | 0x02 => zero (fld w 3 11) <| listed (LdSz.ofCode (fld w 0 3)) fun z => accept (.ldl (fD w) (fA w) z i)
  | 0x03 => zero (fld w 3 11) <| listed (StSz.ofCode (fld w 0 3)) fun z => accept (.stl (fD w) (fA w) z i)
  | 0x04 => zero (fld w 0 19) <| zero (fld w 22 2) <| accept (.brl (BitVec.ofNat 3 (w / 2 ^ 19)) i)
  | 0x05 => decNone w (.calll i)
  | 0x06 => zero (fld w 3 11) <| accept (.vldl (fD w) (fA w) (VTy.ofCode (fld w 0 3)) i)
  | 0x07 => zero (fld w 3 11) <| accept (.vstl (fD w) (fA w) (VTy.ofCode (fld w 0 3)) i)
  | 0x08 => decDAB w fun d a b => .cpy d a b i
  | 0x09 => decDA w fun d a => .enqi d a i
  | 0x0A => decDA w fun d a => .pushk d a i
  | 0x0B => decLogic w i .andl
  | 0x0C => zero (fld w 3 3) <| zero (fld w 7 7) <| listed (ICond.ofCode (fld w 0 3)) fun c =>
      accept (.cmpl (fD w) (fA w) (fBit w 6) c i)
  | 0x0D => decLogic w i .orl
  | 0x0E => decLogic w i .xorl
  | 0x0F => zero (fld w 1 3) <| zero (fld w 8 1) <|
      accept (.mmal (fD w) (fOA w) (fOB w) (fBit w 7) (fBit w 6) (fBit w 0) i)
  | 0x10 => zero (fld w 3 16) <| accept (.vbcasti (fD w) (VTy.ofCode (fld w 0 3)) i)
  | 0x11 => decD w fun n => .tcfgi n i
  | 0x12 => zero (fld w 2 12) <| accept (.sssnapi (fD w) (fA w) (SnapCode.ofCode (fld w 0 2)) i)
  | 0x13 => zero (fld w 0 6) <| zero (fld w 7 7) <|
      if fBit w 6 then accept (.jmpl (fD w) (some (fA w)) i) else zero (fld w 14 5) <| accept (.jmpl (fD w) none i)
  | 0x14 => zero (fld w 7 1) <| zero (fld w 4 2) <| listed (AmoOp.ofCode (fld w 0 4)) fun o =>
      accept (.amol (fD w) (fA w) (fB w) (fBit w 8) (fBit w 6) o i)
  | 0x15 => zero (fld w 7 1) <| zero (fld w 0 6) <| accept (.casl (fD w) (fA w) (fB w) (fBit w 8) (fBit w 6) i)
  | 0x16 => decDAB w fun d a b => .ldpair d a b i
  | 0x17 => decDAB w fun d a b => .stpair d a b i
  | _ => .error .unassigned

/-- Decode word 0 and word 1 (word 1 is ignored by a short form). Total on all words. -/
def decodeWords (w0 : Nat) (w1 : BitVec 32) : Except DecodeError Instr :=
  match fld w0 30 2 with
  | 0 => decode00 (fld w0 24 6) w0
  | 1 => decode01 (fld w0 24 6) w0
  | 2 => decode10 (fld w0 24 6) w0
  | _ => decode11 (fld w0 24 6) w0 w1

/-- Word 0 names a long form (R85). -/
def longWord (w0 : Nat) : Bool := fld w0 30 2 == 3

/-- The 32-bit little-endian word of four bytes (R2). -/
def leWord (a b c d : Byte) : Nat := a.toNat + 2 ^ 8 * b.toNat + 2 ^ 16 * c.toNat + 2 ^ 24 * d.toNat

/-- Decode from bytes: the instruction and the bytes after it. Too few bytes is no instruction. -/
def decodeBytes : List Byte → Except DecodeError (Instr × List Byte)
  | a :: b :: c :: d :: rest =>
    if longWord (leWord a b c d) then
      match rest with
      | e :: f :: g :: h :: rest' =>
        (decodeWords (leWord a b c d) (BitVec.ofNat 32 (leWord e f g h))).map fun i => (i, rest')
      | _ => .error .unassigned
    else (decodeWords (leWord a b c d) 0).map fun i => (i, rest)
  | _ => .error .unassigned

/-- The bytes of nbits bits of w, lowest first, padded with zeros to two words. -/
def tableBytes (nbits w : Nat) : List Byte :=
  (List.range 8).map fun k => BitVec.ofNat 8 (w % 2 ^ nbits / 2 ^ (8 * k))

/-- The instruction that the decoder reads from the table's word w of nbits bits. -/
def decodeTableWord (nbits w : Nat) : Option Instr :=
  match decodeBytes (tableBytes nbits w) with
  | .ok (i, _) => some i
  | .error _ => none

/-! The encoder, from the same tables. -/

/-- Word 0 from class and opcode, d, a and the low 14 bits (R86). -/
def mkI (top : Nat) (d a : Reg) (lo : Nat) : Nat := top * 2 ^ 24 + d.toNat * 2 ^ 19 + a.toNat * 2 ^ 14 + lo
/-- Word 0 of format A (R86). -/
def mkA (top : Nat) (d a b : Reg) (vf : Nat) : Nat := mkI top d a (b.toNat * 2 ^ 9 + vf)
/-- Word 0 of format V (R86). -/
def mkV (top : Nat) (d a b : Reg) (s : Nat) (t : VTy) (p : PReg) (m : Nat) : Nat :=
  mkA top d a b (s * 2 ^ 8 + t.code * 2 ^ 5 + p.toNat * 2 ^ 2 + m)
/-- Format V with a second source (R90). -/
def mkVS (top : Nat) (d a : Reg) (b : VSrc) (t : VTy) (p : PReg) (m : Nat) : Nat :=
  match b with
  | .v r => mkV top d a r 0 t p m
  | .s r => mkV top d a r 1 t p m
/-- VEXT and VINS (R141). -/
def mkIx (top : Nat) (d a : Reg) (ix : LaneIx) (t : VTy) : Nat :=
  match ix with
  | .k r => mkV top d a r 0 t 0 0
  | .s r => mkV top d a r 1 t 0 0
/-- An operand slot's low five bits (R87). -/
def slotLo (o : Slot) : Reg := BitVec.ofNat 5 o.toNat
/-- An operand slot's bit 5 (R87). -/
def slotHi (o : Slot) : Nat := o.toNat / 32
/-- A flag as a bit. -/
def bitOf (b : Bool) : Nat := if b then 1 else 0

/-- Word 0 of an instruction; an event has none and gives 0. -/
def encode0 : Instr → Nat
  | .nop => 0
  | .add d a b m u => mkA 0x01 d a b (m.code * 2 ^ 7 + bitOf u * 2 ^ 6)
  | .sub d a b m u => mkA 0x02 d a b (m.code * 2 ^ 7 + bitOf u * 2 ^ 6)
  | .mul d a b m u => mkA 0x03 d a b (m.code * 2 ^ 7 + bitOf u * 2 ^ 6)
  | .mulh d a b u => mkA 0x04 d a b (bitOf u * 2 ^ 6)
  | .div d a b m u => mkA 0x05 d a b (m.code * 2 ^ 7 + bitOf u * 2 ^ 6)
  | .rem d a b u => mkA 0x06 d a b (bitOf u * 2 ^ 6)
  | .and d a b => mkA 0x07 d a b 0
  | .or d a b => mkA 0x08 d a b 0
  | .xor d a b => mkA 0x09 d a b 0
  | .andn d a b => mkA 0x0A d a b 0
  | .shl d a b => mkA 0x0B d a b 0
  | .shr d a b => mkA 0x0C d a b 0
  | .sar d a b => mkA 0x0D d a b 0
  | .rot d a b => mkA 0x0E d a b 0
  | .min d a b u => mkA 0x0F d a b (bitOf u * 2 ^ 6)
  | .max d a b u => mkA 0x10 d a b (bitOf u * 2 ^ 6)
  | .clz d a => mkI 0x11 d a 0
  | .popc d a => mkI 0x12 d a 0
  | .sel d a b k => mkA 0x13 d a b k.toNat
  | .cmp d a b u c => mkA 0x14 d a b (bitOf u * 2 ^ 6 + c.code)
  | .addi d a imm => mkI 0x15 d a imm.toNat
  | .andi d a imm => mkI 0x16 d a imm.toNat
  | .ori d a imm => mkI 0x17 d a imm.toNat
  | .xori d a imm => mkI 0x18 d a imm.toNat
  | .shli d a n => mkI 0x19 d a n.toNat
  | .shri d a n => mkI 0x1A d a n.toNat
  | .sari d a n => mkI 0x1B d a n.toNat
  | .cmpi d a c u imm => mkI 0x1C d a (c.code * 2 ^ 11 + bitOf u * 2 ^ 10 + imm.toNat)
  | .fadd d a b r p => mkA 0x1D d a b (r.code * 2 ^ 6 + bitOf p)
  | .fsub d a b r p => mkA 0x1E d a b (r.code * 2 ^ 6 + bitOf p)
  | .fmul d a b r p => mkA 0x1F d a b (r.code * 2 ^ 6 + bitOf p)
  | .fdiv d a b r p => mkA 0x20 d a b (r.code * 2 ^ 6 + bitOf p)
  | .fsqrt d a r p => mkA 0x21 d a 0 (r.code * 2 ^ 6 + bitOf p)
  | .fma d a b r p => mkA 0x22 d a b (r.code * 2 ^ 6 + bitOf p)
  | .fcmp d a b c p => mkA 0x23 d a b (c.code * 2 + bitOf p)
  | .fcvt d a r dst src => mkA 0x24 d a 0 (r.code * 2 ^ 6 + dst.code * 2 ^ 3 + src.code)
  | .fmin d a b p => mkA 0x25 d a b (bitOf p)
  | .fmax d a b p => mkA 0x26 d a b (bitOf p)
  | .fclass d a p => mkA 0x27 d a 0 (bitOf p)
  | .br k off => 0x28 * 2 ^ 24 + k.toNat * 2 ^ 21 + off.toNat
  | .jmp a => mkI 0x29 0 a 0
  | .call off => 0x2A * 2 ^ 24 + off.toNat
  | .ret => 0x2B * 2 ^ 24
  | .loop d off => mkI 0x2C d 0 off.toNat
  | .crd d n => mkI 0x2D d 0 n.toNat
  | .cwr n a => mkI 0x2E 0 a n.toNat
  | .trap code => mkI 0x2F 0 0 code.toNat
  | .vadd d a b t p m => mkVS 0x40 d a b t p m.code
  | .vsub d a b t p m => mkVS 0x41 d a b t p m.code
  | .vmul d a b t p m => mkVS 0x42 d a b t p m.code
  | .vfma d a b t p m => mkVS 0x43 d a b t p m.code
  | .vmin d a b t p => mkVS 0x44 d a b t p 0
  | .vmax d a b t p => mkVS 0x45 d a b t p 0
  | .vand d a b t p => mkVS 0x46 d a b t p 0
  | .vor d a b t p => mkVS 0x47 d a b t p 0
  | .vxor d a b t p => mkVS 0x48 d a b t p 0
  | .vshl d a b t p => mkVS 0x49 d a b t p 0
  | .vshr d a b t p => mkVS 0x4A d a b t p 0
  | .vsar d a b t p => mkVS 0x4B d a b t p 0
  | .vcmp k a b t p c => mkVS 0x4C (BitVec.ofNat 5 (c.code / 4 * 8 + k.toNat)) a b t p (c.code % 4)
  | .vsel d a b t p => mkVS 0x4D d a b t p 0
  | .vcvt d a b t p m => mkV 0x4E d a b 1 t p m.code
  | .vred d a op t p m => mkV 0x4F d a (BitVec.ofNat 5 op.code) 0 t p m.code
  | .vscan d a op t p m => mkV 0x50 d a (BitVec.ofNat 5 op.code) 0 t p m.code
  | .vperm d a b t p => mkVS 0x51 d a b t p 0
  | .vbcast d (.lane va k) t p => mkV 0x52 d va k 0 t p 0
  | .vbcast d (.s r) t p => mkV 0x52 d 0 r 1 t p 0
  | .vexp2 d a p => mkV 0x53 d a 0 0 .f32 p 0
  | .vlog2 d a p => mkV 0x54 d a 0 0 .f32 p 0
  | .vrcp d a p => mkV 0x55 d a 0 0 .f32 p 0
  | .vrsqrt d a p => mkV 0x56 d a 0 0 .f32 p 0
  | .vabs d a t p m => mkV 0x57 d a 0 0 t p m.code
  | .vneg d a t p m => mkV 0x58 d a 0 0 t p m.code
  | .vmov d a t p => mkV 0x59 d a 0 0 t p 0
  | .vext d a ix t => mkIx 0x5A d a ix t
  | .vins d a ix t => mkIx 0x5B d a ix t
  | .vld d a t off => mkI 0x5C d a (t.code * 2 ^ 11 + off.toNat)
  | .vst d a t off => mkI 0x5D d a (t.code * 2 ^ 11 + off.toNat)
  | .vlds d a b t p => mkV 0x5E d a b 1 t p 0
  | .vsts d a b t p => mkV 0x5F d a b 1 t p 0
  | .vgath d a b t p => mkV 0x60 d a b 0 t p 0
  | .vscat d a b t p => mkV 0x61 d a b 0 t p 0
  | .vtopk d a b p fresh => mkV 0x62 d a b 1 .f32 p (bitOf fresh)
  | .vpopc d a t p => mkV 0x63 d a 0 0 t p 0
  | .tcfg n a => mkI 0x64 n a 0
  | .tld n a off => mkI 0x65 n a off.toNat
  | .tst n a off => mkI 0x66 n a off.toNat
  | .trow d a b w => mkA 0x67 d a b (bitOf w)
  | .tcol d a b w => mkA 0x68 d a b (bitOf w)
  | .tzero n => mkI 0x69 n 0 0
  | .tmma c a b => mkA 0x6A c a b 0
  | .tclean n => mkI 0x6B n 0 0
  | .oclaim d a acc => mkI 0x6C d a (bitOf acc)
  | .orel a acc => mkI 0x6D 0 a (bitOf acc)
  | .oload d a o => mkA 0x6E d a (slotLo o) (slotHi o * 2 ^ 4)
  | .mma n oa ob z => mkA 0x6F n (slotLo oa) (slotLo ob) (slotHi oa * 2 ^ 5 + slotHi ob * 2 ^ 4 + bitOf z)
  | .azero n => mkI 0x70 n 0 0
  | .ard n a b m z t => mkA 0x71 n a b (m.code * 2 ^ 7 + bitOf z * 2 ^ 6 + t.code)
  | .awr n a b t => mkA 0x72 n a b t.code
  | .vsmpl d a b => mkV 0x73 d a b 1 .f32 0 0
  | .vaccept d a b p => mkV 0x74 d a b 1 .i32 p 0
  | .vrng d b p => mkV 0x75 d 0 b 1 .i64 p 0
  | .vcnt d k t lead => mkV 0x76 d k 0 0 t 0 (bitOf lead)
  | .vidx d b t p => mkV 0x77 d 0 b 1 t p 0
  | .ld d a z off => mkI 0x80 d a (z.code * 2 ^ 11 + off.toNat)
  | .st d a z off => mkI 0x81 d a (z.code * 2 ^ 11 + off.toNat)
  | .ldt d a off => mkI 0x82 d a off.toNat
  | .stt d a off => mkI 0x83 d a off.toNat
  | .pref a off => mkI 0x84 0 a off.toNat
  | .amo d a b w u op => mkA 0x85 d a b (bitOf w * 2 ^ 8 + bitOf u * 2 ^ 6 + op.code)
  | .cas d a b w u => mkA 0x86 d a b (bitOf w * 2 ^ 8 + bitOf u * 2 ^ 6)
  | .fence sc => 0x87 * 2 ^ 24 + sc.code
  | .phase sc => 0x88 * 2 ^ 24 + sc.code
  | .bari a b => mkA 0x89 0 a b 0
  | .bara d a b sc => mkA 0x8A d a b sc.code
  | .barw a b sc => mkA 0x8B 0 a b sc.code
  | .waitf d a e sc => mkI 0x8C d a (bitOf e * 2 ^ 6 + sc.code)
  | .fill d a b sc => mkA 0x8D d a b sc.code
  | .qput q a => mkI 0x8E q a 0
  | .qget d q => mkI 0x8F d q 0
  | .qstream q b => mkI 0x90 q b 0
  | .qflush q => mkI 0x91 q 0 0
  | .new d a h => mkI 0x92 d a (bitOf h)
  | .free a => mkI 0x93 0 a 0
  | .link d a b => mkA 0x94 d a b 0
  | .wire d a b => mkA 0x95 d a b 0
  | .pushx d a b => mkA 0x96 d a b 0
  | .retire => 0x97 * 2 ^ 24
  | .tshare d a => mkI 0x98 d a 0
  | .tdrop d a => mkI 0x99 d a 0
  | .enq d a b => mkA 0x9A d a b 0
  | .enwait a b => mkA 0x9B 0 a b 0
  | .gather d a b => mkA 0x9C d a b 0
  | .scatter d a b => mkA 0x9D d a b 0
  | .publish d a => mkI 0x9E d a 0
  | .ssopen d a b => mkA 0x9F d a b 0
  | .ssld d a b => mkA 0xA0 d a b 0
  | .ssst d a b => mkA 0xA1 d a b 0
  | .sssnap d a b c => mkA 0xA2 d a b c.code
  | .ssroll d a b t => mkA 0xA3 d a b (bitOf t)
  | .ssfork d a b => mkA 0xA4 d a b 0
  | .ssclose a => mkI 0xA5 0 a 0
  | .launch d a b => mkA 0xA6 d a b 0
  | .hintsucc a => mkI 0xA7 0 a 0
  | .waitpred => 0xA8 * 2 ^ 24
  | .rte => 0xA9 * 2 ^ 24
  | .halt => 0xAA * 2 ^ 24
  | .sleep d a => mkI 0xAB d a 0
  | .wake d a => mkI 0xAC d a 0
  | .migrate d a => mkI 0xAD d a 0
  | .take d a n => mkI 0xAE d a (bitOf n)
  | .extq d a => mkI 0xAF d a 0
  | .movi d f _ => mkI 0xC0 d 0 (f.code * 2 ^ 6)
  | .addl d a m _ => mkI 0xC1 d a (m.code * 2 ^ 7)
  | .ldl d a z _ => mkI 0xC2 d a z.code
  | .stl d a z _ => mkI 0xC3 d a z.code
  | .brl k _ => mkI 0xC4 (BitVec.ofNat 5 k.toNat) 0 0
  | .calll _ => 0xC5 * 2 ^ 24
  | .vldl d a t _ => mkI 0xC6 d a t.code
  | .vstl d a t _ => mkI 0xC7 d a t.code
  | .cpy d a b _ => mkA 0xC8 d a b 0
  | .enqi d a _ => mkI 0xC9 d a 0
  | .pushk d a _ => mkI 0xCA d a 0
  | .andl d a z _ => mkI 0xCB d a (bitOf z * 2 ^ 6)
  | .cmpl d a u c _ => mkI 0xCC d a (bitOf u * 2 ^ 6 + c.code)
  | .orl d a z _ => mkI 0xCD d a (bitOf z * 2 ^ 6)
  | .xorl d a z _ => mkI 0xCE d a (bitOf z * 2 ^ 6)
  | .mmal n oa ob ovb ova z _ => mkA 0xCF n (slotLo oa) (slotLo ob)
      (bitOf ovb * 2 ^ 7 + bitOf ova * 2 ^ 6 + slotHi oa * 2 ^ 5 + slotHi ob * 2 ^ 4 + bitOf z)
  | .vbcasti d t _ => mkI 0xD0 d 0 t.code
  | .tcfgi n _ => mkI 0xD1 n 0 0
  | .sssnapi d a c _ => mkI 0xD2 d a c.code
  | .jmpl d (some a) _ => mkI 0xD3 d a (2 ^ 6)
  | .jmpl d none _ => mkI 0xD3 d 0 0
  | .amol d a b w u op _ => mkA 0xD4 d a b (bitOf w * 2 ^ 8 + bitOf u * 2 ^ 6 + op.code)
  | .casl d a b w u _ => mkA 0xD5 d a b (bitOf w * 2 ^ 8 + bitOf u * 2 ^ 6)
  | .ldpair d a b _ => mkA 0xD6 d a b 0
  | .stpair d a b _ => mkA 0xD7 d a b 0
  | .packageReset | .thermalReset | .powerWindow | .getVersion .. | .attest .. | .create .. | .destroy ..
  | .stop .. | .resume .. | .switchOut .. | .switchOutProceed .. | .switchIn .. | .evacuate .. | .uploadPlan ..
  | .readInstance .. | .tagWrite .. | .faultRead .. | .map .. | .refuse .. | .replay .. | .flush ..
  | .invalidate .. | .readCounters .. | .telemetry .. | .kick .. | .progressWrite .. | .hostRegisterWrite ..
  | .cxlMemWrite .. | .cxlMemRead .. | .gangStopArrival .. | .remoteImmediateOp .. | .stackRequest ..
  | .replyArrival .. | .refusalArrival .. | .lateTrapDelivery .. | .waitTableRetry .. | .waiterWake ..
  | .wakeArrival .. | .sleepTimeout .. | .pushAdmit .. | .spillDrain .. | .queueDispatch .. | .transitReoffer ..
  | .sequencerRewrite .. | .linkUnitRequest .. | .terminationWave .. | .freeCountReport .. | .instancePlacement
  | .placementAgeLimit | .instancePrepare .. | .launchAccept | .instanceDone .. | .instanceFault ..
  | .migrationCapture .. | .migrationResume .. | .extensionTargetFree .. | .forwardingExpiry ..
  | .messageReturn .. | .tileRestoreDone .. | .faultMessage .. | .pageWalkResult .. | .translationAnswer ..
  | .coprocEntry .. | .tmmaResult .. | .stripFetch .. | .cpyBlock .. | .engineNop .. | .copyCmd .. | .gatherCmd ..
  | .ssHeadToMemory .. | .ssMemoryToHead .. | .countersCmd .. | .engineReadReply .. | .enginePost ..
  | .gatherReply .. | .patrolScrub .. | .svailaetGroupReceive .. | .svailaetRetrainDone .. | .d2dFlitReceive ..
  | .ringHop .. | .meshHop .. | .packetDelivery .. | .ringFreeCounts .. | .svailaetGroupSend ..
  | .svailaetPortReturns .. => 0

/-- Word 1 of a long form; 0 otherwise. -/
def encode1 : Instr → BitVec 32
  | .movi _ _ i | .addl _ _ _ i | .ldl _ _ _ i | .stl _ _ _ i | .brl _ i | .calll i | .vldl _ _ _ i | .vstl _ _ _ i
  | .cpy _ _ _ i | .enqi _ _ i | .pushk _ _ i | .andl _ _ _ i | .cmpl _ _ _ _ i | .orl _ _ _ i | .xorl _ _ _ i
  | .mmal _ _ _ _ _ _ i | .vbcasti _ _ i | .tcfgi _ i | .sssnapi _ _ _ i | .jmpl _ _ i | .amol _ _ _ _ _ _ i
  | .casl _ _ _ _ _ i | .ldpair _ _ _ i | .stpair _ _ _ i => i
  | .nop | .add .. | .sub .. | .mul .. | .mulh .. | .div .. | .rem .. | .and .. | .or .. | .xor .. | .andn ..
  | .shl .. | .shr .. | .sar .. | .rot .. | .min .. | .max .. | .clz .. | .popc .. | .sel .. | .cmp .. | .addi ..
  | .andi .. | .ori .. | .xori .. | .shli .. | .shri .. | .sari .. | .cmpi .. | .fadd .. | .fsub .. | .fmul ..
  | .fdiv .. | .fsqrt .. | .fma .. | .fcmp .. | .fcvt .. | .fmin .. | .fmax .. | .fclass .. | .br .. | .jmp ..
  | .call .. | .ret | .loop .. | .crd .. | .cwr .. | .trap .. | .vadd .. | .vsub .. | .vmul .. | .vfma ..
  | .vmin .. | .vmax .. | .vand .. | .vor .. | .vxor .. | .vshl .. | .vshr .. | .vsar .. | .vcmp .. | .vsel ..
  | .vcvt .. | .vred .. | .vscan .. | .vperm .. | .vbcast .. | .vexp2 .. | .vlog2 .. | .vrcp .. | .vrsqrt ..
  | .vabs .. | .vneg .. | .vmov .. | .vext .. | .vins .. | .vld .. | .vst .. | .vlds .. | .vsts .. | .vgath ..
  | .vscat .. | .vtopk .. | .vpopc .. | .tcfg .. | .tld .. | .tst .. | .trow .. | .tcol .. | .tzero .. | .tmma ..
  | .tclean .. | .oclaim .. | .orel .. | .oload .. | .mma .. | .azero .. | .ard .. | .awr .. | .vsmpl ..
  | .vaccept .. | .vrng .. | .vcnt .. | .vidx .. | .ld .. | .st .. | .ldt .. | .stt .. | .pref .. | .amo ..
  | .cas .. | .fence .. | .phase .. | .bari .. | .bara .. | .barw .. | .waitf .. | .fill .. | .qput .. | .qget ..
  | .qstream .. | .qflush .. | .new .. | .free .. | .link .. | .wire .. | .pushx .. | .retire | .tshare ..
  | .tdrop .. | .enq .. | .enwait .. | .gather .. | .scatter .. | .publish .. | .ssopen .. | .ssld .. | .ssst ..
  | .sssnap .. | .ssroll .. | .ssfork .. | .ssclose .. | .launch .. | .hintsucc .. | .waitpred | .rte | .halt
  | .sleep .. | .wake .. | .migrate .. | .take .. | .extq .. | .packageReset | .thermalReset | .powerWindow
  | .getVersion .. | .attest .. | .create .. | .destroy .. | .stop .. | .resume .. | .switchOut ..
  | .switchOutProceed .. | .switchIn .. | .evacuate .. | .uploadPlan .. | .readInstance .. | .tagWrite ..
  | .faultRead .. | .map .. | .refuse .. | .replay .. | .flush .. | .invalidate .. | .readCounters ..
  | .telemetry .. | .kick .. | .progressWrite .. | .hostRegisterWrite .. | .cxlMemWrite .. | .cxlMemRead ..
  | .gangStopArrival .. | .remoteImmediateOp .. | .stackRequest .. | .replyArrival .. | .refusalArrival ..
  | .lateTrapDelivery .. | .waitTableRetry .. | .waiterWake .. | .wakeArrival .. | .sleepTimeout ..
  | .pushAdmit .. | .spillDrain .. | .queueDispatch .. | .transitReoffer .. | .sequencerRewrite ..
  | .linkUnitRequest .. | .terminationWave .. | .freeCountReport .. | .instancePlacement | .placementAgeLimit
  | .instancePrepare .. | .launchAccept | .instanceDone .. | .instanceFault .. | .migrationCapture ..
  | .migrationResume .. | .extensionTargetFree .. | .forwardingExpiry .. | .messageReturn .. | .tileRestoreDone ..
  | .faultMessage .. | .pageWalkResult .. | .translationAnswer .. | .coprocEntry .. | .tmmaResult ..
  | .stripFetch .. | .cpyBlock .. | .engineNop .. | .copyCmd .. | .gatherCmd .. | .ssHeadToMemory ..
  | .ssMemoryToHead .. | .countersCmd .. | .engineReadReply .. | .enginePost .. | .gatherReply ..
  | .patrolScrub .. | .svailaetGroupReceive .. | .svailaetRetrainDone .. | .d2dFlitReceive .. | .ringHop ..
  | .meshHop .. | .packetDelivery .. | .ringFreeCounts .. | .svailaetGroupSend .. | .svailaetPortReturns .. => 0

/-- Word 0 as TRAPA reports it: zero-extended (R236). -/
def word0 (i : Instr) : Word := BitVec.ofNat 64 (encode0 i)

end Sys2Proof
end

