-- ==== Sys2Proof/Machine/Flags.lean ====
section
/-! DEFINITION. The sticky bits and the mode fields of STATUS (R36), and the fitting of exact integers (R37, R38). -/

namespace Sys2Proof.Machine

/-- A set of sticky bits of STATUS, at their places in STATUS [15:8] (R36). -/
abbrev Sticky := BitVec 16

/-- NV, invalid operation (R36). -/
def stNV : Sticky := 0x8000
/-- DZ, division by zero (R36). -/
def stDZ : Sticky := 0x4000
/-- OF, overflow (R36). -/
def stOF : Sticky := 0x2000
/-- UF, underflow (R36). -/
def stUF : Sticky := 0x1000
/-- NX, inexact (R36). -/
def stNX : Sticky := 0x0800
/-- PSN, a read returned bytes of a poisoned block (R36, R50). -/
def stPSN : Sticky := 0x0400
/-- ISAT, an integer result saturated (R36). -/
def stISAT : Sticky := 0x0200
/-- ACCSAT, an integer accumulator saturated (R36). -/
def stACCSAT : Sticky := 0x0100

/-- The sticky bits f when c holds, none otherwise. -/
def stickyIf (c : Bool) (f : Sticky) : Sticky := if c then f else 0

/-- Hardware only ever sets the sticky bits (R36). -/
def statusOr (st : Word) (f : Sticky) : Word := st ||| (f &&& 0xFF00).setWidth 64

/-- The RW fields of STATUS: the sticky bits, SATMODE and RMODE (R36). -/
def statusRW : Word := 0xFF1E

/-- A CWR to STATUS writes every RW field and nothing else (R36). -/
def statusWrite (st v : Word) : Word := (st &&& ~~~statusRW) ||| (v &&& statusRW)

/-- STATUS.SATMODE (R36). -/
def statusSat (st : Word) : Bool := st.getLsbD 4

/-- A rounding direction (R41). -/
inductive Rnd | rne | rtz | rup | rdn | rto
  deriving DecidableEq, Repr, Inhabited

/-- STATUS.RMODE: codes 101 to 111 round as RNE (R36). -/
def statusRnd (st : Word) : Rnd :=
  match (st.toNat / 2) % 8 with
  | 1 => .rtz
  | 2 => .rup
  | 3 => .rdn
  | 4 => .rto
  | _ => .rne

/-- The rounding direction an RM field selects (R110). -/
def rndOf (st : Word) : RMode → Rnd
  | .byStatus => statusRnd st
  | .rne => .rne
  | .rtz => .rtz
  | .rup => .rup
  | .rdn => .rdn
  | .rto => .rto

/-- Whether a mode field selects saturation (R36, R89, R109). -/
def satOf (st : Word) : IMode → Bool
  | .byStatus => statusSat st
  | .wrap => false
  | .sat => true

/-- Fit an exact result to a signed type of w bits, w ≥ 1 (R37). -/
def fitS (w : Nat) (sat : Bool) (x : Int) : BitVec w × Sticky :=
  if sat then
    if x < -(2 ^ (w - 1) : Int) then (BitVec.ofInt w (-(2 ^ (w - 1) : Int)), stISAT)
    else if x > (2 ^ (w - 1) : Int) - 1 then (BitVec.ofInt w ((2 ^ (w - 1) : Int) - 1), stISAT)
    else (BitVec.ofInt w x, 0)
  else (BitVec.ofInt w x, 0)

/-- Fit an exact result to an unsigned type of w bits (R37). -/
def fitU (w : Nat) (sat : Bool) (x : Int) : BitVec w × Sticky :=
  if sat then
    if x < 0 then (0, stISAT)
    else if x > (2 ^ w : Int) - 1 then (BitVec.ofInt w ((2 ^ w : Int) - 1), stISAT)
    else (BitVec.ofInt w x, 0)
  else (BitVec.ofInt w x, 0)

/-- Fit to n64 or i64 by the field U (R109, R113). -/
def fit64 (u sat : Bool) (x : Int) : Word × Sticky := if u then fitU 64 sat x else fitS 64 sat x

/-- A register read as n64 or i64 by the field U (R109). -/
def val64 (u : Bool) (x : Word) : Int := if u then (x.toNat : Int) else x.toInt

/-- The integer conditions of R111. -/
def icond (c : ICond) (a b : Int) : Bool :=
  match c with
  | .eq => a == b
  | .ne => a != b
  | .lt => a < b
  | .ge => a ≥ b
  | .le => a ≤ b
  | .gt => a > b

/-- The value of a predicate written by a true or a false result (R111). -/
def predOf (b : Bool) : Word := if b then BitVec.allOnes 64 else 0

end Sys2Proof.Machine
end

