-- ==== Sys2Proof/Machine/Float.lean ====
section
/-! DEFINITION. Floating-point arithmetic (R40 to R44, R54, R59): values are exact, and one function rounds. -/

namespace Sys2Proof.Machine

/-- A floating format with a sign bit, eb exponent bits and mb fraction bits; its bias is 2^(eb−1) − 1 (R40, R54). -/
structure Fmt where
  eb : Nat
  mb : Nat
  deriving DecidableEq, Repr, Inhabited

/-- binary64 (R40). -/
def fmtF64 : Fmt := ⟨11, 52⟩
/-- binary32 (R40). -/
def fmtF32 : Fmt := ⟨8, 23⟩
/-- binary16 (R40). -/
def fmtF16 : Fmt := ⟨5, 10⟩
/-- bf16 (R40). -/
def fmtBF16 : Fmt := ⟨8, 7⟩
/-- Float A48 (R54). -/
def fmtA48 : Fmt := ⟨10, 37⟩

/-- Width of a format in bits. -/
def fmtWidth (f : Fmt) : Nat := 1 + f.eb + f.mb
/-- Exponent bias of a format. -/
def fmtBias (f : Fmt) : Nat := 2 ^ (f.eb - 1) - 1

/-- An exact value: a NaN (signalling or not), an infinity, or (−1)^neg × man × 2^exp. -/
inductive FVal
  | nan (sig : Bool)
  | inf (neg : Bool)
  | fin (neg : Bool) (man : Nat) (exp : Int)
  deriving DecidableEq, Repr, Inhabited

/-- The value of an integer. -/
def fvInt (x : Int) : FVal := .fin (x < 0) x.natAbs 0

/-- The value that a code of a format stands for (R40, R54). -/
def fvDecode (f : Fmt) (x : Nat) : FVal :=
  let neg := x / 2 ^ (f.eb + f.mb) % 2 == 1
  let e := x / 2 ^ f.mb % 2 ^ f.eb
  let m := x % 2 ^ f.mb
  if e = 2 ^ f.eb - 1 then
    if m = 0 then .inf neg else .nan (m < 2 ^ (f.mb - 1))
  else if e = 0 then .fin neg m (1 - (fmtBias f : Int) - (f.mb : Int))
  else .fin neg (2 ^ f.mb + m) ((e : Int) - (fmtBias f : Int) - (f.mb : Int))

/-- The sign bit of a code. -/
def signBits (f : Fmt) (neg : Bool) : Nat := if neg then 2 ^ (f.eb + f.mb) else 0
/-- The code of an infinity. -/
def infBits (f : Fmt) (neg : Bool) : Nat := signBits f neg + (2 ^ f.eb - 1) * 2 ^ f.mb
/-- The canonical quiet NaN (R43, R54). -/
def nanBits (f : Fmt) : Nat := (2 ^ f.eb - 1) * 2 ^ f.mb + 2 ^ (f.mb - 1)

/-- Whether rounding away from zero is chosen: q is kept and r is what 2^sh loses (R41). DESIGN CHOICE (log 29): parity is that
of the code's last digit, so that in a format without fraction bits, whose significand is always 1, a tie in RNE rounds away
from zero and RTO keeps the value nearer to zero. -/
def roundUp (rm : Rnd) (neg : Bool) (q r sh : Nat) : Bool :=
  match rm with
  | .rne => 2 * r > 2 ^ sh || (2 * r == 2 ^ sh && q % 2 == 1)
  | .rtz => false
  | .rup => !neg && r != 0
  | .rdn => neg && r != 0
  | .rto => r != 0 && q % 2 == 0

/-- Drop the low sh bits of a magnitude, rounding; the second part says whether the value changed (R41). -/
def roundShift (rm : Rnd) (neg : Bool) (man sh : Nat) : Nat × Bool :=
  let q := man / 2 ^ sh
  let r := man % 2 ^ sh
  (if roundUp rm neg q r sh then q + 1 else q, r != 0)

/-- man × 2^exp as a multiple of 2^q, rounded. -/
def roundQuantum (rm : Rnd) (neg : Bool) (man : Nat) (exp q : Int) : Nat × Bool :=
  if q ≤ exp then (man * 2 ^ (exp - q).toNat, false) else roundShift rm neg man (q - exp).toNat

/-- Whether an overflow becomes an infinity, by mode and sign (R41). -/
def overflowInf (rm : Rnd) (neg : Bool) : Bool :=
  match rm with
  | .rne => true
  | .rtz => false
  | .rto => false
  | .rup => !neg
  | .rdn => neg

/-- The magnitude code of a nonzero finite value with m fraction bits and least exponent emin, and whether rounding changed
it: exponents above the range are not yet dealt with. -/
def packMag (rm : Rnd) (mb : Nat) (emin : Int) (neg : Bool) (man : Nat) (exp : Int) : Nat × Bool :=
  let lead : Int := (Nat.log2 man : Int) + exp
  let q : Int := max lead emin - (mb : Int)
  let r := roundQuantum rm neg man exp q
  ((q - (emin - (mb : Int))).toNat * 2 ^ mb + r.1, r.2)

/-- Round an exact value once to a format (R40 to R43). DESIGN CHOICE (log 29): overflow is judged by the rounded value. -/
def roundTo (f : Fmt) (rm : Rnd) : FVal → Nat × Sticky
  | .nan sig => (nanBits f, stickyIf sig stNV)
  | .inf neg => (infBits f neg, 0)
  | .fin neg man exp =>
    if man = 0 then (signBits f neg, 0) else
    let r := packMag rm f.mb (1 - (fmtBias f : Int)) neg man exp
    if r.1 ≥ (2 ^ f.eb - 1) * 2 ^ f.mb then
      (if overflowInf rm neg then infBits f neg else infBits f neg - 1, stOF ||| stNX)
    else
      (signBits f neg + r.1,
        stickyIf r.2 stNX ||| stickyIf (r.2 && r.1 != 0 && r.1 < 2 ^ f.mb) stUF)

/-- A signalling NaN operand sets NV (R43). -/
def snanNV : FVal → Sticky
  | .nan true => stNV
  | _ => 0

/-- The value is a NaN. -/
def fvIsNan : FVal → Bool
  | .nan _ => true
  | _ => false

/-- The value with its sign changed. -/
def fvNeg : FVal → FVal
  | .nan s => .nan s
  | .inf n => .inf !n
  | .fin n m e => .fin (!n) m e

/-- The exact value as an integer multiple of 2^e, for e at most its exponent. -/
def fvScaled (neg : Bool) (man : Nat) (exp e : Int) : Int :=
  let x : Int := (man * 2 ^ (exp - e).toNat : Nat)
  if neg then -x else x

/-- Exact sum; the sign of an exact zero follows the mode (R43). -/
def fvAdd (rm : Rnd) : FVal → FVal → FVal × Sticky
  | .nan s, b => (.nan false, stickyIf s stNV ||| snanNV b)
  | a, .nan s => (.nan false, stickyIf s stNV ||| snanNV a)
  | .inf n, .inf m => if n = m then (.inf n, 0) else (.nan false, stNV)
  | .inf n, .fin .. => (.inf n, 0)
  | .fin .., .inf n => (.inf n, 0)
  | .fin n a e, .fin m b f =>
    let g := min e f
    let x := fvScaled n a e g + fvScaled m b f g
    if x = 0 then (.fin (if n = m then n else rm == .rdn) 0 0, 0)
    else (.fin (x < 0) x.natAbs g, 0)

/-- Exact product (R43). -/
def fvMul : FVal → FVal → FVal × Sticky
  | .nan s, b => (.nan false, stickyIf s stNV ||| snanNV b)
  | a, .nan s => (.nan false, stickyIf s stNV ||| snanNV a)
  | .inf n, .inf m => (.inf (n != m), 0)
  | .inf n, .fin m b _ => if b = 0 then (.nan false, stNV) else (.inf (n != m), 0)
  | .fin n a _, .inf m => if a = 0 then (.nan false, stNV) else (.inf (n != m), 0)
  | .fin n a e, .fin m b f => (.fin (n != m) (a * b) (e + f), 0)

/-- a × b + c with one rounding to come (R44). NV is set for 0 × ∞ even when the addend is a quiet NaN (R119). -/
def fvFma (rm : Rnd) (a b c : FVal) : FVal × Sticky :=
  let p := fvMul a b
  let s := fvAdd rm p.1 c
  (s.1, p.2 ||| s.2)

/-- Quotient with a sticky low bit: more than enough bits for every format. -/
def fvDiv : FVal → FVal → FVal × Sticky
  | .nan s, b => (.nan false, stickyIf s stNV ||| snanNV b)
  | a, .nan s => (.nan false, stickyIf s stNV ||| snanNV a)
  | .inf _, .inf _ => (.nan false, stNV)
  | .inf n, .fin m _ _ => (.inf (n != m), 0)
  | .fin n _ _, .inf m => (.fin (n != m) 0 0, 0)
  | .fin n a e, .fin m b f =>
    if b = 0 then
      if a = 0 then (.nan false, stNV) else (.inf (n != m), stDZ)
    else if a = 0 then (.fin (n != m) 0 0, 0)
    else
      let k := 128 + Nat.log2 b
      let q := a * 2 ^ k / b
      let r := a * 2 ^ k % b
      (.fin (n != m) (2 * q + (if r = 0 then 0 else 1)) (e - f - (k : Int) - 1), 0)

/-- Integer square root by bits, from bit k − 1 down. -/
def isqrtGo : Nat → Nat → Nat → Nat
  | 0, _, r => r
  | k + 1, n, r => isqrtGo k n (if (r + 2 ^ k) * (r + 2 ^ k) ≤ n then r + 2 ^ k else r)

/-- The floor of the square root. -/
def isqrt (n : Nat) : Nat := isqrtGo (Nat.log2 n / 2 + 1) n 0

/-- Square root with a sticky low bit; the root of −0 is −0 (R119). -/
def fvSqrt : FVal → FVal × Sticky
  | .nan s => (.nan false, stickyIf s stNV)
  | .inf n => if n then (.nan false, stNV) else (.inf false, 0)
  | .fin n a e =>
    if a = 0 then (.fin n 0 0, 0)
    else if n then (.nan false, stNV)
    else
      let odd := (e % 2 != 0)
      let a2 := (if odd then 2 * a else a) * 2 ^ 256
      let e2 := (if odd then e - 1 else e) - 256
      let r := isqrt a2
      (.fin false (2 * r + (if r * r = a2 then 0 else 1)) (e2 / 2 - 1), 0)

/-- Compare two ordered values: −1, 0 or 1; the two zeros are equal. -/
def fvCmp : FVal → FVal → Int
  | .inf n, .inf m => if n = m then 0 else if n then -1 else 1
  | .inf n, _ => if n then -1 else 1
  | _, .inf m => if m then 1 else -1
  | .fin n a e, .fin m b f =>
    let g := min e f
    let x := fvScaled n a e g - fvScaled m b f g
    if x < 0 then -1 else if x = 0 then 0 else 1
  | _, _ => 0

/-- The sign of a value; of a NaN, plus. -/
def fvSign : FVal → Bool
  | .nan _ => false
  | .inf n => n
  | .fin n _ _ => n

/-- The conditions of FCMP with their NV (R120). -/
def fcond (c : FCond) (a b : FVal) : Bool × Sticky :=
  let un := fvIsNan a || fvIsNan b
  let sn := snanNV a ||| snanNV b
  match c with
  | .eq => (!un && fvCmp a b == 0, sn)
  | .lt => (!un && fvCmp a b == -1, stickyIf un stNV)
  | .le => (!un && fvCmp a b ≤ 0, stickyIf un stNV)
  | .un => (un, sn)
  | .ne => (un || fvCmp a b != 0, sn)

/-- minimumNumber or maximumNumber on codes of a format (R43, R119): an operand unchanged, or the canonical NaN. -/
def fminmax (f : Fmt) (mx : Bool) (x y : Nat) : Nat × Sticky :=
  let a := fvDecode f x
  let b := fvDecode f y
  let fl := snanNV a ||| snanNV b
  if fvIsNan a && fvIsNan b then (nanBits f, fl)
  else if fvIsNan a then (y, fl)
  else if fvIsNan b then (x, fl)
  else
    let c := fvCmp a b
    let aLess := c == -1 || (c == 0 && fvSign a && !fvSign b)
    (if aLess != mx then x else y, fl)

/-- Round a finite value to an integer; the second part says whether the value changed (R44). -/
def fvToInt (rm : Rnd) (neg : Bool) (man : Nat) (exp : Int) : Int × Bool :=
  let r := roundQuantum rm neg man exp 0
  (if neg then -(r.1 : Int) else (r.1 : Int), r.2)

/-- Conversion to an integer of the range lo to hi (R44): saturation and NaN set NV whatever SATMODE holds. The flag
always says that NX is set whenever rounding changed the value (R42, R121); R52 keeps it for values in the range. -/
def fvToRange (rm : Rnd) (lo hi : Int) (always : Bool) : FVal → Int × Sticky
  | .nan _ => (0, stNV)
  | .inf n => (if n then lo else hi, stNV)
  | .fin n m e =>
    let r := fvToInt rm n m e
    if r.1 < lo then (lo, stNV ||| stickyIf (always && r.2) stNX)
    else if r.1 > hi then (hi, stNV ||| stickyIf (always && r.2) stNX)
    else (r.1, stickyIf r.2 stNX)

/-- The class of a value as FCLASS gives it (R122). -/
def fclassOf (f : Fmt) (x : Nat) : Word :=
  let e := x / 2 ^ f.mb % 2 ^ f.eb
  match fvDecode f x with
  | .inf true => 0x001
  | .inf false => 0x080
  | .nan true => 0x100
  | .nan false => 0x200
  | .fin n m _ =>
    if m = 0 then (if n then 0x008 else 0x010)
    else if e = 0 then (if n then 0x004 else 0x020)
    else (if n then 0x002 else 0x040)

/-! ## Transcendentals (R59)

Fixed-point evaluation with 320 fraction bits. A result of VEXP2 or VLOG2 is rational only where the definitions below
treat it apart, so every other result carries a sticky low bit. -/

/-- Fraction bits of the fixed-point evaluation. -/
def trP : Nat := 320

/-- The sum of 2^P / (k × 2^k) for k from n down to 1. -/
def ln2Go : Nat → Nat
  | 0 => 0
  | k + 1 => ln2Go k + 2 ^ trP / ((k + 1) * 2 ^ (k + 1))

/-- ln 2 in fixed point, from the series of −ln(1 − 1/2). -/
def ln2Fix : Nat := ln2Go 330

/-- The Taylor sum of e^t, t in fixed point: n further terms, the last term and the sum so far. -/
def expGo (t : Nat) : Nat → Nat → Nat → Nat → Nat
  | 0, _, _, sum => sum
  | n + 1, k, term, sum =>
    let term' := term * t / 2 ^ trP / k
    expGo t n (k + 1) term' (sum + term')

/-- 2^f for a fraction f in fixed point. -/
def exp2Fix (f : Nat) : Nat := expGo (f * ln2Fix / 2 ^ trP) 80 1 (2 ^ trP) (2 ^ trP)

/-- VEXP2 (R59). -/
def fvExp2 : FVal → FVal × Sticky
  | .nan s => (.nan false, stickyIf s stNV)
  | .inf n => (if n then .fin false 0 0 else .inf false, 0)
  | .fin n m e =>
    let x := fvScaled n m (max e (-300)) (-300)
    let ip := x / 2 ^ 300
    let fr := (x % 2 ^ 300).toNat
    if m = 0 then (.fin false 1 0, 0)
    else if ip ≥ 1024 then (.fin false 1 1024, 0)
    else if ip < -1024 then (.fin false 3 (-1024), 0)
    else if fr = 0 then (.fin false 1 ip, 0)
    else (.fin false (2 * exp2Fix (fr * 2 ^ (trP - 300)) + 1) (ip - (trP : Int) - 1), 0)

/-- The sum of z^(2k+1) / (2k+1): n further terms, the next odd number and power. -/
def atanhGo (z2 : Nat) : Nat → Nat → Nat → Nat → Nat
  | 0, _, _, sum => sum
  | n + 1, k, pw, sum => atanhGo z2 n (k + 2) (pw * z2 / 2 ^ trP) (sum + pw / k)

/-- log2 of man / 2^l in fixed point, for 2^l ≤ man < 2^(l+1). -/
def log2Fix (man l : Nat) : Nat :=
  let z := (man - 2 ^ l) * 2 ^ trP / (man + 2 ^ l)
  2 * atanhGo (z * z / 2 ^ trP) 110 1 z 0 * 2 ^ trP / ln2Fix

/-- VLOG2 (R59). -/
def fvLog2 : FVal → FVal × Sticky
  | .nan s => (.nan false, stickyIf s stNV)
  | .inf n => if n then (.nan false, stNV) else (.inf false, 0)
  | .fin n m e =>
    if m = 0 then (.inf true, stDZ)
    else if n then (.nan false, stNV)
    else
      let l := Nat.log2 m
      let ip := e + (l : Int)
      if m = 2 ^ l then (.fin (ip < 0) ip.natAbs 0, 0)
      else
        let x := ip * 2 ^ trP + (log2Fix m l : Int)
        if x ≥ 0 then (.fin false (2 * x.toNat + 1) (-(trP : Int) - 1), 0)
        else (.fin true (2 * x.natAbs - 1) (-(trP : Int) - 1), 0)

/-- VRCP (R59). -/
def fvRcp (x : FVal) : FVal × Sticky := fvDiv (.fin false 1 0) x

/-- VRSQRT (R59). -/
def fvRsqrt : FVal → FVal × Sticky
  | .nan s => (.nan false, stickyIf s stNV)
  | .inf n => if n then (.nan false, stNV) else (.fin false 0 0, 0)
  | .fin n m e =>
    if m = 0 then (.inf n, stDZ)
    else if n then (.nan false, stNV)
    else
      let odd := (e % 2 != 0)
      let a := if odd then 2 * m else m
      let e2 := if odd then e - 1 else e
      let r := isqrt (2 ^ 512 / a)
      (.fin false (2 * r + (if r * r * a = 2 ^ 512 then 0 else 1)) (-(e2 / 2) - 257), 0)

end Sys2Proof.Machine
end

