-- ==== Sys2Proof/Machine/Narrow.lean ====
section
/-! DEFINITION. Lanes of a block (R76), block tags, narrow formats and sparse packed blocks (R45 to R53). -/

namespace Sys2Proof.Machine

/-- n lanes of w bits packed little-endian, lane i being f i (R76). -/
def packNat (w : Nat) : Nat → (Nat → Nat) → Nat
  | 0, _ => 0
  | n + 1, f => packNat w n f + f n % 2 ^ w * 2 ^ (w * n)

/-- Lane i of w bits of a block (R76). -/
def lane (w i : Nat) (b : Block) : Nat := b.toNat / 2 ^ (w * i) % 2 ^ w

/-- The block whose n lanes of w bits are given; the bits above them are zero. -/
def mkBlock (w n : Nat) (f : Nat → Nat) : Block := BitVec.ofNat 512 (packNat w n f)

/-- The scale byte of a tag (R45). -/
def tagScale (t : Tag) : Nat := t.toNat / 256
/-- The format byte of a tag (R45). -/
def tagFormat (t : Tag) : Nat := t.toNat % 256
/-- The tag of a block never tagged, and of most register writes: raw bytes, scale 2^0 (R45, R76). -/
def rawTag : Tag := 0x7FC0
/-- A block is poisoned when its scale byte is 0xFF (R49). -/
def poisoned (t : Tag) : Bool := tagScale t == 255

/-- The fields of a narrow format byte (R46). -/
structure NFmt where
  /-- Element width in bits. -/
  w : Nat
  signed : Bool
  /-- Exponent width; 0 means integer. -/
  e : Nat
  /-- Mantissa width. -/
  m : Nat
  bias : Int
  deriving DecidableEq, Repr, Inhabited

/-- Read a format byte below 0xC0; none where it is invalid (R46). -/
def narrowOf (b : Nat) : Option NFmt :=
  let w := if b / 64 = 0 then 8 else if b / 64 = 1 then 6 else 4
  let s := b / 32 % 2
  let e := b / 4 % 8
  let o := b % 4
  if b / 64 = 3 then none
  else if w < s + e then none
  else if e = 0 && o != 0 then none
  else some ⟨w, s == 1, e, w - s - e,
    2 ^ (e - 1) - 1 + (match o with | 0 => 0 | 1 => 1 | 2 => -1 | _ => 2)⟩

/-- How the elements of a block lie in it, by its format byte (R46, R48). -/
inductive Layout
  /-- Narrow elements, scaled. -/
  | narrow (f : NFmt)
  /-- A named floating format, not scaled. -/
  | named (f : Fmt)
  /-- A sparse packed block of narrow elements, scaled. -/
  | sparseNarrow (f : NFmt)
  /-- A sparse packed block of a named floating format, scaled. -/
  | sparseNamed (f : Fmt)
  deriving DecidableEq, Repr

/-- The layout a format byte names for a numeric use; none traps FORMAT_BAD (R46, R48). -/
def layoutOf (b : Nat) : Option Layout :=
  if b < 0xC0 then (narrowOf b).map .narrow
  else if b = 0xC1 then some (.named fmtBF16)
  else if b = 0xC2 then some (.named fmtF16)
  else if b = 0xC3 then some (.named fmtF32)
  else if b = 0xC4 then some (.named fmtF64)
  else if b = 0xC8 then (narrowOf 0x30).map .sparseNarrow
  else if b = 0xC9 then some (.sparseNamed fmtBF16)
  else if b = 0xCA then some (.sparseNamed fmtF32)
  else if b = 0xCB then (narrowOf 0xA8).map .sparseNarrow
  else none

/-- Multiply an exact value by 2^k. -/
def fvShift (k : Int) : FVal → FVal
  | .fin n m e => .fin n m (e + k)
  | x => x

/-- The value of a narrow code before scaling (R47, R51). DESIGN CHOICE (log 29): a NaN code of a narrow format is a quiet NaN,
so that converting it sets no NV. -/
def narrowValue (f : NFmt) (topx : Bool) (c : Nat) : FVal :=
  let neg := f.signed && c / 2 ^ (f.w - 1) % 2 == 1
  if f.e = 0 then
    fvInt (if neg then (c : Int) - 2 ^ f.w else (c : Int))
  else
    let ex := c / 2 ^ f.m % 2 ^ f.e
    let ma := c % 2 ^ f.m
    if topx && ex = 2 ^ f.e - 1 then (if ma = 0 then .inf neg else .nan false)
    else if ex = 0 then .fin neg ma (1 - f.bias - (f.m : Int))
    else .fin neg (2 ^ f.m + ma) ((ex : Int) - f.bias - (f.m : Int))

/-- Elements of one block of a narrow format (R47). -/
def narrowCount (f : NFmt) : Nat := if f.w = 8 then 64 else if f.w = 6 then 80 else 128

/-- The code of element i of a narrow block: 4- and 8-bit elements lie side by side, and so do the bits of the 6-bit
groups (R47). -/
def narrowCode (f : NFmt) (b : Block) (i : Nat) : Nat := lane f.w i b

/-- Number of set bits below position n. -/
def popBelow (x : Nat) : Nat → Nat
  | 0 => 0
  | n + 1 => popBelow x n + x / 2 ^ n % 2

/-- The count of a sparse packed block agrees with its bitmap and its values fit (R53). -/
def sparseOk (bits : Nat) (b : Block) : Bool :=
  let n := lane 8 8 b
  popBelow (lane 64 0 b) 64 == n && n * bits ≤ 55 * 8

/-- The code at position p of a sparse packed block: none where the bitmap is clear (R53). -/
def sparseCode (bits : Nat) (b : Block) (p : Nat) : Option Nat :=
  let map := lane 64 0 b
  if map / 2 ^ p % 2 = 1 then some (b.toNat / 2 ^ (72 + bits * popBelow map p) % 2 ^ bits) else none

/-- Why a numeric use of a block traps (R46, R49, R53). -/
inductive BlockBad | format | poison | sparse
  deriving DecidableEq, Repr

/-- The elements of a block used as numbers: how many, their exact values, and whether the format is floating. -/
structure Elems where
  count : Nat
  floating : Bool
  /-- The values, element 0 first. -/
  vals : List FVal
  deriving DecidableEq, Repr

/-- A numeric use of a block (R46 to R53): poison, then the format byte, then the sparse header. -/
def elemsOf (topx : Bool) (t : Tag) (b : Block) : Except BlockBad Elems :=
  let sc : Int := (tagScale t : Int) - 127
  if poisoned t then .error (if topx then .poison else .format)
  else match layoutOf (tagFormat t) with
  | none => .error .format
  | some (.narrow f) =>
    .ok ⟨narrowCount f, f.e != 0,
      (List.range (narrowCount f)).map fun i => fvShift sc (narrowValue f topx (narrowCode f b i))⟩
  | some (.named f) =>
    .ok ⟨512 / fmtWidth f, true, (List.range (512 / fmtWidth f)).map fun i => fvDecode f (lane (fmtWidth f) i b)⟩
  | some (.sparseNarrow f) =>
    if sparseOk f.w b then
      .ok ⟨64, f.e != 0, (List.range 64).map fun p =>
        match sparseCode f.w b p with
        | some c => fvShift sc (narrowValue f topx c)
        | none => .fin false 0 0⟩
    else .error .sparse
  | some (.sparseNamed f) =>
    if sparseOk (fmtWidth f) b then
      .ok ⟨64, true, (List.range 64).map fun p =>
        match sparseCode (fmtWidth f) b p with
        | some c => fvShift sc (fvDecode f c)
        | none => .fin false 0 0⟩
    else .error .sparse

/-- Least and greatest value of an integer of w bits. -/
def intLo (w : Nat) (signed : Bool) : Int := if signed then -(2 ^ (w - 1) : Int) else 0
/-- Greatest value of an integer of w bits. -/
def intHi (w : Nat) (signed : Bool) : Int := if signed then (2 ^ (w - 1) : Int) - 1 else (2 ^ w : Int) - 1

/-- The code of an integer in w bits. -/
def intCode (w : Nat) (x : Int) : Nat := (x % (2 ^ w : Int)).toNat

/-- The greatest finite magnitude code of a floating narrow format (R51). -/
def narrowTop (f : NFmt) (topx : Bool) : Nat :=
  if topx then (2 ^ f.e - 1) * 2 ^ f.m - 1 else 2 ^ (f.e + f.m) - 1

/-- The sign bit of a narrow code. -/
def narrowSign (f : NFmt) (neg : Bool) : Nat := if f.signed && neg then 2 ^ (f.w - 1) else 0

/-- An infinity converted to a floating narrow format (R52): infinity where the format has it, else the greatest finite
magnitude. -/
def narrowInf (f : NFmt) (topx neg : Bool) : Nat :=
  narrowSign f neg + (if topx then (2 ^ f.e - 1) * 2 ^ f.m else narrowTop f topx)

/-- A finite value overflows a floating narrow format: rounded in the mode in force it lies beyond the greatest finite value, or,
under TOPX 0, where every mode saturates alike, rounded to nearest (R52: 500 gives 480 with OF; DEDUCED, log 29). -/
def narrowOverflows (f : NFmt) (topx : Bool) (rounded nearest : Nat) : Bool :=
  narrowTop f topx < rounded || (!topx && narrowTop f topx < nearest)

/-- Conversion of an exact value, already divided by the scale, to a floating narrow format (R52). -/
def toNarrowFloat (f : NFmt) (topx : Bool) (rm : Rnd) : FVal → Nat × Sticky
  | .nan sig =>
    if topx then
      if f.m = 0 then (narrowInf f topx false, stNV)
      else ((2 ^ f.e - 1) * 2 ^ f.m + 2 ^ f.m - 1, stickyIf sig stNV)
    else (0, stNV)
  | .inf neg => if neg && !f.signed then (0, stNV) else (narrowInf f topx neg, 0)
  | .fin neg man exp =>
    if man = 0 then (narrowSign f neg, 0) else
    let r := packMag rm f.m (1 - f.bias) neg man exp
    let fl := stickyIf r.2 stNX ||| stickyIf (r.2 && r.1 != 0 && r.1 < 2 ^ f.m) stUF
    if neg && !f.signed then
      if r.1 = 0 then (0, fl) else (0, stNV)
    else if narrowOverflows f topx r.1 (packMag .rne f.m (1 - f.bias) neg man exp).1 then
      (if !topx then narrowSign f neg + narrowTop f topx
       else if overflowInf rm neg then narrowInf f topx neg
       else narrowSign f neg + narrowTop f topx, stOF ||| stNX)
    else (narrowSign f neg + r.1, fl)

/-- Conversion to an integer narrow format (R52): from an integer it wraps or saturates; from a floating value R44. -/
def toNarrowInt (f : NFmt) (srcFloat sat : Bool) (rm : Rnd) (v : FVal) : Nat × Sticky :=
  if srcFloat then
    let r := fvToRange rm (intLo f.w f.signed) (intHi f.w f.signed) false v
    (intCode f.w r.1, r.2)
  else match v with
  | .fin n m e =>
    let r := fvToInt rm n m e
    let nx := stickyIf r.2 stNX
    if sat && r.1 < intLo f.w f.signed then (intCode f.w (intLo f.w f.signed), stISAT ||| nx)
    else if sat && r.1 > intHi f.w f.signed then (intCode f.w (intHi f.w f.signed), stISAT ||| nx)
    else (intCode f.w r.1, nx)
  | _ => (0, 0)

/-- Conversion of one exact value into a narrow format under a scale byte (R52). -/
def toNarrow (f : NFmt) (scale : Nat) (topx srcFloat sat : Bool) (rm : Rnd) (v : FVal) : Nat × Sticky :=
  let v' := fvShift (127 - (scale : Int)) v
  if f.e = 0 then toNarrowInt f srcFloat sat rm v' else toNarrowFloat f topx rm v'

/-- Collect the sticky bits of a list of results. -/
def stickyAll : List (Nat × Sticky) → Sticky
  | [] => 0
  | x :: xs => x.2 ||| stickyAll xs

/-- Pack elements of w bits, element 0 first. -/
def packList (w : Nat) : List Nat → Nat
  | [] => 0
  | x :: xs => x % 2 ^ w + 2 ^ w * packList w xs

end Sys2Proof.Machine
end

