-- ==== Sys2Proof/Machine/Lanes.lean ====
section
/-! DEFINITION. The lane computations of the vector and generation instructions (R130 to R149), on register values. -/

namespace Sys2Proof.Machine

/-- How a lane is read: an integer or a float (R88, R131). -/
inductive LaneKind
  | int (signed : Bool)
  | flt (f : Fmt)
  deriving DecidableEq, Repr, Inhabited

/-- How type 000 reads a lane, by the format byte of va's tag; none traps FORMAT_BAD (R131). DESIGN CHOICE (log 29): the table
of R131 is followed for every format byte, so that a lane is read also under an integer or named code that R46 does not list. -/
def kind000 (fmt : Nat) : Option LaneKind :=
  if fmt / 64 = 3 then some (.int false)
  else if fmt / 64 = 0 && fmt / 4 % 8 = 0 then some (.int (fmt / 32 % 2 == 1))
  else none

/-- How the lanes of a type are read (R88, R131). -/
def laneKind (t : VTy) (fmt : Nat) : Option LaneKind :=
  match t with
  | .b8 => kind000 fmt
  | .i16 => some (.int true)
  | .i32 => some (.int true)
  | .i64 => some (.int true)
  | .bf16 => some (.flt fmtBF16)
  | .f16 => some (.flt fmtF16)
  | .f32 => some (.flt fmtF32)
  | .f64 => some (.flt fmtF64)

/-- Lane width in bits. -/
def laneBits (t : VTy) : Nat := 8 * t.bytes

/-- Lane i of a predicate is active: the bit of its lowest byte (R76). -/
def laneActive (p : Word) (t : VTy) (i : Nat) : Bool := p.getLsbD (i * t.bytes)

/-- A code of w bits as an integer. -/
def codeInt (signed : Bool) (w x : Nat) : Int :=
  if signed && x / 2 ^ (w - 1) % 2 = 1 then (x : Int) - 2 ^ w else (x : Int)

/-- Fit an exact integer to a lane (R37). -/
def fitLane (signed : Bool) (w : Nat) (sat : Bool) (x : Int) : Nat × Sticky :=
  if sat && x < intLo w signed then (intCode w (intLo w signed), stISAT)
  else if sat && x > intHi w signed then (intCode w (intHi w signed), stISAT)
  else (intCode w x, 0)

/-- The operations of one lane that round or fit. -/
inductive LaneOp | add | sub | mul | fma | min | max | abs | neg
  deriving DecidableEq, Repr

/-- Change or clear the sign bit of a float; a NaN gives the canonical NaN (R133). -/
def fsign (f : Fmt) (neg : Bool) (x : Nat) : Nat × Sticky :=
  match fvDecode f x with
  | .nan s => (nanBits f, stickyIf s stNV)
  | v => (x % 2 ^ (f.eb + f.mb) + signBits f (neg && !fvSign v), 0)

/-- Round a pair of an exact value and its flags. -/
def roundPair (f : Fmt) (rm : Rnd) (r : FVal × Sticky) : Nat × Sticky :=
  let q := roundTo f rm r.1
  (q.1, r.2 ||| q.2)

/-- One lane of VADD to VNEG, or of a floating scalar operation (R119, R133). -/
def laneOp (k : LaneKind) (w : Nat) (sat : Bool) (rm : Rnd) (op : LaneOp) (a b d : Nat) : Nat × Sticky :=
  match k with
  | .int s =>
    let x := codeInt s w a
    let y := codeInt s w b
    match op with
    | .add => fitLane s w sat (x + y)
    | .sub => fitLane s w sat (x - y)
    | .mul => fitLane s w sat (x * y)
    | .fma => fitLane s w sat (x * y + codeInt s w d)
    | .min => (if y < x then b else a, 0)
    | .max => (if x < y then b else a, 0)
    | .abs => fitLane s w sat (if x < 0 then -x else x)
    | .neg => fitLane s w sat (-x)
  | .flt f =>
    match op with
    | .add => roundPair f rm (fvAdd rm (fvDecode f a) (fvDecode f b))
    | .sub => roundPair f rm (fvAdd rm (fvDecode f a) (fvNeg (fvDecode f b)))
    | .mul => roundPair f rm (fvMul (fvDecode f a) (fvDecode f b))
    | .fma => roundPair f rm (fvFma rm (fvDecode f a) (fvDecode f b) (fvDecode f d))
    | .min => fminmax f false a b
    | .max => fminmax f true a b
    | .abs => fsign f false a
    | .neg => if fvSign (fvDecode f a) then fsign f false a else fsign f true a

/-- The bit operations of one lane of w bits (R134). -/
inductive BitOp | and | or | xor | shl | shr | sar | popc
  deriving DecidableEq, Repr

/-- One lane of VAND to VPOPC (R134). -/
def laneBit (w : Nat) (op : BitOp) (a b : Nat) : Nat :=
  let n := b % w
  match op with
  | .and => a &&& b
  | .or => a ||| b
  | .xor => a ^^^ b
  | .shl => a * 2 ^ n % 2 ^ w
  | .shr => a / 2 ^ n
  | .sar => intCode w (codeInt true w a / 2 ^ n)
  | .popc => popBelow a w

/-- Lanes computed where active; the others keep their bits (R130). DESIGN CHOICE (log 29): keeping bits of a poisoned vd is no
read of it in the sense of R50; the result's tag is 0x7FC0. -/
def mapLanes (t : VTy) (p : Word) (old : Block) (f : Nat → Nat) : Block :=
  mkBlock (laneBits t) t.lanes fun i => if laneActive p t i then f i else lane (laneBits t) i old

/-- The sticky bits of the first n lanes that are active. -/
def lanesSticky (t : VTy) (p : Word) (f : Nat → Sticky) : Nat → Sticky
  | 0 => 0
  | n + 1 => lanesSticky t p f n ||| (if laneActive p t n then f n else 0)

/-- Lane values and flags computed over the active lanes (R130). -/
def mapLanesF (t : VTy) (p : Word) (old : Block) (f : Nat → Nat × Sticky) : Block × Sticky :=
  (mapLanes t p old fun i => (f i).1, lanesSticky t p (fun i => (f i).2) t.lanes)

/-- One lane of VCMP (R135). -/
def laneCmp (k : LaneKind) (w : Nat) (c : VCond) (a b : Nat) : Bool × Sticky :=
  match k with
  | .int s =>
    let x := codeInt s w a
    let y := codeInt s w b
    match c with
    | .eq => (x == y, 0)
    | .ne => (x != y, 0)
    | .lt => (x < y, 0)
    | .ge => (y ≤ x, 0)
    | .le => (x ≤ y, 0)
    | .gt => (y < x, 0)
    | .un => (false, 0)
  | .flt f =>
    let x := fvDecode f a
    let y := fvDecode f b
    match c with
    | .eq => fcond .eq x y
    | .ne => fcond .ne x y
    | .lt => fcond .lt x y
    | .ge => fcond .le y x
    | .le => fcond .le x y
    | .gt => fcond .lt y x
    | .un => fcond .un x y

/-- A predicate whose lanes are set or cleared alike where g says so; other bits keep (R76, R135). -/
def predLanes (t : VTy) (old : Word) (g : Nat → Option Bool) : Word :=
  BitVec.ofNat 64 (packNat 1 64 fun j =>
    match g (j / t.bytes) with
    | some b => if b then 1 else 0
    | none => if old.getLsbD j then 1 else 0)

/-- One combination of VRED and VSCAN (R139). -/
def redOp (k : LaneKind) (w : Nat) (sat : Bool) (rm : Rnd) (op : RedOp) (a b : Nat) : Nat × Sticky :=
  match op with
  | .sum => laneOp k w sat rm .add a b 0
  | .min => laneOp k w sat rm .min a b 0
  | .max => laneOp k w sat rm .max a b 0
  | .and => (a &&& b, 0)
  | .or => (a ||| b, 0)
  | .xor => (a ^^^ b, 0)

/-- The identity of an empty reduction (R139). -/
def redIdentity (k : LaneKind) (w : Nat) (op : RedOp) : Nat :=
  match op, k with
  | .sum, _ => 0
  | .min, .int s => intCode w (intHi w s)
  | .min, .flt f => infBits f false
  | .max, .int s => intCode w (intLo w s)
  | .max, .flt f => infBits f true
  | .and, _ => 2 ^ w - 1
  | .or, _ => 0
  | .xor, _ => 0

/-- One level of the fixed tree: neighbours combine, the lower index on the left; a lone child passes unchanged (R60). -/
def treeLevel (f : Nat → Nat → Nat × Sticky) : List (Option Nat) → List (Option Nat) × Sticky
  | some a :: some b :: rest =>
    let r := treeLevel f rest
    let c := f a b
    (some c.1 :: r.1, c.2 ||| r.2)
  | none :: x :: rest =>
    let r := treeLevel f rest
    (x :: r.1, r.2)
  | x :: none :: rest =>
    let r := treeLevel f rest
    (x :: r.1, r.2)
  | [x] => ([x], 0)
  | [] => ([], 0)

/-- k levels of the fixed tree (R60). -/
def treeReduce (f : Nat → Nat → Nat × Sticky) : Nat → List (Option Nat) → Option Nat × Sticky
  | 0, xs => (xs.headD none, 0)
  | k + 1, xs =>
    let r := treeLevel f xs
    let q := treeReduce f k r.1
    (q.1, r.2 ||| q.2)

/-- The active lanes of a register, the others empty. -/
def lanesOpt (t : VTy) (p : Word) (b : Block) : List (Option Nat) :=
  (List.range t.lanes).map fun i => if laneActive p t i then some (lane (laneBits t) i b) else none

/-- VRED: the tree of six levels serves every lane count (R60, R139). -/
def vredOf (k : LaneKind) (t : VTy) (sat : Bool) (rm : Rnd) (op : RedOp) (p : Word) (b : Block) : Nat × Sticky :=
  let w := laneBits t
  let r := treeReduce (redOp k w sat rm op) 6 (lanesOpt t p b)
  (r.1.getD (redIdentity k w op), r.2)

/-- The running values of VSCAN from the value before (R60): an inactive lane repeats it. -/
def scanGo (f : Nat → Nat → Nat × Sticky) : Nat → List (Option Nat) → List Nat × Sticky
  | _, [] => ([], 0)
  | acc, none :: xs =>
    let r := scanGo f acc xs
    (acc :: r.1, r.2)
  | acc, some x :: xs =>
    let c := f acc x
    let r := scanGo f c.1 xs
    (c.1 :: r.1, c.2 ||| r.2)

/-- VSCAN: lane 0 keeps its value where it is active; the value before the first lane is otherwise the identity (R60, R139). -/
def scanLanes (f : Nat → Nat → Nat × Sticky) (ident : Nat) : List (Option Nat) → List Nat × Sticky
  | some x :: xs =>
    let r := scanGo f x xs
    (x :: r.1, r.2)
  | xs => scanGo f ident xs

/-- VSCAN (R60, R139). -/
def vscanOf (k : LaneKind) (t : VTy) (sat : Bool) (rm : Rnd) (op : RedOp) (p : Word) (b : Block) : Block × Sticky :=
  let w := laneBits t
  let r := scanLanes (redOp k w sat rm op) (redIdentity k w op) (lanesOpt t p b)
  (BitVec.ofNat 512 (packList w r.1), r.2)

/-- One transcendental lane (R59, R140). -/
def transLane (g : FVal → FVal × Sticky) (rm : Rnd) (a : Nat) : Nat × Sticky := roundPair fmtF32 rm (g (fvDecode fmtF32 a))

/-! ## VCVT (R137, R138) -/

/-- One side of VCVT: how many elements, their width in bits, and what they are. -/
structure CvtSide where
  count : Nat
  bits : Nat
  deriving DecidableEq, Repr

/-- The elements of a register of a non-narrow type. -/
def typedElems (t : VTy) (b : Block) : Elems :=
  match laneKind t 0xC0 with
  | some (.flt f) => ⟨t.lanes, true, (List.range t.lanes).map fun i => fvDecode f (lane (laneBits t) i b)⟩
  | _ => ⟨t.lanes, false, (List.range t.lanes).map fun i => fvInt (codeInt true (laneBits t) (lane (laneBits t) i b))⟩

/-- Element width of a source block by its format byte, the b of R138. DESIGN CHOICE (log 29): R138 does not say what b is for a
sparse packed source; the model takes 8 for every inner format. -/
def srcBits (fmt : Nat) : Nat :=
  match layoutOf fmt with
  | some (.narrow f) => f.w
  | some (.named f) => fmtWidth f
  | some (.sparseNarrow _) => 8
  | some (.sparseNamed _) => 8
  | none => 8

/-- Convert one element: srcFloat says that its format is floating (R44, R52, R138). -/
def cvtElem (t : VTy) (dfmt : Option NFmt) (dscale : Nat) (topx srcFloat sat : Bool) (rm : Rnd) (v : FVal) : Nat × Sticky :=
  match t, dfmt with
  | .b8, some f => toNarrow f dscale topx srcFloat sat rm v
  | .b8, none => (0, 0)
  | _, _ =>
    match laneKind t 0xC0 with
    | some (.flt f) => roundTo f rm v
    | _ =>
      let w := laneBits t
      if srcFloat then
        let r := fvToRange rm (intLo w true) (intHi w true) true v
        (intCode w r.1, r.2)
      else match v with
      | .fin n m e =>
        let r := fvToInt rm n m e
        let q := fitLane true w sat r.1
        (q.1, q.2 ||| stickyIf r.2 stNX)
      | _ => (0, 0)

/-- The sticky bits of elements 0 to n − 1 that are active. -/
def elemsSticky (act : Nat → Bool) (f : Nat → Sticky) : Nat → Sticky
  | 0 => 0
  | n + 1 => elemsSticky act f n ||| (if act n then f n else 0)

/-- The loop of R138. src is the source side, db and dc the width and count of destination elements. -/
def cvtLoop (src : Elems) (sb db dc e0 : Nat) (p : Word) (old : Block) (conv : FVal → Nat × Sticky) : Block × Sticky :=
  let n := min src.count dc
  let b := if src.count ≤ dc then sb else db
  let act := fun i => p.getLsbD (i * b / 8)
  let off := if src.count ≥ dc then 0 else e0
  let res := fun i => conv ((src.vals[if src.count ≥ dc then e0 + i else i]?).getD (.fin false 0 0))
  (mkBlock db dc fun j =>
      if off ≤ j && j < off + n && act (j - off) then (res (j - off)).1 else lane db j old,
    elemsSticky act (fun i => (res i).2) n)

/-! ## Top-k vectors (R145) -/

/-- A slot of a top-k vector. -/
structure TopSlot where
  val : Nat
  idx : Nat
  deriving DecidableEq, Repr, Inhabited

/-- An empty slot (R145). -/
def topEmpty : TopSlot := ⟨0xFF800000, 0x7FFFFFFF⟩

/-- x ranks above y (R145). -/
def ranksAbove (x y : TopSlot) : Bool :=
  let c := fvCmp (fvDecode fmtF32 x.val) (fvDecode fmtF32 y.val)
  c == 1 || (c == 0 && codeInt true 32 x.idx < codeInt true 32 y.idx)

/-- Insert a candidate in rank order. DESIGN CHOICE (log 15): of two with one index that differ only as +0 and −0, +0 stands
first, so that no result depends on the order in which records arrive (R264, R266). -/
def rankInsert (x : TopSlot) : List TopSlot → List TopSlot
  | [] => [x]
  | y :: ys => if ranksAbove x y || (!ranksAbove y x && x.val ≤ y.val) then x :: y :: ys else y :: rankInsert x ys

/-- Candidates in rank order. -/
def rankSort : List TopSlot → List TopSlot
  | [] => []
  | x :: xs => rankInsert x (rankSort xs)

/-- The slots of a top-k vector. -/
def topSlots (b : Block) : List TopSlot := (List.range 8).map fun s => ⟨lane 32 s b, lane 32 (8 + s) b⟩

/-- The value of the slot is no NaN. -/
def topIsNum (s : TopSlot) : Bool := !fvIsNan (fvDecode fmtF32 s.val)

/-- The eight highest-ranked candidates as a top-k vector (R145). -/
def topBlock (cs : List TopSlot) : Block :=
  let best := (rankSort (cs.filter topIsNum)).take 8
  mkBlock 32 16 fun j =>
    if j < 8 then ((best[j]?).getD topEmpty).val else ((best[j - 8]?).getD topEmpty).idx

/-- VTOPK (R145). -/
def vtopkOf (fresh : Bool) (vd va : Block) (sb p : Word) : Block :=
  let cands := ((List.range 16).filter (laneActive p .f32)).map fun i =>
    (⟨lane 32 i va, (sb.toNat + i) % 2 ^ 32⟩ : TopSlot)
  topBlock ((if fresh then [] else topSlots vd) ++ cands)

/-! ## Random words and sampling (R146, R147) -/

/-- The mixing function (R146). -/
def mix (key c j : Word) : Word :=
  let x := key ^^^ (c * 0x9E3779B97F4A7C15) ^^^ (j * 0xC13FA9A902A6328F)
  let x := (x ^^^ (x >>> 31)) * 0xD6E8FEB86659FD93
  let x := (x ^^^ (x >>> 29)) * 0xA3B195F21C648E9D
  x ^^^ (x >>> 32)

/-- A slot is valid when its value is neither −∞ nor a NaN (R147). -/
def smplValid (s : TopSlot) : Bool :=
  match fvDecode fmtF32 s.val with
  | .nan _ => false
  | .inf n => !n
  | .fin .. => true

/-- f32 addition with RNE. -/
def addRne (a b : Nat) : Nat := (laneOp (.flt fmtF32) 32 false .rne .add a b 0).1
/-- f32 product with RNE. -/
def mulRne (a b : Nat) : Nat := (laneOp (.flt fmtF32) 32 false .rne .mul a b 0).1

/-- The weights of R147: none for an invalid slot. -/
def smplWeights (m s : Nat) (xs : List TopSlot) : List (Option Nat) :=
  xs.map fun x =>
    if smplValid x then
      let d := (laneOp (.flt fmtF32) 32 false .rne .sub x.val m 0).1
      some (roundTo fmtF32 .rne (fvExp2 (fvDecode fmtF32 (mulRne d s))).1).1
    else none

/-- The first slot at which the running sum passes the target (R147). -/
def smplWalk (target : Nat) : Nat → Nat → List (Option Nat) → Option Nat
  | _, _, [] => none
  | k, acc, none :: ws => smplWalk target (k + 1) acc ws
  | k, acc, some w :: ws =>
    let acc' := addRne acc w
    if fvCmp (fvDecode fmtF32 acc') (fvDecode fmtF32 target) == 1 then some k
    else smplWalk target (k + 1) acc' ws

/-- The numbers of the valid slots. -/
def smplValidIdx (xs : List TopSlot) : List Nat :=
  (List.range 8).filter fun k => smplValid ((xs[k]?).getD topEmpty)

/-- The highest-ranked valid slot: ties in value and index stay with the lower slot (R145, R147). -/
def smplGreedy (xs : List TopSlot) : List Nat → Option Nat
  | [] => none
  | k :: ks =>
    match smplGreedy xs ks with
    | none => some k
    | some j =>
      if ranksAbove ((xs[j]?).getD topEmpty) ((xs[k]?).getD topEmpty) then some j else some k

/-- The slot that VSMPL chooses; none traps GEN_OPERAND (R147). -/
def vsmplChoose (key : Word) (va : Block) (sb : Word) : Option Nat :=
  let xs := topSlots va
  let valid := smplValidIdx xs
  let tbits := sb.toNat % 2 ^ 32
  let u := (mix key (sb >>> 32) 8).toNat / 2 ^ 40
  let greedy := smplGreedy xs valid
  if tbits / 2 ^ 23 % 256 = 0 then greedy
  else match fvDecode fmtF32 tbits with
  | .nan _ => none
  | .inf true => none
  | .inf false => valid[u * valid.length / 2 ^ 24]?
  | .fin true _ _ => none
  | .fin false m e =>
    match greedy with
    | none => none
    | some g =>
      let mx := ((xs[g]?).getD topEmpty).val
      let s := (roundPair fmtF32 .rne (fvDiv (fvDecode fmtF32 0x3FB8AA3B) (.fin false m e))).1
      if mx = infBits fmtF32 false || s = infBits fmtF32 false then greedy
      else
        let ws := smplWeights mx s xs
        let total := (treeReduce (fun a b => (addRne a b, 0)) 3 ws).1.getD 0
        let target := (roundTo fmtF32 .rne (fvMul (.fin false u (-24)) (fvDecode fmtF32 total)).1).1
        match smplWalk target 0 0 ws with
        | some k => some k
        | none => valid.getLast?

/-- VSMPL: the block written (R147). -/
def vsmplBlock (va : Block) (k : Nat) : Block :=
  mkBlock 32 2 fun j => if j = 0 then (((topSlots va)[k]?).getD topEmpty).idx else k

/-! ## Acceptance, counts and indices (R148, R149) -/

/-- The loop of VACCEPT from lane i: the lanes set, and whether an id lay outside the vocabulary (R148). -/
def acceptGo (p : Word) (va : Block) (v : Nat) : Nat → Nat → List Nat × Bool
  | 0, _ => ([], false)
  | n + 1, i =>
    if !laneActive p .i32 i then ([], false)
    else
      let dr := lane 32 i va
      if dr ≥ v then ([8 + i], true)
      else if dr ≠ lane 32 (8 + i) va then ([], false)
      else
        let r := acceptGo p va v n (i + 1)
        (i :: r.1, r.2)

/-- The predicate VACCEPT writes, and whether oov_counter rises (R148). -/
def vacceptOf (p : Word) (va : Block) (v : Nat) : Word × Bool :=
  let r := acceptGo p va v 8 0
  (predLanes .i32 0 fun i => some (r.1.contains i), r.2)

/-- Active lanes from lane i on, up to the first inactive one. -/
def leadCount (p : Word) (t : VTy) : Nat → Nat → Nat
  | 0, _ => 0
  | n + 1, i => if laneActive p t i then 1 + leadCount p t n (i + 1) else 0

/-- VCNT (R149). -/
def vcntOf (p : Word) (t : VTy) (lead : Bool) : Nat :=
  if lead then leadCount p t t.lanes 0 else ((List.range t.lanes).filter (laneActive p t)).length

end Sys2Proof.Machine
end

