-- ==== Sys2Proof/Machine/Ops.lean ====
section
/-! DEFINITION. The shared operations over memory and registers: sparse tables, locations, agents and cores, registers,
traps and their return, translation, ordinary reads and writes, publication and refresh. -/

namespace Sys2Proof.Machine

/-- What a meaning answers. -/
abbrev Outc := Host.Outcome State Fault Refusal

/-! ## Sparse tables: keys rise strictly and no entry holds the default -/

/-- Look a key up; d is what an unlisted key holds. -/
def alGet {α : Type} (d : α) : List (Nat × α) → Nat → α
  | [], _ => d
  | (k', v) :: r, k => if k = k' then v else alGet d r k

/-- Put a key in its place, keeping the order. -/
def alPut {α : Type} : List (Nat × α) → Nat → α → List (Nat × α)
  | [], k, v => [(k, v)]
  | (k', v') :: r, k, v =>
    if k < k' then (k, v) :: (k', v') :: r
    else if k = k' then (k, v) :: r
    else (k', v') :: alPut r k v

/-- Set a key, keeping the canonical form: a key that comes to hold the default leaves the table. -/
def alSet {α : Type} [DecidableEq α] (d : α) (l : List (Nat × α)) (k : Nat) (v : α) : List (Nat × α) :=
  if v = d then l.filter fun p => p.1 != k else alPut l k v

/-- Every key lies above lo, keys rise, and no entry holds the default. -/
def alWfFrom {α : Type} [DecidableEq α] (d : α) : Option Nat → List (Nat × α) → Bool
  | _, [] => true
  | lo, (k, v) :: r => (match lo with | none => true | some l => l < k) && v != d && alWfFrom d (some k) r

/-- The canonical form of a sparse table. -/
def alWf {α : Type} [DecidableEq α] (d : α) (l : List (Nat × α)) : Bool := alWfFrom d none l

/-- Insert into a list that an order sorts, after what it equals. -/
def insertBy {α : Type} (le : α → α → Bool) (x : α) : List α → List α
  | [] => [x]
  | y :: ys => if le y x then y :: insertBy le x ys else x :: y :: ys

/-- A list sorted by an order; equal elements keep their places. -/
def sortBy {α : Type} (le : α → α → Bool) (l : List α) : List α := go l []
where
  /-- Insert one element after another. -/
  go : List α → List α → List α
    | [], acc => acc
    | x :: xs, acc => go xs (insertBy le x acc)

/-! ## Memory -/

/-- What an unlisted byte reads as: HBM and SRAM are cleared by bring-up (R417); host memory, DESIGN CHOICE (log 5). -/
def unlistedByte : Byte := 0
/-- What an unlisted tag reads as (R45, R417). -/
def unlistedTag : Tag := 0x7FC0

/-- The canonical form of memory. -/
def Memory.wf (m : Mem) : Bool := alWf unlistedByte m.bytes && alWf unlistedTag m.tags

/-- A byte at a location. -/
def memByte (m : Mem) (l : Nat) : Byte := alGet unlistedByte m.bytes l
/-- Write a byte. -/
def memSetByte (m : Mem) (l : Nat) (b : Byte) : Mem := { m with bytes := alSet unlistedByte m.bytes l b }
/-- First location of the block of a location (R45). -/
def blockOf (l : Nat) : Nat := l / 64 * 64
/-- The tag of a location's block; host memory has none and reads 0x7FC0 (R45, R169). -/
def memTag (m : Mem) (l : Nat) : Tag := alGet unlistedTag m.tags (blockOf l)
/-- A location is host memory: PA[51] = 1 (R67). -/
def isHostLoc (l : Nat) : Bool := 2 ^ 51 ≤ l && l < 2 ^ 52
/-- The location lies in another package's memory (log 30): 2^41 locations for each of 512 packages, from 2^53 on. -/
def isFarLoc (l : Nat) : Bool := 2 ^ 53 ≤ l && l < 2 ^ 54
/-- The package of such a location, and the physical address there. -/
def farPkg (l : Nat) : Nat := (l - 2 ^ 53) / 2 ^ 41
/-- The physical address there. -/
def farPA (l : Nat) : Nat := l % 2 ^ 41
/-- Write a tag; a write to host memory drops it (R169). -/
def memSetTag (m : Mem) (l : Nat) (t : Tag) : Mem :=
  if isHostLoc l then m else { m with tags := alSet unlistedTag m.tags (blockOf l) t }

/-- Write bytes, one after another. -/
def memSetBytes (m : Mem) : List (Nat × Byte) → Mem
  | [] => m
  | (l, b) :: r => memSetBytes (memSetByte m l b) r
/-- Write tags, one after another. -/
def memSetTags (m : Mem) : List (Nat × Tag) → Mem
  | [] => m
  | (l, t) :: r => memSetTags (memSetTag m l t) r

/-- Bytes as a little-endian number (R2). -/
def bytesToNat : List Byte → Nat
  | [] => 0
  | b :: r => b.toNat + 256 * bytesToNat r
/-- A number as n bytes, little-endian (R2). -/
def natToBytes : Nat → Nat → List Byte
  | 0, _ => []
  | n + 1, x => BitVec.ofNat 8 x :: natToBytes n (x / 256)

/-- n bytes from a location on. -/
def memNat (m : Mem) (l n : Nat) : Nat := bytesToNat ((List.range n).map fun i => memByte m (l + i))
/-- A 64-bit word at a location. -/
def memWord (m : Mem) (l : Nat) : Word := BitVec.ofNat 64 (memNat m l 8)
/-- A block at a location. -/
def memBlock (m : Mem) (l : Nat) : Block := BitVec.ofNat 512 (memNat m l 64)
/-- Write n bytes of a number from a location on. -/
def memSetNat (m : Mem) (l n x : Nat) : Mem :=
  memSetBytes m (((natToBytes n x).zipIdx).map fun p => (l + p.2, p.1))
/-- Write a 64-bit word. -/
def memSetWord (m : Mem) (l : Nat) (x : Word) : Mem := memSetNat m l 8 x.toNat
/-- Write a block and its tag. -/
def memSetBlock (m : Mem) (l : Nat) (b : Block) (t : Tag) : Mem := memSetTag (memSetNat m l 64 b.toNat) l t

/-- Bytes and tags are written. A block whose tag is written holds no uncorrectable error any longer (R422). -/
def writeMem (bytes : List (Nat × Byte)) (tags : List (Nat × Tag)) (s : State) : State :=
  { s with
    mem := memSetTags (memSetBytes s.mem bytes) tags
    struck := s.struck.filter fun b => !(tags.any fun p => blockOf p.1 == b) }

/-- An uncorrectable error has poisoned the block of a location (R345, R422). -/
def isStruck (s : State) (l : Nat) : Bool := s.struck.contains (blockOf l)

/-! ## Places and locations (R8, R66, R68, R69) -/

/-- The core of a name in a context (R252). -/
def ctxCore (ctx n : Nat) : CoreId := BitVec.ofNat 17 ((ctx + 1) * 1024 + n % 1024)
/-- The core of a name in the context of another core. -/
def coreNear (e : CoreId) (n : Nat) : CoreId := BitVec.ofNat 17 (e.toNat / 1024 * 1024 + n % 1024)
/-- The named location of a core. -/
def coreName (c : CoreId) : Nat := c.toNat % 1024
/-- First window address of a core's slice, as programs see it (R66). -/
def winBase (c : CoreId) : Nat := 0xFE * 2 ^ 48 + coreName c * 2 ^ 22

/-- First location of the slice of a core. -/
def sliceBase (c : CoreId) : Nat := 0xFE * 2 ^ 48 + c.toNat * 2 ^ 22
/-- A location lies in some slice. -/
def isSliceLoc (l : Nat) : Bool := 0xFE * 2 ^ 48 ≤ l && l < 0xFF * 2 ^ 48
/-- The core of a slice location. -/
def coreOfLoc (l : Nat) : CoreId := BitVec.ofNat 17 (l / 2 ^ 22)
/-- The location lies in the slice of core c. -/
def inSlice (c : CoreId) (l : Nat) : Bool := isSliceLoc l && coreOfLoc l == c
/-- Offset of a slice location in its slice. -/
def sliceOff (l : Nat) : Nat := l % 2 ^ 20

/-- Die of a core name. -/
def dieOf (c : CoreId) : Nat := coreName c / 256
/-- Cluster of a core name within its die. -/
def clusterOf (c : CoreId) : Nat := coreName c / 32 % 8
/-- Core number within its cluster. -/
def coreNumOf (c : CoreId) : Nat := c.toNat % 32
/-- Package-wide cluster number, die × 6 + cluster (R428). -/
def clusterIdx (c : CoreId) : Nat := dieOf c * 6 + clusterOf c
/-- Stack that serves a core's cluster: 3d + j for clusters j and j + 3 (R12). -/
def stackOfCore (c : CoreId) : Nat := dieOf c * 3 + clusterOf c % 3
/-- The name is that of a compute core (R8). -/
def isComputeCore (c : CoreId) : Bool := clusterOf c < 6 && coreNumOf c < 16
/-- Cores 3, 7, 11 and 15 are vector cores (R8). -/
def isVectorCore (c : CoreId) : Bool := coreNumOf c % 4 == 3
/-- The core named by die, cluster and core number. -/
def coreId (d cl c : Nat) : CoreId := BitVec.ofNat 17 (d * 256 + cl * 32 + c)

/-- The least scope that holds both cores: 1 core, 2 cluster, 3 stack, 4 die, 5 package (R177). -/
def scopeLevel (a b : CoreId) : Nat :=
  if a = b then 1
  else if dieOf a ≠ dieOf b then 5
  else if clusterOf a = clusterOf b then 2
  else if clusterOf a % 3 = clusterOf b % 3 then 3
  else 4

/-- WHERE of an agent (R83). -/
def whereOf (c : CoreId) (n : BitVec 3) : Word := BitVec.ofNat 64 (winBase c + n.toNat)

/-- Linear offset of a byte of the skewed view (R69). -/
def skewOff (o : Nat) : Nat :=
  let i := o / 64 % 16
  let j := o / 4 % 16
  o / 1024 * 1024 + i * 64 + (i + j) % 16 * 4 + o % 4

/-- Round up to a multiple of 64. -/
def up64 (n : Nat) : Nat := (n + 63) / 64 * 64
/-- Where the future words begin (R68). -/
def futBase (k : KDesc) : Nat := k.tiles * 1024
/-- Where the allotment begins (R68). -/
def spadBase (k : KDesc) : Nat := futBase k + up64 (8 * k.futures)
/-- Where the node arena begins (R276). -/
def arenaBase (k : KDesc) : Nat := spadBase k + up64 k.spad
/-- End of the accessible region, the node arena included (R68, R274). -/
def accEnd (k : KDesc) : Nat := arenaBase k + 64 * k.arena
/-- The slice offset lies in a future region (R71). -/
def inFutures (k : KDesc) (o : Nat) : Bool := futBase k ≤ o && o < futBase k + 8 * k.futures
/-- First slice offset of the overflow pool in the system area (R260). -/
def poolBase : Nat := 0xF8000

/-! ## Agents and cores -/

/-- The state of a core. -/
def getCore (s : State) (c : CoreId) : Core :=
  if s.core.id = c then s.core
  else match s.cores.find? (fun x => x.id == c) with
  | some x => x
  | none => Core.fresh c

/-- Replace a core in a list, or add it. -/
def putCore (x : Core) : List Core → List Core
  | [] => [x]
  | y :: ys => if y.id = x.id then x :: ys else y :: putCore x ys

/-- Store a core's state. -/
def setCore (x : Core) (s : State) : State :=
  if s.core.id = x.id then { s with core := x } else { s with cores := putCore x s.cores }

/-- Change a core's state. -/
def onCore (c : CoreId) (f : Core → Core) (s : State) : State := setCore (f (getCore s c)) s

/-- Every agent that is not free, the current one included. -/
def allAgents (s : State) : List Agent := (if s.ag.run = .free then [] else [s.ag]) ++ s.agents

/-- The agent of a model name. -/
def findAgent (s : State) (aid : Nat) : Option Agent := (allAgents s).find? (fun a => a.aid == aid)

/-- Change the agent of a model name. -/
def onAgent (aid : Nat) (f : Agent → Agent) (s : State) : State :=
  if s.ag.run ≠ .free ∧ s.ag.aid = aid then { s with ag := f s.ag }
  else { s with agents := s.agents.map fun a => if a.aid = aid then f a else a }

/-- The agent that holds a place. -/
def agentAt (s : State) (c : CoreId) (n : BitVec 3) : Option Agent :=
  (allAgents s).find? (fun a => a.place == c && a.num == n)

/-- Make an agent the current one, and its core the current core; the agent and core before go back to their lists. -/
def checkout (aid : Nat) (s : State) : State :=
  if s.ag.run ≠ .free ∧ s.ag.aid = aid ∧ s.core.id = s.ag.place then s
  else match findAgent s aid with
  | none => s
  | some a =>
    { s with
      ag := a
      agents := (allAgents s).filter (fun x => x.aid != aid)
      core := getCore s a.place
      cores := if s.core.id = a.place then s.cores else
        putCore s.core (s.cores.filter (fun x => x.id != a.place)) }

/-- The context of a number. -/
def findCtx (s : State) (n : Nat) : Option Ctx := s.ctxs.find? (fun c => c.num == n)
/-- Change a context. -/
def onCtx (n : Nat) (f : Ctx → Ctx) (s : State) : State :=
  { s with ctxs := s.ctxs.map fun c => if c.num = n then f c else c }
/-- The instance of a number in a context. -/
def findInst (s : State) (ctx : Nat) (num : BitVec 32) : Option Inst :=
  s.insts.find? (fun i => i.ctx == ctx && i.num == num)
/-- Change an instance. -/
def onInst (ctx : Nat) (num : BitVec 32) (f : Inst → Inst) (s : State) : State :=
  { s with insts := s.insts.map fun i => if i.ctx = ctx ∧ i.num = num then f i else i }

/-- Change the current agent. -/
def setAg (a : Agent) (s : State) : State := { s with ag := a }

/-! ## Registers (R75, R76) -/

/-- Scalar register; s0 reads zero. -/
def getS (s : State) (r : Reg) : Word := if r = 0 then 0 else s.ag.s[r.toNat]'r.isLt
/-- Write a scalar register; a write to s0 is discarded. -/
def setS (r : Reg) (x : Word) (s : State) : State :=
  if r = 0 then s else { s with ag := { s.ag with s := s.ag.s.set r.toNat x r.isLt } }
/-- Vector register. -/
def getV (s : State) (r : Reg) : Block := s.ag.v[r.toNat]'r.isLt
/-- Register tag. -/
def getVT (s : State) (r : Reg) : Tag := s.ag.vtag[r.toNat]'r.isLt
/-- Write a vector register and its tag. -/
def setV (r : Reg) (x : Block) (t : Tag) (s : State) : State :=
  { s with ag := { s.ag with v := s.ag.v.set r.toNat x r.isLt, vtag := s.ag.vtag.set r.toNat t r.isLt } }
/-- Predicate register; p0 reads all ones. -/
def getP (s : State) (k : Nat) : Word := if k = 0 then BitVec.allOnes 64 else s.ag.p.toList.getD k 0
/-- Write a predicate register; a write to p0 is discarded. -/
def setP (k : Nat) (x : Word) (s : State) : State :=
  if k = 0 then s else { s with ag := { s.ag with p := s.ag.p.setIfInBounds k x } }
/-- A predicate read through its bit 0 (R111). -/
def predTrue (s : State) (k : Nat) : Bool := (getP s k).getLsbD 0
/-- Set sticky bits of STATUS (R36). -/
def orStatus (f : Sticky) (s : State) : State := { s with ag := { s.ag with status := statusOr s.ag.status f } }
/-- STATUS as CRD reads it: bit 0 is the core's TOPX (R36, R51). -/
def statusRead (s : State) : Word := s.ag.status ||| (if s.core.topx then 1 else 0)
/-- Saturation by a mode field or SATMODE. -/
def satBy (s : State) (m : IMode) : Bool := satOf s.ag.status m
/-- Rounding by RMODE. -/
def rndNow (s : State) : Rnd := statusRnd s.ag.status
/-- Go on at pc + n (R85, R107). -/
def advance (n : Nat) (s : State) : State :=
  { s with ag := { s.ag with pc := s.ag.pc + BitVec.ofNat 64 n, run := .running, inhand := none } }
/-- Continue at an address. -/
def jumpTo (x : Word) (s : State) : State := { s with ag := { s.ag with pc := x, run := .running, inhand := none } }
/-- Block the agent; its instruction has not been performed. -/
def blockOn (w : Wait) (s : State) : State := { s with ag := { s.ag with run := .blocked w } }

/-! ## Taking an exception and returning from it (R235 to R240) -/

/-- ILLEGAL_OP -/
def cIllegalOp : BitVec 8 := 0x01
/-- ILLEGAL_EXT -/
def cIllegalExt : BitVec 8 := 0x02
/-- ILLEGAL_REG -/
def cIllegalReg : BitVec 8 := 0x03
/-- MISALIGNED -/
def cMisaligned : BitVec 8 := 0x04
/-- BOUNDS -/
def cBounds : BitVec 8 := 0x05
/-- TILE_UNCFG -/
def cTileUncfg : BitVec 8 := 0x06
/-- FORMAT_BAD -/
def cFormatBad : BitVec 8 := 0x07
/-- TOPX_MISMATCH -/
def cTopx : BitVec 8 := 0x08
/-- SPARSE_META -/
def cSparse : BitVec 8 := 0x09
/-- POISON -/
def cPoison : BitVec 8 := 0x0A
/-- FETCH -/
def cFetch : BitVec 8 := 0x0B
/-- REFUSED -/
def cRefused : BitVec 8 := 0x0C
/-- RULE_MISSING -/
def cRuleMissing : BitVec 8 := 0x0D
/-- LINK_BAD -/
def cLinkBad : BitVec 8 := 0x0E
/-- BARRIER_BAD -/
def cBarrierBad : BitVec 8 := 0x0F
/-- QUEUE_BAD -/
def cQueueBad : BitVec 8 := 0x10
/-- SEQ_BAD -/
def cSeqBad : BitVec 8 := 0x11
/-- GEN_OPERAND -/
def cGenOperand : BitVec 8 := 0x12
/-- TRAP_INSN -/
def cTrapInsn : BitVec 8 := 0x13
/-- MIGRATE_FAIL -/
def cMigrateFail : BitVec 8 := 0x14

/-- The instance of the current agent is reported faulted to the master distributor (R240, R279). -/
def reportFault (ctx : Nat) (inst : BitVec 32) (s : State) : State :=
  { s with faultReports := s.faultReports ++ [(ctx, inst)] }

/-- Deliver a trap of cause c to the current agent, resuming at `resume` (R235); a double trap stops it (R240). -/
def deliver (c : BitVec 8) (second : Bool) (a : Word) (seq : BitVec 24) (resume : Word) (s : State) : State :=
  let ag := { s.ag with
    trapc := c.setWidth 64 ||| (if second then 0x100 else 0)
    trappc := resume
    trapa := a
    trapseq := seq.setWidth 64
    handler := true
    inhand := none }
  if s.ag.handler || s.ag.trapvec.toNat / 4 = 0 then
    reportFault ag.ctx ag.inst { s with ag := { ag with run := .dead } }
  else { s with ag := { ag with run := .running, pc := s.ag.trapvec &&& ~~~3 } }

/-- A precise trap: the resume point is the instruction's own PC, TRAPSEQ is 0 (R235, R237). -/
def trap (c : BitVec 8) (a : Word) (s : State) : Outc := .next (deliver c false a 0 s.ag.pc s)

/-- A precise trap found while the instruction waited: a late trap that is pending is delivered first, and the instruction then
executes again (R239). -/
def trapWaited (c : BitVec 8) (second : Bool) (a : Word) (s : State) : State :=
  if !s.ag.handler && !s.ag.late.isEmpty then { s with ag := { s.ag with run := .running } } else deliver c second a 0 s.ag.pc s

/-- Return from a trap handler to an address (R216, R240). -/
def trapReturn (x : Word) (s : State) : State := 
  { s with ag := { s.ag with handler := false, pc := x, run := .running, inhand := none } }

/-- TRAPA where the entry gives no value: a free value (log 15). -/
def openA (s : State) : Word := Config.unstated s.draws

/-! ## Steps 4 and 5 of R95, and the scoreboard -/

/-- A register an instruction names. -/
inductive RegUse
  | s (r : Reg)
  | v (r : Reg)
  | p (k : Nat)
  | t (r : Reg)
  | q (r : Reg)
  | acc (r : Reg)
  deriving DecidableEq, Repr

/-- The value of the field when it lies at or beyond its declared count (R75, R87); accumulator slots add 0x40 (R157). -/
def regBad (a : Agent) : RegUse → Option Word
  | .s r => if r.toNat < a.ns then none else some (r.setWidth 64)
  | .v r => if r.toNat < a.nv then none else some (r.setWidth 64)
  | .p k => if k < a.np then none else some (BitVec.ofNat 64 k)
  | .t r => if r.toNat < a.nt then none else some (r.setWidth 64)
  | .q r => if r.toNat < 8 then none else some (r.setWidth 64)
  | .acc r => if r.toNat < 16 then none else some (0x40 + r.setWidth 64)

/-- The first field beyond its count, in the order given. -/
def firstBad (a : Agent) : List RegUse → Option Word
  | [] => none
  | u :: us => match regBad a u with
    | some x => some x
    | none => firstBad a us

/-- A scalar register that a pending token holds back (R202). -/
def usePending (a : Agent) : RegUse → Option Nat
  | .s r => if r != 0 && a.tokens.any (fun k => k.reg == r.toNat) then some r.toNat else none
  | .v _ => none
  | .p _ => none
  | .t _ => none
  | .q _ => none
  | .acc _ => none

/-- A tile register that a pending TMMA result holds back (R156). -/
def useTmma (a : Agent) : RegUse → Option Nat
  | .t r => if a.tmma.any (fun k => k.tile == r.toNat) then some r.toNat else none
  | .s _ => none
  | .v _ => none
  | .p _ => none
  | .q _ => none
  | .acc _ => none

/-- A tile whose restore is outstanding (R251). -/
def useRestoring (a : Agent) : RegUse → Option Nat
  | .t r => if r.toNat < 8 && a.trest.getLsbD r.toNat then some r.toNat else none
  | .s _ => none
  | .v _ => none
  | .p _ => none
  | .q _ => none
  | .acc _ => none

/-- The extension an instruction needs that some core lacks (R11, R94). -/
inductive Ext | none_ | xm | xd
  deriving DecidableEq, Repr

/-- The current core lacks the extension. -/
def lacksExt (s : State) : Ext → Bool
  | .none_ => false
  | .xm => isVectorCore s.ag.place
  | .xd => !isVectorCore s.ag.place

/-- The current agent holds a matrix slot (R159). -/
def holdsSlots (s : State) : Bool :=
  s.core.oclaim.toList.contains (some s.ag.num) || s.core.aclaim.toList.contains (some s.ag.num)

/-- The checks of registers: ILLEGAL_REG for a field beyond its count (R95), then the scoreboard. DESIGN CHOICE (log 29): of
several such fields the first in the order d, a, b, then implied ones, gives TRAPA. -/
def regsReady (us : List RegUse) (s : State) (k : Outc) : Outc :=
  match firstBad s.ag us with
  | some x => trap cIllegalReg x s
  | none =>
    match us.filterMap (usePending s.ag), us.filterMap (useTmma s.ag) with
    | [], [] => k
    | rs, ts => .next (blockOn (.scoreboard rs ts) s)

/-- A value that the entry does not list traps ILLEGAL_OP before anything else (R95, step 2). -/
def legal (i : Instr) (s : State) (k : Outc) : Outc := if i.wf then k else trap cIllegalOp (word0 i) s

/-- A vector register tagged with scale 0xFF traps: POISON, or FORMAT_BAD under TOPX 0 (R50). -/
def poisonCause (s : State) : BitVec 8 := if s.core.topx then cPoison else cFormatBad

/-- The first poisoned vector register of a list traps before any effect (R50). -/
def unpoisoned (rs : List Reg) (s : State) (k : Outc) : Outc :=
  match rs.find? (fun r => poisoned (getVT s r)) with
  | some r => trap (poisonCause s) (r.setWidth 64) s
  | none => k

end Sys2Proof.Machine
end

