-- ==== Sys2Proof/Machine/Message.lean ====
section
/-! DEFINITION. Messages between the parties of the package (R253, R394, R395): who sends under which name, sending, the order
of one sender's packets for one destination, and the packets of requests and answers. -/

namespace Sys2Proof.Machine

/-- The name under which a stack's base die sends (R12). -/
def stackId (k : Nat) : CoreId := coreId (k / 3) 6 (k % 3)
/-- The name under which the culm die sends. -/
def culmId : CoreId := coreId 0 7 0
/-- The name under which a tiller die reports (R286). -/
def dieId (d : Nat) : CoreId := coreId d 6 3
/-- The name under which host memory answers. -/
def hostId : CoreId := coreId 1 7 0
/-- The name under which a host service core sends (R6, R404). -/
def serviceId (n : Nat) : CoreId := coreId 2 7 n

/-- The name under which Svailaet port n sends and takes in packets (R400). -/
def portId (n : Nat) : CoreId := coreId 3 7 n
/-- The port that the routing table names for a package (R403). -/
def portOf (s : State) (pkg : BitVec 8) : CoreId := portId (s.cfg.routing.toList.getD pkg.toNat 0xFF).toNat
/-- The routing table names a port for a package (R403). -/
def routed (s : State) (pkg : BitVec 8) : Bool := (s.cfg.routing.toList.getD pkg.toNat 0xFF).toNat < 8
/-- The packages of the partition: this one, and the others that the routing table names (R403). -/
def packages (s : State) : Nat :=
  ((List.range 256).filter fun k => k == s.cfg.position.toNat || routed s (BitVec.ofNat 8 k)).length

/-- A party whose messages are counted: a compute core, a stack, host memory or another package (R253, R270). -/
def countsFrom (c : CoreId) : Bool := isComputeCore c || (clusterOf c == 6 && coreNumOf c < 3) || c == hostId ||
  (dieOf c == 3 && clusterOf c == 7)

/-- The name under which a teff core sends (R9, R303). -/
def teffName (cl : Nat) : CoreId := coreId (cl / 6) (cl % 6) 16

/-- The context in whose name a core stands (R252). -/
def ctxOfName (c : CoreId) : Nat := c.toNat / 1024 - 1

/-- A core counts a message; that of a core which the context no longer holds counts with the context (R253, R254). -/
def countSent (c : CoreId) (s : State) : State :=
  if (getCore s c).ctx.isSome then onCore c (fun x => { x with sentcnt := x.sentcnt + 1 }) s
  else onCtx (ctxOfName c) (fun x => { x with sentGone := x.sentGone + 1 }) s
/-- A core counts a message that it has performed. -/
def countRcvd (c : CoreId) (s : State) : State :=
  if (getCore s c).ctx.isSome then onCore c (fun x => { x with rcvdcnt := x.rcvdcnt + 1 }) s
  else onCtx (ctxOfName c) (fun x => { x with rcvdGone := x.rcvdGone + 1 }) s

/-- The model's own name of the context of a number; 0 where there is none. -/
def eraOf (s : State) (ctx : Nat) : Nat := match findCtx s ctx with | some x => x.era | none => 0

/-- Two parties count a message between them (R253). -/
def counted (a b : CoreId) : Bool := a != b && countsFrom a && countsFrom b

/-- A message that sets out with a request sequence number; its own number orders it among those of one sender to one destination
(R253, R394, R395). -/
def newMsg (sndr rcvr src dst : CoreId) (ctx : Nat) (seq : BitVec 24) (b : Body) (s : State) : Msg where
  id := s.msgs
  src := src
  dst := dst
  num := s.msgs
  sndr := sndr
  rcvr := rcvr
  ctx := ctx
  era := eraOf s ctx
  seq := seq
  topx := (getCore s sndr).topx
  bad := false
  arrived := false
  order := 0
  waiting := false
  site := .start
  body := b

/-- Send a message, counted by the parties given. -/
def sendFor (sndr rcvr src dst : CoreId) (ctx : Nat) (seq : BitVec 24) (b : Body) (s : State) : State :=
  let m := newMsg sndr rcvr src dst ctx seq b s
  let s1 := { s with msgs := s.msgs + 1, net := s.net ++ [m] }
  if isComputeCore sndr && counted sndr rcvr then countSent sndr s1 else s1

/-- sendFor, the sender and the destination counting it. -/
def sendAs (src dst : CoreId) (ctx : Nat) (seq : BitVec 24) (b : Body) (s : State) : State :=
  sendFor src dst src dst ctx seq b s

/-- Send a message that answers no numbered request. -/
def send (src dst : CoreId) (ctx : Nat) (b : Body) (s : State) : State := sendAs src dst ctx 0 b s

/-- A message from one party to another that only travels (R253, R394). -/
def oneWay (src dst : CoreId) (ctx : Nat) (s : State) : State :=
  if src = dst then s else send src dst ctx (.answer .nobody false) s

/-- A message of no context: the host's own (R253, R404). -/
def hostCtx : Nat := 65

/-- The context that sent a message is still there (R259). -/
def ofLiving (s : State) (m : Msg) : Bool := match findCtx s m.ctx with | some x => x.era == m.era | none => false

/-- A message is performed: it leaves the net and counts at a receiving core of its context (R253); a push that has waited there
has counted when its queue received it. -/
def performed (m : Msg) (s : State) : State :=
  let s1 := { s with net := s.net.filter (fun x => x.id != m.id) }
  if isComputeCore m.rcvr && counted m.sndr m.rcvr && !m.waiting && ofLiving s m then countRcvd m.rcvr s1 else s1

/-- A message is at its destination: it has arrived, or it never left its core. -/
def isHere (m : Msg) : Bool := m.arrived || m.src == m.dst

/-- A packet of the interface of core a for b has not been performed yet (R395). -/
def underWay (s : State) (a b : CoreId) : Bool := s.net.any fun m => m.src == a && m.dst == b && !m.waiting

/-- A message is the first of its sender for its destination that has not been performed (R395); a push that waits for room has
been received. -/
def firstOf (s : State) (m : Msg) : Bool :=
  m.src == m.dst || (s.net.find? fun x => x.src == m.src && x.dst == m.dst && !x.waiting).map (·.id) == some m.id

/-! ## Homes (R12, R67, R167) -/

/-- The name under which another package's memory is reached: the way there begins at the culm die (R376, R400, log 30). -/
def farId (n : Nat) : CoreId := BitVec.ofNat 17 ((66 + n / 16) * 1024 + 1008 + n % 16)
/-- The name is one of those. -/
def isFarId (c : CoreId) : Bool := 66 * 1024 ≤ c.toNat
/-- The package of such a name. -/
def farOfId (c : CoreId) : Nat := (c.toNat / 1024 - 66) * 16 + c.toNat % 16

/-- The party at the home of a location. -/
def homeName (l : Nat) : CoreId :=
  if isSliceLoc l then coreOfLoc l else if isHostLoc l then hostId else if isFarLoc l then farId (farPkg l) else stackId (l / 2 ^ 36)

/-- The home of a location is the current agent's own core. -/
def atOwn (s : State) (l : Nat) : Bool := inSlice s.ag.place l

/-! ## Requests for which the agent waits (R167, R238, R253) -/

/-- The current agent's next request takes a request sequence number (R238). -/
def takeSeq (s : State) : State := { s with ag := { s.ag with reqseq := s.ag.reqseq + 1 } }

/-! ## Tile images (R251, R323) -/

/-- The home of the tile images of a context: its save area lies in one stack (R244). -/
def imageHome (s : State) (ctx : Nat) : CoreId := homeName (match findCtx s ctx with | some x => x.save.toNat | none => 0)

/-- Packets of a core's copy unit to a party, each for a block. -/
def unitMsgs (core home : CoreId) (ctx : Nat) (who : Asker) (up : Bool) : Nat → State → State
  | 0, s => s
  | n + 1, s => unitMsgs core home ctx who up n (send core home ctx (.request who up (!up)) s)

/-- The current agent waits for the restore of a tile: the 16 blocks of its image are asked for, once (R251). -/
def awaitTile (n : Nat) (s : State) : State :=
  let ask := unitMsgs s.ag.place (imageHome s s.ag.ctx) s.ag.ctx (.tile s.ag.aid s.draws) false 16 s
  match s.ag.run with
  | .blocked (.tileRestore k _ _) => if k = n then s else blockOn (.tileRestore n s.draws 16) ask
  | _ => blockOn (.tileRestore n s.draws 16) ask

/-! ## Before an instruction's own checks -/

/-- What every instruction does before its own checks: it meets a missing extension (R96, R159, R289), then the checks of
registers, then it waits for the restore of a tile it names (R251). -/
def guarded (w0 : Word) (e : Ext) (us : List RegUse) (s : State) (k : Outc) : Outc :=
  if lacksExt s e then
    if holdsSlots s then trap cMigrateFail w0 s else .next (blockOn .extension s)
  else regsReady us s <|
    match us.findSome? (useRestoring s.ag) with
    | some n => .next (awaitTile n s)
    | none => k

/-- guarded for an instruction of no extension. -/
def checked (us : List RegUse) (s : State) (k : Outc) : Outc := guarded 0 .none_ us s k

end Sys2Proof.Machine
end

