-- ==== Sys2Proof/Machine/Far.lean ====
section
/-! DEFINITION. Packets between packages (R270, R376, R381, R384, R394, R403): the ports, and the flits of a packet. The place of
each field in a flit is the model's (log 1, log 30). -/

namespace Sys2Proof.Machine

/-- A port. -/
def getPort (s : State) (p : BitVec 3) : Port := s.fabric.ports[p.toNat]'p.isLt
/-- Set a port. -/
def setPort (p : BitVec 3) (x : Port) (s : State) : State :=
  { s with fabric := { s.fabric with ports := s.fabric.ports.set p.toNat x p.isLt } }

/-- Flits of a context wait at a port to be sent. -/
def portSend (p : BitVec 3) (ctx : Nat) (fs : List (BitVec 256)) (s : State) : State :=
  let x := getPort s p
  setPort p { x with tosend := x.tosend ++ fs.map fun f => (ctx, f) } s

/-- Flits leave for a package by the port that the routing table names (R403); where it names none they are dropped. -/
def pkgSend (pkg : BitVec 8) (ctx : Nat) (fs : List (BitVec 256)) (s : State) : State :=
  if routed s pkg then portSend (BitVec.ofNat 3 (s.cfg.routing.toList.getD pkg.toNat 0).toNat) ctx fs s else s

/-- Number of an answer's code. -/
def farCodeNum : FarCode → Nat
  | .admitted => 0 | .compatible => 1 | .refused => 2 | .retired => 3
/-- The code of a number. -/
def numFarCode : Nat → FarCode
  | 0 => .admitted
  | 1 => .compatible
  | 2 => .refused
  | _ => .retired

/-- The header flit of a packet between packages: its kind, the two packages, the destination core, the agent that pushed with
its core and request, the sender's TOPX, whether the record is staged, an answer's code, whether the record has waited in TRANSIT, and
an answer's queue target word. -/
def farHeader (kind : Nat) (dst src : BitVec 8) (core : CoreId) (who : FarId) (topx staged waited : Bool) (code : Nat) (word : Word) :
    BitVec 256 :=
  BitVec.ofNat 256 (kind + dst.toNat * 2 ^ 8 + src.toNat * 2 ^ 16 + core.toNat * 2 ^ 24 + who.place.toNat * 2 ^ 41 +
    who.num.toNat * 2 ^ 58 + who.seq.toNat * 2 ^ 61 + (if topx then 2 ^ 85 else 0) + (if staged then 2 ^ 86 else 0) +
    code * 2 ^ 87 + (if waited then 2 ^ 91 else 0) + word.toNat * 2 ^ 96)

/-- A field of a flit. -/
def flitFld (f : BitVec 256) (lo n : Nat) : Nat := f.toNat / 2 ^ lo % 2 ^ n

/-- The four flits of a push to another package (R270, R394). -/
def pushFlits (own pkg : BitVec 8) (dst : CoreId) (who : FarId) (r : PushRec) : List (BitVec 256) :=
  [farHeader 1 pkg own dst who r.topx r.staged r.waited 0 0,
    BitVec.ofNat 256 (r.key.toNat + r.target.toNat * 2 ^ 64 + r.tag.toNat * 2 ^ 128),
    BitVec.ofNat 256 r.payload.toNat,
    BitVec.ofNat 256 (r.payload.toNat / 2 ^ 256)]

/-- The flit of an answer to a push from another package, or of word of a retirement. -/
def answerFlits (own : BitVec 8) (dest : FarId) (code : FarCode) (word : Word) : List (BitVec 256) :=
  [farHeader 2 dest.pkg own dest.place dest false false false (farCodeNum code) word]

/-! ## Requests for memory and their answers (R376, R381, log 30) -/

/-- Bits as a number, the first the lowest. -/
def bitsNat (l : List Bool) : Nat := l.foldr (fun b n => 2 * n + b.toNat) 0

/-- The header flit of a request for another package's memory, or of its answer: its kind, the two packages, the request's number, an
address, seven flags (a peer, a tag, W, U, published, PSN, a struck block), the writer, and two words. -/
def memHeader (kind n : Nat) (own : BitVec 8) (id l : Nat) (tagged w u pub psn bad : Bool) (who : BitVec 32) (a b : Word) : BitVec 256 :=
  BitVec.ofNat 256 (kind + n % 256 * 2 ^ 8 + own.toNat * 2 ^ 16 + id % 2 ^ 24 * 2 ^ 24 + l % 2 ^ 41 * 2 ^ 48 +
    bitsNat [256 ≤ n, tagged, w, u, pub, psn, bad] * 2 ^ 89 + who.toNat * 2 ^ 96 + a.toNat * 2 ^ 128 + b.toNat * 2 ^ 192)

/-- The two flits of a block. -/
def blockFlits (b : Block) : List (BitVec 256) := [BitVec.ofNat 256 b.toNat, BitVec.ofNat 256 (b.toNat / 2 ^ 256)]

/-- Number of an AMO's operation. -/
def amoNum : AmoOp → Nat
  | .swap => 0 | .add => 1 | .and => 2 | .or => 3 | .xor => 4 | .min => 5 | .max => 6
/-- The operation of a number. -/
def numAmo : Nat → AmoOp
  | 0 => .swap
  | 1 => .add
  | 2 => .and
  | 3 => .or
  | 4 => .xor
  | 5 => .min
  | _ => .max

/-- The flits of a request to package n. -/
def reqFlits (own : BitVec 8) (n id : Nat) : FarReq → List (BitVec 256)
  | .write l mask d t bad who pub =>
    memHeader 3 n own id l t.isSome false false pub false bad who mask ((t.getD 0).setWidth 64) :: blockFlits d
  | .read l => [memHeader 4 n own id l false false false false false false 0 0 0]
  | .amo op w u l b who => [memHeader (16 + amoNum op) n own id l false w u false false false who b 0]
  | .cas w u l x y who => [memHeader 6 n own id l false w u false false false who x y]
  | .publish who => [memHeader 7 n own id 0 false false false false false false who 0 0]

/-- The flits of an answer to package n. -/
def ansFlits (own : BitVec 8) (n id : Nat) : FarAns → List (BitVec 256)
  | .ack => [memHeader 8 n own id 0 false false false false false false 0 0 0]
  | .data b t => memHeader 9 n own id 0 true false false false false false 0 0 (t.setWidth 64) :: blockFlits b
  | .value x psn => [memHeader 10 n own id 0 false false false false psn false 0 x 0]

/-- Flits leave for a package of the partition, or for a peer partition (R403, log 30). -/
def farSend (n ctx : Nat) (fs : List (BitVec 256)) (s : State) : State :=
  if n < 256 then pkgSend (BitVec.ofNat 8 n) ctx fs s else portSend (Config.peerPort n) ctx fs s

/-- A packet that leaves the package reaches its port (R400, R403); the answer to a peer's request leaves by the port through which that
came, which stands for its package. -/
def leavePackage (m : Msg) (s : State) : State :=
  match m.body with
  | .farPush pkg dst who r => pkgSend pkg m.ctx (pushFlits s.cfg.position pkg dst who r) s
  | .farAnswer dest code word => pkgSend dest.pkg m.ctx (answerFlits s.cfg.position dest code word) s
  | .farAns n id a =>
    if n < 256 then pkgSend (BitVec.ofNat 8 n) m.ctx (ansFlits s.cfg.position n id a) s
    else portSend (BitVec.ofNat 3 (n - 256)) m.ctx (ansFlits s.cfg.position n id a) s
  | _ => s

/-- What a flit stream holds. -/
inductive FarPacket
  | push (dst : CoreId) (who : FarId) (topx staged waited : Bool) (key word : Word) (tag : Tag) (payload : Block)
  | answer (dest : FarId) (src : BitVec 8) (code : FarCode) (word : Word)
  /-- A request for memory of this package, from a peer partition or not, and an answer to a request of its own. -/
  | req (peer : Bool) (src : BitVec 8) (id : Nat) (r : FarReq)
  | ans (peer : Bool) (src : BitVec 8) (id : Nat) (a : FarAns)
  /-- A packet for another package, which goes on (R403). -/
  | other (pkg : BitVec 8) (ctx : Nat) (flits : List (BitVec 256))
  deriving DecidableEq, Repr

/-- The identity that a header names, under a package. -/
def headerId (pkg : BitVec 8) (h : BitVec 256) : FarId :=
  ⟨pkg, BitVec.ofNat 17 (flitFld h 41 17), BitVec.ofNat 3 (flitFld h 58 3), BitVec.ofNat 24 (flitFld h 61 24)⟩

/-- The package that a header names as the destination, and as the source. -/
def headerDst (h : BitVec 256) : BitVec 8 := BitVec.ofNat 8 (flitFld h 8 8)
/-- The package that a header names as the source. -/
def headerSrc (h : BitVec 256) : BitVec 8 := BitVec.ofNat 8 (flitFld h 16 8)

/-- The push of a header and the three flits after it. -/
def pushOfFlits (h a b c : BitVec 256) : FarPacket :=
  .push (BitVec.ofNat 17 (flitFld h 24 17)) (headerId (headerSrc h) h) (h.getLsbD 85) (h.getLsbD 86) (h.getLsbD 91)
    (BitVec.ofNat 64 (flitFld a 0 64)) (BitVec.ofNat 64 (flitFld a 64 64)) (BitVec.ofNat 16 (flitFld a 128 16)) (c ++ b)

/-- The answer of a header. -/
def answerOfFlit (own : BitVec 8) (h : BitVec 256) : FarPacket :=
  .answer (headerId own h) (headerSrc h) (numFarCode (flitFld h 87 4)) (BitVec.ofNat 64 (flitFld h 96 64))

/-- A header of a request for memory, or of its answer. -/
def isMemHeader (h : BitVec 256) : Bool := 3 ≤ flitFld h 0 8 && flitFld h 0 8 ≤ 22

/-- A packet for a package, or one that goes on to another (R403). -/
def forOwn (own : BitVec 8) (h : BitVec 256) (fs : List (BitVec 256)) (p : FarPacket) : FarPacket :=
  if headerDst h = own then p
  else .other (headerDst h) (if isMemHeader h then hostCtx else ctxOfName (BitVec.ofNat 17 (flitFld h 24 17))) fs

/-- The push of a header and the three flits after it. -/
def pushIn (own : BitVec 8) (h : BitVec 256) : List (BitVec 256) → Option FarPacket
  | [a, b, c] => some (forOwn own h [h, a, b, c] (pushOfFlits h a b c))
  | _ => none

/-- The two words of a header. -/
def headerA (h : BitVec 256) : Word := BitVec.ofNat 64 (flitFld h 128 64)
/-- The second one. -/
def headerB (h : BitVec 256) : Word := BitVec.ofNat 64 (flitFld h 192 64)
/-- The tag that a header carries. -/
def headerTag (h : BitVec 256) : Tag := BitVec.ofNat 16 (flitFld h 192 16)

/-- The request of a header and its block. -/
def reqOfFlits (h : BitVec 256) (b : Block) : Option FarReq :=
  let k := flitFld h 0 8
  let l := flitFld h 48 41
  let who := BitVec.ofNat 32 (flitFld h 96 32)
  if k = 3 then some (.write l (headerA h) b (if h.getLsbD 90 then some (headerTag h) else none) (h.getLsbD 95) who (h.getLsbD 93))
  else if k = 4 then some (.read l)
  else if k = 6 then some (.cas (h.getLsbD 91) (h.getLsbD 92) l (headerA h) (headerB h) who)
  else if k = 7 then some (.publish who)
  else if 16 ≤ k ∧ k ≤ 22 then some (.amo (numAmo (k - 16)) (h.getLsbD 91) (h.getLsbD 92) l (headerA h) who)
  else none

/-- The answer of a header and its block. -/
def ansOfFlits (h : BitVec 256) (b : Block) : Option FarAns :=
  let k := flitFld h 0 8
  if k = 8 then some .ack
  else if k = 9 then some (.data b (headerTag h))
  else if k = 10 then some (.value (headerA h) (h.getLsbD 94))
  else none

/-- The request or answer of a header and the flits after it; one of a peer partition is always for this package. -/
def memIn (own : BitVec 8) (h : BitVec 256) (rest : List (BitVec 256)) : Option FarPacket :=
  let b : Block := match rest with
    | [x, y] => y ++ x
    | _ => 0
  let id := flitFld h 24 24
  let peer := h.getLsbD 89
  let place := fun (p : FarPacket) => if peer then p else forOwn own h (h :: rest) p
  match reqOfFlits h b, ansOfFlits h b with
  | some r, _ => some (place (.req peer (headerSrc h) id r))
  | none, some a => some (place (.ans peer (headerSrc h) id a))
  | none, none => none

/-- The packet of a header and the flits after it. -/
def packetOf (own : BitVec 8) (h : BitVec 256) (rest : List (BitVec 256)) : Option FarPacket :=
  if flitFld h 0 8 = 1 then pushIn own h rest
  else if flitFld h 0 8 = 2 ∧ rest = [] then some (forOwn own h [h] (answerOfFlit own h))
  else memIn own h rest

/-- Flits after a header of a packet of its kind. -/
def flitsAfter (h : BitVec 256) : Nat :=
  match flitFld h 0 8 with
  | 1 => 3
  | 3 => 2
  | 9 => 2
  | _ => 0

/-- The whole packets of a stream of received flits, and the flits left over. A flit that begins no packet is passed over. -/
def packetsIn (own : BitVec 8) : Nat → List (BitVec 256) → List FarPacket × List (BitVec 256)
  | 0, fs => ([], fs)
  | _ + 1, [] => ([], [])
  | n + 1, h :: fs =>
    let k := flitsAfter h
    if fs.length < k then ([], h :: fs)
    else
      let r := packetsIn own n (fs.drop k)
      match packetOf own h (fs.take k) with
      | some p => (p :: r.1, r.2)
      | none => r

end Sys2Proof.Machine
end

