-- ==== Sys2Proof/Machine/Pending.lean ====
section
/-! DEFINITION. The pending writes of an agent (R132, R353 to R356, R360, R361, R367): stores issued and not yet performed,
the order in which they are performed, and the writes of immediate operations. -/

namespace Sys2Proof.Machine

/-- First location of a write. -/
def writeLoc (w : PWrite) : Nat :=
  match w.bytes, w.tags with
  | p :: _, _ => p.1
  | [], p :: _ => p.1
  | [], [] => 0

/-- The home of a write; its bytes lie in one block. -/
def writeHome (w : PWrite) : CoreId := homeName (writeLoc w)

/-- A write touches a byte of the list, or the tag of its block (R352, R354). -/
def touches (locs : List Nat) (w : PWrite) : Bool :=
  (w.bytes.any fun p => locs.contains p.1) || (w.tags.any fun p => locs.any fun l => blockOf l == blockOf p.1)

/-! ## What the agent itself reads of them (R353, R354) -/

/-- The latest byte pending for a location among an agent's stores, the latest last (R353). -/
def pendingByte (l : Nat) : List PWrite → Option Byte
  | [] => none
  | w :: ws => match pendingByte l ws with
    | some b => some b
    | none => if w.ready then (w.bytes.reverse.find? (fun p => p.1 == l)).map (·.2) else none

/-- The latest tag pending for a block (R354). -/
def pendingTag (blk : Nat) : List PWrite → Option Tag
  | [] => none
  | w :: ws => match pendingTag blk ws with
    | some t => some t
    | none => if w.ready then (w.tags.reverse.find? (fun p => p.1 == blk)).map (·.2) else none

/-- Overlay the pending writes of an agent on a memory. -/
def overlay : List PWrite → Mem → Mem
  | [], m => m
  | w :: ws, m => overlay ws (if w.ready then memSetTags (memSetBytes m w.bytes) w.tags else m)

/-! ## Performing them (R132, R360, R367) -/

/-- Perform a write at its home. -/
def performWrite (w : PWrite) (s : State) : State := writeMem w.bytes w.tags s

/-- Perform writes in order. -/
def performWrites : List PWrite → State → State
  | [], s => s
  | w :: ws, s => performWrites ws (performWrite w s)

/-- Writes of a list that must be performed no later than those that satisfy a test, each marked: the earlier ones to the
same home, and the earlier lanes of the same instruction. With the homes and the instructions of those marked. -/
def needed (f : PWrite → Bool) : List PWrite → List CoreId × List Nat × List (PWrite × Bool)
  | [] => ([], [], [])
  | w :: ws =>
    let r := needed f ws
    if f w || r.1.contains (writeHome w) || r.2.1.contains w.ins
    then (writeHome w :: r.1, w.ins :: r.2.1, (w, true) :: r.2.2)
    else (r.1, r.2.1, (w, false) :: r.2.2)

/-- A write to the own slice of a core that can be performed there at once. -/
def ownReady (c : CoreId) (w : PWrite) : Bool := inSlice c (writeLoc w) && w.ready && !w.remote

/-- Before an immediate operation on bytes of the own slice, the agent's own writes to them are performed, and those that go
before them (R355, R363); none while one of these cannot be performed yet. -/
def settleOwn (locs : List Nat) (s : State) : Option State :=
  let r := (needed (touches locs) s.ag.posted).2.2
  let now := (r.filter (·.2)).map (·.1)
  if now.all (ownReady s.ag.place) then
    some (performWrites now { s with ag := { s.ag with posted := (r.filter fun p => !p.2).map (·.1) } })
  else none

/-- The packet of a write of the current agent has left the interface of its place. -/
def leftHere (s : State) (w : PWrite) : Bool :=
  s.net.any fun m => m.body == .write s.ag.aid w.id && m.src == s.ag.place

/-- The current agent has a write to a home that has not left the interface of its place: an operation sent to that home now would
not follow it (R355, R367, R395). -/
def heldBack (s : State) (home : CoreId) : Bool :=
  s.ag.posted.any fun w => writeHome w == home && !leftHere s w

/-- Before an immediate operation on bytes of one block, the first of them at l, the agent's own writes to them are performed at the
own slice (R355), or have left for their home, where the operation follows them (R367, R395). None while it must wait. -/
def settledAt (l : Nat) (locs : List Nat) (s : State) : Option State :=
  if atOwn s l then settleOwn locs s
  else if heldBack s (homeName l) then none
  else some s

/-- settledAt the first byte of a list. -/
def settled (locs : List Nat) (s : State) : Option State :=
  match locs with
  | [] => some s
  | l :: _ => settledAt l locs s

/-- An immediate operation on bytes goes on when the writes before it are performed, else the agent waits. -/
def settling (locs : List Nat) (s : State) (k : State → Outc) : Outc :=
  match settled locs s with
  | some s1 => k s1
  | none => .next (blockOn .order s)

/-- The first n writes to the slice of core c, in order, and the rest of the list. One that is not ready, that has left another
core, or that follows an unperformed lane of its own instruction holds back all after it. -/
def takeOwn (c : CoreId) : List Nat → Nat → List PWrite → List PWrite × List PWrite
  | _, _, [] => ([], [])
  | seen, n, w :: ws =>
    if inSlice c (writeLoc w) then
      match n with
      | 0 => ([], w :: ws)
      | n + 1 =>
        if ownReady c w && !seen.contains w.ins then
          let r := takeOwn c seen n ws
          (w :: r.1, r.2)
        else ([], w :: ws)
    else
      let r := takeOwn c (w.ins :: seen) n ws
      (r.1, w :: r.2)

/-- Perform the first n pending writes of an agent to its own slice (R360, R361). -/
def drainOwn (aid n : Nat) (s : State) : State :=
  match findAgent s aid with
  | none => s
  | some a =>
    let r := takeOwn a.place [] n a.posted
    onAgent aid (fun b => { b with posted := r.2 }) (performWrites r.1 s)

/-- Perform every pending write of the current agent to its own slice that can be performed. -/
def drainAll (s : State) : State := drainOwn s.ag.aid s.ag.posted.length s

/-- A write of the agent to its own slice still cannot be performed: an ARD before it is queued, or an earlier lane or an
earlier packet is under way. -/
def ownWaits (s : State) : Bool := (drainAll s).ag.posted.any fun w => inSlice s.ag.place (writeLoc w)

/-- Every earlier store of the current agent is performed before its command (R79, R203, R229, R356). -/
def storesFirst (s : State) (k : State → Outc) : Outc :=
  let s1 := drainAll s
  if s1.ag.posted.isEmpty then k s1 else .next (blockOn .order s)

/-- Send the packets of an agent's writes that may leave, in order: one that is not ready holds back the later ones to its
home. -/
def sendWrites (place : CoreId) (ctx aid : Nat) : List CoreId → List PWrite → State → List PWrite × State
  | _, [], s => ([], s)
  | held, w :: ws, s =>
    let h := writeHome w
    if h = place ∨ w.sent then
      let r := sendWrites place ctx aid held ws s
      (w :: r.1, r.2)
    else if !w.ready || held.contains h then
      let r := sendWrites place ctx aid (h :: held) ws s
      (w :: r.1, r.2)
    else
      let r := sendWrites place ctx aid held ws (sendAs place h ctx w.seq (.write aid w.id) s)
      ({ w with sent := true } :: r.1, r.2)

/-- The current agent's writes that may leave do so. -/
def sendReady (s : State) : State :=
  let r := sendWrites s.ag.place s.ag.ctx s.ag.aid [] s.ag.posted s
  { r.2 with ag := { r.2.ag with posted := r.1 } }

/-- No earlier write of the list goes before the write of a number: to its home, or of its instruction (R132, R367). -/
def mayPerform (id : Nat) : List CoreId → List Nat → List PWrite → Bool
  | _, _, [] => false
  | homes, inss, w :: ws =>
    if w.id = id then w.ready && !homes.contains (writeHome w) && !inss.contains w.ins
    else mayPerform id (writeHome w :: homes) (w.ins :: inss) ws

/-- The tag keys of the blocks of a list of locations. -/
def blocksOf : List Nat → List Nat
  | [] => []
  | l :: ls =>
    let r := blocksOf ls
    if r.contains (blockOf l) then r else blockOf l :: r

/-- Blocks of data that a parity error has struck on their way are delivered as poisoned (R399, R422). -/
def spoilBlocks (bad : Bool) (bs : List Nat) (s : State) : State :=
  if bad then writeMem [] (bs.map fun b => (b, memTag s.mem b ||| 0xFF00)) s else s

/-- The blocks of a write. -/
def writeBlocks (w : PWrite) : List Nat := blocksOf (w.bytes.map (·.1) ++ w.tags.map (·.1))

/-- The packet of a write is performed at its home and acknowledged (R167, R367). -/
def performPacket (m : Msg) (aid id : Nat) (s : State) : State :=
  let s1 := performed m s
  match findAgent s1 aid with
  | none => s1
  | some a => match a.posted.find? (fun w => w.id == id) with
    | none => s1
    | some w =>
      sendAs m.dst a.place a.ctx w.seq (.reply aid) (spoilBlocks m.bad (writeBlocks w) (performWrite w
        (onAgent aid (fun b => { b with posted := b.posted.filter fun x => x.id != id }) s1)))

/-- No earlier write of its agent goes before the write of a packet. -/
def writeMay (s : State) (aid id : Nat) : Bool :=
  match findAgent s aid with
  | none => true
  | some a => mayPerform id [] [] a.posted || !(a.posted.any fun w => w.id == id)

/-! ## Storing (R353, R360, R367) -/

/-- Key of a block's tag among the keys of bytes in the lists of written and published locations. -/
def tagKey (blk : Nat) : Nat := 2 ^ 56 + blk

/-- Keys of bytes and tags. -/
def keysOf (bytes : List (Nat × Byte)) (tags : List (Nat × Tag)) : List Nat :=
  bytes.map (·.1) ++ tags.map fun p => tagKey p.1

/-- Add keys to a list without repeating one. -/
def addWritten (keys w : List Nat) : List Nat := keys ++ w.filter (fun k => !keys.contains k)

/-- The location of a key of a byte or tag. -/
def keyLoc (k : Nat) : Nat := if k < 2 ^ 56 then k else k - 2 ^ 56

/-- The packages whose memory keys lie in, each once. -/
def farPkgs : List Nat → List Nat
  | [] => []
  | k :: ks =>
    let r := farPkgs ks
    if isFarLoc (keyLoc k) && !r.contains (farPkg (keyLoc k)) then farPkg (keyLoc k) :: r else r

/-- The agent sees a store of its own at once: its snapshot takes it outside the own slice, and its publications carry it. -/
def seeWrite (bytes : List (Nat × Byte)) (tags : List (Nat × Tag)) (a : Agent) : Agent :=
  let far := (keysOf bytes tags).filter fun k => isFarLoc (keyLoc k)
  { a with
    farSeen := addWritten far a.farSeen
    farDirty := addWritten (farPkgs far) a.farDirty
    view := memSetTags (memSetBytes a.view (bytes.filter fun p => !inSlice a.place p.1))
      (tags.filter fun p => !inSlice a.place p.1)
    written := addWritten (keysOf bytes tags) a.written }

/-- A store of the current agent becomes pending at its home. One beyond the core takes a request number and counts in OUTREQ
(R167, R238). -/
def addWrite (ready : Bool) (bytes : List (Nat × Byte)) (tags : List (Nat × Tag)) (s : State) : State :=
  let w : PWrite :=
    { id := s.msgs, ins := s.draws, bytes := bytes, tags := tags, remote := false, seq := s.ag.reqseq, ready := ready,
      sent := false }
  let far := !atOwn s (writeLoc w)
  let a := if ready then seeWrite bytes tags s.ag else s.ag
  { s with
    msgs := s.msgs + 1
    ag := { a with
      posted := a.posted ++ [{ w with remote := far }]
      outreq := if far then a.outreq + 1 else a.outreq
      reqseq := if far then a.reqseq + 1 else a.reqseq } }

/-- One pending store after another, in ascending order. -/
def addWrites (ready : Bool) : List (List (Nat × Byte) × List (Nat × Tag)) → State → State
  | [], s => s
  | w :: ws, s => addWrites ready ws (addWrite ready w.1 w.2 s)

/-- The ordinary stores of one instruction of the current agent, in ascending order (R132, R353, R360, R367): they are pending
at their homes, the agent sees them at once, and no other party has a promise of them before a publication. -/
def postStores (ws : List (List (Nat × Byte) × List (Nat × Tag))) (s : State) : State := sendReady (addWrites true ws s)

/-- One ordinary store. -/
def postStore (bytes : List (Nat × Byte)) (tags : List (Nat × Tag)) (s : State) : State := postStores [(bytes, tags)] s

/-- The data of the pending write of a number are known (R158, R165). -/
def fillWrite (id : Nat) (bytes : List (Nat × Byte)) (tags : List (Nat × Tag)) (s : State) : State :=
  { s with ag := { seeWrite bytes tags s.ag with
      posted := s.ag.posted.map fun w => if w.id = id then { w with bytes := bytes, tags := tags, ready := true } else w } }

/-- The data of several pending writes are known. -/
def fillWrites : List Nat → List (List (Nat × Byte) × List (Nat × Tag)) → State → State
  | i :: is, w :: ws, s => fillWrites is ws (fillWrite i w.1 w.2 s)
  | [], _, s => s
  | _ :: _, [], s => s

/-- A write that the current agent's own immediate operation leaves at the home (R353, R355). -/
def immediateWrite (bytes : List (Nat × Byte)) (tags : List (Nat × Tag)) (s : State) : State :=
  let s1 := writeMem bytes tags s
  { s1 with ag := { s1.ag with
      view := memSetTags (memSetBytes s1.ag.view bytes) tags
      written := addWritten (keysOf bytes tags) s1.ag.written } }

/-- Pair locations with the bytes of a number. -/
def withBytes (ls : List Nat) (x : Nat) : List (Nat × Byte) := ls.zip (natToBytes ls.length x)

end Sys2Proof.Machine
end

