-- ==== Sys2Proof/Machine/Remote.lean ====
section
/-! DEFINITION. Operations at other parties (R167, R174, R190): an agent's operation acts at once at its own core; for another
party a request leaves, the party performs it when it arrives, and the agent goes on with the answer. -/

namespace Sys2Proof.Machine

/-- The operation counts in OUTREQ until it is answered (R167, R190). -/
def countsOut : HomeOp → Bool
  | .new _ _ _ => false
  | .enq _ _ _ _ => false
  | .enwait _ _ _ => false
  | .preds => false
  | .amo _ _ _ _ _ _ => true
  | .cas _ _ _ _ _ _ => true
  | .bara _ _ _ _ => true
  | .barw _ _ _ => true
  | .waitf _ _ => true
  | .fill _ _ => true
  | .link _ _ => true
  | .wire _ _ => true
  | .tshare _ _ _ => true
  | .tdrop _ _ _ => true
  | .publish _ => true
  | .seq _ => true
  | .wake _ _ => true
  | .launch _ _ => true
  | .guard _ _ => true

/-- OUTREQ rises where a request counts (R167). -/
def raiseOut (b : Bool) (s : State) : State :=
  { s with ag := { s.ag with outreq := if b then s.ag.outreq + 1 else s.ag.outreq } }

/-- OUTREQ falls where an answered request counted. -/
def lowerOut (b : Bool) (a : Agent) : Agent := { a with outreq := if b then a.outreq - 1 else a.outreq }

/-- The request of an operation leaves with its number, and the agent waits for the answer; it waits first while a write of its own
to that party has not left (R167, R238, R355, R395). -/
def ask (dst : CoreId) (o : HomeOp) (s : State) : Outc :=
  if heldBack s dst then .next (blockOn .order s)
  else
    .next (blockOn (.op s.draws none)
      (raiseOut (countsOut o) (takeSeq (sendAs s.ag.place dst s.ag.ctx s.ag.reqseq (.op s.ag.aid s.draws o) s))))

/-- What an operation answers with a value. -/
def answer (x : Word) : OpAnswer := .done ⟨x, 0, 0, false, false⟩

/-- The current agent goes on with the answer to an operation that has acted at its own core; there may be none yet. -/
def actedHere (fin : OpData → State → Outc) (r : State × Option OpAnswer) : Outc :=
  match r.2 with
  | some (.done d) => fin d r.1
  | some (.trapped c a) => trap c a r.1
  | some .tableFull => .next (blockOn .waitTable r.1)
  | some .ringFull => .next (blockOn .engineRoom r.1)
  | some (.guarded _ _) => .next r.1
  | none => .next r.1

/-- An operation at a party: at the own core it acts at once, and `fin` goes on with what it answers; for another one its request
leaves. -/
def atParty (dst : CoreId) (o : HomeOp) (act : State → State × Option OpAnswer) (fin : OpData → State → Outc) (s : State) : Outc :=
  if dst = s.ag.place then actedHere fin (act s) else ask dst o s

/-- An instruction whose operation has been answered goes on with the answer; else it begins. -/
def completing (fin : OpData → State → Outc) (s : State) (k : Outc) : Outc :=
  match s.ag.run with
  | .blocked (.op _ (some d)) => fin d s
  | _ => k

/-- The agent's accesses to a tile buffer reach a copy of it (R322): also those that reached this buffer as a copy. -/
def addRedirect (l l' : Nat) (a : Agent) : Agent :=
  { a with redirects := (l, l') :: a.redirects.map fun p => if p.2 = l then (p.1, l') else p }

/-- The answer to the operation of the current agent, by its number: the instruction goes on with a value, waits for room, repeats
its access to a copied buffer, or traps. -/
def takeResult (key : Nat) (ans : OpAnswer) (s : State) : State :=
  if s.ag.run = .blocked (.op key none) then
    match ans with
    | .done d => blockOn (.op key (some d)) s
    | .trapped c a => trapWaited c false a s
    | .tableFull => blockOn .waitTable s
    | .ringFull => blockOn .engineRoom s
    | .guarded l l' =>
      let a := if l = l' then s.ag else addRedirect l l' s.ag
      { s with ag := { a with run := .running } }
  else s

/-- The answer to an operation leaves the party that has performed it; at the agent's own core it is there at once. -/
def answerTo (home : CoreId) (aid key : Nat) (seq : BitVec 24) (counts : Bool) (ans : OpAnswer) (s : State) : State :=
  match findAgent s aid with
  | none => s
  | some a =>
    if a.place = home then takeResult key ans (onAgent aid (lowerOut counts) (checkout aid s))
    else sendAs home a.place a.ctx seq (.result aid key counts ans) s

end Sys2Proof.Machine
end

