-- ==== Sys2Proof/Machine/Operands.lean ====
section
/-! DEFINITION. Memory operands: regions and translation (R65 to R69, R298 to R303), what a read by an agent returns and
what a store by an agent does (R353, R360, R361, R367, R368), copy on first write (R322), and the memory operand forms. -/

namespace Sys2Proof.Machine

/-! ## Addresses -/

/-- Why an address does not reach a location. -/
inductive XErr | bounds | miss
  deriving DecidableEq, Repr

/-- Current generation of an ASID (R307). -/
def asidGenOf (s : State) (asid : BitVec 16) : BitVec 8 := alGet 0 s.asidGen asid.toNat

/-- A TLB entry allows an access of the kind (R301). -/
def tlbAllows (e : TlbEntry) : FKind → Bool
  | .read => e.r
  | .engRead => e.r
  | .write => e.w && !e.poison
  | .engWrite => e.w && !e.poison
  | .readWrite => e.r && e.w && !e.poison
  | .fetch => e.x && !e.poison

/-- The entry an access hits (R302). -/
def tlbFind (s : State) (c : Core) (asid : BitVec 16) (va : Nat) (k : FKind) : Option TlbEntry :=
  c.tlb.find? fun e => e.asid == asid && e.gen == asidGenOf s asid && va / 2 ^ e.bits == e.va / 2 ^ e.bits && tlbAllows e k

/-- Bytes of a stack below its store reservation (R67, R327). -/
def stackEnd (s : State) (k : Nat) : Nat := (48 - s.cfg.store.toList.getD k 0) * 2 ^ 30

/-- The physical address is populated (R67, R327). -/
def paOk (s : State) (pa : Nat) : Bool :=
  if pa / 2 ^ 51 = 0 then pa / 2 ^ 36 < 12 && pa % 2 ^ 36 < stackEnd s (pa / 2 ^ 36)
  else pa / 2 ^ 51 = 1

/-- The location in another package's memory to which a physical address outside the ranges of R67 leads: one of a package that the
routing table names, or of a peer partition (R376, R381; DESIGN CHOICE, log 30). -/
def farLoc (s : State) (pa : Nat) : Option Nat :=
  match Config.farPage (pa / 65536) with
  | none => none
  | some (n, q) =>
    if n < 512 ∧ n ≠ s.cfg.position.toNat ∧ (256 ≤ n ∨ routed s (BitVec.ofNat 8 n)) then
      some (2 ^ 53 + n * 2 ^ 41 + (q * 65536 + pa % 65536) % 2 ^ 41)
    else none

/-- Where a physical address leads, or none where R67 bars it. -/
def paLoc (s : State) (pa : Nat) : Option Nat := if paOk s pa then some pa else farLoc s pa

/-- A shadow pair's range rename (R206): the selector decides which storage each half reaches. -/
def shadowVA (p : Shadow) (va : Nat) : Nat :=
  if p.flipped then
    if p.va.toNat ≤ va && va < p.va.toNat + p.bytes then va + p.bytes
    else if p.va.toNat + p.bytes ≤ va && va < p.va.toNat + 2 * p.bytes then va - p.bytes
    else va
  else va

/-- The address lies in either half of the pair. -/
def inShadow (p : Shadow) (va : Nat) : Bool := p.va.toNat ≤ va && va < p.va.toNat + 2 * p.bytes

/-- The pair that an address of a core's instance lies in (R206). -/
def shadowOf (s : State) (c : Core) (va : Nat) : Option Shadow :=
  match c.ctx with
  | none => none
  | some n => match findInst s n c.inst with
    | none => none
    | some i => i.shadows.find? (fun p => inShadow p va)

/-- The window (R66, R68): the slice of a core that hosts the context, an accessible offset, or an overflow block the
agent may read. -/
def windowLoc (s : State) (ctx : Nat) (va : Nat) (ovf : List Nat) : Except XErr Nat :=
  let id := ctxCore ctx (va / 2 ^ 22)
  let o := va % 2 ^ 20
  let lin := if va / 2 ^ 21 % 2 = 1 then skewOff o else o
  let c := getCore s id
  if va / 2 ^ 32 % 2 ^ 16 ≠ 0 || va / 2 ^ 20 % 2 ≠ 0 || !isComputeCore id then .error .bounds
  else if c.ctx ≠ some ctx then .error .bounds
  else if lin < accEnd c.kd then .ok (sliceBase id + lin)
  else if ovf.contains (sliceBase id + blockOf lin) then .ok (sliceBase id + lin)
  else .error .bounds

/-- Region and translation of one byte address (R65 to R68, R302, R389). -/
def xlate (s : State) (c : Core) (ctx : Nat) (va : Word) (k : FKind) (ovf : List Nat) : Except XErr XOk :=
  let v0 := va.toNat
  match shadowOf s c v0 with
  | some p =>
    if p.scope < 6 && scopeLevel c.id p.home > p.scope then .error .bounds
    else go (shadowVA p v0)
  | none => go v0
where
  /-- The address after the renaming of a shadow pair. -/
  go (v : Nat) : Except XErr XOk :=
    if v / 2 ^ 48 < 0xF0 then
      match findCtx s ctx with
      | none => .error .bounds
      | some x =>
        match tlbFind s c x.asid v k with
        | none => .error .miss
        | some e =>
          let pa := e.pa + v % 2 ^ e.bits
          match paLoc s pa with
          | some l => .ok ⟨l, e.poison⟩
          | none => .error .bounds
    else if v / 2 ^ 48 = 0xFE then
      match windowLoc s ctx v ovf with
      | .ok l => .ok ⟨l, false⟩
      | .error e => .error e
    else .error .bounds

/-! ## The page table (R298 to R301) -/

/-- How a walk ends: a leaf as a TLB entry without its ASID, not present, or refused. -/
inductive WalkRes
  | leaf (e : TlbEntry)
  | absent
  | malformed
  deriving DecidableEq, Repr

/-- The TLB entry of a leaf (R299). -/
def leafEntry (e sh va : Nat) : TlbEntry where
  asid := 0
  gen := 0
  va := va / 2 ^ sh * 2 ^ sh
  bits := sh
  pa := e / 2 ^ 13 % 2 ^ 39 * 2 ^ 13
  r := e / 2 ^ 2 % 2 == 1
  w := e / 2 ^ 3 % 2 == 1
  x := e / 2 ^ 4 % 2 == 1
  poison := e / 2 ^ 7 % 2 == 1

/-- The walk from a table on, for the index positions that remain (R298, R300). An entry in a block with an
uncorrectable error cannot be read. -/
def walkFrom (s : State) (va : Nat) : List Nat → Nat → WalkRes
  | [], _ => .malformed
  | sh :: rest, t =>
    let l := t + 8 * (va / 2 ^ sh % 1024)
    let e := memNat s.mem l 8
    let addr := e / 2 ^ 13 % 2 ^ 39 * 2 ^ 13
    if isStruck s l then .malformed
    else if e % 2 = 0 then .absent
    else if e / 2 ^ 52 ≠ 0 ∨ e / 2 ^ 8 % 32 ≠ 0 ∨ e / 2 ^ 5 % 4 ≠ 0 then .malformed
    else if e / 2 % 2 = 1 then
      if sh = 46 ∨ addr % 2 ^ sh ≠ 0 ∨ e / 2 ^ 3 % 4 = 3 then .malformed else .leaf (leafEntry e sh va)
    else if rest = [] ∨ e / 2 ^ 2 % 8 ≠ 0 ∨ e / 2 ^ 7 % 2 = 1 ∨ !(paOk s addr) ∨ 2 ^ 51 ≤ addr then .malformed
    else walkFrom s va rest addr

/-- The walk of a virtual address (R300). -/
def walk (s : State) (root : Word) (va : Nat) : WalkRes := walkFrom s va [46, 36, 26, 16] root.toNat

/-! ## The accesses of one instruction -/

/-- One lane of an access: its address and its bytes. -/
abbrev Lane := Word × Nat

/-- Translate one byte of an access; host memory counts as refused where the access is not allowed there (R169). -/
def xlateByte (s : State) (hostOk : Bool) (k : FKind) (ovf : List Nat) (va : Word) : Except XErr XOk :=
  match xlate s s.core s.ag.ctx va k ovf with
  | .ok x => if !hostOk && isHostLoc x.loc then .error .bounds else .ok x
  | .error e => .error e

/-- Translate every byte of a lane. -/
def xlateLane (s : State) (hostOk : Bool) (k : FKind) (ovf : List Nat) (l : Lane) : Except XErr (List XOk) :=
  (List.range l.2).mapM fun i => xlateByte s hostOk k ovf (l.1 + BitVec.ofNat 64 i)

/-- The byte of a lane ends so. -/
def byteFails (s : State) (hostOk : Bool) (k : FKind) (ovf : List Nat) (e : XErr) (va : Word) : Bool :=
  match xlateByte s hostOk k ovf va with
  | .ok _ => false
  | .error x => x == e

/-- A byte of a lane breaks a region rule. -/
def laneBounds (s : State) (hostOk : Bool) (k : FKind) (ovf : List Nat) (l : Lane) : Bool :=
  (List.range l.2).any fun i => byteFails s hostOk k ovf .bounds (l.1 + BitVec.ofNat 64 i)

/-- The first byte of a lane that misses in the TLB. -/
def laneMiss (s : State) (hostOk : Bool) (k : FKind) (ovf : List Nat) (l : Lane) : Option Word :=
  ((List.range l.2).find? fun i => byteFails s hostOk k ovf .miss (l.1 + BitVec.ofNat 64 i)).map
    fun i => l.1 + BitVec.ofNat 64 i

/-- The address that is translated for an access of a core: a flipped shadow pair renames it (R206, R389). -/
def renamed (s : State) (c : Core) (va : Word) : Word :=
  match shadowOf s c va.toNat with
  | some p => BitVec.ofNat 64 (shadowVA p va.toNat)
  | none => va

/-- The cluster whose teff core serves a core: that of the physical core (R252, R298). -/
def teffOf (s : State) (c : CoreId) : Nat := clusterIdx (getCore s c).phys

/-- A fault message leaves for the teff core that serves a core (R303). -/
def sendFault (c : CoreId) (ctx : Nat) (seq : BitVec 24) (a : Access) (s : State) : State :=
  sendAs c (teffName (teffOf s c)) ctx seq (.fault a) s

/-- The access of an agent that misses: the address translated, and the one that a refusal reports. -/
def agentAccess (s : State) (va report : Word) (k : FKind) : Access where
  who := .agent s.ag.aid
  asid := match findCtx s s.ag.ctx with | some c => c.asid | none => 0
  root := match findCtx s s.ag.ctx with | some c => c.root | none => 0
  va := renamed s s.core va
  report := report
  kind := k
  place := whereOf s.ag.place s.ag.num
  seq := s.ag.reqseq
  stage := 1
  record := none

/-- A TLB miss: the fault message leaves, it counts in OUTREQ, and the agent blocks (R238, R303). -/
def missOn (va report : Word) (k : FKind) (s : State) : State :=
  let a := agentAccess s va report k
  blockOn (.translation s.ag.reqseq) (raiseOut true (takeSeq (sendFault s.ag.place s.ag.ctx s.ag.reqseq a s)))

/-- The private copy an agent's accesses to a shared tile buffer reach (R322). -/
def aliasLoc (a : Agent) (l : Nat) : Nat :=
  match a.redirects.find? (fun p => p.1 ≤ l && l < p.1 + 1024) with
  | some p => p.2 + (l - p.1)
  | none => l

/-- A queued ARD of the current agent writes one of the bytes (R158). -/
def overlapsArd (s : State) (ls : List (List XOk)) : Bool :=
  s.ag.posted.any fun w => !w.ready && ls.any fun xs => xs.any fun x => w.bytes.any fun p => p.1 == aliasLoc s.ag x.loc

/-- Steps 2 and 3 of R168 for every lane of an instruction, then what follows: the locations of every lane's bytes. A failure
reports the lane's address, or the one address given (R132, R226). -/
def accessAt (rep : Option Word) (s : State) (hostOk : Bool) (k : FKind) (ovf : List Nat) (lanes : List Lane)
    (f : List (List XOk) → Outc) : Outc :=
  match lanes.find? (laneBounds s hostOk k ovf) with
  | some l => trap cBounds (rep.getD l.1) s
  | none =>
    match lanes.findSome? (laneMiss s hostOk k ovf) with
    | some va => .next (missOn va (rep.getD va) k s)
    | none =>
      match lanes.mapM (xlateLane s hostOk k ovf) with
      | .ok ls => if overlapsArd s ls then .next (blockOn .coproc s) else f ls
      | .error _ => trap cBounds 0 s

/-- accessAt where each lane reports its own address. -/
def access (s : State) (hostOk : Bool) (k : FKind) (ovf : List Nat) (lanes : List Lane)
    (f : List (List XOk) → Outc) : Outc := accessAt none s hostOk k ovf lanes f

/-- The accesses of 64 bytes at an address: one, or one for each of the two blocks (R142). -/
def blockLanes (ea : Word) : List Lane :=
  let n := ea.toNat % 64
  if n = 0 then [(ea, 64)] else [(ea, 64 - n), (ea + BitVec.ofNat 64 (64 - n), n)]

/-! ## Read requests (R167, R238, R394) -/

/-- The blocks beyond the core that the lanes of a read name, one request for each block of each lane. -/
def remoteBlocks (s : State) (ls : List (List XOk)) : List Nat :=
  ls.flatMap fun xs => (blocksOf (xs.map fun x => aliasLoc s.ag x.loc)).filter fun l => !atOwn s l

/-- A read request leaves for the home of each block; each counts in OUTREQ until its reply (R167, R394). -/
def askBlocks (key : Nat) : List Nat → State → State
  | [], s => s
  | l :: ls, s =>
    askBlocks key ls 
      (raiseOut true (takeSeq (sendAs s.ag.place (homeName l) s.ag.ctx s.ag.reqseq
        (if isFarLoc l then .readFar (.agent s.ag.aid key) l else .request (.agent s.ag.aid key) false true) s)))

/-- Where the addresses of the agent's read lead, when the replies to its requests have come (R306). -/
def gotReads (s : State) : Option (List (List XOk)) :=
  match s.ag.run with
  | .blocked (.reads _ 0 _ ls) => some ls
  | _ => none

/-- A reply that has come was struck by a parity error (R422). -/
def badReply (s : State) : Bool :=
  match s.ag.run with
  | .blocked (.reads _ 0 b _) => b
  | _ => false

/-- A read of translated addresses goes on at once within the own slice; else its requests leave, and it waits for the replies. -/
def fetching (ls : List (List XOk)) (s : State) (k : Outc) : Outc :=
  match remoteBlocks s ls with
  | [] => k
  | b :: bs => .next (blockOn (.reads s.draws (bs.length + 1) false ls) (askBlocks s.draws (b :: bs) s))

/-- The accesses of a read: checks, translation, the instruction's own checks, and the replies. -/
def readingOn (rep : Option Word) (own : Outc → Outc) (s : State) (hostOk : Bool) (ovf : List Nat) (lanes : List Lane)
    (f : List (List XOk) → Outc) : Outc :=
  match gotReads s with
  | some ls => f ls
  | none => accessAt rep s hostOk .read ovf lanes fun ls => own (fetching ls s (f ls))

/-- readingOn without own checks. -/
def readingAt (rep : Option Word) (s : State) (hostOk : Bool) (ovf : List Nat) (lanes : List Lane)
    (f : List (List XOk) → Outc) : Outc := readingOn rep id s hostOk ovf lanes f

/-- readingAt where each lane reports its own address. -/
def reading (s : State) (hostOk : Bool) (ovf : List Nat) (lanes : List Lane) (f : List (List XOk) → Outc) : Outc :=
  readingAt none s hostOk ovf lanes f

/-- Step 1 of R168: every lane's address a multiple of n, else MISALIGNED with the lowest failing lane's address. -/
def aligned (s : State) (n : Nat) (lanes : List Lane) (k : Outc) : Outc :=
  match lanes.find? (fun l => l.1.toNat % n != 0) with
  | some l => trap cMisaligned l.1 s
  | none => k

/-! ## Reads -/

/-- A byte as the current agent reads it: its own slice directly, anything else in its snapshot (R353, R361, R368). -/
def agByte (s : State) (l : Nat) : Byte :=
  if inSlice s.ag.place l then (pendingByte l s.ag.posted).getD (memByte s.mem l) else memByte s.ag.view l

/-- A block's tag as the current agent reads it (R354); a poisoned page gives scale 0xFF (R301), and so does a reply that a
parity error has struck (R422). -/
def agTag (s : State) (x : XOk) : Tag :=
  let l := aliasLoc s.ag x.loc
  let t := if inSlice s.ag.place l then (pendingTag (blockOf l) s.ag.posted).getD (memTag s.mem l)
    else memTag s.ag.view l
  if x.poison || (badReply s && !atOwn s l) then t ||| 0xFF00 else t

/-- The bytes at translated addresses as a number. -/
def agNat (s : State) (xs : List XOk) : Nat := bytesToNat (xs.map fun x => agByte s (aliasLoc s.ag x.loc))

/-- The first byte's block tag. -/
def agTagOf (s : State) (xs : List XOk) : Tag :=
  match xs with
  | x :: _ => agTag s x
  | [] => 0x7FC0

/-- Some block read is poisoned: a read that does not carry the tag sets PSN (R50). -/
def anyPoison (s : State) (xs : List XOk) : Bool := xs.any fun x => poisoned (agTag s x)

/-- Blocks of the agent's core that a lease on an APPEND list lets it read (R68, R265): the entry that it leases, in its own
core's queue. -/
def leasedOverflow (s : State) : List Nat :=
  match s.ag.hrec with
  | none => []
  | some r =>
    if r.core ≠ s.core.id then []
    else match s.core.kq.find? (fun e => e.place == r.place && e.state == .leased && e.holder == some s.ag.aid) with
    | none => []
    | some e => e.ovf.map fun b => sliceBase s.core.id + poolBase + 64 * b

/-! ## Tile buffers and the copy on first write -/

/-- A tile buffer's state (R70). -/
def bufOf (c : Core) (b : Nat) : TileBuf := alGet ⟨.free, 0, false⟩ c.bufs b
/-- Store a tile buffer's state. -/
def setBuf (b : Nat) (x : TileBuf) (c : Core) : Core := { c with bufs := alSet ⟨.free, 0, false⟩ c.bufs b x }

/-- The location that an address of a core names for an access: the window, the TLB, or a walk (R193, R302). -/
def pageLoc (s : State) (c : Core) (ctx : Nat) (k : FKind) (a : Word) : Option Nat :=
  match xlate s c ctx a k [] with
  | .ok x => some x.loc
  | .error .bounds => none
  | .error .miss =>
    match findCtx s ctx with
    | none => none
    | some x =>
      let v := (renamed s c a).toNat
      match walk s x.root v with
      | .leaf e => if tlbAllows e k then paLoc s (e.pa + v % 2 ^ e.bits) else none
      | .absent => none
      | .malformed => none

/-- The location of a node address (R193, R301); host memory holds no node records (R169), nor does another package's (log 30). -/
def nodeLoc (s : State) (c : Core) (ctx : Nat) (a : Word) : Option Nat :=
  (pageLoc s c ctx .readWrite a).filter fun l => !isHostLoc l && !isFarLoc l

/-- The nodes of the agent's record that are TIL nodes with the given payload: their payload word's location (R322). -/
def tilNodes (s : State) (handle : Nat) : List Nat :=
  match s.ag.hrec with
  | none => []
  | some r => match r.nodes with
    | none => []
    | some (a, b) =>
      ([a, b].filterMap fun n => nodeLoc s s.core s.ag.ctx n).filterMap fun l =>
        if (memWord s.mem l).toNat / 2 ^ 48 = 4 && (memWord s.mem (l + 8)).toNat = handle then some (l + 8) else none

/-- The buffer of a location whose write by the current agent is guarded (R322). DEDUCED (log 28): a copy that the agent has made,
and to which its record's nodes hold every reference, is not copied again. -/
def guardedBuf (s : State) (l : Nat) : Option (CoreId × Nat) :=
  if isSliceLoc l then
    let c := getCore s (coreOfLoc l)
    let b := sliceOff l / 1024
    let t := bufOf c b
    let n := (tilNodes s (winBase c.id + b * 1024)).length
    let own := s.ag.redirects.any fun p => p.2 ≤ l && l < p.2 + 1024
    if b < c.kd.tiles && t.state = .full && t.share ≥ 1 && n ≠ 0 && !(own && t.share < n) then some (c.id, b) else none
  else none

/-- The guarded buffers that a store to the locations writes, each once, in order. -/
def guardedBufs (s : State) : List Nat → List (CoreId × Nat)
  | [] => []
  | l :: ls => match guardedBuf s (aliasLoc s.ag l) with
    | none => guardedBufs s ls
    | some b => b :: (guardedBufs s ls).filter (· != b)

/-- The lowest-numbered FREE buffer of a core (R322). -/
def freeBuf (c : Core) : Option Nat := (List.range c.kd.tiles).find? fun b => (bufOf c b).state == .free

/-- The copy on first write (R322), the agent's own writes to the buffer being performed: the buffer is copied to a free one,
block by block with its tags, the nodes name the copy, and the agent's accesses reach it. -/
def guardCopy (c : Core) (b f : Nat) (s : State) : State :=
  let h := sliceBase c.id + b * 1024
  let h' := sliceBase c.id + f * 1024
  let ns := tilNodes s (winBase c.id + b * 1024)
  let t := bufOf c b
  let bytes := withBytes ((List.range 1024).map (h' + ·)) (memNat s.mem h 1024)
  let tags := (List.range 16).map fun i => (h' + 64 * i, memTag s.mem (h + 64 * i))
  let words := ns.flatMap fun l => withBytes ((List.range 8).map (l + ·)) (winBase c.id + f * 1024)
  let s1 := immediateWrite (bytes ++ words) tags
    (onCore c.id (fun c => setBuf f ⟨.full, ns.length - 1, false⟩ (setBuf b { t with share := t.share - ns.length } c)) s)
  { s1 with ag := addRedirect h h' s1.ag }

/-- The locations of a tile buffer of a core. -/
def bufLocs (c : CoreId) (b : Nat) : List Nat := (List.range 1024).map (sliceBase c + b * 1024 + ·)

/-- Guard one buffer that a store writes, and go on (R322). At the own core it is copied at once, once own writes to it and to its
copy are performed; for another core its request leaves, and the store follows the answer. With no FREE buffer left for it, the
store traps, and nothing has changed; nothing has changed either while it waits (R106). -/
def guardOne (s0 : State) (p : CoreId × Nat) (s : State) (k : State → Outc) : Outc :=
  if p.1 ≠ s.ag.place then ask p.1 (.guard p.1 p.2) s0
  else match freeBuf (getCore s p.1) with
  | none => trap cBounds (BitVec.ofNat 64 (winBase p.1 + p.2 * 1024)) s0
  | some f =>
    match settleOwn (bufLocs p.1 p.2 ++ bufLocs p.1 f) s with
    | none => .next (blockOn .order s0)
    | some s1 => k (guardCopy (getCore s1 p.1) p.2 f s1)

/-- The copy of a buffer at its core, for the current agent's request. -/
def guardAct (c : CoreId) (b : Nat) (s : State) : State × Option OpAnswer :=
  let l := sliceBase c + b * 1024
  if guardedBuf s l ≠ some (c, b) then (s, some (.guarded l l))
  else match freeBuf (getCore s c) with
  | none => (s, some (.trapped cBounds (BitVec.ofNat 64 (winBase c + b * 1024))))
  | some f => (guardCopy (getCore s c) b f s, some (.guarded l l))

/-- The trap of an answer. -/
def trapOf : Option OpAnswer → Option (BitVec 8 × Word)
  | some (.trapped c a) => some (c, a)
  | _ => none

/-- What follows on a guard: its trap, or its state. -/
def guardEnd (r : State × Option OpAnswer) : Except (BitVec 8 × Word) State :=
  match trapOf r.2 with
  | some e => .error e
  | none => .ok r.1

/-- Guard the buffers that an immediate operation writes, at its home: the operation's locations and the state, or the trap. -/
def guardHere (ps : List (CoreId × Nat)) (s : State) : Except (BitVec 8 × Word) State :=
  ps.foldlM (fun t p => guardEnd (guardAct p.1 p.2 t)) s

/-- Guard the buffers that a store writes, one after another. -/
def guardAll (s0 : State) : List (CoreId × Nat) → State → (State → Outc) → Outc
  | [], s, k => k s
  | p :: ps, s, k => guardOne s0 p s fun s1 => guardAll s0 ps s1 k

/-- A store's checks, its own ones last, and its guard; what follows receives the locations to store to and the state (R168,
R322). -/
def storingOn (rep : Option Word) (own : Outc → Outc) (s : State) (hostOk : Bool) (k : FKind) (lanes : List Lane)
    (f : List (List Nat) → State → Outc) : Outc :=
  accessAt rep s hostOk k [] lanes fun ls => own <|
    guardAll s (guardedBufs s (ls.flatten.map (·.loc))) s fun s' => f (ls.map fun xs => xs.map fun x => aliasLoc s'.ag x.loc) s'

/-- storingOn without own checks. -/
def storingAt (rep : Option Word) (s : State) (hostOk : Bool) (k : FKind) (lanes : List Lane)
    (f : List (List Nat) → State → Outc) : Outc := storingOn rep id s hostOk k lanes f

/-- storingAt where each lane reports its own address. -/
def storing (s : State) (hostOk : Bool) (k : FKind) (lanes : List Lane) (f : List (List Nat) → State → Outc) : Outc :=
  storingAt none s hostOk k lanes f

/-- The stores of the bytes of a number, part by part. -/
def partStores : List (List Nat) → Nat → List (List (Nat × Byte) × List (Nat × Tag))
  | [], _ => []
  | l :: ls, x => (withBytes l x, []) :: partStores ls (x / 2 ^ (8 * l.length))

/-! ## Memory operand forms (R91, R170) -/

/-- Effective address sa + sext(off). -/
def ea11 (s : State) (a : Reg) (off : BitVec 11) : Word := getS s a + off.signExtend 64
/-- Effective address sa + sext32. -/
def ea32 (s : State) (a : Reg) (off : BitVec 32) : Word := getS s a + off.signExtend 64

/-- Bytes of a load (R91). -/
def ldBytes : LdSz → Nat
  | .d64 => 8 | .i32 => 4 | .i16 => 2 | .i8 => 1 | .n32 => 4 | .n16 => 2 | .n8 => 1
/-- Sign- or zero-extension of a load (R91). -/
def ldExtend (z : LdSz) (x : Nat) : Word :=
  match z with
  | .i32 => (BitVec.ofNat 32 x).signExtend 64
  | .i16 => (BitVec.ofNat 16 x).signExtend 64
  | .i8 => (BitVec.ofNat 8 x).signExtend 64
  | .d64 => BitVec.ofNat 64 x
  | .n32 => BitVec.ofNat 64 x
  | .n16 => BitVec.ofNat 64 x
  | .n8 => BitVec.ofNat 64 x
/-- Bytes of a store (R91). -/
def stBytes : StSz → Nat
  | .d64 => 8 | .w32 => 4 | .h16 => 2 | .b8 => 1

/-- A scalar load at an effective address (R170, R226). -/
def loadScalar (d : Reg) (z : LdSz) (ea : Word) (len : Nat) (s : State) : Outc :=
  aligned s (ldBytes z) [(ea, ldBytes z)] <|
    reading s true (leasedOverflow s) [(ea, ldBytes z)] fun ls =>
      let xs := ls.headD []
      .next (advance len (setS d (ldExtend z (agNat s xs)) (orStatus (stickyIf (anyPoison s xs) stPSN) s)))

/-- A scalar store at an effective address (R170, R226). -/
def storeScalar (d : Reg) (z : StSz) (ea : Word) (len : Nat) (s : State) : Outc :=
  aligned s (stBytes z) [(ea, stBytes z)] <|
    storing s true .write [(ea, stBytes z)] fun ls s' =>
      .next (advance len (postStore (withBytes (ls.headD []) (getS s d).toNat) [] s'))

end Sys2Proof.Machine
end

