-- ==== Sys2Proof/Machine/Order.lean ====
section
/-! DEFINITION. The ordering model (R352 to R389): performing pending writes at their homes, publication, refresh,
immediate operations, writes by engines and by the host, and messages between cores (R395). -/

namespace Sys2Proof.Machine

/-! ## Publication and refresh (R177, R369) -/

/-- An observer whose least common scope with the publisher is lvl lies within a scope. -/
def scopeHolds (sc : Scope) (lvl : Nat) : Bool :=
  match sc with
  | .agent => false
  | .core => lvl ≤ 1
  | .cluster => lvl ≤ 2
  | .stack => lvl ≤ 3
  | .die => lvl ≤ 4
  | .package => true
  | .fabric => true
  | .peer => false
  | .host => false
  | .system => true

/-- The least scope that holds a place and an agent; a waiter that has migrated counts where it began to wait too (R364). -/
def agentLevel (p : CoreId) (a : Agent) : Nat :=
  match a.waitAt with
  | none => scopeLevel p a.place
  | some q => min (scopeLevel p a.place) (scopeLevel p q)

/-- Add incoming keys to an agent. -/
def addIncoming (keys : List Nat) (src : IncSrc) (a : Agent) : Agent :=
  { a with incoming := a.incoming.filter (fun i => !(keys.contains i.key && i.src == src)) ++ keys.map fun k => ⟨k, src⟩ }

/-- What is published is known to the instances that a LAUNCH has created and whose agents have not started: with the
publisher's scope and place, or to everyone (R379, R382). -/
def noteNews (keys : List Nat) (w : Option (Scope × CoreId)) (s : State) : State :=
  { s with insts := s.insts.map fun i =>
      if i.base.isSome && !i.started then { i with news := i.news ++ keys.map fun k => (k, w) } else i }

/-- Publish the current agent's writes: every agent learns of them, those within the scope for good, the others in case they move
near (R364, R369). -/
def publishKeys (sc : Scope) (keys : List Nat) (s : State) : State :=
  let take := fun (a : Agent) =>
    let within := scopeHolds sc (agentLevel s.ag.place a)
    addIncoming keys (.agent s.ag.aid s.ag.place (if within then .package else sc)) a
  noteNews keys (some (sc, s.ag.place)) { s with agents := s.agents.map take }

/-- Every earlier access, immediate operation and coprocessor entry of the agent has been performed (R176, R177). -/
def quiet (s : State) : Bool := s.ag.outreq == 0 && !s.core.coq.any (fun e => e.aid == s.ag.aid)

/-- Publish at a scope, the agent being quiet (R177). -/
def publishNow (sc : Scope) (s : State) : State :=
  let s1 := drainAll s
  publishKeys sc s1.ag.written s1

/-- A scope reaches the parties of another package (R177, R376, R381). -/
def scopeFar (sc : Scope) (peer : Bool) : Bool :=
  match sc with
  | .fabric => !peer
  | .peer => peer
  | .system => true
  | .agent => false
  | .core => false
  | .cluster => false
  | .stack => false
  | .die => false
  | .package => false
  | .host => false

/-- The packages that are still to learn of a publication of the current agent at a scope. -/
def farDue (sc : Scope) (s : State) : List Nat := s.ag.farDirty.filter fun n => scopeFar sc (256 ≤ n)

/-- Word of the current agent's publication leaves for packages; each counts in OUTREQ until it is acknowledged (R375, R376). -/
def tellPkgs : List Nat → State → State
  | [], s => s
  | n :: ns, s =>
    tellPkgs ns (raiseOut true (takeSeq (sendAs s.ag.place (farId n) s.ag.ctx s.ag.reqseq (.tellFar s.ag.aid)
      { s with ag := { s.ag with farDirty := s.ag.farDirty.filter (· != n) } })))

/-- What follows when the other packages that a publication at a scope reaches have acknowledged it; until then the agent waits. -/
def told (sc : Scope) (w : Wait) (s : State) (k : Outc) : Outc :=
  match farDue sc s with
  | [] => k
  | n :: ns => .next (blockOn w (tellPkgs (n :: ns) s))

/-- Wait as FENCE.system does, publish, and go on (R177, R375). -/
def publishing (sc : Scope) (s : State) (k : State → Outc) : Outc :=
  if quiet s then told sc .quiet s (k (publishNow sc s)) else .next (blockOn .quiet s)

/-- A refresh of agent a at a scope must take a published write in (R369): the scope of the publication holds the agent, and that of
the refresh the publisher, each where it was or where it is now (R364). -/
def mustTake (s : State) (a : Agent) (sc : Scope) (i : Incoming) : Bool :=
  match i.src with
  | .engine _ _ => sc != .agent
  | .host => sc == .host || sc == .system
  | .instance_ _ _ => false
  | .far peer => scopeFar sc peer
  | .agent aid place psc =>
    let now := match findAgent s aid with | some b => b.place | none => place
    scopeHolds psc (agentLevel place a) && (scopeHolds sc (agentLevel place a) || scopeHolds sc (agentLevel now a))

/-- One byte or tag of the snapshot takes the value at its home, unless the agent's own later write is pending. -/
def takeKey (m : Mem) (a : Agent) (k : Nat) (v : Mem) : Mem :=
  if k < 2 ^ 56 then if (pendingByte k a.posted).isSome then v else memSetByte v k (memByte m k)
  else
    let blk := k - 2 ^ 56
    if (pendingTag blk a.posted).isSome then v else memSetTag v blk (memTag m blk)

/-- The keys that are taken in with a key: the bytes of a naturally aligned access of up to 16 bytes are never taken in parts
(R227, R369). -/
def takenWith (k : Nat) : List Nat := if k < 2 ^ 56 then (List.range 16).map (k / 16 * 16 + ·) else [k]

/-- Take keys in one by one. -/
def takeEach (m : Mem) (a : Agent) : List Nat → Mem → Mem
  | [], v => v
  | k :: ks, v => takeEach m a ks (takeKey m a k v)

/-- Take keys in, one after another, each with those that go with it. -/
def takeKeys (m : Mem) (a : Agent) : List Nat → Mem → Mem
  | [], v => v
  | k :: ks, v => takeKeys m a ks (takeEach m a (takenWith k) v)

/-- The agent's own write to a key is pending. -/
def pendingKey (a : Agent) (k : Nat) : Bool :=
  if k < 2 ^ 56 then (pendingByte k a.posted).isSome else (pendingTag (k - 2 ^ 56) a.posted).isSome

/-- The agent's snapshot takes keys in; those of another package's memory it reads again at its home. -/
def takeIn (m : Mem) (keys : List Nat) (a : Agent) : Agent :=
  let ks := keys.flatMap takenWith
  { a with
    view := takeKeys m a keys a.view
    farSeen := a.farSeen.filter fun k => pendingKey a k || !ks.contains k }

/-- At a refresh of a scope that reaches other packages, the agent forgets what it has read of their memory (R376, R381). -/
def forgetFar (sc : Scope) (a : Agent) : Agent :=
  { a with farSeen := a.farSeen.filter fun k => pendingKey a k || !scopeFar sc (256 ≤ farPkg (keyLoc k)) }

/-- What other packages have written here and not published is in no refresh (R376): those keys keep the snapshot's value. -/
def keepKeys (old : Mem) (a : Agent) : List Nat → Mem → Mem
  | [], v => v
  | k :: ks, v => keepKeys old a ks (takeKey old a k v)

/-- The agent's snapshot after a refresh at a scope (R369); a free value decides whether it takes in every write but those that other
packages have not published (R376). -/
def refreshAgent (s : State) (sc : Scope) (a : Agent) : Agent :=
  if Config.refreshAll s.draws then
    let v := overlay a.posted s.mem
    { forgetFar .system a with view := keepKeys a.view a (s.farWrote.flatMap (·.keys)) v, incoming := [] }
  else
    { forgetFar sc (takeIn s.mem ((a.incoming.filter (mustTake s a sc)).map (·.key)) a) with
      incoming := a.incoming.filter (fun i => !mustTake s a sc i) }

/-- Refresh the current agent (R177, R369). -/
def refresh (sc : Scope) (s : State) : State := { s with ag := refreshAgent s sc s.ag }

/-! ## Immediate operations and writes by other parties -/

/-- Make published keys known to every agent of the package. -/
def announce (keys : List Nat) (src : IncSrc) (s : State) : State :=
  noteNews keys none { s with ag := addIncoming keys src s.ag, agents := s.agents.map (addIncoming keys src) }

/-- A write by an engine, performed and published at once (R386). -/
def engineWrite (chain seq : Nat) (bytes : List (Nat × Byte)) (tags : List (Nat × Tag)) (s : State) : State :=
  announce (keysOf bytes tags) (.engine chain seq)
    (writeMem bytes tags s)

/-- A word written by a hardware unit for a command. -/
def engineWord (chain seq l : Nat) (x : Word) (s : State) : State :=
  engineWrite chain seq (withBytes ((List.range 8).map (l + ·)) x.toNat) [] s

/-- Bytes at consecutive locations. -/
def placed (l : Nat) (bs : List Byte) : List (Nat × Byte) := bs.zipIdx.map fun p => (l + p.2, p.1)

/-- A host-side write of bytes, performed at their homes; it counts as published at host scope (R380). -/
def hostWrite (bytes : List (Nat × Byte)) (s : State) : State :=
  announce (keysOf bytes []) .host (writeMem bytes [] s)

/-- A word written at once by the net's own immediate operations: port words, DEAD bits and generations (R372). No party
gains a promise of it. -/
def netWord (l : Nat) (x : Word) (s : State) : State := writeMem (((natToBytes 8 x.toNat).zipIdx).map fun p => (l + p.2, p.1)) [] s

end Sys2Proof.Machine
end

