-- ==== Sys2Proof/Machine/Scalar.lean ====
section
/-! DEFINITION. Class 0b00: the scalar, floating and control instructions (R108 to R128). -/

namespace Sys2Proof.Machine

/-! ## Shared operations -/

/-- Write a scalar register and the sticky bits of a result, and go on. -/
def writeS (d : Reg) (r : Word × Sticky) (len : Nat) (s : State) : State := advance len (setS d r.1 (orStatus r.2 s))

/-- Write a predicate with a truth value and the sticky bits of a comparison, and go on (R111). -/
def writeP (d : Reg) (r : Bool × Sticky) (len : Nat) (s : State) : State :=
  advance len (setP d.toNat (predOf r.1) (orStatus r.2 s))

/-- The integer operations of R113. -/
inductive ArOp | add | sub | mul | mulh | div | rem | min | max
  deriving DecidableEq, Repr

/-- Results of R113. -/
def arithOf (op : ArOp) (u sat : Bool) (x y : Word) : Word × Sticky :=
  let a := val64 u x
  let b := val64 u y
  match op with
  | .add => fit64 u sat (a + b)
  | .sub => fit64 u sat (a - b)
  | .mul => fit64 u sat (a * b)
  | .mulh => (BitVec.ofInt 64 (a * b / 2 ^ 64), 0)
  | .div => if b = 0 then (BitVec.allOnes 64, 0) else fit64 u sat (a.tdiv b)
  | .rem => if b = 0 then (x, 0) else fit64 u sat (a - b * a.tdiv b)
  | .min => (if b < a then y else x, 0)
  | .max => (if a < b then y else x, 0)

/-- A format A integer instruction (R113). -/
def arith (op : ArOp) (d a b : Reg) (sat u : Bool) (s : State) : Outc :=
  checked [.s d, .s a, .s b] s <| .next (writeS d (arithOf op u sat (getS s a) (getS s b)) 4 s)

/-- A format A instruction of two sources and no flag (R114). -/
def logic (f : Word → Word → Word) (d a b : Reg) (s : State) : Outc :=
  checked [.s d, .s a, .s b] s <| .next (writeS d (f (getS s a) (getS s b), 0) 4 s)

/-- A format I instruction of one source and a constant (R118). -/
def logicImm (f : Word → Word) (d a : Reg) (s : State) : Outc :=
  checked [.s d, .s a] s <| .next (writeS d (f (getS s a), 0) 4 s)

/-- The count of a shift (R114). -/
def shCount (x : Word) : Nat := x.toNat % 64

/-- Number of zero bits above the highest set bit (R115). -/
def clzOf (x : Word) : Word := if x = 0 then 64 else BitVec.ofNat 64 (63 - Nat.log2 x.toNat)

/-- The format that P selects (R110). -/
def fmtP (p : Bool) : Fmt := if p then fmtF32 else fmtF64
/-- A floating operand: bits 31 to 0 with P = 1 (R110). -/
def srcP (p : Bool) (x : Word) : Nat := if p then x.toNat % 2 ^ 32 else x.toNat
/-- A floating result: the bits above the format are zero (R110). -/
def resP (r : Nat × Sticky) : Word × Sticky := (BitVec.ofNat 64 r.1, r.2)

/-- Two-source and three-source floating operations (R119). -/
def floatOp (op : LaneOp) (d a b : Reg) (rm : Rnd) (p : Bool) (s : State) : Outc :=
  checked [.s d, .s a, .s b] s <|
    .next (writeS d (resP (laneOp (.flt (fmtP p)) (fmtWidth (fmtP p)) false rm op
      (srcP p (getS s a)) (srcP p (getS s b)) (srcP p (getS s d)))) 4 s)

/-- A source of FCVT as an exact value (R121). -/
def cvtSrc (c : CvTy) (x : Word) : FVal :=
  match c with
  | .n64 => fvInt x.toNat
  | .i64 => fvInt x.toInt
  | .i16 => fvInt (x.setWidth 16).toInt
  | .i32 => fvInt (x.setWidth 32).toInt
  | .bf16 => fvDecode fmtBF16 (x.toNat % 2 ^ 16)
  | .f16 => fvDecode fmtF16 (x.toNat % 2 ^ 16)
  | .f32 => fvDecode fmtF32 (x.toNat % 2 ^ 32)
  | .f64 => fvDecode fmtF64 x.toNat

/-- FCVT (R121). -/
def fcvtOf (dst src : CvTy) (rm : Rnd) (x : Word) : Word × Sticky :=
  let v := cvtSrc src x
  let toInt := fun (lo hi : Int) =>
    let r := fvToRange rm lo hi true v
    (BitVec.ofInt 64 r.1, r.2)
  match dst with
  | .n64 => toInt 0 (2 ^ 64 - 1)
  | .i16 => toInt (-(2 ^ 15)) (2 ^ 15 - 1)
  | .i32 => toInt (-(2 ^ 31)) (2 ^ 31 - 1)
  | .i64 => toInt (-(2 ^ 63)) (2 ^ 63 - 1)
  | .bf16 => resP (roundTo fmtBF16 rm v)
  | .f16 => resP (roundTo fmtF16 rm v)
  | .f32 => resP (roundTo fmtF32 rm v)
  | .f64 => resP (roundTo fmtF64 rm v)

/-- A branch target: 4 bytes for each word of the offset (R93). -/
def target (s : State) (off : Word) : Word := s.ag.pc + 4 * off

/-- A jump to a register value: MISALIGNED with the target in TRAPA (R93). -/
def jumpReg (x : Word) (s : State) (k : Outc) : Outc := if x.toNat % 4 = 0 then k else trap cMisaligned x s

/-- Earlier instructions of the agent still run in the coprocessor queue, in a copy unit, that of a core it has left included, or
in the tile unit (R127, R249). -/
def enginesBusy (s : State) : Bool :=
  s.core.coq.any (fun e => e.aid == s.ag.aid) || (s.core :: s.cores).any (fun c => c.cpys.any fun y => y.aid == s.ag.aid) ||
    !s.ag.tmma.isEmpty

/-- Registers whose CRD and CWR wait for the earlier instructions (R127). -/
def cregWaits (n : BitVec 12) : Bool := n.toNat < 3 || (0x20 ≤ n.toNat && n.toNat < 0x26)

/-- EXTS of a core (R11). -/
def extsOf (c : CoreId) : Word := if isVectorCore c then 0x40E else 0x20D

/-- CYCLE as it is observed next: it never falls (R81). -/
def cycleNow (s : State) : Word :=
  BitVec.ofNat 64 (min (s.cycle.toNat + Config.cycleGap s.draws) (2 ^ 64 - 1))

/-- The value of a control register; none for a number that R81 does not list. -/
def cregValue (s : State) (n : BitVec 12) : Option Word :=
  match n.toNat with
  | 0x000 => some (statusRead s)
  | 0x001 => some s.ag.tshape
  | 0x002 => some (s.ag.tdirty.setWidth 64)
  | 0x003 => some (extsOf s.ag.place)
  | 0x004 => some (whereOf s.ag.place s.ag.num)
  | 0x005 => some s.ag.groupid
  | 0x020 => some s.ag.trapc
  | 0x021 => some s.ag.trappc
  | 0x022 => some s.ag.trapa
  | 0x023 => some s.ag.trapseq
  | 0x024 => some s.ag.trapvec
  | 0x025 => some (s.ag.outreq.setWidth 64)
  | 0x026 => some (s.ag.phasen.setWidth 64)
  | 0x030 => some (cycleNow s)
  | 0x031 => some s.core.stopcnt
  | 0x032 => some s.core.sentcnt
  | 0x033 => some s.core.rcvdcnt
  | 0x040 => some s.ag.rngkey
  | 0x041 => some (BitVec.ofNat 64 (s.cfg.position.toNat * 256 + s.ag.ctx % 64))
  | m => if 0x010 ≤ m && m < 0x020 then some (s.core.kparam.toList.getD (m - 0x10) 0) else none

/-- CYCLE as observed moves on (R81). -/
def observe (n : BitVec 12) (s : State) : State :=
  if n.toNat = 0x030 then { s with cycle := cycleNow s } else s

/-- Write the RW fields of a control register (R81, R126). -/
def cregWrite (n : BitVec 12) (x : Word) (s : State) : State :=
  match n.toNat with
  | 0x000 => { s with ag := { s.ag with status := statusWrite s.ag.status x } }
  | 0x021 => { s with ag := { s.ag with trappc := x } }
  | 0x024 => { s with ag := { s.ag with trapvec := x } }
  | 0x040 => { s with ag := { s.ag with rngkey := x } }
  | _ => s

/-! ## The instructions -/

/-- R112 -/
def execNop (s : State) : Outc := .next (advance 4 s)
/-- R113 -/
def execAdd (d a b : Reg) (m : IMode) (u : Bool) (s : State) : Outc := arith .add d a b (satBy s m) u s
/-- R113 -/
def execSub (d a b : Reg) (m : IMode) (u : Bool) (s : State) : Outc := arith .sub d a b (satBy s m) u s
/-- R113 -/
def execMul (d a b : Reg) (m : IMode) (u : Bool) (s : State) : Outc := arith .mul d a b (satBy s m) u s
/-- R113 -/
def execMulh (d a b : Reg) (u : Bool) (s : State) : Outc := arith .mulh d a b false u s
/-- R113, R38 -/
def execDiv (d a b : Reg) (m : IMode) (u : Bool) (s : State) : Outc := arith .div d a b (satBy s m) u s
/-- R113, R38 -/
def execRem (d a b : Reg) (u : Bool) (s : State) : Outc := arith .rem d a b false u s
/-- R114 -/
def execAnd (d a b : Reg) (s : State) : Outc := logic (fun x y => x &&& y) d a b s
/-- R114 -/
def execOr (d a b : Reg) (s : State) : Outc := logic (fun x y => x ||| y) d a b s
/-- R114 -/
def execXor (d a b : Reg) (s : State) : Outc := logic (fun x y => x ^^^ y) d a b s
/-- R114 -/
def execAndn (d a b : Reg) (s : State) : Outc := logic (fun x y => x &&& ~~~y) d a b s
/-- R114 -/
def execShl (d a b : Reg) (s : State) : Outc := logic (fun x y => x <<< shCount y) d a b s
/-- R114 -/
def execShr (d a b : Reg) (s : State) : Outc := logic (fun x y => x >>> shCount y) d a b s
/-- R114 -/
def execSar (d a b : Reg) (s : State) : Outc := logic (fun x y => x.sshiftRight (shCount y)) d a b s
/-- R114 -/
def execRot (d a b : Reg) (s : State) : Outc := logic (fun x y => x.rotateLeft (shCount y)) d a b s
/-- R113 -/
def execMin (d a b : Reg) (u : Bool) (s : State) : Outc := arith .min d a b false u s
/-- R113 -/
def execMax (d a b : Reg) (u : Bool) (s : State) : Outc := arith .max d a b false u s
/-- R115 -/
def execClz (d a : Reg) (s : State) : Outc := logicImm clzOf d a s
/-- R115 -/
def execPopc (d a : Reg) (s : State) : Outc := logicImm (fun x => BitVec.ofNat 64 (popBelow x.toNat 64)) d a s
/-- R116 -/
def execSel (d a b : Reg) (k : PReg) (s : State) : Outc :=
  checked [.s d, .s a, .s b, .p k.toNat] s <|
    .next (writeS d (if predTrue s k.toNat then getS s a else getS s b, 0) 4 s)
/-- R117 -/
def execCmp (d a b : Reg) (u : Bool) (c : ICond) (s : State) : Outc :=
  checked [.p d.toNat, .s a, .s b] s <|
    .next (writeP d (icond c (val64 u (getS s a)) (val64 u (getS s b)), 0) 4 s)
/-- R118 -/
def execAddi (d a : Reg) (imm : BitVec 14) (s : State) : Outc :=
  checked [.s d, .s a] s <|
    .next (writeS d (arithOf .add false (satBy s .byStatus) (getS s a) (imm.signExtend 64)) 4 s)
/-- R118 -/
def execAndi (d a : Reg) (imm : BitVec 14) (s : State) : Outc := logicImm (fun x => x &&& imm.signExtend 64) d a s
/-- R118 -/
def execOri (d a : Reg) (imm : BitVec 14) (s : State) : Outc := logicImm (fun x => x ||| imm.signExtend 64) d a s
/-- R118 -/
def execXori (d a : Reg) (imm : BitVec 14) (s : State) : Outc := logicImm (fun x => x ^^^ imm.signExtend 64) d a s
/-- R118 -/
def execShli (d a : Reg) (n : BitVec 6) (s : State) : Outc := logicImm (fun x => x <<< n.toNat) d a s
/-- R118 -/
def execShri (d a : Reg) (n : BitVec 6) (s : State) : Outc := logicImm (fun x => x >>> n.toNat) d a s
/-- R118 -/
def execSari (d a : Reg) (n : BitVec 6) (s : State) : Outc := logicImm (fun x => x.sshiftRight n.toNat) d a s
/-- R117 -/
def execCmpi (d a : Reg) (c : ICond) (u : Bool) (imm : BitVec 10) (s : State) : Outc :=
  checked [.p d.toNat, .s a] s <|
    .next (writeP d (icond c (val64 u (getS s a)) (val64 u (imm.signExtend 64)), 0) 4 s)
/-- R119 -/
def execFadd (d a b : Reg) (r : RMode) (p : Bool) (s : State) : Outc := floatOp .add d a b (rndOf s.ag.status r) p s
/-- R119 -/
def execFsub (d a b : Reg) (r : RMode) (p : Bool) (s : State) : Outc := floatOp .sub d a b (rndOf s.ag.status r) p s
/-- R119 -/
def execFmul (d a b : Reg) (r : RMode) (p : Bool) (s : State) : Outc := floatOp .mul d a b (rndOf s.ag.status r) p s
/-- R119 -/
def execFdiv (d a b : Reg) (r : RMode) (p : Bool) (s : State) : Outc :=
  checked [.s d, .s a, .s b] s <|
    .next (writeS d (resP (roundPair (fmtP p) (rndOf s.ag.status r)
      (fvDiv (fvDecode (fmtP p) (srcP p (getS s a))) (fvDecode (fmtP p) (srcP p (getS s b)))))) 4 s)
/-- R119 -/
def execFsqrt (d a : Reg) (r : RMode) (p : Bool) (s : State) : Outc :=
  checked [.s d, .s a] s <|
    .next (writeS d (resP (roundPair (fmtP p) (rndOf s.ag.status r)
      (fvSqrt (fvDecode (fmtP p) (srcP p (getS s a)))))) 4 s)
/-- R119 -/
def execFma (d a b : Reg) (r : RMode) (p : Bool) (s : State) : Outc := floatOp .fma d a b (rndOf s.ag.status r) p s
/-- R120 -/
def execFcmp (d a b : Reg) (c : FCond) (p : Bool) (s : State) : Outc :=
  checked [.p d.toNat, .s a, .s b] s <|
    .next (writeP d (fcond c (fvDecode (fmtP p) (srcP p (getS s a))) (fvDecode (fmtP p) (srcP p (getS s b)))) 4 s)
/-- R121 -/
def execFcvt (d a : Reg) (r : RMode) (dst src : CvTy) (s : State) : Outc :=
  legal (.fcvt d a r dst src) s <| checked [.s d, .s a] s <|
    .next (writeS d (fcvtOf dst src (rndOf s.ag.status r) (getS s a)) 4 s)
/-- R119 -/
def execFmin (d a b : Reg) (p : Bool) (s : State) : Outc := floatOp .min d a b .rne p s
/-- R119 -/
def execFmax (d a b : Reg) (p : Bool) (s : State) : Outc := floatOp .max d a b .rne p s
/-- R122 -/
def execFclass (d a : Reg) (p : Bool) (s : State) : Outc :=
  checked [.s d, .s a] s <| .next (writeS d (fclassOf (fmtP p) (srcP p (getS s a)), 0) 4 s)
/-- R123 -/
def execBr (k : PReg) (off : BitVec 21) (s : State) : Outc :=
  checked [.p k.toNat] s <|
    .next (if predTrue s k.toNat then jumpTo (target s (off.signExtend 64)) s else advance 4 s)
/-- R124 -/
def execJmp (a : Reg) (s : State) : Outc :=
  checked [.s a] s <| jumpReg (getS s a) s <| .next (jumpTo (getS s a) s)
/-- R123. DESIGN CHOICE (log 29): ILLEGAL_REG for the implied s31 gives 31 in TRAPA. -/
def execCall (off : BitVec 21) (s : State) : Outc :=
  checked [.s 31] s <| .next (jumpTo (target s (off.signExtend 64)) (setS 31 (s.ag.pc + 4) s))
/-- R124. DESIGN CHOICE (log 29): see execCall. -/
def execRet (s : State) : Outc := checked [.s 31] s <| jumpReg (getS s 31) s <| .next (jumpTo (getS s 31) s)
/-- R125 -/
def execLoop (d : Reg) (off : BitVec 14) (s : State) : Outc :=
  checked [.s d] s <|
    if (getS s d).toNat ≤ 1 then .next (advance 4 (setS d 0 s))
    else .next (jumpTo (target s (off.signExtend 64)) (setS d (getS s d - 1) s))
/-- R126, R127 -/
def execCrd (d : Reg) (n : BitVec 12) (s : State) : Outc :=
  match cregValue s n with
  | none => trap cIllegalOp (word0 (.crd d n)) s
  | some x => checked [.s d] s <|
    if cregWaits n && enginesBusy s then .next (blockOn .engines s)
    else .next (advance 4 (setS d x (observe n s)))
/-- R126, R127 -/
def execCwr (n : BitVec 12) (a : Reg) (s : State) : Outc :=
  match cregValue s n with
  | none => trap cIllegalOp (word0 (.cwr n a)) s
  | some _ => checked [.s a] s <|
    if cregWaits n && enginesBusy s then .next (blockOn .engines s)
    else .next (advance 4 (cregWrite n (getS s a) s))
/-- R128 -/
def execTrap (code : BitVec 14) (s : State) : Outc := trap cTrapInsn (code.setWidth 64) s

end Sys2Proof.Machine
end

