-- ==== Sys2Proof/Machine/Vector.lean ====
section
/-! DEFINITION. Class 0b01, vector and generation instructions (R130 to R149), apart from those that reach memory. -/

namespace Sys2Proof.Machine

/-! ## Shared operations -/

/-- The register that a second source names. -/
def srcUse : VSrc → RegUse
  | .v r => .v r
  | .s r => .s r

/-- The vector registers among the second source. -/
def srcVecs : VSrc → List Reg
  | .v r => [r]
  | .s _ => []

/-- Lane i of the second source: a lane of vb, or the low bits of sb (R130). -/
def srcLane (s : State) (t : VTy) (b : VSrc) (i : Nat) : Nat :=
  match b with
  | .v r => lane (laneBits t) i (getV s r)
  | .s r => (getS s r).toNat % 2 ^ laneBits t

/-- Lane i of a vector register. -/
def regLane (s : State) (t : VTy) (r : Reg) (i : Nat) : Nat := lane (laneBits t) i (getV s r)

/-- How the lanes of a type are read under va's tag, else FORMAT_BAD (R131). -/
def withKind (t : VTy) (a : Reg) (s : State) (k : LaneKind → Outc) : Outc :=
  match laneKind t (tagFormat (getVT s a)) with
  | some x => k x
  | none => trap cFormatBad (openA s) s

/-- Write a vector register with tag 0x7FC0 and the flags of its lanes, and go on (R130). -/
def writeV (d : Reg) (r : Block × Sticky) (len : Nat) (s : State) : State :=
  advance len (setV d r.1 rawTag (orStatus r.2 s))

/-- Lane arithmetic (R133). -/
def laneArith (op : LaneOp) (d a : Reg) (b : VSrc) (t : VTy) (p : PReg) (sat : Bool) (reads : List Reg) (s : State) : Outc :=
  checked [.v d, .v a, srcUse b, .p p.toNat] s <| unpoisoned reads s <| withKind t a s fun k =>
    .next (writeV d (mapLanesF t (getP s p.toNat) (getV s d) fun i =>
      laneOp k (laneBits t) sat (rndNow s) op (regLane s t a i) (srcLane s t b i) (regLane s t d i)) 4 s)

/-- Lane arithmetic of one source (R133). -/
def laneArith1 (op : LaneOp) (d a : Reg) (t : VTy) (p : PReg) (sat : Bool) (s : State) : Outc :=
  checked [.v d, .v a, .p p.toNat] s <| unpoisoned [a] s <| withKind t a s fun k =>
    .next (writeV d (mapLanesF t (getP s p.toNat) (getV s d) fun i =>
      laneOp k (laneBits t) sat (rndNow s) op (regLane s t a i) 0 0) 4 s)

/-- Bit operations (R134). -/
def laneBits2 (op : BitOp) (d a : Reg) (b : VSrc) (t : VTy) (p : PReg) (s : State) : Outc :=
  checked [.v d, .v a, srcUse b, .p p.toNat] s <| unpoisoned (a :: srcVecs b) s <|
    .next (writeV d (mapLanes t (getP s p.toNat) (getV s d) fun i =>
      laneBit (laneBits t) op (regLane s t a i) (srcLane s t b i), 0) 4 s)

/-- Transcendentals of f32 lanes (R140). -/
def laneTrans (g : FVal → FVal × Sticky) (d a : Reg) (p : PReg) (s : State) : Outc :=
  checked [.v d, .v a, .p p.toNat] s <| unpoisoned [a] s <|
    .next (writeV d (mapLanesF .f32 (getP s p.toNat) (getV s d) fun i => transLane g (rndNow s) (regLane s .f32 a i)) 4 s)

/-- The lane number of VEXT and VINS: a register index counts modulo n (R141). -/
def laneOf (s : State) (t : VTy) : LaneIx → Nat
  | .k n => n.toNat
  | .s r => (getS s r).toNat % t.lanes

/-- The register of a lane number. -/
def ixUses : LaneIx → List RegUse
  | .k _ => []
  | .s r => [.s r]

/-- VEXT's extension of a lane (R141). -/
def extLane (t : VTy) (fmt x : Nat) : Word :=
  match t with
  | .b8 => if kind000 fmt = some (.int true) then (BitVec.ofNat 8 x).signExtend 64 else BitVec.ofNat 64 x
  | .i16 => (BitVec.ofNat 16 x).signExtend 64
  | .i32 => (BitVec.ofNat 32 x).signExtend 64
  | .i64 => BitVec.ofNat 64 x
  | .bf16 => BitVec.ofNat 64 x
  | .f16 => BitVec.ofNat 64 x
  | .f32 => BitVec.ofNat 64 x
  | .f64 => BitVec.ofNat 64 x

/-- A narrow format that a destination tag may name, with its scale not 0xFF (R138). -/
def narrowDest (t : Tag) : Option NFmt := if poisoned t then none else narrowOf (tagFormat t)

/-- The source elements of VCVT, or the cause of its trap (R137, R138). -/
def cvtSource (s : State) (a : Reg) (src : VTy) : Except BlockBad Elems :=
  match src with
  | .b8 => elemsOf s.core.topx (getVT s a) (getV s a)
  | _ => .ok (typedElems src (getV s a))

/-- Cause of a bad numeric use. -/
def badCause (s : State) : BlockBad → BitVec 8
  | .format => cFormatBad
  | .poison => poisonCause s
  | .sparse => cSparse

/-- VCVT after its checks (R138): both sides and the loop. -/
def cvtRun (d : Reg) (t : VTy) (p : PReg) (sat : Bool) (e0 : Nat) (dtag : Tag) (el : Elems) (sb : Nat)
    (f : Option NFmt) (s : State) : Outc :=
  let db := match f with | some g => g.w | none => laneBits t
  let dc := match f with | some g => narrowCount g | none => t.lanes
  let n := min el.count dc
  if e0 + n > max el.count dc || (el.count == dc && e0 != 0) then trap cFormatBad (openA s) s
  else
    let r := cvtLoop el sb db dc e0 (getP s p.toNat) (getV s d)
      (cvtElem t f (tagScale dtag) s.core.topx el.floating sat (rndNow s))
    .next (advance 4 (setV d r.1 (if t = .b8 then dtag else rawTag) (orStatus r.2 s)))

/-- VCVT's descriptor checks, then its tags, then the conversion (R137, R138). -/
def cvtChecked (d a : Reg) (t : VTy) (p : PReg) (sat : Bool) (x : Nat) (s : State) : Outc :=
  let dtag : Tag := BitVec.ofNat 16 x
  let src := VTy.ofCode (x / 2 ^ 16 % 8)
  if x / 2 ^ 32 != 0 || x / 2 ^ 19 % 32 != 0 || (t != .b8 && x % 2 ^ 16 != 0) then trap cFormatBad (openA s) s
  else match cvtSource s a src with
  | .error e => trap (badCause s e) (openA s) s
  | .ok el =>
    let sb := if src = .b8 then srcBits (tagFormat (getVT s a)) else laneBits src
    if t = .b8 then
      match narrowDest dtag with
      | none => trap cFormatBad (openA s) s
      | some f => cvtRun d t p sat (x / 2 ^ 24 % 256) dtag el sb (some f) s
    else cvtRun d t p sat (x / 2 ^ 24 % 256) dtag el sb none s

/-- Bits of an index that selects one of n lanes, n a power of two: the index modulo n (R141). -/
def permLane (s : State) (t : VTy) (a : Reg) (j : Nat) : Nat := regLane s t a (j % t.lanes)

/-- An event counter of the core rises (R423); counter 0 counts ids outside the vocabulary. -/
def bumpEvent (n : Nat) (s : State) : State :=
  { s with core := { s.core with events := s.core.events.setIfInBounds n (s.core.events.toList.getD n 0 + 1) } }

/-! ## The instructions -/

/-- R133 -/
def execVadd (d a : Reg) (b : VSrc) (t : VTy) (p : PReg) (m : IMode) (s : State) : Outc :=
  legal (.vadd d a b t p m) s <| laneArith .add d a b t p (satBy s m) (a :: srcVecs b) s
/-- R133 -/
def execVsub (d a : Reg) (b : VSrc) (t : VTy) (p : PReg) (m : IMode) (s : State) : Outc :=
  legal (.vsub d a b t p m) s <| laneArith .sub d a b t p (satBy s m) (a :: srcVecs b) s
/-- R133 -/
def execVmul (d a : Reg) (b : VSrc) (t : VTy) (p : PReg) (m : IMode) (s : State) : Outc :=
  legal (.vmul d a b t p m) s <| laneArith .mul d a b t p (satBy s m) (a :: srcVecs b) s
/-- R133; the addend vd is read too (R50) -/
def execVfma (d a : Reg) (b : VSrc) (t : VTy) (p : PReg) (m : IMode) (s : State) : Outc :=
  legal (.vfma d a b t p m) s <| laneArith .fma d a b t p (satBy s m) (a :: srcVecs b ++ [d]) s
/-- R133 -/
def execVmin (d a : Reg) (b : VSrc) (t : VTy) (p : PReg) (s : State) : Outc :=
  laneArith .min d a b t p false (a :: srcVecs b) s
/-- R133 -/
def execVmax (d a : Reg) (b : VSrc) (t : VTy) (p : PReg) (s : State) : Outc :=
  laneArith .max d a b t p false (a :: srcVecs b) s
/-- R134 -/
def execVand (d a : Reg) (b : VSrc) (t : VTy) (p : PReg) (s : State) : Outc := laneBits2 .and d a b t p s
/-- R134 -/
def execVor (d a : Reg) (b : VSrc) (t : VTy) (p : PReg) (s : State) : Outc := laneBits2 .or d a b t p s
/-- R134 -/
def execVxor (d a : Reg) (b : VSrc) (t : VTy) (p : PReg) (s : State) : Outc := laneBits2 .xor d a b t p s
/-- R134 -/
def execVshl (d a : Reg) (b : VSrc) (t : VTy) (p : PReg) (s : State) : Outc :=
  legal (.vshl d a b t p) s <| laneBits2 .shl d a b t p s
/-- R134 -/
def execVshr (d a : Reg) (b : VSrc) (t : VTy) (p : PReg) (s : State) : Outc :=
  legal (.vshr d a b t p) s <| laneBits2 .shr d a b t p s
/-- R134 -/
def execVsar (d a : Reg) (b : VSrc) (t : VTy) (p : PReg) (s : State) : Outc :=
  legal (.vsar d a b t p) s <| laneBits2 .sar d a b t p s
/-- R135 -/
def execVcmp (k : PReg) (a : Reg) (b : VSrc) (t : VTy) (p : PReg) (c : VCond) (s : State) : Outc :=
  legal (.vcmp k a b t p c) s <|
  checked [.p k.toNat, .v a, srcUse b, .p p.toNat] s <| unpoisoned (a :: srcVecs b) s <| withKind t a s fun kd =>
    let f := fun i => laneCmp kd (laneBits t) c (regLane s t a i) (srcLane s t b i)
    let act := laneActive (getP s p.toNat) t
    .next (advance 4 (setP k.toNat
      (predLanes t (getP s k.toNat) fun i => if act i then some (f i).1 else none)
      (orStatus (lanesSticky t (getP s p.toNat) (fun i => (f i).2) t.lanes) s)))
/-- R136 -/
def execVsel (d a : Reg) (b : VSrc) (t : VTy) (p : PReg) (s : State) : Outc :=
  checked [.v d, .v a, srcUse b, .p p.toNat] s <| unpoisoned (a :: srcVecs b) s <|
    .next (writeV d (mkBlock (laneBits t) t.lanes fun i =>
      if laneActive (getP s p.toNat) t i then regLane s t a i else srcLane s t b i, 0) 4 s)
/-- R137, R138 -/
def execVcvt (d a b : Reg) (t : VTy) (p : PReg) (m : IMode) (s : State) : Outc :=
  legal (.vcvt d a b t p m) s <| checked [.v d, .v a, .s b, .p p.toNat] s <| unpoisoned [a] s <|
    cvtChecked d a t p (satBy s m) (getS s b).toNat s
/-- R139 -/
def execVred (d a : Reg) (op : RedOp) (t : VTy) (p : PReg) (m : IMode) (s : State) : Outc :=
  legal (.vred d a op t p m) s <| checked [.v d, .v a, .p p.toNat] s <| unpoisoned [a] s <| withKind t a s fun k =>
    let r := vredOf k t (satBy s m) (rndNow s) op (getP s p.toNat) (getV s a)
    .next (writeV d (mkBlock (laneBits t) 1 fun _ => r.1, r.2) 4 s)
/-- R139 -/
def execVscan (d a : Reg) (op : RedOp) (t : VTy) (p : PReg) (m : IMode) (s : State) : Outc :=
  legal (.vscan d a op t p m) s <| checked [.v d, .v a, .p p.toNat] s <| unpoisoned [a] s <| withKind t a s fun k =>
    .next (writeV d (vscanOf k t (satBy s m) (rndNow s) op (getP s p.toNat) (getV s a)) 4 s)
/-- R141 -/
def execVperm (d a : Reg) (b : VSrc) (t : VTy) (p : PReg) (s : State) : Outc :=
  checked [.v d, .v a, srcUse b, .p p.toNat] s <| unpoisoned (a :: srcVecs b) s <|
    .next (writeV d (mapLanes t (getP s p.toNat) (getV s d) fun i => permLane s t a (srcLane s t b i), 0) 4 s)
/-- R141 -/
def execVbcast (d : Reg) (src : BcSrc) (t : VTy) (p : PReg) (s : State) : Outc :=
  legal (.vbcast d src t p) s <|
  match src with
  | .lane a k => checked [.v d, .v a, .p p.toNat] s <| unpoisoned [a] s <|
      .next (writeV d (mapLanes t (getP s p.toNat) (getV s d) fun _ => regLane s t a k.toNat, 0) 4 s)
  | .s b => checked [.v d, .s b, .p p.toNat] s <|
      .next (writeV d (mapLanes t (getP s p.toNat) (getV s d) fun _ => (getS s b).toNat % 2 ^ laneBits t, 0) 4 s)
/-- R140, R59 -/
def execVexp2 (d a : Reg) (p : PReg) (s : State) : Outc := laneTrans fvExp2 d a p s
/-- R140, R59 -/
def execVlog2 (d a : Reg) (p : PReg) (s : State) : Outc := laneTrans fvLog2 d a p s
/-- R140, R59 -/
def execVrcp (d a : Reg) (p : PReg) (s : State) : Outc := laneTrans fvRcp d a p s
/-- R140, R59 -/
def execVrsqrt (d a : Reg) (p : PReg) (s : State) : Outc := laneTrans fvRsqrt d a p s
/-- R133 -/
def execVabs (d a : Reg) (t : VTy) (p : PReg) (m : IMode) (s : State) : Outc :=
  legal (.vabs d a t p m) s <| laneArith1 .abs d a t p (satBy s m) s
/-- R133 -/
def execVneg (d a : Reg) (t : VTy) (p : PReg) (m : IMode) (s : State) : Outc :=
  legal (.vneg d a t p m) s <| laneArith1 .neg d a t p (satBy s m) s
/-- R141 -/
def execVmov (d a : Reg) (t : VTy) (p : PReg) (s : State) : Outc :=
  checked [.v d, .v a, .p p.toNat] s <| unpoisoned [a] s <|
    .next (writeV d (mapLanes t (getP s p.toNat) (getV s d) fun i => regLane s t a i, 0) 4 s)
/-- R141 -/
def execVext (d a : Reg) (ix : LaneIx) (t : VTy) (s : State) : Outc :=
  legal (.vext d a ix t) s <| checked (.s d :: .v a :: ixUses ix) s <| unpoisoned [a] s <|
    .next (writeS d (extLane t (tagFormat (getVT s a)) (regLane s t a (laneOf s t ix)), 0) 4 s)
/-- R141. DESIGN CHOICE (log 29): the lanes of a poisoned vd that are kept are not read in the sense of R50. -/
def execVins (d a : Reg) (ix : LaneIx) (t : VTy) (s : State) : Outc :=
  legal (.vins d a ix t) s <| checked (.v d :: .s a :: ixUses ix) s <|
    .next (writeV d (mkBlock (laneBits t) t.lanes fun i =>
      if i = laneOf s t ix then (getS s a).toNat % 2 ^ laneBits t else regLane s t d i, 0) 4 s)
/-- R134 -/
def execVpopc (d a : Reg) (t : VTy) (p : PReg) (s : State) : Outc :=
  legal (.vpopc d a t p) s <| checked [.v d, .v a, .p p.toNat] s <| unpoisoned [a] s <|
    .next (writeV d (mapLanes t (getP s p.toNat) (getV s d) fun i => laneBit (laneBits t) .popc (regLane s t a i) 0, 0) 4 s)
/-- R145; a merge reads vd too (R50) -/
def execVtopk (d a b : Reg) (p : PReg) (fresh : Bool) (s : State) : Outc :=
  checked [.v d, .v a, .s b, .p p.toNat] s <| unpoisoned (if fresh then [a] else [a, d]) s <|
    .next (writeV d (vtopkOf fresh (getV s d) (getV s a) (getS s b) (getP s p.toNat), 0) 4 s)
/-- R147 -/
def execVsmpl (d a b : Reg) (s : State) : Outc :=
  checked [.v d, .v a, .s b] s <| unpoisoned [a] s <|
    match vsmplChoose s.ag.rngkey (getV s a) (getS s b) with
    | none => trap cGenOperand 0 s
    | some k => .next (writeV d (vsmplBlock (getV s a) k, 0) 4 s)
/-- R148 -/
def execVaccept (d a b : Reg) (p : PReg) (s : State) : Outc :=
  checked [.p d.toNat, .v a, .s b, .p p.toNat] s <| unpoisoned [a] s <|
    let v := (getS s b).toNat % 2 ^ 32
    if v = 0 ∨ 2 ^ 31 < v then trap cGenOperand 0 s
    else
      let r := vacceptOf (getP s p.toNat) (getV s a) v
      .next (advance 4 (setP d.toNat r.1 (if r.2 then bumpEvent 0 s else s)))
/-- R146 -/
def execVrng (d b : Reg) (p : PReg) (s : State) : Outc :=
  checked [.v d, .s b, .p p.toNat] s <|
    .next (writeV d (mapLanes .i64 (getP s p.toNat) (getV s d) fun j =>
      (mix s.ag.rngkey (getS s b) (BitVec.ofNat 64 j)).toNat, 0) 4 s)
/-- R149 -/
def execVcnt (d k : Reg) (t : VTy) (lead : Bool) (s : State) : Outc :=
  checked [.s d, .p k.toNat] s <| .next (writeS d (BitVec.ofNat 64 (vcntOf (getP s k.toNat) t lead), 0) 4 s)
/-- R149 -/
def execVidx (d b : Reg) (t : VTy) (p : PReg) (s : State) : Outc :=
  legal (.vidx d b t p) s <| checked [.v d, .s b, .p p.toNat] s <|
    .next (writeV d (mapLanes t (getP s p.toNat) (getV s d) fun i => ((getS s b).toNat + i) % 2 ^ laneBits t, 0) 4 s)

end Sys2Proof.Machine
end

