-- ==== Sys2Proof/Machine/VecMem.lean ====
section
/-! DEFINITION. Vector instructions that reach memory (R132, R142 to R144, R226). -/

namespace Sys2Proof.Machine

/-! ## Shared operations -/

/-- A 64-byte load into a vector register (R142): an aligned one takes the block's tag, another reads two blocks and sets PSN
for a poisoned one (R50). -/
def loadBlock (rep : Option Word) (d : Reg) (t : VTy) (ea : Word) (len : Nat) (s : State) : Outc :=
  aligned s t.bytes [(ea, 64)] <| readingAt rep s true (leasedOverflow s) (blockLanes ea) fun ls =>
    let xs := ls.flatten
    let al := ea.toNat % 64 == 0
    let s1 := orStatus (stickyIf (!al && anyPoison s xs) stPSN) s
    .next (advance len (setV d (BitVec.ofNat 512 (agNat s xs)) (if al then agTagOf s xs else rawTag) s1))

/-- A 64-byte store of a vector register, block by block; block tags stay (R142). A poisoned register is the own check of step 4
(R50, R168, R226). -/
def storeBlock (rep : Option Word) (d : Reg) (t : VTy) (ea : Word) (len : Nat) (s : State) : Outc :=
  aligned s t.bytes [(ea, 64)] <| storingOn rep (unpoisoned [d] s) s true .write (blockLanes ea) fun ls s' =>
    .next (advance len (postStores (partStores ls (getV s d).toNat) s'))

/-- The active lanes, lowest first. -/
def activeLanes (t : VTy) (p : Word) : List Nat := (List.range t.lanes).filter (laneActive p t)

/-- The lanes loaded: each active lane takes its bytes, the others keep theirs. -/
def gatherBlock (s : State) (t : VTy) (acts : List Nat) (ls : List (List XOk)) (old : Block) : Block :=
  mkBlock (laneBits t) t.lanes fun i =>
    match (acts.zip ls).find? (fun q => q.1 == i) with
    | some q => agNat s q.2
    | none => lane (laneBits t) i old

/-- What a lane load does after its checks (R50, R143, R144). -/
def finishLanes (d : Reg) (t : VTy) (acts : List Nat) (ls : List (List XOk)) (s : State) : Outc :=
  .next (advance 4 (setV d (gatherBlock s t acts ls (getV s d)) rawTag
    (orStatus (stickyIf (ls.any (anyPoison s)) stPSN) s)))

/-- The stores of active lanes, in ascending order (R132). -/
def scatterStores (t : VTy) (d : Block) : List Nat → List (List Nat) → List (List (Nat × Byte) × List (Nat × Tag))
  | i :: is, l :: ls => (withBytes l (lane (laneBits t) i d), []) :: scatterStores t d is ls
  | _, _ => []

/-- Some lane lies outside the agent's own slice or breaks a region rule (R144). -/
def foreignLane (s : State) (k : FKind) (l : Lane) : Bool :=
  !(l.1.toNat / 2 ^ 48 == 0xFE && coreNear s.ag.place (l.1.toNat / 2 ^ 22) == s.ag.place) || laneBounds s false k [] l

/-- The first active lane that fails decides the trap (R132): MISALIGNED, or BOUNDS where it breaks a region rule. -/
def firstLane (s : State) (n : Nat) (bad : Lane → Bool) (lanes : List Lane) (f : Outc) : Outc :=
  match lanes.find? (fun l => l.1.toNat % n != 0 || bad l) with
  | some l => trap (if l.1.toNat % n = 0 then cBounds else cMisaligned) l.1 s
  | none => f

/-- The read of the active lanes: the checks of each in turn, then the replies; a read whose replies have come goes on with them. -/
def readLanesOf (s : State) (n : Nat) (bad : Lane → Bool) (hostOk : Bool) (lanes : List Lane) (f : List (List XOk) → Outc) : Outc :=
  match gotReads s with
  | some ls => f ls
  | none => firstLane s n bad lanes (reading s hostOk [] lanes f)

/-- Lanes of a strided access (R143). -/
def strideLanes (s : State) (t : VTy) (a b : Reg) (acts : List Nat) : List Lane :=
  acts.map fun i => (getS s a + BitVec.ofNat 64 i * getS s b, t.bytes)

/-- Lanes of an indexed access (R144). -/
def indexLanes (s : State) (t : VTy) (a b : Reg) (acts : List Nat) : List Lane :=
  acts.map fun i => (getS s a + BitVec.ofNat 64 (regLane s t b i * t.bytes), t.bytes)

/-! ## The instructions -/

/-- R142 -/
def execVld (d a : Reg) (t : VTy) (off : BitVec 11) (s : State) : Outc :=
  checked [.v d, .s a] s <| loadBlock none d t (ea11 s a off) 4 s
/-- R142 -/
def execVst (d a : Reg) (t : VTy) (off : BitVec 11) (s : State) : Outc :=
  checked [.v d, .s a] s <| storeBlock none d t (ea11 s a off) 4 s
/-- R226 -/
def execVldl (d a : Reg) (t : VTy) (off : BitVec 32) (s : State) : Outc :=
  checked [.v d, .s a] s <| loadBlock (some (ea32 s a off)) d t (ea32 s a off) 8 s
/-- R226 -/
def execVstl (d a : Reg) (t : VTy) (off : BitVec 32) (s : State) : Outc :=
  checked [.v d, .s a] s <| storeBlock (some (ea32 s a off)) d t (ea32 s a off) 8 s
/-- R143 -/
def execVlds (d a b : Reg) (t : VTy) (p : PReg) (s : State) : Outc :=
  checked [.v d, .s a, .s b, .p p.toNat] s <|
    let acts := activeLanes t (getP s p.toNat)
    let lanes := strideLanes s t a b acts
    readLanesOf s t.bytes (laneBounds s true .read []) true lanes fun ls => finishLanes d t acts ls s
/-- R143 -/
def execVsts (d a b : Reg) (t : VTy) (p : PReg) (s : State) : Outc :=
  checked [.v d, .s a, .s b, .p p.toNat] s <|
    let acts := activeLanes t (getP s p.toNat)
    let lanes := strideLanes s t a b acts
    firstLane s t.bytes (laneBounds s true .write []) lanes <| storingOn none (unpoisoned [d] s) s true .write lanes fun ls s' =>
      .next (advance 4 (postStores (scatterStores t (getV s d) acts ls) s'))
/-- R144 -/
def execVgath (d a b : Reg) (t : VTy) (p : PReg) (s : State) : Outc :=
  checked [.v d, .s a, .v b, .p p.toNat] s <| unpoisoned [b] s <|
    let acts := activeLanes t (getP s p.toNat)
    let lanes := indexLanes s t a b acts
    readLanesOf s t.bytes (foreignLane s .read) false lanes fun ls => finishLanes d t acts ls s
/-- R144: the indices are read, and checked, before the addresses; the data are the own check of step 4 (R168). -/
def execVscat (d a b : Reg) (t : VTy) (p : PReg) (s : State) : Outc :=
  checked [.v d, .s a, .v b, .p p.toNat] s <| unpoisoned [b] s <|
    let acts := activeLanes t (getP s p.toNat)
    let lanes := indexLanes s t a b acts
    firstLane s t.bytes (foreignLane s .write) lanes <| storingOn none (unpoisoned [d] s) s false .write lanes fun ls s' =>
      .next (advance 4 (postStores (scatterStores t (getV s d) acts ls) s'))

end Sys2Proof.Machine
end

