-- ==== Sys2Proof/Machine/Tile.lean ====
section
/-! DEFINITION. Class 0b01, tile registers (R151 to R156, R233). -/

namespace Sys2Proof.Machine

/-! ## Tile registers -/

/-- TYPE of a tile register (R82). -/
def tileType (s : State) (n : Reg) : Nat := s.ag.tshape.toNat / 2 ^ (8 * n.toNat) % 16
/-- ROWS of a tile register: rows 0 to ROWS are in use (R82). -/
def tileRows (s : State) (n : Reg) : Nat := s.ag.tshape.toNat / 2 ^ (8 * n.toNat + 4) % 16
/-- The lane type of a tile (R88). -/
def tileTy (s : State) (n : Reg) : VTy := VTy.ofCode (tileType s n)
/-- A tile register. -/
def getT (s : State) (n : Reg) : Tile := s.ag.t.toList.getD n.toNat Tile.zero
/-- The bit of a tile register. -/
def bit8 (n : Nat) : BitVec 8 := BitVec.ofNat 8 (2 ^ n)
/-- Write a tile register and its dirty bit. -/
def setT (n : Reg) (x : Tile) (dirty : Bool) (s : State) : State :=
  { s with ag := { s.ag with
      t := s.ag.t.setIfInBounds n.toNat x
      tdirty := if dirty then s.ag.tdirty ||| bit8 n.toNat else s.ag.tdirty &&& ~~~bit8 n.toNat } }
/-- Row i of a tile. -/
def tileRow (x : Tile) (i : Nat) : Block := x.rows.toList.getD i 0
/-- Tag of row i of a tile. -/
def tileTag (x : Tile) (i : Nat) : Tag := x.tags.toList.getD i rawTag
/-- Write row i of a tile. -/
def setTileRow (i : Nat) (b : Block) (t : Tag) (x : Tile) : Tile :=
  ⟨x.rows.setIfInBounds i b, x.tags.setIfInBounds i t⟩
/-- Write rows from row i on. -/
def setTileRows (i : Nat) : List (Block × Tag) → Tile → Tile
  | [], x => x
  | r :: rs, x => setTileRows (i + 1) rs (setTileRow i r.1 r.2 x)

/-- The first unconfigured tile of a list traps TILE_UNCFG (R151). -/
def configured (ns : List Reg) (s : State) (k : Outc) : Outc :=
  match ns.find? (fun n => tileType s n == 15) with
  | some n => trap cTileUncfg (n.setWidth 64) s
  | none => k

/-- A tile with a poisoned row among those given (R50). -/
def tilePoisoned (s : State) (n : Reg) (rows : List Nat) : Bool := rows.any fun i => poisoned (tileTag (getT s n) i)

/-- The first tile of a list that has a poisoned row among those given traps before any effect (R50). -/
def tilesClean (ns : List (Reg × List Nat)) (s : State) (k : Outc) : Outc :=
  match ns.find? (fun q => tilePoisoned s q.1 q.2) with
  | some q => trap (poisonCause s) (0x20 + q.1.setWidth 64) s
  | none => k

/-- Configure a tile register (R152); the saved image is not read any more (R323). -/
def tileConfig (n : Reg) (x : Word) (len : Nat) (s : State) : Outc :=
  if x.toNat / 256 ≠ 0 ∨ (8 ≤ x.toNat % 16 ∧ x.toNat % 16 ≤ 14) then trap cFormatBad 0 s
  else
    let sh := 8 * n.toNat
    let s1 := { s with ag := { s.ag with
      tshape := (s.ag.tshape &&& ~~~((0xFF : Word) <<< sh)) ||| (x <<< sh)
      trest := s.ag.trest &&& ~~~bit8 n.toNat } }
    .next (advance len (setT n Tile.zero (x.toNat % 16 != 15) s1))

/-- The blocks that TLD and TST reach (R153). -/
def tileLanes (s : State) (n : Reg) (ea : Word) : List Lane :=
  (List.range (tileRows s n + 1)).map fun i => (ea + BitVec.ofNat 64 (64 * i), 64)

/-- The stores of TST: each row's data and tag (R153). -/
def tileStores (x : Tile) : Nat → List (List Nat) → List (List (Nat × Byte) × List (Nat × Tag))
  | _, [] => []
  | i, l :: ls => (withBytes l (tileRow x i).toNat, [(blockOf (l.headD 0), tileTag x i)]) :: tileStores x (i + 1) ls

/-- Rows that the lanes of a column stand for: row of lane i, from 8h on for elements of 8 bytes (R154). -/
def colRow (t : VTy) (h i : Nat) : Nat := if t.bytes = 8 then 8 * h + i else i
/-- Lanes of a column (R154). -/
def colLanes (t : VTy) : Nat := if t.bytes = 8 then 8 else 16
/-- A selector of TCOL that R154 refuses. -/
def colBad (t : VTy) (x : Word) : Bool :=
  x.toNat / 128 != 0 || x.toNat % 64 ≥ t.lanes || (x.toNat / 64 % 2 == 1 && t.bytes != 8)

/-- Lane width of the vector side of a column: the element's width; 1-byte elements lie in 16 lanes of 1 byte. -/
def colRead (x : Tile) (t : VTy) (rows j h : Nat) : Block :=
  mkBlock (laneBits t) (colLanes t) fun i =>
    if colRow t h i ≤ rows then lane (laneBits t) j (tileRow x (colRow t h i)) else 0

/-- Write lane j of row r. -/
def setElem (t : VTy) (r j v : Nat) (x : Tile) : Tile :=
  setTileRow r (mkBlock (laneBits t) t.lanes fun k => if k = j then v else lane (laneBits t) k (tileRow x r)) (tileTag x r) x

/-- Write the lanes of a vector into a column, below lane n (R154). -/
def colWrite (t : VTy) (rows j h : Nat) (v : Block) : Nat → Tile → Tile
  | 0, x => x
  | n + 1, x =>
    let y := colWrite t rows j h v n x
    if colRow t h n ≤ rows then setElem t (colRow t h n) j (lane (laneBits t) n v) y else y

/-- One output element of TMMA: the ascending sequence of single-rounding FMAs (R57). -/
def tmmaElem (f : Fmt) (rm : Rnd) (a b : Nat → Nat) : Nat → Nat → Nat
  | 0, c => c
  | k + 1, c =>
    (laneOp (.flt f) (fmtWidth f) false rm .fma (a k) (b k) (tmmaElem f rm a b k c)).1

/-- The rows that TMMA writes (R156). -/
def tmmaRows (f : Fmt) (rm : Rnd) (ta tb tc : Tile) (m k : Nat) : List Block :=
  let w := fmtWidth f
  (List.range m).map fun i => mkBlock w k fun j =>
    tmmaElem f rm (fun q => lane w q (tileRow ta i)) (fun q => lane w j (tileRow tb q)) k (lane w j (tileRow tc i))

/-! ## The instructions -/

/-- R152 -/
def execTcfg (n a : Reg) (s : State) : Outc := regsReady [.t n, .s a] s <| tileConfig n (getS s a) 4 s
/-- R153 -/
def execTld (n a : Reg) (off : BitVec 11) (s : State) : Outc :=
  checked [.t n, .s a] s <| configured [n] s <|
    let lanes := tileLanes s n (ea11 s a off)
    aligned s 64 lanes <| reading s true [] lanes fun ls =>
      .next (advance 4 (setT n
        (setTileRows 0 (ls.map fun xs => (BitVec.ofNat 512 (agNat s xs), agTagOf s xs)) (getT s n)) true s))
/-- R153 -/
def execTst (n a : Reg) (off : BitVec 11) (s : State) : Outc :=
  checked [.t n, .s a] s <| configured [n] s <|
    let lanes := tileLanes s n (ea11 s a off)
    aligned s 64 lanes <| storing s true .write lanes fun ls s' =>
      .next (advance 4 (postStores (tileStores (getT s n) 0 ls) s'))
/-- R154 -/
def execTrow (d a b : Reg) (w : Bool) (s : State) : Outc :=
  if w then
    checked [.t d, .v a, .s b] s <| configured [d] s <|
      if (getS s b).toNat > tileRows s d then trap cBounds (getS s b) s
      else .next (advance 4 (setT d (setTileRow (getS s b).toNat (getV s a) (getVT s a) (getT s d)) true s))
  else
    checked [.v d, .t a, .s b] s <| configured [a] s <|
      if (getS s b).toNat > tileRows s a then trap cBounds (getS s b) s
      else .next (advance 4 (setV d (tileRow (getT s a) (getS s b).toNat) (tileTag (getT s a) (getS s b).toNat) s))
/-- R154. DESIGN CHOICE (log 19): with a poisoned row or register and a bad selector the poison is reported. -/
def execTcol (d a b : Reg) (w : Bool) (s : State) : Outc :=
  let x := getS s b
  let j := x.toNat % 64
  let h := x.toNat / 64 % 2
  if w then
    checked [.t d, .v a, .s b] s <| configured [d] s <| unpoisoned [a] s <|
      if colBad (tileTy s d) x then trap cBounds x s
      else .next (advance 4 (setT d
        (colWrite (tileTy s d) (tileRows s d) j h (getV s a) (colLanes (tileTy s d)) (getT s d)) true s))
  else
    checked [.v d, .t a, .s b] s <| configured [a] s <|
      let t := tileTy s a
      let rows := ((List.range (colLanes t)).map (colRow t h)).filter (fun r => r ≤ tileRows s a)
      tilesClean [(a, rows)] s <|
        if colBad t x then trap cBounds x s
        else .next (advance 4 (setV d (colRead (getT s a) t (tileRows s a) j h) rawTag s))
/-- R155 -/
def execTzero (n : Reg) (s : State) : Outc :=
  checked [.t n] s <| configured [n] s <|
    .next (advance 4 (setT n (setTileRows 0 (List.replicate (tileRows s n + 1) (0, rawTag)) (getT s n)) true s))
/-- R155, R323 -/
def execTclean (n : Reg) (s : State) : Outc :=
  regsReady [.t n] s <|
    .next (advance 4 (setT n Tile.zero false { s with ag := { s.ag with
      timg := s.ag.timg.setIfInBounds n.toNat Tile.zero
      trest := s.ag.trest &&& ~~~bit8 n.toNat } }))
/-- R156, R57. DESIGN CHOICE (log 19): of several tiles with a poisoned row the first in the order c, a, b is reported. -/
def execTmma (c a b : Reg) (s : State) : Outc :=
  guarded (word0 (.tmma c a b)) .xd [.t c, .t a, .t b] s <| configured [c, a, b] s <|
    let t := tileType s c
    let k := if t = 6 then 16 else 8
    if tileType s a ≠ t ∨ tileType s b ≠ t ∨ (t ≠ 6 ∧ t ≠ 7) then trap cFormatBad 0 s
    else if tileRows s b + 1 ≠ k ∨ tileRows s c ≠ tileRows s a then trap cFormatBad 0 s
    else
      let rows := fun n => List.range (tileRows s n + 1)
      tilesClean [(c, rows c), (a, rows a), (b, rows b)] s <|
        let out := tmmaRows (if t = 6 then fmtF32 else fmtF64) (rndNow s) (getT s a) (getT s b) (getT s c) (tileRows s a + 1) k
        .next (advance 4 { s with ag := { s.ag with
          tdirty := s.ag.tdirty ||| bit8 c.toNat
          tmma := s.ag.tmma ++ [⟨c.toNat, out⟩] } })
/-- R233 -/
def execTcfgi (n : Reg) (w1 : BitVec 32) (s : State) : Outc :=
  regsReady [.t n] s <|
    if w1.toNat / 256 ≠ 0 then trap cIllegalOp (word0 (.tcfgi n w1)) s
    else tileConfig n (w1.setWidth 64) 8 s
/-- The result of the oldest TMMA of an agent lands in its tile (R156); the registers of an agent stopped at a double trap are
frozen (R240). -/
def landTmma (a : Agent) : Agent :=
  match a.tmma with
  | [] => a
  | r :: rs =>
    if a.run = .dead then { a with tmma := rs }
    else { a with
      tmma := rs
      t := a.t.setIfInBounds r.tile
        (setTileRows 0 (r.rows.map fun b => (b, rawTag)) (a.t.toList.getD r.tile Tile.zero)) }

/-- R156: the result of the oldest TMMA of an agent is ready. -/
def execTmmaResult (aid : Nat) (s : State) : Outc := .next (onAgent aid landTmma s)

end Sys2Proof.Machine
end

