-- ==== Sys2Proof/Machine/Matrix.lean ====
section
/-! DEFINITION. The matrix engine (R54 to R58, R157 to R165, R232): claims, checks at entry, and the entries performed. -/

namespace Sys2Proof.Machine

/-! ## Slots -/

/-- An operand slot as the queue will leave it (R158). -/
def oslotAhead (c : Core) (n : Slot) : OSlot :=
  c.coq.foldl (fun x e => match e.op with
    | .oload o y => if o = n.toNat then y else x
    | .azero _ => x
    | .mma .. => x
    | .awr _ _ => x
    | .ard .. => x
    | .orel _ _ => x) (c.oslots.toList.getD n.toNat OSlot.initial)

/-- Kind of a format for operands: K and whether it is FLOAT; none where OLOAD refuses it (R161). -/
def operandKind (fmt : Nat) : Option (Nat × Bool) :=
  match layoutOf fmt with
  | some (.narrow f) => some (narrowCount f, f.e != 0)
  | some (.named f) => if f = fmtBF16 ∨ f = fmtF16 then some (32, true) else none
  | some (.sparseNarrow _) => some (64, true)
  | some (.sparseNamed _) => some (64, true)
  | none => none

/-- The format byte and the kind of an MMA's operand: that of its rows, or the override's (R162, R232). -/
def mmaOperand (x : OSlot) (ov : Option (BitVec 8)) : Option (Nat × Bool) :=
  match ov with
  | some f => operandKind f.toNat
  | none => operandKind (tagFormat (x.tags.toList.getD 0 rawTag))

/-- The kind of an accumulator slot as the queue will leave it (R158). -/
def kindAhead (c : Core) (n : Nat) : AccKind :=
  (c.coq.foldl (fun (p : AccKind × (Nat → OSlot)) e => match e.op with
    | .azero m => if m = n then (.open_, p.2) else p
    | .awr m _ => if m = n then (.open_, p.2) else p
    | .ard m _ _ z _ _ _ _ => if m = n ∧ z then (.open_, p.2) else p
    | .oload o y => (p.1, fun k => if k = o then y else p.2 k)
    | .mma m oa ob _ _ ova ovb =>
      if m = n then
        let f := fun (k : Nat) (ov : Option (BitVec 16)) =>
          match mmaOperand (p.2 k) (ov.map (·.setWidth 8)) with
          | some q => q.2
          | none => false
        (if f oa ova || f ob ovb then .float else .int, p.2)
      else p
    | .orel _ _ => p) ((c.aslots.toList.getD n ASlot.zero).kind, fun k => c.oslots.toList.getD k OSlot.initial)).1

/-- The current agent holds operand slot n. -/
def ownsO (s : State) (n : Nat) : Bool := s.core.oclaim.toList.getD n none == some s.ag.num
/-- The current agent holds accumulator slot n. -/
def ownsA (s : State) (n : Nat) : Bool := s.core.aclaim.toList.getD n none == some s.ag.num

/-- A claim on accumulator slot n, else ILLEGAL_REG with 0x40 + n (R157). -/
def claimedA (n : Nat) (s : State) (k : Outc) : Outc :=
  if ownsA s n then k else trap cIllegalReg (BitVec.ofNat 64 (0x40 + n)) s
/-- A claim on operand slot n, else ILLEGAL_REG with n (R157). -/
def claimedO (n : Nat) (s : State) (k : Outc) : Outc :=
  if ownsO s n then k else trap cIllegalReg (BitVec.ofNat 64 n) s

/-- Enter the coprocessor queue of 8, or stall while it is full, with the reads that are done (R158). -/
def enqueue (op : CoOp) (len : Nat) (s : State) : Outc :=
  if 8 ≤ s.core.coq.length then .next (if (gotReads s).isSome then s else blockOn .coprocRoom s)
  else .next (advance len { s with core := { s.core with coq := s.core.coq ++ [⟨s.ag.aid, op⟩] } })

/-- A matrix instruction: the extension and its registers. -/
def matrixOp (i : Instr) (us : List RegUse) (s : State) (k : Outc) : Outc := guarded (word0 i) .xm us s k

/-! ## OLOAD (R161) -/

/-- What is wrong with the row read by OLOAD (R161, steps 3 to 5). -/
def rowBad (s : State) (fmt : Nat) (t : Tag) (b : Block) : Option (BitVec 8) :=
  if (operandKind fmt).isNone then some cFormatBad
  else if poisoned t then some (poisonCause s)
  else match elemsOf s.core.topx t b with
  | .ok _ => none
  | .error .sparse => some cSparse
  | .error .poison => some (poisonCause s)
  | .error .format => some cFormatBad

/-- Where the rows of OLOAD lie: as they were translated when its reads left, and as they translate now (R161, R306). -/
def oloadWhere (s : State) (addrs : List Word) : List (Word × Except XErr (List XOk)) :=
  addrs.zipIdx.map fun p => (p.1, match (gotReads s).bind fun ls => ls[p.2]? with
    | some xs => .ok xs
    | none => xlateLane s false .read [] (p.1, 64))

/-- Rows of OLOAD checked one after another, each against the format byte of row 0 too (R161, step 6); what follows gets
the rows. -/
def oloadRows (s : State) : Option Nat → List (Word × Except XErr (List XOk)) → (List (List XOk) → Outc) → Outc
  | _, [], k => k []
  | f0, (a, r) :: as, k =>
    match r with
    | .error .bounds => trap cBounds a s
    | .error .miss => .next (missOn a a .read s)
    | .ok xs =>
      let f := tagFormat (agTagOf s xs)
      match rowBad s f (agTagOf s xs) (BitVec.ofNat 512 (agNat s xs)) with
      | some c => trap c a s
      | none => if f0.getD f ≠ f then trap cFormatBad a s else oloadRows s (some (f0.getD f)) as fun r => k (xs :: r)

/-- The rows of OLOAD before the first that does not translate. -/
def oloadReach : List (Word × Except XErr (List XOk)) → List (List XOk)
  | [] => []
  | (_, .ok xs) :: as => xs :: oloadReach as
  | (_, .error _) :: _ => []

/-- Every element of a row is zero (R161). -/
def rowZero (topx : Bool) (t : Tag) (b : Block) : Bool :=
  match elemsOf topx t b with
  | .ok e => e.vals.all fun v => match v with
    | .fin _ m _ => m == 0
    | .inf _ => false
    | .nan _ => false
  | .error _ => false

/-- The slot that OLOAD fills. -/
def oslotOf (s : State) (rows : List (List XOk)) : OSlot :=
  let bs := rows.map fun xs => (BitVec.ofNat 512 (agNat s xs) : Block)
  let ts := rows.map (agTagOf s)
  ⟨Vector.ofFn fun i => bs.getD i.val 0, Vector.ofFn fun i => ts.getD i.val rawTag,
    BitVec.ofNat 32 (packNat 1 32 fun i => if rowZero s.core.topx (ts.getD i rawTag) (bs.getD i 0) then 1 else 0)⟩

/-! ## MMA (R55, R56, R162, R232) -/

/-- The tag under which row i of an operand is read. -/
def operandTag (x : OSlot) (ov : Option Tag) (i : Nat) : Tag := ov.getD (x.tags.toList.getD i rawTag)

/-- scale_of a row: 127 for a dense named format (R162). -/
def scaleOf (t : Tag) : Int :=
  match layoutOf (tagFormat t) with
  | some (.named _) => 127
  | _ => tagScale t

/-- The element values of a row before its scale. -/
def rowVals (topx : Bool) (t : Tag) (b : Block) : List FVal :=
  match elemsOf topx (BitVec.ofNat 16 (127 * 256 + tagFormat t)) b with
  | .ok e => e.vals
  | .error _ => []

/-- The rows of an operand: values and scale. -/
def operandRows (topx : Bool) (x : OSlot) (ov : Option Tag) : List (List FVal × Int) :=
  (List.range 32).map fun i =>
    let t := operandTag x ov i
    (rowVals topx t (x.rows.toList.getD i 0), scaleOf t)

/-- An exact sum (R55). -/
def exactSum : List FVal → FVal
  | [] => .fin false 0 0
  | v :: vs => vs.foldl (fun a b => (fvAdd .rne a b).1) v

/-- Row i of an operand is skipped, which shows in the counters only (R350): MMAL ignores the zero-row bits of an overridden operand (R232, R350). -/
def rowSkipped (x : OSlot) (ov : Option Tag) (i : Nat) : Bool := ov.isNone && x.zero.getLsbD i

/-- Exact group sums of products, 8 to a group, in ascending order (R55). -/
def groupSums : Nat → List FVal → List FVal → List FVal
  | 0, _, _ => []
  | g + 1, a, b =>
    exactSum (((a.take 8).zip (b.take 8)).map fun p => (fvMul p.1 p.2).1) :: groupSums g (a.drop 8) (b.drop 8)

/-- The group sums of output element (i, j). A row whose zero-row bit is set contributes exactly zero to finite rows; skipping it
changes no value, so against an infinity or a NaN it gives NaN as R55 says (R15, R55, R162, R350; log 20). -/
def elemSums (k : Nat) (a b : List FVal) : List FVal := groupSums (k / 8) a b

/-- Round to A48 by RNE (R55). -/
def toA48 (v : FVal) : Nat := (roundTo fmtA48 .rne v).1

/-- A float accumulator element after the groups of one dot product (R55). -/
def accFloat (sh : Int) (acc : Nat) (sums : List FVal) : Nat :=
  sums.foldl (fun a s => toA48 (fvAdd .rne (fvDecode fmtA48 a) (fvDecode fmtA48 (toA48 (fvShift sh s)))).1) acc

/-- The integer that an exact sum of integers is. -/
def fvToExact : FVal → Int
  | .fin n m e => fvScaled n m e 0
  | .inf _ => 0
  | .nan _ => 0

/-- One addition to an integer accumulator (R56). -/
def accAdd (sat : Bool) (a x : Int) : Int × Bool :=
  let y := a + x
  if sat then
    if y < intLo 48 true then (intLo 48 true, true) else if y > intHi 48 true then (intHi 48 true, true) else (y, false)
  else (codeInt true 48 (intCode 48 y), false)

/-- An integer accumulator element after the groups of one dot product, and whether it saturated (R56). -/
def accInt (sat : Bool) (sh : Nat) (acc : Nat) (sums : List FVal) : Nat × Bool :=
  let r := sums.foldl (fun (p : Int × Bool) s =>
    let q := accAdd sat p.1 (fvToExact s * 2 ^ sh)
    (q.1, p.2 || q.2)) (codeInt true 48 acc, false)
  (intCode 48 r.1, r.2)

/-- Some scale of an integer MMA lies outside 0 to 47 (R56). -/
def scalesBad (a b : OSlot) (ova ovb : Option Tag) : Bool :=
  (List.range 32).any fun i => (List.range 32).any fun j =>
    let sh := scaleOf (operandTag a ova i) + scaleOf (operandTag b ovb j) - 254
    sh < 0 || 47 < sh

/-- The accumulator after an MMA, and whether ACCSAT is set (R55, R56, R162). -/
def mmaAcc (topx isFloat sat : Bool) (a b : OSlot) (ova ovb : Option Tag) (k : Nat) (acc : List (BitVec 48)) :
    List (BitVec 48) × Bool :=
  let ra := operandRows topx a ova
  let rb := operandRows topx b ovb
  let out := (List.range 1024).map fun n =>
    let x := ra.getD (n / 32) ([], 127)
    let y := rb.getD (n % 32) ([], 127)
    let sums := elemSums k x.1 y.1
    let sh := x.2 + y.2 - 254
    let c := (acc.getD n 0).toNat
    if isFloat then (accFloat sh c sums, false) else accInt sat sh.toNat c sums
  (out.map fun p => BitVec.ofNat 48 p.1, out.any (·.2))

/-- An override field that R232 refuses: its cause. -/
def overrideBad (s : State) (t : Tag) : Option (BitVec 8) :=
  match layoutOf (tagFormat t) with
  | some (.narrow _) => if poisoned t then some (poisonCause s) else none
  | some (.named f) =>
    if f = fmtBF16 ∨ f = fmtF16 then
      if poisoned t then some (poisonCause s) else if tagScale t = 127 then none else some cFormatBad
    else some cFormatBad
  | some (.sparseNarrow _) => some cFormatBad
  | some (.sparseNamed _) => some cFormatBad
  | none => some cFormatBad

/-- The check that an operand slot holds rows that OLOAD has accepted (R162). -/
def loadedO (n : Slot) (s : State) (k : Outc) : Outc :=
  match mmaOperand (oslotAhead s.core n) none with
  | none => trap cFormatBad (BitVec.ofNat 64 n.toNat) s
  | some _ => k

/-- The check of MMAL's override of operand slot n; TRAPA is the slot's number (R157, R223, R232). -/
def overrideOk (n : Slot) (ov : Option Tag) (s : State) (k : Outc) : Outc :=
  match ov.bind (overrideBad s) with
  | some c => trap c (BitVec.ofNat 64 n.toNat) s
  | none => k

/-- The checks and the entry of MMA and MMAL (R162, R232). -/
def mmaEnter (n : Reg) (oa ob : Slot) (z : Bool) (ova ovb : Option Tag) (len : Nat) (s : State) : Outc :=
  claimedA n.toNat s <| claimedO oa.toNat s <| claimedO ob.toNat s <| loadedO oa s <| loadedO ob s <|
  overrideOk oa ova s <| overrideOk ob ovb s <|
    let a := oslotAhead s.core oa
    let b := oslotAhead s.core ob
    let ka := (mmaOperand a (ova.map (·.setWidth 8))).getD (0, false)
    let kb := (mmaOperand b (ovb.map (·.setWidth 8))).getD (0, false)
    let slot : Word := BitVec.ofNat 64 (0x40 + n.toNat)
    let fl := ka.2 || kb.2
    let kd := if z then AccKind.open_ else kindAhead s.core n.toNat
    if ka.1 ≠ kb.1 then trap cFormatBad slot s
    else if kd ≠ .open_ ∧ kd ≠ (if fl then AccKind.float else AccKind.int) then trap cFormatBad slot s
    else if !fl && scalesBad a b ova ovb then trap cFormatBad slot s
    else enqueue (.mma n.toNat oa.toNat ob.toNat z (statusSat s.ag.status) ova ovb) len s

/-! ## AWR and ARD (R163 to R165) -/

/-- STRIDE of a descriptor (R164). -/
def ardStride (x : Word) : Word := (x.setWidth 32).signExtend 64
/-- DTAG of a descriptor (R164). -/
def ardTag (x : Word) : Tag := BitVec.ofNat 16 (x.toNat / 2 ^ 48)
/-- The reserved field of a descriptor is zero (R164). -/
def ardReserved (x : Word) : Bool := x.toNat / 2 ^ 32 % 2 ^ 16 == 0

/-- The blocks of 32 rows of n blocks (R163, R165). -/
def rowLanes (base stride : Word) (n : Nat) : List Lane :=
  (List.range 32).flatMap fun i => (List.range n).map fun k =>
    (base + BitVec.ofNat 64 i * stride + BitVec.ofNat 64 (64 * k), 64)

/-- MISALIGNED with the base where the base or the stride is no multiple of 64 (R161, step 1). -/
def strideOk (base stride : Word) (s : State) (k : Outc) : Outc :=
  if base.toNat % 64 ≠ 0 ∨ stride.toNat % 64 ≠ 0 then trap cMisaligned base s else k

/-- Blocks of a row that AWR reads. -/
def awrBlocks : AwrTy → Nat
  | .f32 => 2 | .i32 => 2 | .a48 => 3

/-- Element j of a row's number, as AWR takes it (R163). -/
def awrElem (t : AwrTy) (row j : Nat) : BitVec 48 :=
  match t with
  | .f32 => BitVec.ofNat 48 (toA48 (fvDecode fmtF32 (row / 2 ^ (32 * j) % 2 ^ 32)))
  | .i32 => (BitVec.ofNat 32 (row / 2 ^ (32 * j))).signExtend 48
  | .a48 => BitVec.ofNat 48 (row / 2 ^ (48 * j))

/-- The elements that AWR reads: n blocks to a row. -/
def awrElems (s : State) (t : AwrTy) (ls : List (List XOk)) : List (BitVec 48) :=
  (List.range 32).flatMap fun i =>
    let row := agNat s ((ls.drop (awrBlocks t * i)).take (awrBlocks t)).flatten
    (List.range 32).map (awrElem t row)

/-- Blocks of a row that ARD writes (R165). -/
def ardBlocks : ArdTy → Nat
  | .f32 => 2 | .bf16 => 1 | .b8 => 1 | .i32 => 2 | .a48 => 3 | .f16 => 1

/-- The tag that ARD writes (R165). -/
def ardWritten (t : ArdTy) (dtag : Tag) : Tag :=
  match t with
  | .f32 => 0x7FC3 | .bf16 => 0x7FC1 | .b8 => dtag | .i32 => 0x7FC0 | .a48 => 0x7FC0 | .f16 => 0x7FC2

/-- Element width in bits of a destination. -/
def ardBits (t : ArdTy) (dtag : Tag) : Nat :=
  match t with
  | .f32 => 32 | .bf16 => 16 | .b8 => ((narrowOf (tagFormat dtag)).map (·.w)).getD 8 | .i32 => 32 | .a48 => 48 | .f16 => 16

/-- The value of a float accumulator element; A48 has one kind of NaN, which signals nothing (R54, R58; DEDUCED, log 18). -/
def a48Value (x : Nat) : FVal :=
  match fvDecode fmtA48 x with
  | .nan _ => .nan false
  | .inf n => .inf n
  | .fin n m e => .fin n m e

/-- One element converted by ARD (R58). -/
def ardElem (t : ArdTy) (dtag : Tag) (isFloat topx sat : Bool) (rm : Rnd) (x : Nat) : Nat × Sticky :=
  let v := if isFloat then a48Value x else fvInt (codeInt true 48 x)
  match t with
  | .f32 => roundTo fmtF32 rm v
  | .bf16 => roundTo fmtBF16 rm v
  | .f16 => roundTo fmtF16 rm v
  | .a48 => (x, 0)
  | .b8 =>
    match narrowOf (tagFormat dtag) with
    | some f => toNarrow f (tagScale dtag) topx isFloat sat rm v
    | none => (0, 0)
  | .i32 =>
    if isFloat then
      let r := fvToRange rm (intLo 32 true) (intHi 32 true) true v
      (intCode 32 r.1, r.2)
    else fitLane true 32 sat (codeInt true 48 x)

/-- The kind under which ARD reads the elements is FLOAT (R165). -/
def ardFloat (t : ArdTy) (dtag : Tag) (k : AccKind) : Bool :=
  match k with
  | .float => true
  | .int => false
  | .open_ =>
    match t with
    | .i32 => false
    | .b8 => match narrowOf (tagFormat dtag) with | some f => f.e != 0 | none => true
    | .f32 => true
    | .bf16 => true
    | .a48 => true
    | .f16 => true

/-- One row as ARD writes it, and its flags. -/
def ardRow (t : ArdTy) (dtag : Tag) (isFloat topx sat : Bool) (rm : Rnd) (row : List (BitVec 48)) : Nat × Sticky :=
  let r := row.map fun x => ardElem t dtag isFloat topx sat rm x.toNat
  (packList (ardBits t dtag) (r.map (·.1)), stickyAll r)

/-- The stores of ARD, block after block of row after row, each with a tag (R165). -/
def ardStores (t : ArdTy) (tag : Tag) : List Nat → List Nat → List (List (Nat × Byte) × List (Nat × Tag))
  | [], _ => []
  | row :: rows, locs =>
    ((List.range (ardBlocks t)).map fun k =>
      let here := (locs.drop (64 * k)).take 64
      (withBytes here (row / 2 ^ (512 * k)), [(blockOf (here.headD 0), tag)])) ++
      ardStores t tag rows (locs.drop (64 * ardBlocks t))

/-- RMODE as ARD keeps it. -/
def rmodeBits (s : State) : BitVec 3 := BitVec.ofNat 3 (s.ag.status.toNat / 2)

/-- Set an accumulator slot. -/
def setA (n : Nat) (x : ASlot) (c : Core) : Core := { c with aslots := c.aslots.setIfInBounds n x }

/-- Free the claims of agent number g that a mask names (R160). -/
def dropClaims (mask : Word) (g : BitVec 3) (l : List (Option (BitVec 3))) : List (Option (BitVec 3)) :=
  l.zipIdx.map fun p => if mask.getLsbD p.2 && p.1 == some g then none else p.1

/-- Rebuild a vector from a list of its length. -/
def vecOf {α : Type} (n : Nat) (d : α) (l : List α) : Vector α n := Vector.ofFn fun i => l.getD i.val d

/-- Add to an engine counter (R349). -/
def bumpEngine (k n : Nat) (c : Core) : Core :=
  { c with engines := c.engines.setIfInBounds k (c.engines.toList.getD k 0 + BitVec.ofNat 64 n) }

/-- An element is zero. -/
def elemZero (v : FVal) : Bool :=
  match v with
  | .fin _ m _ => m == 0
  | .inf _ => false
  | .nan _ => false

/-- Products with a zero factor in rows that are not skipped (R349, word 3). -/
def zeroProducts (topx : Bool) (a b : OSlot) (ova ovb : Option Tag) : Nat :=
  let ra := (operandRows topx a ova).map (·.1.map elemZero)
  let rb := (operandRows topx b ovb).map (·.1.map elemZero)
  ((List.range 1024).map fun n =>
    if rowSkipped a ova (n / 32) || rowSkipped b ovb (n % 32) then 0
    else (((ra.getD (n / 32) []).zip (rb.getD (n % 32) [])).filter fun p => p.1 || p.2).length).sum

/-- The counters of one MMA (R349, R350). -/
def countMma (a b : OSlot) (ova ovb : Option Tag) (c : Core) : Core :=
  let za := ((List.range 32).filter (rowSkipped a ova)).length
  let zb := ((List.range 32).filter (rowSkipped b ovb)).length
  bumpEngine 0 1 (bumpEngine 1 (if 16 ≤ max za zb then 1 else 0) (bumpEngine 2 (za + zb)
    (bumpEngine 3 (zeroProducts c.topx a b ova ovb) c)))

/-- An operand slot takes its rows; the rows whose zero-row bit is set are counted (R161, R349). -/
def loadSlot (o : Nat) (y : OSlot) (c : Core) : Core :=
  bumpEngine 4 ((List.range 32).filter (rowSkipped y none)).length { c with oslots := c.oslots.setIfInBounds o y }

/-- Sticky bits reach STATUS unless the agent has stopped at a double trap, which freezes it (R240). -/
def orLive (f : Sticky) (s : State) : State := if s.ag.run = .dead then s else orStatus f s

/-- An OREL frees the claims; those of an agent stopped at a double trap are frozen (R160, R240). -/
def orelClaims (acc : Bool) (mask : Word) (s : State) : State :=
  if s.ag.run = .dead then s
  else if acc then
    { s with core := { s.core with aclaim := vecOf 16 none (dropClaims mask s.ag.num s.core.aclaim.toList) } }
  else { s with core := { s.core with oclaim := vecOf 64 none (dropClaims mask s.ag.num s.core.oclaim.toList) } }

/-- Perform one entry for the current agent, which queued it (R158). An accumulator in which an uncorrectable error lies is delivered as
poisoned (R422; DESIGN CHOICE, log 31). -/
def performEntry (op : CoOp) (s : State) : State :=
  match op with
  | .azero n => { s with core := setA n ASlot.zero s.core }
  | .oload o y => { s with core := loadSlot o y s.core }
  | .awr n xs => { s with core := setA n ⟨xs, .open_, false⟩ s.core }
  | .orel acc mask => orelClaims acc mask s
  | .mma n oa ob z sat ova ovb =>
    let a := s.core.oslots.toList.getD oa OSlot.initial
    let b := s.core.oslots.toList.getD ob OSlot.initial
    let ka := (mmaOperand a (ova.map (·.setWidth 8))).getD (0, false)
    let kb := (mmaOperand b (ovb.map (·.setWidth 8))).getD (0, false)
    let old := if z then ASlot.zero else s.core.aslots.toList.getD n ASlot.zero
    let fl := ka.2 || kb.2
    let r := mmaAcc s.core.topx fl sat a b ova ovb ka.1 old.elems
    orLive (stickyIf r.2 stACCSAT) { s with core := countMma a b ova ovb (setA n ⟨r.1, if fl then .float else .int, old.bad⟩ s.core) }
  | .ard n t sat z rm dtag locs ins =>
    let x := s.core.aslots.toList.getD n ASlot.zero
    let rnd := statusRnd (rm.setWidth 64 <<< 1)
    let tag := if x.bad then ardWritten t dtag ||| 0xFF00 else ardWritten t dtag
    let rows := (List.range 32).map fun i =>
      ardRow t dtag (ardFloat t dtag x.kind) s.core.topx sat rnd ((x.elems.drop (32 * i)).take 32)
    let s1 := if z then { s with core := setA n ASlot.zero s.core } else s
    sendReady (fillWrites ((s.ag.posted.filter fun w => w.ins == ins).map (·.id)) (ardStores t tag (rows.map (·.1)) locs)
      (orLive (stickyAll rows) s1))

/-! ## The instructions -/

/-- The slots of a kind that the moves under way bring to the current core: claimed by an agent that is to come here
(R159, R219). DEDUCED (log 23): OCLAIM answers 0 for such a slot, so that the migration keeps its slot's number; R160 itself asks only
that the slot is free or the agent's own. -/
def slotsComing (acc : Bool) (s : State) (i : Nat) : Bool :=
  s.moves.any fun m => m.target == s.core.id && match findAgent s m.aid with
    | none => false
    | some a =>
      let c := getCore s a.place
      (if acc then c.aclaim.toList else c.oclaim.toList).getD i none == some a.num && a.place != s.core.id

/-- Slots that an agent claims again are none that its queued ORELs, which come before in its program order, will free (R160, R352;
DEDUCED, log 20). -/
def keepClaimed (aid : Nat) (acc : Bool) (mask : Word) (e : CoEntry) : CoEntry :=
  match e.op with
  | .orel k m => if e.aid = aid ∧ k = acc then { e with op := .orel k (m &&& ~~~mask) } else e
  | _ => e

/-- The current agent claims the slots of a mask. -/
def claimSlots (acc : Bool) (x : Word) (s : State) : State :=
  let l := if acc then s.core.aclaim.toList else s.core.oclaim.toList
  let m := l.zipIdx.map fun p => if x.getLsbD p.2 then some s.ag.num else p.1
  let c := { s.core with coq := s.core.coq.map (keepClaimed s.ag.aid acc x) }
  { s with core := if acc then { c with aclaim := vecOf 16 none m } else { c with oclaim := vecOf 64 none m } }

/-- Every slot of a mask is free or the current agent's own, and none is to come with another agent. -/
def mayClaim (acc : Bool) (x : Word) (s : State) : Bool :=
  (if acc then s.core.aclaim.toList else s.core.oclaim.toList).zipIdx.all fun p =>
    !x.getLsbD p.2 || ((p.1 == none || p.1 == some s.ag.num) && !slotsComing acc s p.2)

/-- R160 -/
def execOclaim (d a : Reg) (acc : Bool) (s : State) : Outc :=
  matrixOp (.oclaim d a acc) [.s d, .s a] s <|
    let x := getS s a
    if acc && x.toNat / 2 ^ 16 != 0 then trap cBounds x s
    else if mayClaim acc x s then .next (advance 4 (setS d 1 (claimSlots acc x s)))
    else .next (advance 4 (setS d 0 s))
/-- R160 -/
def execOrel (a : Reg) (acc : Bool) (s : State) : Outc :=
  matrixOp (.orel a acc) [.s a] s <|
    if acc && (getS s a).toNat / 2 ^ 16 != 0 then trap cBounds (getS s a) s
    else enqueue (.orel acc (getS s a)) 4 s
/-- R161 -/
def execOload (d a : Reg) (o : Slot) (s : State) : Outc :=
  matrixOp (.oload d a o) [.s d, .s a] s <| claimedO o.toNat s <| strideOk (getS s a) (getS s d) s <|
    let rows := oloadWhere s ((List.range 32).map fun i => getS s a + BitVec.ofNat 64 i * getS s d)
    let enters := oloadRows s none rows fun ls => enqueue (.oload o.toNat (oslotOf s ls)) 4 s
    if (gotReads s).isSome then enters
    else if overlapsArd s (oloadReach rows) then .next (blockOn .coproc s)
    else fetching (oloadReach rows) s enters
/-- R162 -/
def execMma (n : Reg) (oa ob : Slot) (z : Bool) (s : State) : Outc :=
  matrixOp (.mma n oa ob z) [.acc n] s <| mmaEnter n oa ob z none none 4 s
/-- R163 -/
def execAzero (n : Reg) (s : State) : Outc :=
  matrixOp (.azero n) [.acc n] s <| claimedA n.toNat s <| enqueue (.azero n.toNat) 4 s
/-- R164, R165 -/
def execArd (n a b : Reg) (m : IMode) (z : Bool) (t : ArdTy) (s : State) : Outc :=
  legal (.ard n a b m z t) s <| matrixOp (.ard n a b m z t) [.acc n, .s a, .s b] s <| claimedA n.toNat s <|
    let x := getS s b
    let dtag := ardTag x
    strideOk (getS s a) (ardStride x) s <|
    access s false .write [] (rowLanes (getS s a) (ardStride x) (ardBlocks t)) fun _ =>
      if t = .b8 ∧ (narrowDest dtag).isNone then trap cFormatBad 0 s
      else if t ≠ .b8 ∧ dtag ≠ 0 then trap cFormatBad 0 s
      else if !ardReserved x then trap cFormatBad (openA s) s
      else if 8 ≤ s.core.coq.length then .next (blockOn .coprocRoom s)
      else storing s false .write (rowLanes (getS s a) (ardStride x) (ardBlocks t)) fun ls s' =>
        enqueue (.ard n.toNat t (satBy s m) z (rmodeBits s) dtag ls.flatten s'.draws) 4
          (addWrites false (ardStores t (ardWritten t dtag) (List.replicate 32 0) ls.flatten) s')
/-- R163 -/
def execAwr (n a b : Reg) (t : AwrTy) (s : State) : Outc :=
  matrixOp (.awr n a b t) [.acc n, .s a, .s b] s <| claimedA n.toNat s <|
    let x := getS s b
    strideOk (getS s a) (ardStride x) s <|
    let own := fun (k : Outc) => if ardTag x ≠ 0 ∨ !ardReserved x then trap cFormatBad (openA s) s else k
    readingOn none own s false [] (rowLanes (getS s a) (ardStride x) (awrBlocks t)) fun ls =>
      enqueue (.awr n.toNat (awrElems s t ls)) 4 s
/-- R232 -/
def execMmal (n : Reg) (oa ob : Slot) (ovb ova z : Bool) (w1 : BitVec 32) (s : State) : Outc :=
  matrixOp (.mmal n oa ob ovb ova z w1) [.acc n] s <|
    let x := w1.toNat
    let ta : Tag := BitVec.ofNat 16 (x / 2 ^ 16 % 256 * 256 + x % 256)
    let tb : Tag := BitVec.ofNat 16 (x / 2 ^ 24 * 256 + x / 2 ^ 8 % 256)
    if (!ova && ta != 0) || (!ovb && tb != 0) then trap cIllegalOp (word0 (.mmal n oa ob ovb ova z w1)) s
    else
      mmaEnter n oa ob z (if ova then some ta else none) (if ovb then some tb else none) 8 s
/-- The oldest entry of a core's coprocessor queue is performed for its agent. -/
def coprocStep (core : CoreId) (s : State) : State :=
  match (getCore s core).coq with
  | [] => s
  | e :: es =>
    let s1 := checkout e.aid (onCore core (fun c => { c with coq := es }) s)
    if s1.ag.aid = e.aid ∧ s1.core.id = core then performEntry e.op s1 else s1

/-- R158: the engine performs the oldest entry of a core's queue; that of a stopped core starts none (R253). -/
def execCoprocEntry (core : CoreId) (s : State) : Outc :=
  .next (if (getCore s core).stopped then s else coprocStep core s)

end Sys2Proof.Machine
end

