-- ==== Sys2Proof/Machine/MemSync.lean ====
section
/-! DEFINITION. Class 0b10, memory and synchronisation (R167 to R188), and the long forms of its memory instructions
(R226, R227). -/

namespace Sys2Proof.Machine

/-! ## Atomic operations (R173, R175) -/

/-- The value an AMO leaves, on codes of w bits (R173). -/
def amoNew (op : AmoOp) (u : Bool) (w old b : Nat) : Nat :=
  match op with
  | .swap => b
  | .add => (old + b) % 2 ^ w
  | .and => old &&& b
  | .or => old ||| b
  | .xor => old ^^^ b
  | .min => if codeInt (!u) w b < codeInt (!u) w old then b else old
  | .max => if codeInt (!u) w old < codeInt (!u) w b then b else old

/-- The old value as it is written to sd (R173). -/
def amoOld (w32 u : Bool) (x : Nat) : Word :=
  if w32 then (if u then BitVec.ofNat 64 x else (BitVec.ofNat 32 x).signExtend 64) else BitVec.ofNat 64 x

/-- Bytes of an AMO. -/
def amoBytes (w32 : Bool) : Nat := if w32 then 4 else 8

/-- The immediate operation of an AMO at its home, for the current agent (R173, R174, R322, R355). -/
def amoAct (op : AmoOp) (w32 u : Bool) (locs : List Nat) (b : Word) (bad : Bool) (s : State) : State × Option OpAnswer :=
  match guardHere (guardedBufs s locs) s with
  | .error e => (s, some (.trapped e.1 e.2))
  | .ok s1 =>
    let l := locs.map (aliasLoc s1.ag)
    let old := bytesToNat (l.map (memByte s1.mem))
    let new := amoNew op u (8 * amoBytes w32) old (b.toNat % 2 ^ (8 * amoBytes w32))
    (immediateWrite (withBytes l new) [] s1,
      some (.done ⟨amoOld w32 u old, 0, 0, bad || poisoned (memTag s1.mem (l.headD 0)), false⟩))

/-- The immediate operation of a CAS at its home (R175, R322, R355): only a swap writes. -/
def casAct (w32 u : Bool) (locs : List Nat) (old new : Word) (bad : Bool) (s : State) : State × Option OpAnswer :=
  let n := amoBytes w32
  let l := locs.map (aliasLoc s.ag)
  let cur := bytesToNat (l.map (memByte s.mem))
  let ans := OpAnswer.done ⟨amoOld w32 u cur, 0, 0, bad || poisoned (memTag s.mem (l.headD 0)), false⟩
  if cur ≠ old.toNat % 2 ^ (8 * n) then (s, some ans)
  else match guardHere (guardedBufs s locs) s with
  | .error e => (s, some (.trapped e.1 e.2))
  | .ok s1 => (immediateWrite (withBytes (locs.map (aliasLoc s1.ag)) (new.toNat % 2 ^ (8 * n))) [] s1, some ans)

/-- AMO and CAS go on with the answer: the old value in sd, and PSN where its block was poisoned (R50, R173). -/
def amoFin (d : Reg) (len : Nat) (x : OpData) (s : State) : Outc :=
  .next (advance len (setS d x.value (orStatus (stickyIf x.psn stPSN) s)))

/-- The locations whose writes go before an immediate operation that writes: its own, and those of the buffers that it copies and of
their copies. -/
def beforeWrite (locs : List Nat) (s : State) : List Nat :=
  locs.map (aliasLoc s.ag) ++ (guardedBufs s locs).flatMap fun p =>
    bufLocs p.1 p.2 ++ (match freeBuf (getCore s p.1) with | some b => bufLocs p.1 b | none => [])

/-- An AMO or CAS at an effective address: the checks, then the operation at its home (R167, R173, R175). -/
def atomicAt (w32 : Bool) (ea : Word) (s : State) (fin : OpData → State → Outc) (o : List Nat → Bool → HomeOp)
    (act : List Nat → Bool → State → State × Option OpAnswer) : Outc :=
  completing fin s <|
    let n := amoBytes w32
    aligned s n [(ea, n)] <| access s false .readWrite [] [(ea, n)] fun xs =>
      let locs := (xs.headD []).map (·.loc)
      let bad := (xs.headD []).any (·.poison)
      settling (beforeWrite locs s) s fun s1 => atParty (homeName (locs.headD 0)) (o locs bad) (act locs bad) fin s1

/-- An AMO at an effective address (R173, R174). -/
def amoAt (op : AmoOp) (d b : Reg) (w32 u : Bool) (ea : Word) (len : Nat) (s : State) : Outc :=
  let x := getS s b
  atomicAt w32 ea s (amoFin d len) (fun l p => .amo op w32 u l x p) (fun l p => amoAct op w32 u l x p)

/-- A CAS at an effective address (R175). -/
def casAt (d b : Reg) (w32 u : Bool) (ea : Word) (len : Nat) (s : State) : Outc :=
  let x := getS s d
  let y := getS s b
  atomicAt w32 ea s (amoFin d len) (fun l p => .cas w32 u l x y p) (fun l p => casAct w32 u l x y p)

/-! ## Barriers (R178 to R183) -/

/-- The core and number that a barrier handle names, or the cause of its trap (R178). -/
def barrierOf (s : State) (h : Word) : Except (BitVec 8) (Core × Nat) :=
  let x := h.toNat
  let c := getCore s (coreNear s.ag.place (x / 2 ^ 22))
  if x / 2 ^ 48 ≠ 0xFE ∨ x / 2 ^ 32 % 2 ^ 16 ≠ 0 ∨ x / 2 ^ 8 % 2 ^ 14 ≠ 0 ∨ !isComputeCore c.id ∨ c.ctx ≠ some s.ag.ctx
  then .error cBounds
  else if x % 256 ≥ c.kd.barriers then .error cBarrierBad
  else .ok (c, x % 256)

/-- The barrier word. -/
def getBar (c : Core) (n : Nat) : Barrier := alGet ⟨0, 0, 0⟩ c.bars n
/-- Set a barrier word. -/
def setBar (n : Nat) (b : Barrier) (c : Core) : Core := { c with bars := alSet ⟨0, 0, 0⟩ c.bars n b }

/-- Wake waiters: each gets a message with its value (R184). -/
def wakeAll (core : CoreId) (ws : List Waiter) (v : Word) : State → State :=
  ws.foldl (fun (f : State → State) w => fun s =>
    let s1 := f s
    match findAgent s1 w.aid with
    | some a => send core a.place a.ctx (.waiter w.aid v) s1
    | none => s1) id

/-- A BARW waiter on barrier n. -/
def isBarWaiter (n : Nat) (w : Waiter) : Bool := w.isBar && w.at_ == n

/-- An arrival of n at a barrier (R180): none where it is refused. -/
def arrive (core : CoreId) (num n : Nat) (s : State) : Option (State × BitVec 16) :=
  let c := getCore s core
  let b := getBar c num
  let k := b.count.toNat + n
  if b.expect.toNat = 0 ∨ k > b.expect.toNat ∨ 2 ^ 24 ≤ n then none
  else if k < b.expect.toNat then
    some (setCore (setBar num { b with count := BitVec.ofNat 24 k } c) s, b.phase)
  else
    let c1 := setBar num { b with phase := b.phase + 1, count := 0 } c
    let s1 := setCore { c1 with waiters := c1.waiters.filter (fun w => !isBarWaiter num w) } s
    some (wakeAll core (c.waiters.filter (isBarWaiter num)) 0 s1, b.phase)

/-- The value that a wake has handed the current agent (R184). -/
def wokenValue (s : State) : Option Word :=
  match s.ag.run with
  | .blocked (.woken _ v) => v
  | _ => none

/-- The current agent enters the wait table of 64 of a core, or is refused and repeats its request (R184). -/
def enterTable (core : CoreId) (w : Waiter) (s : State) : State × Option OpAnswer :=
  let c := getCore s core
  if c.waiters.length < 64 then (blockOn (.woken w.counts none) (setCore { c with waiters := c.waiters ++ [w] } s), none)
  else (setCore { c with refused := c.refused ++ [w] } s, some .tableFull)

/-- BARA at the core of its barrier (R182). -/
def baraAct (core : CoreId) (n k : Nat) (h : Word) (s : State) : State × Option OpAnswer :=
  match arrive core n k s with
  | none => (s, some (.trapped cBarrierBad h))
  | some (s1, ph) => (s1, some (answer (ph.setWidth 64)))

/-- BARW at the core of its barrier (R183): it completes, or enters the wait table. -/
def barwAct (core : CoreId) (n : Nat) (phase : BitVec 16) (s : State) : State × Option OpAnswer :=
  if (getBar (getCore s core) n).phase ≠ phase then (s, some (answer 0))
  else enterTable core ⟨s.ag.aid, n, true, false, core != s.ag.place⟩ s

/-! ## Future words (R71, R185, R186) -/

/-- The future word at an address: its core and location, else BOUNDS. DESIGN CHOICE (log 19): R185 does not say what an address of
the skewed view does whose byte is not the first of a word; the model traps BOUNDS. -/
def futureOf (s : State) (ea : Word) : Option (Core × Nat) :=
  if ea.toNat / 2 ^ 48 ≠ 0xFE then none
  else match windowLoc s s.ag.ctx ea.toNat [] with
  | .error _ => none
  | .ok l =>
    let c := getCore s (coreOfLoc l)
    if inFutures c.kd (sliceOff l) && sliceOff l % 8 == 0 then some (c, l) else none

/-- The checks of WAITF and FILL (R185). -/
def withFuture (ea : Word) (s : State) (k : Core → Nat → Outc) : Outc :=
  if ea.toNat % 8 ≠ 0 then trap cMisaligned ea s
  else match futureOf s ea with
  | none => trap cBounds ea s
  | some (c, l) => k c l

/-- Set or clear the full/empty bit of a word. -/
def setFull (o : Nat) (full : Bool) (c : Core) : Core :=
  { c with full := if full then o :: c.full.filter (· != o) else c.full.filter (· != o) }

/-- The refresh that ends a WAITF or BARW (R177, R364). -/
def acquired (sc : Scope) (s : State) : State :=
  let s1 := refresh sc s
  { s1 with ag := { s1.ag with waitAt := none } }

/-- WAITF completes with a value: it is written and the snapshot is refreshed (R185). -/
def waitfDone (d : Reg) (v : Word) (sc : Scope) (s : State) : Outc := .next (advance 4 (acquired sc (setS d v s)))

/-- WAITF at the core of its future word (R185): a full word is taken, else the agent enters the wait table. -/
def waitfAct (l : Nat) (e : Bool) (s : State) : State × Option OpAnswer :=
  let core := coreOfLoc l
  if (getCore s core).full.contains (sliceOff l) then
    (if e then onCore core (setFull (sliceOff l) false) s else s, some (answer (memWord s.mem l)))
  else enterTable core ⟨s.ag.aid, sliceOff l, false, e, core != s.ag.place⟩ s

/-- A WAITF waiter of the word at offset o. -/
def isWordWaiter (o : Nat) (empty : Bool) (w : Waiter) : Bool := !w.isBar && w.at_ == o && w.empty == empty

/-- The sideband effect of a fill (R186): the word's bit, and the waiters woken. -/
def fillState (core : CoreId) (l : Nat) (v : Word) (s : State) : State :=
  let o := sliceOff l
  let c := getCore s core
  let all := c.waiters.filter (isWordWaiter o false)
  let first := (c.waiters.filter (isWordWaiter o true)).take 1
  let c1 := { setFull o first.isEmpty c with
    waiters := c.waiters.filter fun w => !isWordWaiter o false w && !first.contains w }
  wakeAll core (all ++ first) v (setCore c1 s)

/-- The immediate operation of FILL (R186): the word, its bit and the waiters woken. -/
def fillWord (core : CoreId) (l : Nat) (v : Word) (s : State) : State :=
  fillState core l v (immediateWrite (withBytes ((List.range 8).map (l + ·)) v.toNat) [] s)

/-- FILL at the core of its future word (R186): it answers with the old full bit. -/
def fillAct (l : Nat) (v : Word) (s : State) : State × Option OpAnswer :=
  let core := coreOfLoc l
  let old : Word := if (getCore s core).full.contains (sliceOff l) then 1 else 0
  (fillWord core l v s, some (answer old))

/-! ## Queue registers (R78 to R80) -/

/-- A queue register. -/
def getQ (c : Core) (q : Nat) : QReg := c.q.toList.getD q ⟨[], none⟩
/-- Set a queue register. -/
def setQ (q : Nat) (x : QReg) (c : Core) : Core := { c with q := c.q.setIfInBounds q x }
/-- Set a queue register of the current core. -/
def putQ (q : Nat) (x : QReg) (s : State) : State := { s with core := setQ q x s.core }
/-- Strips of a stream (R79). -/
def streamTotal (x : Stream) : Nat := x.count1 * x.count2 * x.count3

/-- The order in which the agent blocked in a wait, if it is blocked in it. -/
def waitOrder (w : Wait) (read : Bool) (q : Nat) : Option Nat :=
  match w with
  | .queueEntry p n => if read ∧ p = q then some n else none
  | .queueRoom p n => if !read ∧ p = q then some n else none
  | _ => none

/-- The order number of an agent that blocks, or has blocked, at queue q. -/
def orderOf (s : State) (a : Agent) (read : Bool) (q : Nat) : Nat :=
  match a.run with
  | .blocked w => (waitOrder w read q).getD s.draws
  | _ => s.draws

/-- An agent of the core has blocked at queue q before the current one (R78). -/
def servedLater (s : State) (read : Bool) (q : Nat) : Bool :=
  s.agents.any fun a => a.place == s.ag.place && match a.run with
    | .blocked w => match waitOrder w read q with
      | some n => !(s.moves.any fun m => m.aid == a.aid && m.captured) && n < orderOf s s.ag read q
      | none => false
    | _ => false

/-- A field of 64 bits of a descriptor. -/
def word64 (b : Block) (i : Nat) : Word := BitVec.ofNat 64 (lane 64 i b)

/-- The stream that a descriptor describes (R79). -/
def streamOf (b : Block) : Stream where
  base := word64 b 0
  count1 := (word64 b 1).toNat
  count2 := (word64 b 2).toNat
  count3 := (word64 b 3).toNat
  stride1 := word64 b 4
  stride2 := word64 b 5
  stride3 := word64 b 6
  next := 0
  parked := false

/-- The address of a strip (R79). -/
def stripAddr (x : Stream) (i : Nat) : Word :=
  x.base + BitVec.ofNat 64 (i % x.count1) * x.stride1 + BitVec.ofNat 64 (i / x.count1 % x.count2) * x.stride2 +
    BitVec.ofNat 64 (i / x.count1 / x.count2) * x.stride3

/-- After a pop: a stream whose last strip has been popped ends (R79). -/
def popped (es : List QEntry) (x : QReg) : QReg :=
  match x.stream with
  | none => ⟨es, none⟩
  | some st => if es.isEmpty && st.next ≥ streamTotal st then ⟨[], none⟩ else ⟨es, some st⟩

/-- A blocked writer that a flush releases: its QPUT completes without appending (R188); one that is still on its way to the core
is none of its writers (R187, R249). -/
def releaseWriter (core : CoreId) (q : Nat) (moves : List Move) (a : Agent) : Agent :=
  if a.place = core ∧ !(moves.any fun m => m.aid == a.aid && m.captured) then
    match a.run with
    | .blocked (.queueRoom p _) => if p = q then { a with run := .running, inhand := none, pc := a.pc + 4 } else a
    | _ => a
  else a

/-! ## The instructions -/

/-- R170 -/
def execLd (d a : Reg) (sz : LdSz) (off : BitVec 11) (s : State) : Outc :=
  checked [.s d, .s a] s <| loadScalar d sz (ea11 s a off) 4 s
/-- R170 -/
def execSt (d a : Reg) (sz : StSz) (off : BitVec 11) (s : State) : Outc :=
  checked [.s d, .s a] s <| storeScalar d sz (ea11 s a off) 4 s
/-- R226 -/
def execLdl (d a : Reg) (sz : LdSz) (off : BitVec 32) (s : State) : Outc :=
  checked [.s d, .s a] s <| loadScalar d sz (ea32 s a off) 8 s
/-- R226 -/
def execStl (d a : Reg) (sz : StSz) (off : BitVec 32) (s : State) : Outc :=
  checked [.s d, .s a] s <| storeScalar d sz (ea32 s a off) 8 s
/-- R171 -/
def execLdt (d a : Reg) (off : BitVec 11) (s : State) : Outc :=
  checked [.s d, .s a] s <|
    let ea := ea11 s a off
    aligned s 64 [(ea, 64)] <| reading s true [] [(ea, 64)] fun ls =>
      .next (advance 4 (setS d ((agTagOf s (ls.headD [])).setWidth 64) s))
/-- R171 -/
def execStt (d a : Reg) (off : BitVec 11) (s : State) : Outc :=
  checked [.s d, .s a] s <|
    let ea := ea11 s a off
    aligned s 64 [(ea, 64)] <| storing s false .write [(ea, 64)] fun ls s' =>
      .next (advance 4 (postStore [] [(blockOf ((ls.headD []).headD 0), (getS s d).setWidth 16)] s'))
/-- R172 -/
def execPref (a : Reg) (_ : BitVec 11) (s : State) : Outc := checked [.s a] s <| .next (advance 4 s)
/-- R173 -/
def execAmo (d a b : Reg) (w u : Bool) (op : AmoOp) (s : State) : Outc :=
  checked [.s d, .s a, .s b] s <| amoAt op d b w u (getS s a) 4 s
/-- R175 -/
def execCas (d a b : Reg) (w u : Bool) (s : State) : Outc :=
  checked [.s d, .s a, .s b] s <| casAt d b w u (getS s a) 4 s
/-- R226 -/
def execAmol (d a b : Reg) (w u : Bool) (op : AmoOp) (off : BitVec 32) (s : State) : Outc :=
  checked [.s d, .s a, .s b] s <| amoAt op d b w u (ea32 s a off) 8 s
/-- R226 -/
def execCasl (d a b : Reg) (w u : Bool) (off : BitVec 32) (s : State) : Outc :=
  checked [.s d, .s a, .s b] s <| casAt d b w u (ea32 s a off) 8 s
/-- R227 -/
def execLdpair (d a b : Reg) (off : BitVec 32) (s : State) : Outc :=
  checked [.s d, .s a, .s b] s <|
    let ea := ea32 s a off
    let own := fun (k : Outc) => if d = b ∧ d ≠ 0 then trap cIllegalOp (word0 (.ldpair d a b off)) s else k
    aligned s 16 [(ea, 16)] <| readingOn none own s false (leasedOverflow s) [(ea, 16)] fun ls =>
        let xs := ls.headD []
        let x := agNat s xs
        .next (advance 8 (setS b (BitVec.ofNat 64 (x / 2 ^ 64)) (setS d (BitVec.ofNat 64 x)
          (orStatus (stickyIf (anyPoison s xs) stPSN) s))))
/-- R227 -/
def execStpair (d a b : Reg) (off : BitVec 32) (s : State) : Outc :=
  checked [.s d, .s a, .s b] s <|
    let ea := ea32 s a off
    aligned s 16 [(ea, 16)] <| storing s false .write [(ea, 16)] fun ls s' =>
      .next (advance 8 (postStore (withBytes (ls.headD []) ((getS s d).toNat + (getS s b).toNat * 2 ^ 64)) [] s'))
/-- R176 -/
def execFence (sc : Scope) (s : State) : Outc :=
  match sc with
  | .agent => .next (advance 4 s)
  | .core => if ownWaits s then .next (blockOn .order s) else .next (advance 4 (drainAll s))
  | _ => if quiet s then .next (advance 4 (drainAll s)) else .next (blockOn .quiet s)
/-- R177 -/
def execPhase (sc : Scope) (s : State) : Outc :=
  legal (.phase sc) s <| publishing sc s fun s1 =>
    let s2 := refresh sc s1
    .next (advance 4 { s2 with ag := { s2.ag with phasen := s2.ag.phasen + 1 } })
/-- R181 -/
def execBari (a b : Reg) (s : State) : Outc :=
  checked [.s a, .s b] s <|
    match barrierOf s (getS s a) with
    | .error e => trap e (getS s a) s
    | .ok (c, n) =>
      if c.id ≠ s.ag.place ∨ 2 ^ 24 ≤ (getS s b).toNat ∨ c.waiters.any (isBarWaiter n) then
        trap cBarrierBad (getS s a) s
      else
        .next (advance 4 (setCore (setBar n ⟨(getBar c n).phase, (getS s b).setWidth 24, 0⟩ c) s))
/-- R182 -/
def execBara (d a b : Reg) (sc : Scope) (s : State) : Outc :=
  let fin := fun (x : OpData) (s : State) => .next (advance 4 (setS d x.value s))
  legal (.bara d a b sc) s <| checked [.s d, .s a, .s b] s <| completing fin s <|
    match barrierOf s (getS s a) with
    | .error e => trap e (getS s a) s
    | .ok (c, n) =>
      let k := (getS s b).toNat
      if k = 0 ∨ 2 ^ 24 ≤ k then trap cBarrierBad (getS s a) s
      else publishing sc s fun s1 => atParty c.id (.bara c.id n k (getS s a)) (baraAct c.id n k (getS s a)) fin s1
/-- R183 -/
def execBarw (a b : Reg) (sc : Scope) (s : State) : Outc :=
  let fin := fun (_ : OpData) (s : State) => .next (advance 4 (acquired sc s))
  legal (.barw a b sc) s <| checked [.s a, .s b] s <| completing fin s <|
    if (wokenValue s).isSome then .next (advance 4 (acquired sc s))
    else match barrierOf s (getS s a) with
    | .error e => trap e (getS s a) s
    | .ok (c, n) =>
      let phase := (getS s b).setWidth 16
      atParty c.id (.barw c.id n phase) (barwAct c.id n phase) fin s
/-- R185 -/
def execWaitf (d a : Reg) (e : Bool) (sc : Scope) (s : State) : Outc :=
  let fin := fun (x : OpData) (s : State) => waitfDone d x.value sc s
  legal (.waitf d a e sc) s <| checked [.s d, .s a] s <| completing fin s <|
    match wokenValue s with
    | some v => waitfDone d v sc s
    | none => withFuture (getS s a) s fun c l =>
      settling ((List.range 8).map (l + ·)) s fun s1 => atParty c.id (.waitf l e) (waitfAct l e) fin s1
/-- R186 -/
def execFill (d a b : Reg) (sc : Scope) (s : State) : Outc :=
  let fin := fun (x : OpData) (s : State) => .next (advance 4 (setS d x.value s))
  legal (.fill d a b sc) s <| checked [.s d, .s a, .s b] s <| completing fin s <|
    withFuture (getS s a) s fun c l => publishing sc s fun s1 =>
      let v := getS s b
      atParty c.id (.fill l v) (fillAct l v) fin s1
/-- R187 -/
def execQput (q a : Reg) (s : State) : Outc :=
  checked [.q q, .v a] s <|
    let x := getQ s.core q.toNat
    if x.stream.isSome then trap cQueueBad (q.setWidth 64) s
    else if 4 ≤ x.entries.length || servedLater s false q.toNat then
      .next (blockOn (.queueRoom q.toNat (orderOf s s.ag false q.toNat)) s)
    else
      .next (advance 4 (putQ q.toNat { x with entries := x.entries ++ [.data (getV s a) (getVT s a)] } s))
/-- R187, R80 -/
def execQget (d q : Reg) (s : State) : Outc :=
  checked [.v d, .q q] s <|
    let x := getQ s.core q.toNat
    if servedLater s true q.toNat then .next (blockOn (.queueEntry q.toNat (orderOf s s.ag true q.toNat)) s)
    else match x.entries with
    | [] => .next (blockOn (.queueEntry q.toNat (orderOf s s.ag true q.toNat)) s)
    | .coming _ :: _ => .next (blockOn (.queueEntry q.toNat (orderOf s s.ag true q.toNat)) s)
    | .data b t :: es => .next (advance 4 (setV d b t (putQ q.toNat (popped es x) s)))
    | .failed c addr :: _ => trap c addr (putQ q.toNat ⟨[], none⟩ s)
/-- R188, R79, R80 -/
def execQstream (q b : Reg) (s : State) : Outc :=
  checked [.q q, .v b] s <|
    let x := getV s b
    let st := streamOf x
    match [st.base, st.stride1, st.stride2, st.stride3].find? (fun w => w.toNat % 64 != 0) with
    | some w => trap cMisaligned w s
    | none =>
      if st.count1 > 65536 ∨ st.count2 > 65536 ∨ st.count3 > 65536 ∨ word64 x 7 ≠ 0 ∨
          (getQ s.core q.toNat).stream.isSome ∨ !(getQ s.core q.toNat).entries.isEmpty then
        trap cQueueBad (q.setWidth 64) s
      else
        storesFirst s fun s1 =>
        .next (advance 4 (putQ q.toNat ⟨[], if streamTotal st = 0 then none else some st⟩ s1))
/-- The accesses that a test picks are given up: an answer to one, when it comes, finds no queue register (R188). -/
def dropWho (core : CoreId) (f : Parked → Bool) (w : Parked) : Parked := if f w then .strip core 8 else w

/-- Such an access or answer on its way. -/
def dropBody (core : CoreId) (f : Parked → Bool) : Body → Body
  | .fault a => .fault { a with who := dropWho core f a.who }
  | .mapped x => .mapped { x with who := dropWho core f x.who }
  | b => b

/-- What waits on a teff core for a core is given up where a test picks it. -/
def dropAccesses (core : CoreId) (f : Parked → Bool) (s : State) : State :=
  { s with
    teffs := s.teffs.map fun t => { t with parked := t.parked.map fun a => { a with who := dropWho core f a.who } }
    net := s.net.map fun m => { m with body := dropBody core f m.body } }

/-- The strip fetch of a queue register of a core that waits on a teff core is abandoned (R188). -/
def dropFetch (core : CoreId) (q : Nat) (s : State) : State := dropAccesses core (· == .strip core q) s

/-- R188 -/
def execQflush (q : Reg) (s : State) : Outc :=
  checked [.q q] s <|
    let s1 := dropFetch s.ag.place q.toNat s
    .next (advance 4 { s1 with
      core := setQ q.toNat ⟨[], none⟩ s1.core
      agents := s1.agents.map (releaseWriter s.ag.place q.toNat s1.moves) })

end Sys2Proof.Machine
end

