-- ==== Sys2Proof/Machine/Net.lean ====
section
/-! DEFINITION. Nodes, ports, links and pushes (R17 to R27, R192 to R197, R309 to R316, R427), and the share counts of tile
buffers (R201, R320). -/

namespace Sys2Proof.Machine

/-! ## Node records and port words (R17 to R20) -/

/-- KIND of a header (R18). -/
def hdrKind (h : Word) : Nat := h.toNat / 2 ^ 48
/-- ARITY of a header. -/
def hdrArity (h : Word) : Nat := h.toNat / 2 ^ 46 % 4
/-- PTYPE of a header. -/
def hdrPtype (h : Word) : Nat := h.toNat / 2 ^ 44 % 4
/-- DEAD of a header. -/
def hdrDead (h : Word) : Bool := h.getLsbD 43
/-- LABEL of a header. -/
def hdrLabel (h : Word) : Nat := h.toNat / 2 ^ 32 % 256

/-- Arity and payload type of a built-in kind (R20). -/
def builtinShape : Nat → Nat × Nat
  | 0 => (0, 0)
  | 1 => (2, 0)
  | 2 => (2, 0)
  | 3 => (0, 1)
  | 4 => (0, 2)
  | _ => (1, 0)

/-- A header breaks R20. -/
def hdrBad (h : Word) : Bool :=
  h.toNat / 2 ^ 40 % 8 != 0 || h.toNat % 2 ^ 32 != 0 || hdrPtype h == 3 ||
    (6 ≤ hdrKind h && hdrKind h < 16) || 1023 < hdrKind h ||
    (hdrKind h < 6 && builtinShape (hdrKind h) != (hdrArity h, hdrPtype h))

/-- STATE of a port word: 0 FREE, 1 WIRE, 2 FWD, 3 HELD (R19). -/
def portState (w : Word) : Nat := w.toNat / 2 ^ 62
/-- The address a port word names (R19). -/
def portPartner (w : Word) : Word := w &&& 0x00FFFFFFFFFFFFF8
/-- A reserved bit of a port word is set (R19). -/
def portBad (w : Word) : Bool := w &&& 0x3F00000000000007 != 0
/-- A port word of a state and a partner. -/
def portWord (st : Nat) (x : Word) : Word := BitVec.ofNat 64 (st * 2 ^ 62) ||| portPartner x
/-- WIRE(x) -/
def wireTo (x : Word) : Word := portWord 1 x
/-- FWD(x) -/
def fwdTo (x : Word) : Word := portWord 2 x
/-- HELD, naming x -/
def heldBy (x : Word) : Word := portWord 3 x

/-- The node of a port, or of any byte of a record. -/
def nodeOf (p : Word) : Word := BitVec.ofNat 64 (p.toNat / 64 * 64)
/-- The port is a principal port. -/
def isPrincipal (p : Word) : Bool := p.toNat % 64 == 24
/-- Auxiliary port i of a node, i from 1; port 0 is the principal. -/
def portAt (n : Word) (i : Nat) : Word := n + BitVec.ofNat 64 (24 + 8 * i)

/-- The location of a node address as a core of its kernel reaches it (R193). -/
def netLoc (s : State) (e : CoreId) (a : Word) : Option Nat :=
  match (getCore s e).ctx with
  | none => none
  | some n => nodeLoc s (getCore s e) n a

/-- The word at an address of the net; 0 where nothing is mapped. -/
def netGet (s : State) (e : CoreId) (a : Word) : Word :=
  match netLoc s e a with
  | some l => memWord s.mem l
  | none => 0

/-- Write a word of the net. -/
def netPut (e : CoreId) (a x : Word) (s : State) : State :=
  match netLoc s e a with
  | some l => netWord l x s
  | none => s

/-- Write words of the net in order. -/
def netPuts (e : CoreId) : List (Word × Word) → State → State
  | [], s => s
  | p :: ps, s => netPuts e ps (netPut e p.1 p.2 s)

/-- The header of a port's node. -/
def hdrOf (s : State) (e : CoreId) (p : Word) : Word := netGet s e (nodeOf p)
/-- The node of a port is DEAD. -/
def deadAt (s : State) (e : CoreId) (p : Word) : Bool := hdrDead (hdrOf s e p)

/-- The node at an address is malformed (R20): its header or one of its port words. A node that no location holds
counts as malformed. -/
def nodeBad (s : State) (e : CoreId) (n : Word) : Bool :=
  (netLoc s e n).isNone || hdrBad (netGet s e n) || (List.range 4).any fun i => portBad (netGet s e (portAt n i))

/-! ## Homes and placement (R23, R309) -/

/-- The interleave home of an HBM location, in the context of a core (R23). -/
def interleave (e : CoreId) (pa : Nat) : CoreId :=
  let k := pa / 2 ^ 36
  coreNear e <| coreName <| coreId (k / 3) (k % 3 + (if pa / 2 ^ 16 % 2 = 1 then 3 else 0)) (pa / 2 ^ 12 % 16)

/-- The core of a location: a slice's owner, or the interleave home. -/
def coreOf (e : CoreId) (l : Nat) : CoreId := if isSliceLoc l then coreOfLoc l else interleave e l

/-- The home of a port or node, and its placement core. -/
def homeCore (s : State) (e : CoreId) (a : Word) : Option CoreId := (netLoc s e a).map (coreOf e)

/-- The lower of two addresses. -/
def lower (a b : Word) : Word := if b.toNat < a.toNat then b else a
/-- The higher of two addresses. -/
def higher (a b : Word) : Word := if b.toNat < a.toNat then a else b

/-- Two cores host groups of one instance. -/
def sameKernel (s : State) (a b : CoreId) : Bool :=
  (getCore s a).ctx.isSome && (getCore s a).ctx == (getCore s b).ctx && (getCore s a).inst == (getCore s b).inst

/-- The name of a wire's lock when port f is in state FWD: the lower of a relay pair, else f (R309). -/
def fwdLock (s : State) (e : CoreId) (f : Word) : Word :=
  let m := portPartner (netGet s e f)
  if portState (netGet s e m) = 2 ∧ portPartner (netGet s e m) = f then lower f m else f

/-- lock_of(p, x) (R309). -/
def lockOf (s : State) (e : CoreId) (p x : Word) : Word :=
  if portState (netGet s e x) = 2 then fwdLock s e x
  else if portState (netGet s e p) = 2 then fwdLock s e p
  else lower p x

/-! ## Ends and connections (R195, R427) -/

/-- An end of a path: a live port or a slot, whether it was reached through a FWD port, and the ports that the connection
makes FREE. -/
structure NetEnd where
  live : Bool
  port : Word
  via : Bool
  frees : List Word
  deriving DecidableEq, Repr

/-- end_of(x, p): the table of R427, step 2; none where the net is not well formed. -/
def endOf (s : State) (e : CoreId) (x p : Word) : Option NetEnd :=
  let w := netGet s e x
  let m := portPartner w
  if !deadAt s e x then
    if w = wireTo p then some ⟨true, x, false, [p]⟩ else none
  else if w = wireTo p then some ⟨false, p, false, []⟩
  else if portState w = 2 ∧ w = fwdTo m then
    if !deadAt s e m then some ⟨true, m, true, [p, x]⟩
    else if m = p ∨ netGet s e m = wireTo x then some ⟨false, x, true, [p]⟩
    else if netGet s e m = fwdTo x then some ⟨false, m, true, [p, x]⟩
    else none
  else none

/-- Two ports name each other as FWD: a relay pair (R427). -/
def relayPair (s : State) (e : CoreId) (a b : Word) : Bool :=
  netGet s e a == fwdTo b && netGet s e b == fwdTo a

/-- The writes of a connection (R427, step 3), after the ports its ends name have become FREE. -/
def connection (s : State) (e : CoreId) (u v : NetEnd) : List (Word × Word) :=
  let free := (u.frees ++ v.frees).map fun p => (p, (0 : Word))
  match u.live, v.live with
  | true, true => free ++ [(u.port, wireTo v.port), (v.port, wireTo u.port)]
  | true, false =>
    free ++ [(v.port, fwdTo u.port)] ++
      (if portState (netGet s e u.port) = 0 then [] else [(u.port, wireTo v.port)])
  | false, true =>
    free ++ [(u.port, fwdTo v.port)] ++
      (if portState (netGet s e v.port) = 0 then [] else [(v.port, wireTo u.port)])
  | false, false =>
    if u.port = v.port ∨ relayPair s e u.port v.port then free ++ [(u.port, 0), (v.port, 0)]
    else free ++ [(u.port, fwdTo v.port), (v.port, fwdTo u.port)]

/-! ## Arenas (R192 to R194) -/

/-- A record of a node arena: in a core's slice, or in the kernel's HBM node arena. -/
inductive ArenaRec
  | slice (c : CoreId) (i : Nat)
  | hbm (i : Nat)
  deriving DecidableEq, Repr

/-- The arena record whose first byte an address is. -/
def recordOf (s : State) (e : CoreId) (n : Word) : Option ArenaRec :=
  let k := (getCore s e).kd
  match netLoc s e n with
  | none => none
  | some l =>
    if isSliceLoc l then
      let c := getCore s (coreOfLoc l)
      let o := sliceOff l
      if arenaBase c.kd ≤ o ∧ o < accEnd c.kd ∧ (o - arenaBase c.kd) % 64 = 0
        then some (.slice c.id ((o - arenaBase c.kd) / 64)) else none
    else
      let h := k.harena.toNat
      if h ≤ n.toNat ∧ n.toNat < h + 64 * k.hrecs ∧ (n.toNat - h) % 64 = 0 then some (.hbm ((n.toNat - h) / 64)) else none

/-- The instance that a core hosts. -/
def instOf (s : State) (e : CoreId) : Option Inst :=
  match (getCore s e).ctx with
  | none => none
  | some n => findInst s n (getCore s e).inst

/-- The HBM node arena of the kernel that a core hosts (R193). -/
def arenaOf (s : State) (e : CoreId) : HArena :=
  let base := (getCore s e).kd.harena
  (((getCore s e).ctx.bind (findCtx s)).bind fun x => x.harenas.find? fun h => h.base == base).getD ⟨base, [], []⟩

/-- Store an arena among those of a context. -/
def putArena (h : HArena) (x : Ctx) : Ctx := { x with harenas := h :: x.harenas.filter fun y => y.base != h.base }

/-- Change the HBM node arena of the kernel that a core hosts. -/
def onArena (e : CoreId) (f : HArena → HArena) (s : State) : State :=
  match (getCore s e).ctx with
  | none => s
  | some n => onCtx n (putArena (f (arenaOf s e))) s

/-- The allocation bit of a record is set. -/
def isAllocated (s : State) (e : CoreId) (r : ArenaRec) : Bool :=
  match r with
  | .slice c i => (getCore s c).arena.contains i
  | .hbm i => (arenaOf s e).used.contains i

/-- The record is release-pending. -/
def isPending (s : State) (e : CoreId) (r : ArenaRec) : Bool :=
  match r with
  | .slice c i => (getCore s c).relpend.contains i
  | .hbm i => (arenaOf s e).pend.contains i

/-- Set a record's allocation bit. -/
def allocate (e : CoreId) (r : ArenaRec) (s : State) : State :=
  match r with
  | .slice c i => onCore c (fun x => { x with arena := i :: x.arena }) s
  | .hbm i => onArena e (fun x => { x with used := i :: x.used }) s

/-- The address of a record. -/
def recordAddr (s : State) (e : CoreId) (r : ArenaRec) : Word :=
  match r with
  | .slice c i => BitVec.ofNat 64 (winBase c + arenaBase (getCore s c).kd + 64 * i)
  | .hbm i => (getCore s e).kd.harena + BitVec.ofNat 64 (64 * i)

/-- No handler of a context still counts the node at an address among its new ones (R316). -/
def dropYoung (ctx : Option Nat) (a : Nat) (s : State) : State :=
  let f := fun (g : Agent) => if some g.ctx = ctx then { g with young := g.young.filter (· != a) } else g
  { s with ag := f s.ag, agents := s.agents.map f }

/-- A record returns to its arena. -/
def release (e : CoreId) (r : ArenaRec) (s : State) : State :=
  let s1 := dropYoung (getCore s e).ctx (recordAddr s e r).toNat s
  match r with
  | .slice c i =>
    onCore c (fun x => { x with arena := x.arena.filter (· != i), relpend := x.relpend.filter (· != i) }) s1
  | .hbm i => onArena e (fun x => { x with used := x.used.filter (· != i), pend := x.pend.filter (· != i) }) s1

/-- A record becomes release-pending. -/
def pendRelease (e : CoreId) (r : ArenaRec) (s : State) : State :=
  match r with
  | .slice c i => onCore c (fun x => { x with relpend := i :: x.relpend }) s
  | .hbm i => onArena e (fun x => { x with pend := i :: x.pend }) s

/-- Some port of a node is in a state. -/
def somePort (s : State) (e : CoreId) (n : Word) (st : Nat) : Bool :=
  (List.range (hdrArity (netGet s e n) + 1)).any fun i => portState (netGet s e (portAt n i)) == st

/-- A release-pending record whose FWD ports have all cleared returns (R194). -/
def settleRelease (e : CoreId) (p : Word) (s : State) : State :=
  match recordOf s e (nodeOf p) with
  | none => s
  | some r => if isPending s e r && !somePort s e (nodeOf p) 2 then release e r s else s

/-- settleRelease for the nodes of several ports. -/
def settleReleases (e : CoreId) : List Word → State → State
  | [], s => s
  | p :: ps, s => settleReleases e ps (settleRelease e p s)

/-- The write of a connection, and the records that it completes. -/
def connect (e : CoreId) (u v : NetEnd) (s : State) : State :=
  let w := connection s e u v
  settleReleases e (w.map (·.1)) (netPuts e w s)

/-- FREE at a node's home (R194); none where it is refused. -/
def freeNode (e : CoreId) (n : Word) (s : State) : Option State :=
  match recordOf s e n with
  | none => none
  | some r =>
    if !isAllocated s e r || isPending s e r || !hdrDead (netGet s e n) || somePort s e n 1 then none
    else if somePort s e n 2 then some (pendRelease e r s)
    else some (release e r s)

/-- The bytes that NEW leaves in a record (R192): the header, seven zero words but for the generation, which rises by 1. -/
def freshNode (h gen : Word) : Nat := h.toNat + (gen + 1).toNat * 2 ^ 448

/-- Free records of a core's own node arena, lowest first. -/
def freeRecords (c : Core) : List Nat := (List.range c.kd.arena).filter fun i => !c.arena.contains i

/-- A record as NEW allocates it for a party that is not an agent: its address, or none. -/
def newNode (c : CoreId) (h : Word) (s : State) : Option (Word × State) :=
  let l := freeRecords (getCore s c)
  match l[Config.choose s.draws % l.length]? with
  | none => none
  | some i =>
    let a := recordAddr s c (.slice c i)
    let s1 := allocate c (.slice c i) s
    let loc := sliceBase c + arenaBase (getCore s c).kd + 64 * i
    some (a, { s1 with mem := memSetNat s1.mem loc 64 (freshNode h (memWord s1.mem (loc + 56))) })

/-! ## Pushes (R22, R25, R27, R198, R199, R315) -/

/-- A handler has made all the pushes that its FANOUT allows (R27). -/
def fanoutFull (s : State) : Bool :=
  match s.ag.hrec with
  | some r => r.fanout ≤ r.pushes
  | none => false

/-- Count one push of a handler (R27). -/
def countPush (a : Agent) : Agent := { a with hrec := a.hrec.map fun r => { r with pushes := r.pushes + 1 } }

/-- A record leaves for a queue: it counts in OUTREQ until it is admitted, and against FANOUT; one that leaves its core has
a request number, which a refusal carries (R27, R199, R238). Where none is given, the number is open (log 15). -/
def sendPush (src dst : CoreId) (numbered : Bool) (r : PushRec) (s : State) : State :=
  let seq := if numbered then s.ag.reqseq else (openA s).setWidth 24
  let s1 := { s with ag := countPush { s.ag with
    outreq := s.ag.outreq + 1
    reqseq := if numbered then s.ag.reqseq + 1 else s.ag.reqseq } }
  send src dst s.ag.ctx (.push { r with seq := seq }) s1

/-- The rule of a pair of kinds, or none (R25). -/
def ruleFor (k : KDesc) (a b : Nat) : Option Nat :=
  (List.range k.rules.length).find? fun i =>
    match k.rules[i]? with
    | none => false
    | some r => r.2.toNat / 2 ^ 38 % 1024 == max a b && r.2.toNat / 2 ^ 28 % 1024 == min a b

/-- OP of a rule (R26). -/
def ruleOp (k : KDesc) (i : Nat) : Nat :=
  match k.rules[i]? with
  | some r => r.2.toNat / 2 ^ 20 % 16
  | none => 0
/-- FANOUT of a rule (R26). -/
def ruleFanout (k : KDesc) (i : Nat) : Nat :=
  match k.rules[i]? with
  | some r => r.2.toNat / 2 ^ 15 % 8
  | none => 0
/-- Handler address of a rule (R26). -/
def ruleEntry (k : KDesc) (i : Nat) : Word :=
  match k.rules[i]? with
  | some r => r.1
  | none => 0

/-- A pair of kinds that R24 lists; labels of two DUPs never matter, since each case has a row. -/
def builtinPair (a b : Nat) : Bool :=
  a == 0 || b == 0 || a == 5 || b == 5 ||
    (a == 2 && b == 2) || (a == 1 && b == 1) || (a == 1 && b == 2) || (a == 2 && b == 1) ||
    (a == 1 && b == 3) || (a == 3 && b == 1) || (a == 1 && b == 4) || (a == 4 && b == 1)

/-- The record of an active pair (R22). -/
def pairRecord (a b : Word) (topx : Bool) (pusher : Option Nat) (staged : Bool) (target : Word) : PushRec where
  key := lower a b
  payload := 0
  tag := 0x7FC0
  rule := 0
  op := 0
  topx := topx
  nodes := some (lower a b, higher a b)
  missing := false
  builtin := false
  pusher := pusher
  staged := staged
  target := target
  seq := 0
  origin := none
  waited := false

/-- The push of a new active pair by the link unit of a core, for the current agent (R22, R23, R315). -/
def pushPair (link : CoreId) (a b : Word) (dst : CoreId) (s : State) : State :=
  sendPush link dst false
    (pairRecord (nodeOf a) (nodeOf b) s.core.topx (some s.ag.aid) s.ag.hrec.isSome (openA s)) s

/-- The placement core of a new active pair, when it hosts a group of the kernel (R23, R193). -/
def pairCore (s : State) (e : CoreId) (a b : Word) : Option CoreId :=
  match homeCore s e (lower (nodeOf a) (nodeOf b)) with
  | none => none
  | some c => if sameKernel s c e then some c else none

/-! ## Port checks (R196, R197) -/

/-- The port lies at no port of its node, or its word has reserved bits (R196, step 3). -/
def portInvalid (s : State) (e : CoreId) (p : Word) : Bool :=
  let o := p.toNat % 64
  o < 24 || 48 < o || (o - 24) / 8 > hdrArity (hdrOf s e p)

/-- The port that LINK refuses at its step 3, in the order of R196. -/
def linkBad (s : State) (e : CoreId) (n a : Word) : Option Word :=
  if n = a then some n
  else if portInvalid s e n then some n
  else if portInvalid s e a then some a
  else if portBad (netGet s e n) then some n
  else if portBad (netGet s e a) then some a
  else if portState (netGet s e n) ≠ 0 ∨ deadAt s e n then some n
  else if !deadAt s e a ∨ portState (netGet s e a) ≠ 1 then some a
  else none

/-- The port that WIRE refuses (R197). -/
def wireBad (s : State) (e : CoreId) (a b : Word) : Option Word :=
  if a = b then some a
  else ([a, b].find? (portInvalid s e)).or
    (([a, b].find? fun p => portBad (netGet s e p)).or
    (([a, b].find? fun p => portState (netGet s e p) != 0).or
    ([a, b].find? (deadAt s e))))

/-- The first two checks of LINK and WIRE, ports a then b (R196). -/
def portsOk (a b : Word) (s : State) (k : Outc) : Outc :=
  aligned s 8 [(a, 8), (b, 8)] <| access s false .readWrite [] [(a, 8), (b, 8)] fun _ => k

/-- The locations of the node record of a port. -/
def nodeLocs (p : Word) (s : State) : List Nat :=
  match netLoc s s.ag.place (nodeOf p) with
  | some l => (List.range 64).map (l + ·)
  | none => []

/-- The agent's own stores to the nodes of two ports are performed first (R355). -/
def settlingNodes (a b : Word) (s : State) (k : State → Outc) : Outc :=
  settling (nodeLocs a s) s fun s1 => settling (nodeLocs b s1) s1 k

/-- The first of several ports whose page the core's TLB does not hold for a read and write (R193, R301). -/
def portMiss (s : State) (ps : List Word) : Option Word := ps.findSome? fun p => laneMiss s false .readWrite [] (p, 8)

/-- The ports that LINK reaches from sA: the partner, and the port that a FWD partner names (R195, R427). -/
def farPorts (s : State) (e : CoreId) (sa : Word) : List Word :=
  let x := portPartner (netGet s e sa)
  if portState (netGet s e sa) = 1 then x :: (if portState (netGet s e x) = 2 then [portPartner (netGet s e x)] else []) else []

/-- A port of another node whose page misses sends the agent to its teff core (R193, R303). -/
def portsPresent (ps : List Word) (s : State) (k : Outc) : Outc :=
  match portMiss s ps with
  | some va => .next (missOn va va .readWrite s)
  | none => k

/-! ## The link unit (R195, R309) -/

/-- A LINK request reaches the link unit of a core. -/
def queueLink (c : CoreId) (r : LinkReq) (s : State) : State :=
  onCore c (fun x => { x with linkq := x.linkq ++ [r] }) s

/-- A LINK request goes on to another link unit; at the same one it waits again. -/
def passLink (c h : CoreId) (r : LinkReq) (s : State) : State :=
  if c = h then queueLink c r s else sendAs c h s.ag.ctx r.seq (.op r.aid r.key (.link r.sn r.sa)) s

/-- The outcome of a LINK on the end found, for the current agent, at link unit c (R195, R196 step 4): what it answers. -/
def linkOutcome (c : CoreId) (r : LinkReq) (en : NetEnd) (s : State) : State × OpAnswer :=
  let e := s.ag.place
  let code : Nat := if en.live then (if en.via then 1 else 0) else 2
  let both := en.live && isPrincipal r.sn && isPrincipal en.port
  let fresh : NetEnd := ⟨true, r.sn, false, []⟩
  if !both then (connect e fresh en s, answer (BitVec.ofNat 64 code))
  else
    match (if fanoutFull s then none else pairCore s e r.sn en.port) with
    | none => (s, .trapped cQueueBad (openA s))
    | some dst => (pushPair c r.sn en.port dst (connect e fresh en s), answer (BitVec.ofNat 64 (code + 4)))

/-- The answer of a link unit leaves for its agent. -/
def linkAnswer (c : CoreId) (r : LinkReq) (x : State × OpAnswer) : State := answerTo c r.aid r.key r.seq true x.2 x.1

/-- The link unit of a core performs a request of the current agent, or passes it on to the wire's new home. Where a page that
it needs is no longer in the TLB, the agent's LINK begins again, and its teff core decides. -/
def performLink (c : CoreId) (r : LinkReq) (s : State) : State :=
  let e := s.ag.place
  let w := netGet s e r.sa
  let x := portPartner w
  let h := (homeCore s e (lockOf s e r.sa x)).getD c
  if (portMiss s (farPorts s e r.sa)).isSome then linkAnswer c r (s, .guarded 0 0)
  else if portState w ≠ 1 then queueLink c r s
  else if h ≠ c then passLink c h r s
  else match endOf s e x r.sa with
    | none => linkAnswer c r (s, .trapped cLinkBad x)
    | some en => linkAnswer c r (linkOutcome c r en s)

/-! ## The instructions -/

/-- The record that NEW.h takes (R193, step 2): of the own core, then of the kernel's cores; then one whose page is not
mapped yet (DEDUCED, log 16: its home is not known until it is). -/
def hbmRecord (s : State) : Option Nat :=
  let used := (arenaOf s s.ag.place).used
  let free := (List.range s.core.kd.hrecs).filter fun i => !used.contains i
  let home := fun (i : Nat) => homeCore s s.ag.place (recordAddr s s.ag.place (.hbm i))
  (free.find? fun i => home i == some s.ag.place).or
    ((free.find? fun i => match home i with | some c => sameKernel s c s.ag.place | none => false).or
      (free.find? fun i => (home i).isNone))

/-- NEW at the home of its record (R192). -/
def newAct (a : Word) (l : Nat) (h : Word) (s : State) : State × Option OpAnswer :=
  (immediateWrite (withBytes ((List.range 64).map (l + ·)) (freshNode h (memWord s.mem (l + 56)))) [] s, some (answer a))

/-- NEW goes on with the record's address (R192, R316). -/
def newFin (d : Reg) (x : OpData) (s : State) : Outc :=
  .next (advance 4 (setS d x.value { s with ag := { s.ag with young := x.value.toNat :: s.ag.young } }))

/-- NEW takes a record at location l, and acts at its home. -/
def newAt (d : Reg) (h : Word) (r : ArenaRec) (l : Nat) (s : State) : Outc :=
  settling ((List.range 64).map (l + ·)) s fun s1 =>
    let a := recordAddr s1 s1.ag.place r
    atParty (homeName l) (.new a l h) (newAct a l h) (newFin d) (allocate s1.ag.place r s1)

/-- R192, R193 -/
def execNew (d a : Reg) (h : Bool) (s : State) : Outc :=
  checked [.s d, .s a] s <| completing (newFin d) s <|
    let x := getS s a
    if hdrBad x || hdrDead x then trap cLinkBad 0 s
    else if h then
      if s.core.kd.hrecs = 0 then trap cBounds 0 s
      else match hbmRecord s with
        | none => trap cBounds s.core.kd.harena s
        | some i =>
          access s false .readWrite [] [(recordAddr s s.ag.place (.hbm i), 64)] fun ls =>
            newAt d x (.hbm i) ((((ls.headD []).map (·.loc))).headD 0) s
    else
      let l := freeRecords s.core
      match l[Config.choose s.draws % l.length]? with
      | none => trap cBounds 0 s
      | some i =>
        let r := ArenaRec.slice s.core.id i
        newAt d x r (sliceBase s.core.id + arenaBase s.core.kd + 64 * i) s
/-- R194: the request leaves for the node's home, and the agent does not wait. -/
def execFree (a : Reg) (s : State) : Outc :=
  checked [.s a] s <|
    let x := getS s a
    access s false .readWrite [] [(x, 1)] fun ls => settlingNodes x x s fun s1 =>
      let l := ((ls.headD []).map (·.loc)).headD 0
      let s2 := { s1 with ag := { s1.ag with outreq := s1.ag.outreq + 1, reqseq := s1.ag.reqseq + 1 } }
      .next (advance 4 (sendAs s1.ag.place (homeName l) s1.ag.ctx s1.ag.reqseq (.free x s1.ag.aid s1.ag.reqseq) s2))
/-- The outcome code of LINK and WIRE, and the reference count of TSHARE and TDROP, in sd. -/
def codeFin (d : Reg) (x : OpData) (s : State) : Outc := .next (advance 4 (setS d x.value s))

/-- R195, R196: the checks, then the request to the link unit of the wire's home. -/
def execLink (d a b : Reg) (s : State) : Outc :=
  checked [.s d, .s a, .s b] s <| completing (codeFin d) s <|
    portsOk (getS s a) (getS s b) s <| settlingNodes (getS s a) (getS s b) s fun s1 =>
      let e := s1.ag.place
      let sn := getS s a
      let sa := getS s b
      match linkBad s1 e sn sa with
      | some p => trap cLinkBad p s
      | none => portsPresent (farPorts s1 e sa) s1 <|
        let h := (homeCore s1 e (lockOf s1 e sa (portPartner (netGet s1 e sa)))).getD e
        if h ≠ e then ask h (.link sn sa) s1
        else .next (blockOn (.op s1.draws none) (raiseOut true (queueLink e ⟨s1.ag.aid, s1.draws, 0, sn, sa⟩ s1)))

/-- WIRE at the link unit of a core, for the current agent (R197). -/
def wireAct (h : CoreId) (x y : Word) (s : State) : State × Option OpAnswer :=
  let e := s.ag.place
  match wireBad s e x y with
  | some p => (s, some (.trapped cLinkBad p))
  | none =>
    let done := netPuts e [(x, wireTo y), (y, wireTo x)] s
    if !(isPrincipal x && isPrincipal y) then (done, some (answer 0))
    else match (if fanoutFull s then none else pairCore s e x y) with
      | none => (s, some (.trapped cQueueBad (openA s)))
      | some dst => (pushPair h x y dst done, some (answer 4))

/-- R197 -/
def execWire (d a b : Reg) (s : State) : Outc :=
  checked [.s d, .s a, .s b] s <| completing (codeFin d) s <|
    portsOk (getS s a) (getS s b) s <| settlingNodes (getS s a) (getS s b) s fun s1 =>
      let x := getS s a
      let y := getS s b
      let h := (homeCore s1 s1.ag.place (lower x y)).getD s1.ag.place
      atParty h (.wire x y) (wireAct h x y) (codeFin d) s1

/-- The buffer that a tile handle names, when it is declared: its core and number (R201). -/
def namedBuf (s : State) (h : Word) : Option (CoreId × Nat) :=
  if h.toNat / 2 ^ 48 ≠ 0xFE ∨ h.toNat / 2 ^ 21 % 2 = 1 then none
  else match windowLoc s s.ag.ctx h.toNat [] with
  | .error _ => none
  | .ok l =>
    let c := getCore s (coreOfLoc l)
    let b := sliceOff l / 1024
    if b < c.kd.tiles then some (c.id, b) else none

/-- The checks of TSHARE and TDROP (R201); whether the buffer is FREE is known at its core. -/
def withBuf (h : Word) (s : State) (k : CoreId → Nat → Outc) : Outc :=
  if h.toNat % 1024 ≠ 0 then trap cMisaligned h s
  else match namedBuf s h with
  | none => trap cBounds h s
  | some (c, b) => k c b

/-- TSHARE at the core of its buffer (R201). -/
def tshareAct (core : CoreId) (b : Nat) (h : Word) (s : State) : State × Option OpAnswer :=
  let c := getCore s core
  let t := bufOf c b
  if t.state = .free ∨ 255 ≤ t.share then (s, some (.trapped cBounds h))
  else (setCore (setBuf b { t with share := t.share + 1 } c) s, some (answer (BitVec.ofNat 64 (t.share + 2))))

/-- TDROP at the core of its buffer (R201). -/
def tdropAct (core : CoreId) (b : Nat) (h : Word) (s : State) : State × Option OpAnswer :=
  let c := getCore s core
  let t := bufOf c b
  if t.state = .free then (s, some (.trapped cBounds h))
  else if t.share > 0 then
    (setCore (setBuf b { t with share := t.share - 1 } c) s, some (answer (BitVec.ofNat 64 t.share)))
  else if t.waiter then (s, some (.trapped cBounds h))
  else (setCore (setBuf b ⟨.free, 0, false⟩ c) s, some (answer 0))

/-- R201 -/
def execTshare (d a : Reg) (s : State) : Outc :=
  checked [.s d, .s a] s <| completing (codeFin d) s <| withBuf (getS s a) s fun c b =>
    atParty c (.tshare c b (getS s a)) (tshareAct c b (getS s a)) (codeFin d) s
/-- R201 -/
def execTdrop (d a : Reg) (s : State) : Outc :=
  checked [.s d, .s a] s <| completing (codeFin d) s <| withBuf (getS s a) s fun c b =>
    atParty c (.tdrop c b (getS s a)) (tdropAct c b (getS s a)) (codeFin d) s

/-- The link unit of a core performs its next request (R309). -/
def linkStep (core : CoreId) (s : State) : State :=
  match (getCore s core).linkq with
  | [] => s
  | r :: rs =>
    let s1 := checkout r.aid (onCore core (fun c => { c with linkq := rs }) s)
    if s1.ag.aid = r.aid ∧ s1.ag.run = .blocked (.op r.key none) then performLink core r s1 else s1

/-- R309: the link unit of a core performs the next request; a stopped core's starts none (R253). -/
def execLinkUnitRequest (core : CoreId) (s : State) : Outc :=
  .next (if (getCore s core).stopped then s else linkStep core s)

end Sys2Proof.Machine
end

