-- ==== Sys2Proof/Machine/Queue.lean ====
section
/-! DEFINITION. The keyed queue (R260 to R272): operators, matching, admission, staging, dispatch; the pushes from program
code (R198, R199, R230, R231), RETIRE, TAKE and EXTQ (R28, R200, R220, R221), and the queue's events. -/

namespace Sys2Proof.Machine

/-! ## Operators (R61, R264, R265) -/

/-- The exact sum of SUMX.F32 in units of 2^−149, and its flags: +∞ 1, −∞ 2, NaN 4 (R61). -/
def sumxLanes (b : Block) : Int × Nat :=
  (List.range 16).foldl (fun (p : Int × Nat) i =>
    match fvDecode fmtF32 (lane 32 i b) with
    | .fin n m e => (p.1 + fvScaled n m e (-149), p.2)
    | .inf n => (p.1, p.2 ||| (if n then 2 else 1))
    | .nan _ => (p.1, p.2 ||| 4)) (0, 0)

/-- The 320-bit sum and the four flags as a payload (R264); a sum beyond its range sets range left, flag 8. -/
def sumxPack (x : Int) (f : Nat) : Block :=
  let g := if x < -(2 ^ 319 : Int) ∨ (2 ^ 319 : Int) ≤ x then f ||| 8 else f
  BitVec.ofNat 512 (intCode 320 x + g * 2 ^ 320)

/-- The sum that a payload holds. -/
def sumxOf (b : Block) : Int := codeInt true 320 (b.toNat % 2 ^ 320)
/-- The flags that a payload holds. -/
def sumxFlags (b : Block) : Nat := b.toNat / 2 ^ 320 % 16

/-- The single rounding at dispatch (R61). -/
def sumxOut (b : Block) : Block :=
  let f := sumxFlags b
  let r :=
    if f / 4 ≠ 0 ∨ f % 4 = 3 then nanBits fmtF32
    else if f % 4 ≠ 0 then infBits fmtF32 (f % 4 == 2)
    else
      let x := sumxOf b
      if x = 0 then 0 else (roundTo fmtF32 .rne (.fin (x < 0) x.natAbs (-149))).1
  BitVec.ofNat 512 r

/-- start(op, record) but for the two list operators (R264). -/
def startPayload (op : Nat) (b : Block) : Block :=
  match op with
  | 9 => 1
  | 10 => let r := sumxLanes b; sumxPack r.1 r.2
  | 11 =>
    let ts := (topSlots b).map fun x => if topIsNum x then x else topEmpty
    mkBlock 32 16 fun j =>
      if j < 8 then ((ts[j]?).getD topEmpty).val else ((ts[j - 8]?).getD topEmpty).idx
  | 14 => BitVec.ofNat 512 (1 + lane 64 0 b * 2 ^ 64)
  | 15 => BitVec.ofNat 512 (1 + lane 64 0 b * 2 ^ 64)
  | _ => b

/-- fold(entry, record) but for the two list operators, and whether a SUM.I lane overflowed (R264). -/
def foldPayload (op : Nat) (x y : Block) : Block × Bool :=
  let i64 := fun (b : Block) (i : Nat) => codeInt true 64 (lane 64 i b)
  match op with
  | 1 =>
    (mkBlock 64 8 fun i => intCode 64 (i64 x i + i64 y i),
      (List.range 8).any fun i => i64 x i + i64 y i < -(2 ^ 63 : Int) || (2 ^ 63 : Int) ≤ i64 x i + i64 y i)
  | 2 => (mkBlock 64 8 fun i => intCode 64 (min (i64 x i) (i64 y i)), false)
  | 3 => (mkBlock 64 8 fun i => intCode 64 (max (i64 x i) (i64 y i)), false)
  | 4 => (mkBlock 32 16 fun i => (fminmax fmtF32 false (lane 32 i x) (lane 32 i y)).1, false)
  | 5 => (mkBlock 32 16 fun i => (fminmax fmtF32 true (lane 32 i x) (lane 32 i y)).1, false)
  | 6 => (x &&& y, false)
  | 7 => (x ||| y, false)
  | 8 => (x ^^^ y, false)
  | 9 => (BitVec.ofNat 512 (x.toNat / 2 ^ 64 * 2 ^ 64 + (lane 64 0 x + 1) % 2 ^ 64), false)
  | 10 =>
    let r := sumxLanes y
    (sumxPack (sumxOf x + r.1) (sumxFlags x ||| r.2), false)
  | 11 => (topBlock (topSlots x ++ topSlots y), false)
  | 13 => (y, false)
  | _ => (x, false)

/-- APPEND and APPEND.SORT keep lists (R265). -/
def isList (op : Nat) : Bool := op == 14 || op == 15

/-- Location of overflow block b of a core (R260). -/
def ovfLoc (c : CoreId) (b : Nat) : Nat := sliceBase c + poolBase + 64 * b
/-- Window address of overflow block b of a core. -/
def ovfAddr (c : CoreId) (b : Nat) : Nat := winBase c + poolBase + 64 * b

/-- The items of a list entry: words 1 to 6, then the words of its overflow blocks (R265). -/
def listItems (m : Mem) (c : CoreId) (e : KEntry) : List Nat :=
  let here := (List.range 6).map fun i => lane 64 (i + 1) e.payload
  let more := (e.ovf.map fun b => (List.range 7).map fun i => (memWord m (ovfLoc c b + 8 * i)).toNat).flatten
  (here ++ more).take (lane 64 0 e.payload)

/-- Insert a word in ascending order, after equal words. -/
def sortInsert (x : Nat) : List Nat → List Nat
  | [] => [x]
  | y :: ys => if x < y then x :: y :: ys else y :: sortInsert x ys

/-- The word of a list at a place, 0 beyond its end. -/
def itemAt (xs : List Nat) (i : Nat) : Nat := xs.getD i 0

/-- The payload of a list entry (R265). -/
def listPayload (c : CoreId) (ovf : List Nat) (xs : List Nat) : Block :=
  mkBlock 64 8 fun i =>
    if i = 0 then xs.length
    else if i < 7 then itemAt xs (i - 1)
    else match ovf with
      | b :: _ => ovfAddr c b
      | [] => 0

/-- The overflow blocks of a list, from the first on: the location and the words of each (R265). -/
def ovfBlocks (c : CoreId) : List Nat → List Nat → List (Nat × Block)
  | [], _ => []
  | b :: bs, xs =>
    let next := match bs with | n :: _ => ovfAddr c n | [] => 0
    (ovfLoc c b, mkBlock 64 8 fun i => if i < 7 then itemAt xs i else next) :: ovfBlocks c bs (xs.drop 7)

/-- Write the overflow blocks of a list. -/
def writeOvf (c : CoreId) (bs xs : List Nat) (m : Mem) : Mem :=
  (ovfBlocks c bs xs).foldl (fun m p => memSetBlock m p.1 p.2 0x7FC0) m

/-- A free block of the overflow pool of 512 (R260). -/
def freeOvf (s : State) (c : Core) : Option Nat :=
  let l := (List.range 512).filter fun b => !c.pool.contains b
  l[Config.choose s.draws % l.length]?

/-! ## Places (R260, R268) -/

/-- Unused reserved places of a core: those of its agents and of its sequencer. -/
def unusedRes (s : State) (c : CoreId) : Nat :=
  ((allAgents s).map fun a => match a.hrec with
    | some r => if r.core = c then r.reserved else 0
    | none => 0).sum + (match (getCore s c).seq with | some q => q.reserved | none => 0)

/-- Places held back and occupied. -/
def heldCount (c : Core) : Nat := (c.kq.filter (·.held)).length
/-- Other places occupied. -/
def openCount (c : Core) : Nat := (c.kq.filter fun e => !e.held).length

/-- A place is free that is neither occupied nor held back (R268): reservations use the 36 places held back first. -/
def roomFor (s : State) (c : CoreId) : Bool :=
  let k := getCore s c
  openCount k + (unusedRes s c + heldCount k - 36) < 4572

/-- Four places can be reserved (R268). -/
def canReserve (s : State) (c : CoreId) : Bool :=
  let k := getCore s c
  k.kq.length + unusedRes s c + 4 ≤ 4608

/-- The lowest free place: an entry, else a spill slot (R267). -/
def freePlace (c : Core) : Nat := ((List.range 4608).find? fun p => !c.kq.any (fun e => e.place == p)).getD 4607

/-- Every place is occupied and nothing of the core holds a lease or a reservation: queue exhaustion (R269). -/
def exhausted (s : State) (c : CoreId) : Bool :=
  let k := getCore s c
  4608 ≤ k.kq.length && !k.kq.any (fun e => e.state == .leased) && unusedRes s c == 0

/-! ## Age, eligibility and matching (R261, R262, R267) -/

/-- An entry is WAITING in the spill ring. -/
def spilled (e : KEntry) : Bool := e.state == .waiting && 512 ≤ e.place

/-- An entry holds its key: LEASED, or WAITING in the queue or the spill ring. -/
def holdsKey (e : KEntry) : Bool := e.state == .waiting || e.state == .leased

/-- The eligible entries, oldest first; older are the entries met so far (R261). -/
def eligibleFrom : List KEntry → List KEntry → List KEntry
  | _, [] => []
  | older, e :: es =>
    let rest := eligibleFrom (older ++ [e]) es
    if e.state == .waiting && !spilled e && !older.any (fun o => o.key == e.key && holdsKey o) then e :: rest else rest

/-- The eligible entries of a core, oldest first. -/
def eligible (c : Core) : List KEntry := eligibleFrom [] c.kq

/-- The key is held with another operator (R199, R263, R267). -/
def opConflict (c : Core) (key : Word) (op : Nat) : Bool :=
  c.kq.any fun e => e.key == key && e.op != op && holdsKey e

/-- The entry that a record of a key and operator folds into (R199, R265). -/
def foldTarget (c : Core) (key : Word) (op : Nat) : Option KEntry :=
  if op = 0 then none
  else c.kq.find? fun e => e.state == .waiting && !spilled e && e.key == key && e.op == op && !e.overflow

/-- Change the entry at a place. -/
def onPlace (p : Nat) (f : KEntry → KEntry) (c : Core) : Core :=
  { c with kq := c.kq.map fun e => if e.place = p then f e else e }

/-- Remove the entry at a place; its overflow blocks return to the pool. -/
def dropPlace (p : Nat) (c : Core) : Core :=
  let gone := ((c.kq.filter (fun e => e.place == p)).map (·.ovf)).flatten
  { c with kq := c.kq.filter (fun e => e.place != p), pool := c.pool.filter (fun b => !gone.contains b) }

/-- TAG and XMIS of an entry after a fold (R50, R260). -/
def foldMarks (e : KEntry) (b : Block) (tag : Tag) (topx : Bool) (x : KEntry) : KEntry :=
  let t : Tag := if e.op = 13 then tag else e.tag
  { x with
    payload := b
    tag := if poisoned e.tag || poisoned tag then t ||| 0xFF00 else t
    xmis := e.xmis || topx != e.topx }

/-- The fold of a record into an entry (R264, R265); none where a list needs a block that it cannot have. -/
def foldInto (core : CoreId) (e : KEntry) (payload : Block) (tag : Tag) (topx : Bool) (s : State) : Option State :=
  let c := getCore s core
  if isList e.op then
    let xs := listItems s.mem core e
    let w := lane 64 0 payload
    let ys := if e.op = 15 then sortInsert w xs else xs ++ [w]
    let extra : Option (List Nat) :=
      if ys.length ≤ 6 + 7 * e.ovf.length then some []
      else if 7 ≤ e.ovf.length then none
      else (freeOvf s c).map fun b => [b]
    match extra with
    | none => none
    | some bs =>
      let ovf := e.ovf ++ bs
      let c1 := { c with pool := bs ++ c.pool, folds := c.folds + 1 }
      some { setCore (onPlace e.place (fun x => { foldMarks e (listPayload core ovf ys) tag topx x with ovf := ovf }) c1) s
        with mem := writeOvf core ovf (ys.drop 6) s.mem }
  else
    let r := foldPayload e.op e.payload payload
    let c1 := { c with folds := c.folds + 1, sumovf := c.sumovf || r.2 }
    some (setCore (onPlace e.place (foldMarks e r.1 tag topx) c1) s)

/-- Match a record that a queue takes in (R199, R262): it folds, or `make` gives the entry that it starts. -/
def matchRecord (core : CoreId) (r : KEntry) (make : State → State) (s : State) : State :=
  match foldTarget (getCore s core) r.key r.op with
  | none => make s
  | some e =>
    match foldInto core e r.payload r.tag r.topx s with
    | some s1 => s1
    | none => make (onCore core (onPlace e.place fun x => { x with overflow := true }) s)

/-- The record would fold, so that it needs no place. -/
def wouldFold (s : State) (core : CoreId) (r : KEntry) : Bool :=
  match foldTarget (getCore s core) r.key r.op with
  | none => false
  | some e => (foldInto core e r.payload r.tag r.topx s).isSome

/-- The payload of a record that becomes WAITING at a place: a spilled record starts when it drains (R264, R267). -/
def placedPayload (p : Nat) (r : KEntry) : Block := if p < 512 then startPayload r.op r.payload else r.payload

/-- A WAITING entry that starts with a record, the youngest of its queue. -/
def startEntry (core : CoreId) (r : KEntry) (s : State) : State :=
  onCore core (fun c => { c with kq := c.kq ++ [{ r with
    place := freePlace c
    state := .waiting
    holder := none
    payload := placedPayload (freePlace c) r }] }) s

/-! ## Records (R25, R29) -/

/-- The entry that a record of a push makes; for an active pair, the lookup of R25 is made now. A malformed node is never
built-in (R29). -/
def entryOf (s : State) (core : CoreId) (r : PushRec) : KEntry :=
  let k := (getCore s core).kd
  let look : Nat × Bool × Bool :=
    match r.nodes with
    | none => (r.rule, false, false)
    | some (a, b) =>
      if nodeBad s core a || nodeBad s core b then (0, true, false)
      else
        let x := hdrKind (netGet s core a)
        let y := hdrKind (netGet s core b)
        if builtinPair x y then (0, false, true)
        else match ruleFor k x y with
          | some i => (i, false, false)
          | none => (0, true, false)
  { place := 0, held := false, key := r.key, payload := r.payload, tag := r.tag, ovf := [], rule := look.1, op := r.op,
    missing := look.2.1, topx := r.topx, overflow := false, xmis := false, rwr := r.nodes.isSome, builtin := look.2.2,
    holder := r.pusher, state := .waiting, nodes := r.nodes, target := core, retired := false, waited := r.waited,
    word := r.target, seq := r.seq, far := none, asking := false, origin := r.origin }

/-- A late trap becomes pending at an agent (R239). -/
def addLate (t : LateTrap) (a : Agent) : Agent := { a with late := a.late ++ [t] }

/-- An answer to a push from another package, or word of a retirement, leaves for it (R268, R270). -/
def tellFar (core : CoreId) (o : FarId) (code : FarCode) (word : Word) (s : State) : State :=
  send core (portOf s o.pkg) ((getCore s core).ctx.getD 0) (.farAnswer o code word) s

/-- A push has been admitted: OUTREQ falls, at once at the pusher's own core, else when the answer arrives (R167, R199). -/
def answerPush (core : CoreId) (origin : Option FarId) (pusher : Option Nat) (s : State) : State :=
  match origin, pusher with
  | some o, _ => tellFar core o .admitted 0 s
  | none, none => s
  | none, some aid => match findAgent s aid with
    | none => s
    | some a =>
      if a.place = core then onAgent aid (fun b => { b with outreq := b.outreq - 1 }) s
      else send core a.place a.ctx (.reply aid) s

/-- A refused push (R199): the record is discarded, and its pusher gets QUEUE_BAD late. -/
def refusePush (core : CoreId) (r : PushRec) (s : State) : State :=
  let s1 := onCore core (fun c => { c with refusals := c.refusals + 1 }) s
  match r.origin, r.pusher with
  | some o, _ => tellFar core o .refused r.target s1
  | none, none => s1
  | none, some aid => match findAgent s1 aid with
    | none => s1
    | some a =>
      let t : LateTrap := ⟨cQueueBad, r.target, r.seq⟩
      if a.place = core then onAgent aid (fun b => addLate t { b with outreq := b.outreq - 1 }) s1
      else sendAs core a.place a.ctx r.seq (.refusal aid t) s1

/-- A node of the record is young: an agent of its context has allocated it and not retired since (R316). -/
def youngPair (s : State) (e : KEntry) : Bool :=
  match e.nodes with
  | none => false
  | some (a, b) => (allAgents s).any fun g =>
    (getCore s e.target).ctx == some g.ctx && (g.young.contains a.toNat || g.young.contains b.toNat)

/-- A staged record of a retired handler becomes WAITING: it is matched as a new arrival (R262). One whose key another
operator holds by then is refused, unless it has waited in TRANSIT (R263; DEDUCED, log 16). -/
def promoteOne (core : CoreId) (e : KEntry) (s : State) : State :=
  let s1 := onCore core (dropPlace e.place) s
  if opConflict (getCore s1 core) e.key e.op && !e.waited then
    let s2 := onCore core (fun c => { c with refusals := c.refusals + 1 }) s1
    match e.origin, e.holder with
    | some o, _ => tellFar core o .refused e.word s2
    | none, none => s2
    | none, some aid => onAgent aid (addLate ⟨cQueueBad, e.word, e.seq⟩) s2
  else matchRecord core e (startEntry core e) s1

/-- Promote the staged records of a core that may be, oldest first. -/
def promoteList (core : CoreId) : List KEntry → State → State
  | [], s => s
  | e :: es, s => promoteList core es (promoteOne core e s)

/-- Promote what may be promoted on the cores of a list (R28 step 3, R316). -/
def promoteCores : List CoreId → State → State
  | [], s => s
  | c :: cs, s =>
    promoteCores cs (promoteList c
      ((getCore s c).kq.filter fun e => e.state == .staged && e.retired && !youngPair s e) s)

/-- Every core that holds state. -/
def coreNames (s : State) : List CoreId := s.core.id :: s.cores.map (·.id)

/-- Mark a record that a handler pushed: the handler has retired. -/
def markRetired (aid : Nat) (e : KEntry) : KEntry :=
  if e.holder = some aid ∧ (e.state = .staged ∨ e.state = .transit) then { e with retired := true } else e

/-- Word of a retirement leaves a core for the packages that hold staged records of its handler (R268). -/
def tellRetired (core : CoreId) : List FarId → State → State
  | [], s => s
  | o :: os, s => tellRetired core os (tellFar core o .retired 0 s)

/-- The records that a handler pushed become eligible, on every core and package, and the young nodes of its agent are young
no longer (R28 step 3, R268, R316). -/
def retirePushes (aid : Nat) (s : State) : State :=
  let mark := fun (c : Core) => { c with kq := c.kq.map (markRetired aid) }
  let s1 := { s with core := mark s.core, cores := s.cores.map mark }
  let s2 := match findAgent s1 aid with
    | some a => tellRetired a.place ((a.hrec.map (·.far)).getD []) s1
    | none => s1
  promoteCores (coreNames s2) (onAgent aid (fun a => { a with young := [] }) s2)

/-! ## Admission (R199, R262, R263, R268) -/

/-- A reserved place of an agent is used or released. -/
def unreserve (aid : Nat) (s : State) : State :=
  onAgent aid (fun a => { a with hrec := a.hrec.map fun r => { r with reserved := r.reserved - 1 } }) s

/-- A reserved place of the rewrite sequencer of a core is used or released. -/
def unreserveSeq (core : CoreId) (s : State) : State :=
  onCore core (fun c => { c with seq := c.seq.map fun q => { q with reserved := q.reserved - 1 } }) s

/-- A record is kept as STAGED or TRANSIT in a place of a core; a reserved place is one of those held back while one is
left (R268). -/
def keepRecord (core : CoreId) (st : KState) (reserved : Bool) (e : KEntry) (s : State) : State :=
  onCore core (fun c => { c with kq := c.kq ++ [{ e with
    place := freePlace c
    state := st
    held := reserved && heldCount c < 36 }] }) s

/-- The core that holds the reserved places of a pusher. -/
def homeQueue (s : State) (pusher : Option Nat) (own : CoreId) : CoreId :=
  match pusher with
  | none => own
  | some aid => match findAgent s aid with
    | none => own
    | some a => match a.hrec with
      | some r => r.core
      | none => a.place

/-- An earlier record of the pusher for the same queue waits in TRANSIT (R270). -/
def transitBefore (s : State) (core : CoreId) (pusher : Option Nat) : Bool :=
  (s.core :: s.cores).any fun c => c.kq.any fun e =>
    e.state == .transit && e.far.isNone && e.target == core && e.holder == pusher && pusher.isSome

/-- The first of the nodes of a record whose page the core's TLB does not hold for a read and write (R193, R301). -/
def pairMiss (s : State) (core : CoreId) (nodes : Option (Word × Word)) : Option Word :=
  match nodes, (getCore s core).ctx with
  | some (a, b), some x => [a, b].find? fun n => match xlate s (getCore s core) x n .readWrite [] with
    | .error .miss => true
    | .error .bounds => false
    | .ok _ => false
  | _, _ => none

/-- A handler's push, or the sequencer's, is admitted: STAGED until the handler retires, WAITING where it has retired and no node of it is
young (R29, R316). -/
def admitStaged (core : CoreId) (own : Bool) (e : KEntry) (s : State) : State :=
  if e.retired && !youngPair s e then startEntry core e s else keepRecord core .staged own e s

/-- A push arrives at a queue: none where it has to wait for room, or for the page of a node (R193). -/
def admitPush (core : CoreId) (m : Msg) (r : PushRec) (s : State) : Option State :=
  let e := entryOf s core r
  let s1 := performed m s
  let held := transitBefore s core r.pusher
  if (pairMiss s core r.nodes).isSome then none
  else if opConflict (getCore s core) e.key e.op && !e.waited then some (refusePush core r s1)
  else if r.staged then
    match r.origin with
    | some o =>
      if roomFor s core then some (answerPush core r.origin none (keepRecord core .staged false { e with holder := none } s1))
      else some (tellFar core o .compatible 0 s1)
    | none =>
      let q := homeQueue s r.pusher m.src
      let e := { e with retired := r.pusher.isNone }
      let done := fun (x : State) => match r.pusher with
        | some a => answerPush core none r.pusher (unreserve a x)
        | none => oneWay core m.src m.ctx (unreserveSeq m.src x)
      if q = core then some (done (admitStaged core true e s1))
      else if roomFor s core && !held then some (done (admitStaged core false e s1))
      else some (done (keepRecord q .transit true e s1))
  else if (wouldFold s core e || roomFor s core) && !held then
    some (answerPush core r.origin r.pusher (matchRecord core { e with holder := none } (startEntry core e) s1))
  else none

/-- Who made a push: the party that sent it, its agent, and for a push from another package the agent there. -/
def pushMaker (p : Msg × PushRec) : CoreId × Option Nat × Option (BitVec 8 × CoreId × BitVec 3) :=
  (p.1.src, p.2.pusher, p.2.origin.map fun o => (o.pkg, o.place, o.num))

/-- The pushes that may be admitted at a core now, local ones first, then others as they arrived (R262, R270): each is the first
packet of its sender's interface that waits, or has been received before, and the first push of its maker. -/
def pushesAt (s : State) (core : CoreId) : List (Msg × PushRec) :=
  let all := s.net.filterMap fun m => match m.body with
    | .push r => if m.dst = core then some (m, r) else none
    | _ => none
  let first := all.filter fun p => isHere p.1 && (p.1.waiting || firstOf s p.1) &&
    (all.find? fun q => pushMaker q == pushMaker p).map (·.1.id) == some p.1.id
  first.filter (fun p => p.1.src == core) ++
    sortBy (fun p q => p.1.order ≤ q.1.order) (first.filter fun p => p.1.src != core)

/-- The queue has received a push and has no room for it: it counts as received, and its pusher waits (R253, R268). -/
def markWaiting (m : Msg) (s : State) : State :=
  if m.waiting then s
  else
    let s1 := { s with net := s.net.map fun x => if x.id = m.id then { x with waiting := true } else x }
    if m.src != m.dst && countsFrom m.src then countRcvd m.dst s1 else s1

/-- The first push that the queue can take in, taken in; those before it wait for room. -/
def admitFirst (core : CoreId) : List (Msg × PushRec) → State → State
  | [], s => s
  | p :: ps, s => match admitPush core p.1 p.2 s with
    | some s1 => s1
    | none => admitFirst core ps (markWaiting p.1 s)

/-- An agent waits for room in a queue that has received its push (R199, R268). -/
def pushWaits (s : State) (aid : Nat) : Bool :=
  s.net.any fun m => m.waiting && match m.body with
    | .push r => r.pusher == some aid
    | _ => false

/-- A TRANSIT record as it is offered to another package again. -/
def transitRec (e : KEntry) : PushRec where
  key := e.key
  payload := e.payload
  tag := e.tag
  rule := e.rule
  op := e.op
  topx := e.topx
  nodes := none
  missing := false
  builtin := false
  pusher := e.holder
  staged := !e.retired
  target := e.word
  seq := e.seq
  origin := none
  waited := e.waited

/-- A TRANSIT record is offered to another package again, under the identity of its push (R268, R270). -/
def reofferFar (core : CoreId) (pkg : BitVec 8) (e : KEntry) (s : State) : Option State :=
  match e.asking, e.origin with
  | false, some id =>
    let s1 := onCore core (onPlace e.place fun x => { x with asking := true }) s
    let s2 := { s1 with farOut := s1.farOut ++ [⟨pkg, e.target, e.holder.getD 0, id.place, id.num, transitRec e⟩] }
    some (send core (portOf s pkg) ((getCore s core).ctx.getD 0) (.farPush pkg e.target id (transitRec e)) s2)
  | _, _ => none

/-- A TRANSIT record is offered again (R268): none where the target still has no room. -/
def reoffer (core : CoreId) (e : KEntry) (s : State) : Option State :=
  match e.far with
  | some pkg => reofferFar core pkg e s
  | none =>
    let t := e.target
    let ctx := (getCore s core).ctx.getD 0
    let tell := fun (x : State) => oneWay t core ctx (oneWay core t ctx x)
    let y := { e with waited := true, held := false }
    let s1 := onCore core (dropPlace e.place) s
    if e.retired && !youngPair s e then
      if wouldFold s t y || roomFor s1 t then some (tell (matchRecord t y (startEntry t y) s1)) else none
    else if roomFor s1 t then some (tell (keepRecord t .staged false y s1))
    else none

/-- The first TRANSIT record of a list that its target admits. -/
def reofferFirst (core : CoreId) : List KEntry → State → Option State
  | [], _ => none
  | e :: es, s => match reoffer core e s with
    | some s1 => some s1
    | none => reofferFirst core es s

/-- The first TRANSIT record of each target, in order (R270). -/
def transits (c : Core) : List KEntry :=
  let l := c.kq.filter fun e => e.state == .transit
  l.filter fun e => (l.find? fun x => x.target == e.target && x.far == e.far).map (·.place) == some e.place

/-! ## Dispatch (R28, R29) -/

/-- The group scope of a kernel (R372). -/
def levelScope (k : KDesc) : Scope :=
  match k.level with
  | 0 => .core
  | 1 => .core
  | 2 => .cluster
  | 3 => .stack
  | _ => .fabric

/-- The agents of a core that wait in RETIRE step 5, longest first (R29). One with a late trap to take takes it first (R239), and one
that is still on its way to the core waits nowhere (R249). -/
def retireWaiters (s : State) (core : CoreId) : List (Nat × Agent) :=
  let free := fun (a : Agent) => a.place == core && (a.handler || a.late.isEmpty) && !(s.moves.any fun m => m.aid == a.aid && m.captured)
  let l := (allAgents s).filterMap fun a => match a.run with
    | .blocked (.retire t) => if free a then some (t, a) else none
    | _ => none
  sortBy (fun x y => x.1 < y.1 || (x.1 == y.1 && x.2.num.toNat ≤ y.2.num.toNat)) l

/-- A receiver of a record: the sequencer, or an agent (R29). -/
inductive Receiver
  | sequencer
  | agent (a : Agent)
  deriving DecidableEq, Repr

/-- The nodes of a record. -/
def nodesOf (e : KEntry) : List Word :=
  match e.nodes with
  | some (a, b) => [a, b]
  | none => []

/-- Who can receive a record (R29). -/
def receiverOf (s : State) (core : CoreId) (e : KEntry) : Option Receiver :=
  let c := getCore s core
  if !canReserve s core then none
  else if e.builtin then (if c.seq.isNone && !c.seqstuck && !c.seqpark then some .sequencer else none)
  else match retireWaiters s core with
    | [] => none
    | p :: _ => some (.agent p.2)

/-- The oldest eligible record with a receiver. -/
def nextDispatch (s : State) (core : CoreId) : Option (KEntry × Receiver) :=
  (eligible (getCore s core)).findSome? fun e => (receiverOf s core e).map fun r => (e, r)

/-- Set DEAD in a header and free the principal port of a node (R28 step 7). -/
def killNode (e n : Word) (core : CoreId) (s : State) : State :=
  netPut core (portAt n 0) 0 (netPut core n (netGet s core n ||| e) s)

/-- DEAD as a bit of a header (R18). -/
def deadBit : Word := 0x80000000000

/-- Step 7 for the nodes of a record. -/
def killPair (core : CoreId) (nodes : Option (Word × Word)) (s : State) : State :=
  match nodes with
  | none => s
  | some (a, b) => killNode deadBit b core (killNode deadBit a core s)

/-- The payload bytes of a node: 16 bytes from +8. -/
def nodePayload (s : State) (core : CoreId) (n : Word) : Nat :=
  (netGet s core (n + 8)).toNat + (netGet s core (n + 16)).toNat * 2 ^ 64

/-- s1 and s2 of a rewrite record: the node of lower kind first, for equal kinds the lower-addressed (R28). -/
def pairOrder (s : State) (core : CoreId) (a b : Word) : Word × Word :=
  let x := hdrKind (netGet s core a)
  let y := hdrKind (netGet s core b)
  if y < x then (b, a) else (a, b)

/-- The block that v0 receives (R28). -/
def dispatchBlock (s : State) (core : CoreId) (e : KEntry) : Block :=
  match e.nodes with
  | some (a, b) =>
    let p := pairOrder s core a b
    BitVec.ofNat 512 (nodePayload s core p.1 + nodePayload s core p.2 * 2 ^ 128)
  | none => if e.op = 10 then sumxOut e.payload else e.payload

/-- The tag that v0 receives. -/
def dispatchTag (e : KEntry) : Tag := if e.nodes.isSome then 0x7FC0 else e.tag

/-- s3 to s5 and v0 as a dispatch loads them (R28, R220). -/
def loadRecord (core : CoreId) (e : KEntry) (s : State) : State :=
  let s5 : Word := if e.rwr then 0 else if e.overflow then 2 else 1
  setV 0 (dispatchBlock s core e) (dispatchTag e)
    (setS 5 s5 (setS 4 (BitVec.ofNat 64 e.rule) (setS 3 e.key s)))

/-- s1 and s2 as a dispatch loads them (R28). -/
def loadNodes (core : CoreId) (e : KEntry) (s : State) : State :=
  match e.nodes with
  | none => setS 2 0 (setS 1 0 s)
  | some (a, b) =>
    let p := pairOrder s core a b
    setS 2 p.2 (setS 1 p.1 s)

/-- The record carries another TOPX than the core (R51, R263). -/
def topxMismatch (c : Core) (e : KEntry) : Bool := e.xmis || e.topx != c.topx

/-- FANOUT of a record's handler; a record without a rule may push what its reservation holds (log 15). -/
def recordFanout (c : Core) (e : KEntry) : Nat := if e.missing then 4 else ruleFanout c.kd e.rule

/-- Count a dispatch (R221). -/
def countDispatch (e : KEntry) (c : Core) : Core :=
  { c with
    dispatches := c.dispatches + 1
    ovdispatches := if e.overflow then c.ovdispatches + 1 else c.ovdispatches }

/-- A node of the record is malformed: its address (R20). -/
def badNode (s : State) (core : CoreId) (e : KEntry) : Option Word := (nodesOf e).find? (nodeBad s core)

/-- Step 8 of R28 for the current agent, which has been dispatched a record: its handler, or the trap of R200, with the address given
for a missing rule. A record of another TOPX that is also missing traps TOPX_MISMATCH (DESIGN CHOICE, log 16: no rule orders the two). -/
def retireDone (core : CoreId) (e : KEntry) (a : Word) (s : State) : State :=
  let c := getCore s core
  if topxMismatch c e then deliver cTopx false e.key 0 s.ag.pc s
  else if e.missing then deliver cRuleMissing false a 0 s.ag.pc s
  else jumpTo (ruleEntry c.kd e.rule) s

/-- A dispatch to an agent: the lease, the reservation, and steps 6 to 8 of R28. DESIGN CHOICE (log 16): a record of another TOPX
leaves s1 to s5 and v0 as they were, as R51 says of a destination, while step 7 is performed. -/
def dispatchAgent (core : CoreId) (e : KEntry) (aid : Nat) (s : State) : State :=
  let s1 := checkout aid (onCore core (fun c => countDispatch e
    (onPlace e.place (fun x => { x with state := .leased, holder := some aid }) c)) s)
  let c := getCore s1 core
  let h : HandlerRec := ⟨e.key, e.rule, recordFanout c e, 0, 4, core, e.place, e.nodes, []⟩
  let s2 := refresh (levelScope c.kd) { s1 with ag := { s1.ag with hrec := some h } }
  let s3 := if topxMismatch c e then s2 else loadNodes core e (loadRecord core e s2)
  retireDone core e ((badNode s core e).getD e.key) (killPair core e.nodes s3)

/-- The agent that a record is offered to asks its teff core for a node's page (R193, R303). -/
def askNodePage (since aid : Nat) (n : Word) (s : State) : State :=
  let s1 := checkout aid s
  blockOn (.nodePage since s1.ag.reqseq) (missOn n n .readWrite s1)

/-- The access of a core's rewrite sequencer to a node whose page the TLB does not hold (R193, R303). DESIGN CHOICE (log 16): it carries
the place of agent 0 of its core and the number 0. -/
def seqAccess (s : State) (core : CoreId) (x : Ctx) (n : Word) : Access where
  who := .sequencer core
  asid := x.asid
  root := x.root
  va := renamed s (getCore s core) n
  report := n
  kind := .readWrite
  place := whereOf core 0
  seq := 0
  stage := 1
  record := none

/-- The rewrite sequencer of a core waits for the page of a node (R303). -/
def parkSeq (core : CoreId) (n : Word) (s : State) : State :=
  match (getCore s core).ctx.bind (findCtx s) with
  | none => s
  | some x => sendFault core x.num 0 (seqAccess s core x n) (onCore core (fun c => { c with seqpark := true }) s)

/-- A dispatch to the sequencer: the lease, 4 places, DEAD and the principal ports (R29). -/
def dispatchSeq (core : CoreId) (e : KEntry) (s : State) : State :=
  let n := e.nodes.getD (0, 0)
  killPair core e.nodes (onCore core (fun c =>
    { countDispatch e (onPlace e.place (fun x => { x with state := .leased, holder := none }) c) with
      seq := some ⟨e.place, n.1, n.2, 4, false⟩ }) s)

/-! ## RETIRE (R28, R200) -/

/-- Release the lease of the current agent (R28 step 1). -/
def releaseLease (s : State) : State :=
  match s.ag.hrec with
  | none => s
  | some r => onCore r.core (dropPlace r.place) s

/-- Steps 1 to 4 of R28; the publication counts in PHASEN (R81), and the aliases of R322 end. -/
def retireSteps (s : State) : State :=
  let s1 := publishNow (levelScope s.core.kd) (releaseLease s)
  let s2 := retirePushes s1.ag.aid s1
  { s2 with ag := { s2.ag with hrec := none, redirects := [], phasen := s2.ag.phasen + 1 } }

/-! ## Pushes from program code -/

/-- Where a queue target word leads. -/
inductive QDest
  | here (c : CoreId) (rule : Nat)
  | away (pkg : BitVec 8) (c : CoreId) (rule : Nat)
  deriving DecidableEq, Repr

/-- R198: where a queue target word leads, or none where it breaks the format or names a core or package with no group of
the kernel. A FAR word that names the own package reaches it (DEDUCED, log 1). -/
def queueTarget (s : State) (w : Word) : Option QDest :=
  let x := w.toNat
  let c := coreNear s.ag.place (x / 2 ^ 22)
  let far := x / 2 ^ 32 % 2 == 1
  let pkg : BitVec 8 := BitVec.ofNat 8 (x / 2 ^ 40)
  if x / 2 ^ 48 ≠ 0xFE ∨ x / 2 ^ 33 % 2 ^ 7 ≠ 0 ∨ x / 2 ^ 12 % 2 ^ 10 ≠ 0 ∨ !isComputeCore c ∨ (!far ∧ pkg ≠ 0) then none
  else if !far ∨ pkg = s.cfg.position then (if sameKernel s c s.ag.place then some (.here c (x % 2 ^ 12)) else none)
  else if routed s pkg ∧ Config.farGroup s.ag.ctx s.ag.inst.toNat pkg.toNat (coreName c) then
    some (.away pkg c (x % 2 ^ 12))
  else none

/-- A record pushed by program code. -/
def codeRecord (s : State) (key : Word) (b : Block) (t : Tag) (rule : Nat) (word : Word) : PushRec where
  key := key
  payload := b
  tag := t
  rule := rule
  op := ruleOp s.core.kd rule
  topx := s.core.topx
  nodes := none
  missing := false
  builtin := false
  pusher := some s.ag.aid
  staged := s.ag.hrec.isSome
  target := word
  seq := 0
  origin := none
  waited := false

/-- An earlier record of the current agent for a core of another package waits in TRANSIT (R270). -/
def transitFar (s : State) (pkg : BitVec 8) (dst : CoreId) : Bool :=
  (s.core :: s.cores).any fun c => c.kq.any fun e =>
    e.state == .transit && e.far == some pkg && e.target == dst && e.holder == some s.ag.aid

/-- A record leaves for a core of another package: it counts in OUTREQ until its answer comes, and has a request number
(R199, R238, R270). -/
def sendFar (pkg : BitVec 8) (dst : CoreId) (r : PushRec) (s : State) : State :=
  let q := { r with seq := s.ag.reqseq }
  let s1 := { s with
    ag := countPush { s.ag with outreq := s.ag.outreq + 1, reqseq := s.ag.reqseq + 1 }
    farOut := s.farOut ++ [⟨pkg, dst, s.ag.aid, s.ag.place, s.ag.num, q⟩] }
  sendAs s.ag.place (portOf s pkg) s.ag.ctx s.ag.reqseq (.farPush pkg dst ⟨pkg, s.ag.place, s.ag.num, s.ag.reqseq⟩ q) s1

/-- The checks of a push from the second of R199 on. -/
def pushAllowed (rule : Nat) (bad : Word) (s : State) (k : Outc) : Outc :=
  if s.core.kd.rules.length ≤ rule then trap cQueueBad bad s
  else if fanoutFull s then trap cQueueBad bad s
  else k

/-- R199, from its second check on, for a core of this package. -/
def pushTo (dst : CoreId) (rule : Nat) (key : Word) (b : Block) (t : Tag) (bad word : Word) (len : Nat) (s : State) : Outc :=
  pushAllowed rule bad s <|
    .next (advance len (sendPush s.ag.place dst (dst != s.ag.place) (codeRecord s key b t rule word) s))

/-- PUSHX and ENQI after their operands (R199, R230). A push to another package waits while an earlier one of the agent for the same
queue is in TRANSIT (R270). -/
def pushWord (key : Word) (b : Block) (t : Tag) (word : Word) (len : Nat) (s : State) : Outc :=
  match queueTarget s word with
  | none => trap cBounds word s
  | some (.here dst rule) => pushTo dst rule key b t word word len s
  | some (.away pkg dst rule) =>
    pushAllowed rule word s <|
      if transitFar s pkg dst then .next (blockOn .order s)
      else .next (advance len (sendFar pkg dst (codeRecord s key b t rule word) s))

/-- R198, R199 -/
def execPushx (d a b : Reg) (s : State) : Outc :=
  checked [.s d, .v a, .s b] s <| pushWord (getS s d) (getV s a) (getVT s a) (getS s b) 4 s
/-- R230 -/
def execEnqi (d a : Reg) (imm : BitVec 32) (s : State) : Outc :=
  checked [.s d, .s a] s <|
    pushWord (getS s d) (BitVec.ofNat 512 (imm.signExtend 64).toNat) rawTag (getS s a) 8 s
/-- R231. DESIGN CHOICE (log 15): no rule names the kind under which sd is translated; the model takes a read. -/
def execPushk (d a : Reg) (w1 : BitVec 32) (s : State) : Outc :=
  checked [.s d, .v a] s <|
    if w1.toNat / 2 ^ 12 ≠ 0 then trap cIllegalOp (word0 (.pushk d a w1)) s
    else
      let key := getS s d
      access s false .read [] [(key, 1)] fun ls =>
        let l := ((ls.headD []).map (·.loc)).headD 0
        if !sameKernel s (coreOf s.ag.place l) s.ag.place then trap cBounds key s
        else pushTo (coreOf s.ag.place l) w1.toNat key (getV s a) (getVT s a) (openA s)
          (BitVec.ofNat 64 (winBase (coreOf s.ag.place l) + w1.toNat)) 8 s
/-- Free the claims of an agent. -/
def freeClaims (g : BitVec 3) (l : List (Option (BitVec 3))) : List (Option (BitVec 3)) :=
  l.map fun x => if x = some g then none else x

/-- The current agent's slot claims are released (R158). -/
def releaseClaims (s : State) : State :=
  let g := s.ag.num
  { s with core := { s.core with
      oclaim := vecOf 64 none (freeClaims g s.core.oclaim.toList)
      aclaim := vecOf 16 none (freeClaims g s.core.aclaim.toList) } }

/-- The tile registers of an ended agent (R217, R323). -/
def dropTiles (a : Agent) : Agent :=
  { a with
    t := Vector.replicate 8 Tile.zero
    timg := Vector.replicate 8 Tile.zero
    trest := 0
    tmma := []
    tshape := 0xFFFFFFFFFFFFFFFF
    tdirty := 0 }

/-- Steps 3 to 5 of HALT; the agent's nodes are young no longer (R316). -/
def haltNow (s : State) : State :=
  let s1 := if s.ag.hrec.isSome then retireSteps s else s
  let s2 := publishNow (levelScope s1.core.kd) s1
  let s3 := retirePushes s2.ag.aid s2
  { s3 with ag := { dropTiles s3.ag with run := .halted } }

/-- HALT, and the end of an agent whose kernel has terminated (R28, R217): it waits for its coprocessor entries, for its
requests and for its tokens. -/
def haltOp (w : Wait) (s : State) : Outc :=
  if s.core.coq.any (fun e => e.aid == s.ag.aid) then .next (blockOn .coproc s)
  else
    let s1 := releaseClaims s
    if s.ag.outreq ≠ 0 ∨ !s.ag.tokens.isEmpty then .next (blockOn w s1)
    else told (levelScope s1.core.kd) w s1 (.next (haltNow s1))

/-- R200, R28 -/
def execRetire (s : State) : Outc :=
  match s.ag.run with
  | .blocked (.retire _) => .next s
  | .blocked (.nodePage _ _) => .next s
  | .blocked .ending => if quiet s && s.ag.tokens.isEmpty then haltOp .ending s else .next s
  | _ =>
    let busy := if s.core.kd.rules.isEmpty then [] else
      [RegUse.s 1, .s 2, .s 3, .s 4, .s 5].filterMap (usePending s.ag)
    if !busy.isEmpty then .next (blockOn (.scoreboard busy []) s)
    else if quiet s then
      told (levelScope s.core.kd) .quiet s (.next (blockOn (.retire s.draws) (retireSteps s)))
    else .next (blockOn .quiet s)
/-- R220. DESIGN CHOICE (log 16): R221 does not say whether its selectors 4 and 5 count a TAKE; the model counts none. -/
def execTake (d a : Reg) (n : Bool) (s : State) : Outc :=
  checked [.s d, .s a, .s 3, .s 4, .s 5] s <|
    let c := s.core
    match (eligible c).find? (fun e => e.key == getS s a) with
    | none => if n then .next (advance 4 (setS d 0 s)) else .next (blockOn .take s)
    | some e =>
      if topxMismatch c e then trap cTopx e.key s
      else
        .next (advance 4 (setS d 1 (loadRecord c.id e { s with core := dropPlace e.place c })))
/-- The value that EXTQ's selector names (R221). -/
def extqValue (c : Core) (x : Nat) : Option Word :=
  match x with
  | 0 => some (BitVec.ofNat 64 (c.kq.filter fun e => e.state == .waiting && !spilled e).length)
  | 1 => some (BitVec.ofNat 64 (c.kq.filter fun e => e.state == .leased).length)
  | 2 => some (BitVec.ofNat 64 (c.kq.filter spilled).length)
  | 3 => some c.folds
  | 4 => some c.dispatches
  | 5 => some c.ovdispatches
  | 6 => some (if c.sumovf then 1 else 0)
  | 7 => some c.refusals
  | _ =>
    if 0x10000 ≤ x ∧ x - 0x10000 < c.kd.tiles then
      let t := bufOf c (x - 0x10000)
      let st := match t.state with | .free => 0 | .empty => 1 | .full => 2
      some (BitVec.ofNat 64 (st + (if t.waiter then 4 else 0) + t.share * 256))
    else none
/-- R221. DESIGN CHOICE (log 15): TRAPA of a selector that R221 does not list is sa. -/
def execExtq (d a : Reg) (s : State) : Outc :=
  checked [.s d, .s a] s <|
    match extqValue s.core (getS s a).toNat with
    | some x => .next (advance 4 (setS d x s))
    | none => trap cQueueBad (getS s a) s

/-! ## Events of the queue -/

/-- A queue that can dispatch nothing more reports exhaustion once (R269). -/
def reportExhaustion (core : CoreId) (s : State) : State :=
  let c := getCore s core
  match c.ctx with
  | none => s
  | some n =>
    let known := s.faultReports.contains (n, c.inst) ||
      (match findInst s n c.inst with | some i => i.state == .faulted | none => true)
    if exhausted s core && !known then reportFault n c.inst s else s

/-- Every queue that can dispatch nothing more reports it. -/
def reportAll (s : State) : State := (coreNames s).foldl (fun x c => reportExhaustion c x) s

/-- The page that the first push at a queue needs for its lookup is asked of the teff core, as the sequencer asks (R25, R193, R303). -/
def askPairs (core : CoreId) (s : State) : State :=
  if (getCore s core).seqpark then s
  else match (pushesAt s core).findSome? fun p => pairMiss s core p.2.nodes with
    | some n => parkSeq core n s
    | none => s

/-- R262, R263, R268: a record that has reached the queue is folded, entered, spilled, staged or refused. -/
def execPushAdmit (core : CoreId) (s : State) : Outc :=
  .next (reportAll (askPairs core (admitFirst core (pushesAt s core) s)))
/-- The oldest spilled record. -/
def oldestSpilled (c : Core) : Option KEntry := c.kq.find? spilled
/-- An entry is free. -/
def entryFree (c : Core) : Bool := (c.kq.filter fun e => e.place < 512).length < 512
/-- A push can be admitted at a queue now. -/
def pushDue (s : State) (core : CoreId) : Bool := (pushesAt s core).any fun p => (admitPush core p.1 p.2 s).isSome
/-- A spilled record can drain. -/
def drainDue (c : Core) : Bool := (oldestSpilled c).isSome && entryFree c
/-- R267 -/
def execSpillDrain (core : CoreId) (s : State) : Outc :=
  let c := getCore s core
  match oldestSpilled c with
  | none => .next s
  | some e =>
    if !entryFree c then .next s
    else if (foldTarget c e.key e.op).isSome then
      .next (matchRecord core e (startEntry core e) (onCore core (dropPlace e.place) s))
    else
      .next (onCore core (fun x => onPlace e.place (fun y =>
        { y with place := freePlace x, payload := placedPayload (freePlace x) y }) x) s)
/-- The queue may dispatch: its core is not stopped, and neither an arrival nor a drain that comes before is due (R253, R262). -/
def mayDispatch (s : State) (core : CoreId) : Bool :=
  !(getCore s core).stopped && !pushDue s core && !drainDue (getCore s core)
/-- R29 -/
def execQueueDispatch (core : CoreId) (s : State) : Outc :=
  if !mayDispatch s core then .next s
  else match nextDispatch s core with
  | none => .next s
  | some (e, .sequencer) => .next (match pairMiss s core e.nodes with
    | some n => parkSeq core n s
    | none => dispatchSeq core e s)
  | some (e, .agent a) =>
    match pairMiss s core e.nodes, a.run with
    | some n, .blocked (.retire t) => .next (askNodePage t a.aid n s)
    | _, _ => .next (dispatchAgent core e a.aid s)
/-- R268 -/
def execTransitReoffer (core : CoreId) (s : State) : Outc :=
  if (getCore s core).stopped then .next s
  else match reofferFirst core (transits (getCore s core)) s with
    | some s1 => .next (reportAll s1)
    | none => .next s

end Sys2Proof.Machine
end

