-- ==== Sys2Proof/Machine/StateStore.lean ====
section
/-! DEFINITION. The recurrent state store (R207 to R213, R233, R327 to R333). A granule map lists granule numbers; number 0
marks a zero granule. -/

namespace Sys2Proof.Machine

/-- The store of a stack. -/
def getStore (s : State) (k : Nat) : StateStore := s.stores.toList.getD k ⟨[], [], 0⟩
/-- Set the store of a stack. -/
def setStore (k : Nat) (x : StateStore) (s : State) : State := { s with stores := s.stores.setIfInBounds k x }

/-- A CLOSED slot that no sequence has taken (R329, R331). -/
def SeqSlot.fresh : SeqSlot := ⟨false, false, 0, 0, 0, [], [], 0⟩
/-- A sequence slot. -/
def getSlot (st : StateStore) (n : Nat) : SeqSlot := alGet SeqSlot.fresh st.slots n
/-- Set a sequence slot. -/
def setSlot (n : Nat) (x : SeqSlot) (st : StateStore) : StateStore :=
  { st with slots := alSet SeqSlot.fresh st.slots n x }

/-- Some map of the store names granule g. -/
def granuleUsed (st : StateStore) (g : Nat) : Bool :=
  st.slots.any fun p => p.2.isOpen && (p.2.head.contains g || p.2.ring.any fun r => r.head.contains g)
/-- How many maps name granule g (R328). -/
def granuleCount (st : StateStore) (g : Nat) : Nat :=
  (st.slots.map fun p =>
    if p.2.isOpen then (if p.2.head.contains g then 1 else 0) + (p.2.ring.filter fun r => r.head.contains g).length
    else 0).sum
/-- Granules that no map names return to the pool (R328). -/
def collect (st : StateStore) : StateStore := { st with granules := st.granules.filter fun g => granuleUsed st g.num }

/-- Granules of a stack (R327). -/
def granuleCap (s : State) (k : Nat) : Nat := s.cfg.store.toList.getD k 0 * 262144
/-- The least granule number not in use; granule g, from 1 on, is the g-th 4 KiB of the reservation (DESIGN CHOICE, log 31). -/
def newGranule (st : StateStore) : Nat :=
  ((List.range (st.granules.length + 1)).find? fun i => !st.granules.any fun g => g.num == i + 1).getD st.granules.length + 1

/-- The blocks of a granule; those of a zero granule are zero with tag 0x7FC0. -/
def granuleBlocks (st : StateStore) (g : Nat) : List (Nat × (Block × Tag)) :=
  match st.granules.find? (fun x => x.num == g) with
  | some x => x.blocks
  | none => []

/-- A zero block. -/
def zeroBlock : Block × Tag := (0, 0x7FC0)

/-- The head block at a byte offset, with its tag (R210). -/
def headGet (st : StateStore) (x : SeqSlot) (off : Nat) : Block × Tag :=
  alGet zeroBlock (granuleBlocks st (x.head.getD (off / 4096) 0)) (off % 4096 / 64)

/-- Write a head block: a zero or shared granule is replaced by one of the head's own (R328); none where no granule is
free. -/
def headSet (cap n off : Nat) (b : Block × Tag) (st : StateStore) : Option StateStore :=
  let x := getSlot st n
  let g := x.head.getD (off / 4096) 0
  let i := off % 4096 / 64
  let bs := alSet zeroBlock (granuleBlocks st g) i b
  if g ≠ 0 ∧ granuleCount st g < 2 then
    some { st with granules := st.granules.map fun y => if y.num = g then ⟨g, bs⟩ else y }
  else if cap ≤ st.granules.length then none
  else
    let h := newGranule st
    some (collect (setSlot n { x with head := x.head.set (off / 4096) h } { st with granules := ⟨h, bs⟩ :: st.granules }))

/-! ## Handles (R207, R208) -/

/-- STACK of a handle. -/
def seqStack (h : Word) : Nat := h.toNat / 2 ^ 24 % 16
/-- SEQ of a handle. -/
def seqNum (h : Word) : Nat := h.toNat % 2 ^ 12
/-- The handle of a slot. -/
def seqHandle (k n : Nat) (gen : BitVec 12) : Word := BitVec.ofNat 64 (k * 2 ^ 24 + gen.toNat * 2 ^ 12 + n)

/-- The slot that a handle names for a context, when it passes the checks of R208. -/
def handleSlot (s : State) (ctx : Nat) (h : Word) : Option SeqSlot :=
  let x := getSlot (getStore s (seqStack h)) (seqNum h)
  if h.toNat / 2 ^ 28 ≠ 0 ∨ 11 < seqStack h ∨ x.gen.toNat ≠ h.toNat / 2 ^ 12 % 2 ^ 12 ∨ !x.isOpen ∨ x.ctx ≠ ctx then none
  else some x

/-- A slot's change is stored, and what no map names any longer returns to the pool. -/
def putSlot (k n : Nat) (x : SeqSlot) (s : State) : State := setStore k (collect (setSlot n x (getStore s k))) s

/-- The lowest-numbered CLOSED slot (R209). -/
def closedSlot (st : StateStore) : Option Nat := (List.range 4096).find? fun n => !(getSlot st n).isOpen

/-- A CLOSED slot keeps its generation (R213, R331). -/
def closeSlot (x : SeqSlot) : SeqSlot := { SeqSlot.fresh with gen := x.gen }

/-! ## Snapshots (R211, R330) -/

/-- The snapshot at exactly a position. -/
def snapAt (x : SeqSlot) (pos : Word) : Option Snap := x.ring.find? fun r => r.pos == pos

/-- Record the head as a snapshot, an old ring entry making room; the dropped position, or all ones. None where every
snapshot of a full ring is pinned. -/
def snapRecord (x : SeqSlot) (pos : Word) (pin : Bool) : Option (SeqSlot × Word) :=
  let add := fun (ring : List Snap) => { x with ring := ring ++ [⟨pos, x.head, pin⟩], latest := pos, active := true }
  if x.ring.length < 16 then some (add x.ring, BitVec.allOnes 64)
  else match x.ring.find? fun r => !r.pinned with
    | none => none
    | some r => some (add (x.ring.filter fun y => y.pos != r.pos), r.pos)

/-- SSSNAP on a sequence (R211): the changed slot and the result, or SEQ_BAD at the position. -/
def snapSlot (x : SeqSlot) (c : SnapCode) (pos : Word) : Option (SeqSlot × Word) :=
  let record := fun (pin : Bool) => if !x.ring.isEmpty && pos.toNat ≤ x.latest.toNat then none else snapRecord x pos pin
  let mark := fun (pin : Bool) =>
    if (snapAt x pos).isNone then some (x, 1)
    else some ({ x with ring := x.ring.map fun r => if r.pos = pos then { r with pinned := pin } else r }, 0)
  match c with
  | .record => record false
  | .pin => record true
  | .unpin => mark false
  | .repin => mark true

/-- A new sequence in slot n, with the slot's next generation. -/
def openAt (k n : Nat) (f : BitVec 12 → SeqSlot) (s : State) : State × OpAnswer :=
  let g := (getSlot (getStore s k) n).gen + 1
  (putSlot k n (f g) s, answer (seqHandle k n g))

/-- A new sequence in the lowest CLOSED slot of a stack, its handle, or SEQ_BAD with a TRAPA (R209). -/
def openSlot (k : Nat) (a : Word) (f : BitVec 12 → SeqSlot) (s : State) : State × OpAnswer :=
  ((closedSlot (getStore s k)).map fun n => openAt k n f s).getD (s, .trapped cSeqBad a)

/-! ## The operations at a stack (R208 to R213, R233) -/

/-- The stack of an operation; a handle or number that names none stays with the agent. -/
def seqStackOf : SeqOp → Nat
  | .open_ k _ => k.toNat
  | .load h _ => seqStack h
  | .store h _ _ _ => seqStack h
  | .snap h _ _ => seqStack h
  | .roll h _ _ => seqStack h
  | .fork h _ => seqStack h
  | .close h => seqStack h

/-- An operation on the sequence of a handle, or SEQ_BAD (R208). -/
def onSlot (ctx : Nat) (h : Word) (s : State) (k : SeqSlot → State × OpAnswer) : State × OpAnswer :=
  match handleSlot s ctx h with
  | none => (s, .trapped cSeqBad h)
  | some x => k x

/-- What an operation of a context does at its stack, and what it answers. -/
def seqDo (ctx : Nat) (o : SeqOp) (s : State) : State × OpAnswer :=
  let k := seqStackOf o
  let st := getStore s k
  match o with
  | .open_ a z => openSlot k a (fun g => ⟨true, false, g, ctx, z, List.replicate (z / 4096) 0, [], 0⟩) s
  | .load h off => onSlot ctx h s fun x =>
    if x.size ≤ off.toNat then (s, .trapped cBounds off)
    else
      let r := headGet st x off.toNat
      (s, .done ⟨0, r.1, r.2, false, true⟩)
  | .store h off b t => onSlot ctx h s fun x =>
    if x.size ≤ off.toNat then (s, .trapped cBounds off)
    else match headSet (granuleCap s k) (seqNum h) off.toNat (b, t) st with
      | none => (s, .trapped cSeqBad h)
      | some st1 => (setStore k st1 s, answer 0)
  | .snap h c pos => onSlot ctx h s fun x => match snapSlot x c pos with
    | none => (s, .trapped cSeqBad pos)
    | some r => (putSlot k (seqNum h) r.1 s, answer r.2)
  | .roll h pos t => onSlot ctx h s fun x => match snapAt x pos with
    | none => (s, if t then .trapped cSeqBad pos else answer 1)
    | some r => (putSlot k (seqNum h)
        { x with head := r.head, ring := x.ring.filter fun y => y.pos.toNat ≤ pos.toNat, latest := pos } s, answer 0)
  | .fork h pos => onSlot ctx h s fun x => match snapAt x pos with
    | none => (s, .trapped cSeqBad pos)
    | some r => openSlot k h (fun g => ⟨true, true, g, ctx, x.size, r.head, [⟨pos, r.head, false⟩], pos⟩) s
  | .close h => onSlot ctx h s fun x => (putSlot k (seqNum h) (closeSlot x) s, answer 0)

/-- An operation at a stack for the current agent. -/
def seqAct (o : SeqOp) (s : State) : State × Option OpAnswer :=
  let r := seqDo s.ag.ctx o s
  (r.1, some r.2)

/-! ## The instructions -/

/-- The request of an operation leaves for its stack; a handle that cannot name one traps at once (R208). -/
def askSeq (h : Word) (o : SeqOp) (s : State) : Outc :=
  if h.toNat / 2 ^ 28 ≠ 0 ∨ 11 < seqStack h then trap cSeqBad h s else ask (stackId (seqStack h)) (.seq o) s

/-- The result of a state store operation in sd (R209, R211, R212). -/
def seqFin (d : Reg) (len : Nat) (x : OpData) (s : State) : Outc := .next (advance len (setS d x.value s))

/-- R209 -/
def execSsopen (d a b : Reg) (s : State) : Outc :=
  checked [.s d, .s a, .s b] s <| completing (seqFin d 4) s <|
    let k := (getS s a).toNat
    let z := (getS s b).toNat
    if 11 < k then trap cSeqBad (getS s a) s
    else if z % 4096 ≠ 0 ∨ z < 4096 ∨ 1048576 < z then trap cSeqBad (getS s b) s
    else ask (stackId k) (.seq (.open_ (getS s a) z)) s
/-- R210 -/
def execSsld (d a b : Reg) (s : State) : Outc :=
  checked [.v d, .s a, .s b] s <|
    completing (fun (x : OpData) (s : State) => .next (advance 4 (setV d x.block x.tag s))) s <|
      let off := getS s b
      if off.toNat % 64 ≠ 0 then trap cMisaligned off s else askSeq (getS s a) (.load (getS s a) off) s
/-- R210 -/
def execSsst (d a b : Reg) (s : State) : Outc :=
  checked [.v d, .s a, .s b] s <| completing (fun (_ : OpData) (s : State) => .next (advance 4 s)) s <|
    let off := getS s b
    if off.toNat % 64 ≠ 0 then trap cMisaligned off s
    else askSeq (getS s a) (.store (getS s a) off (getV s d) (getVT s d)) s
/-- R211 -/
def execSssnap (d a b : Reg) (c : SnapCode) (s : State) : Outc :=
  checked [.s d, .s a, .s b] s <| completing (seqFin d 4) s <| askSeq (getS s a) (.snap (getS s a) c (getS s b)) s
/-- R233 -/
def execSssnapi (d a : Reg) (c : SnapCode) (pos : BitVec 32) (s : State) : Outc :=
  checked [.s d, .s a] s <| completing (seqFin d 8) s <| askSeq (getS s a) (.snap (getS s a) c (pos.setWidth 64)) s
/-- R212 -/
def execSsroll (d a b : Reg) (t : Bool) (s : State) : Outc :=
  checked [.s d, .s a, .s b] s <| completing (seqFin d 4) s <| askSeq (getS s a) (.roll (getS s a) (getS s b) t) s
/-- R209 -/
def execSsfork (d a b : Reg) (s : State) : Outc :=
  checked [.s d, .s a, .s b] s <| completing (seqFin d 4) s <| askSeq (getS s a) (.fork (getS s a) (getS s b)) s
/-- R213 -/
def execSsclose (a : Reg) (s : State) : Outc :=
  checked [.s a] s <| completing (fun (_ : OpData) (s : State) => .next (advance 4 s)) s <|
    askSeq (getS s a) (.close (getS s a)) s

end Sys2Proof.Machine
end

