-- ==== Sys2Proof/Machine/Engine.lean ====
section
/-! DEFINITION. Engines and what commands them: chains, CPY, GATHER, SCATTER, PUBLISH, streams (R79, R80, R202 to R206, R229,
R293, R294, R320, R342 to R349, R385 to R391). -/

namespace Sys2Proof.Machine

/-! ## Accesses by engines (R385, R386) -/

/-- Why an engine's access fails. -/
inductive EngErr | misaligned | bounds | miss
  deriving DecidableEq, Repr

/-- The failure code of an access (R345); a miss waits and is none. -/
def engCode : EngErr → Nat
  | .misaligned => 2
  | .bounds => 3
  | .miss => 0

/-- The locations of a block as a core's engine reaches it. -/
def engLocs (s : State) (core : CoreId) (hostOk : Bool) (va : Word) (k : FKind) : Except EngErr (List XOk) :=
  if va.toNat % 64 ≠ 0 then .error .misaligned
  else match (getCore s core).ctx with
  | none => .error .bounds
  | some n => (List.range 64).mapM fun i =>
    match xlate s (getCore s core) n (va + BitVec.ofNat 64 i) k [] with
    | .ok x => if !hostOk && isHostLoc x.loc then .error .bounds else .ok x
    | .error .bounds => .error .bounds
    | .error .miss => .error .miss

/-- The block at locations, as it stands at its home; a poisoned page gives scale 0xFF (R301, R385). -/
def engBlock (s : State) (locs : List Nat) (poison : Bool) : Block × Tag :=
  let l := locs.headD 0
  let t := if isHostLoc l then (0x7FC0 : Tag) else memTag s.mem l
  (BitVec.ofNat 512 (bytesToNat (locs.map (memByte s.mem))), if poison then t ||| 0xFF00 else t)

/-- The context that a core hosts. -/
def ctxOf (s : State) (core : CoreId) : Nat := (getCore s core).ctx.getD 0

/-- A block that an engine asks for is read at its home. -/
def fillBlock (s : State) (x : Inflight) : Inflight :=
  let r := engBlock s x.locs x.poison
  { x with data := r.1, tag := r.2, bad := isStruck s (x.locs.headD 0) }

/-- The party at which the engine of a chain works: the core, or the stack of a state store engine (R12, R348). -/
def chainParty (core : CoreId) (ch : Chain) : CoreId := if ch.kind = 3 then stackId ch.stack else core

/-- An engine of a core, at a party, reads block number ix at its home: at the party itself at once, elsewhere by a request whose reply
brings the data (R385, R394). -/
def askBlock (party core : CoreId) (ix : Nat) (xs : List XOk) (s : State) : Inflight × State :=
  let locs := xs.map (·.loc)
  let h := homeName (locs.headD 0)
  let x : Inflight := ⟨ix, s.msgs, locs, xs.any (·.poison), 0, 0x7FC0, false, false, false, false⟩
  let s1 := { s with msgs := s.msgs + 1 }
  if h = party then ({ fillBlock s x with here := true }, s1)
  else (x, sendFor core h party h (ctxOf s core) 0
    (if isFarLoc (locs.headD 0) then .readFar (.engine core x.id) (locs.headD 0) else .request (.engine core x.id) false true) s1)

/-- A block that has not been read from memory: a fill, or one of a state store's head. -/
def madeBlock (ix : Nat) (b : Block) (t : Tag) (s : State) : Inflight := ⟨ix, s.msgs, [], false, b, t, true, false, false, false⟩

/-- The tag under which a block with an uncorrectable error is written where the command goes on (R205, R347, R422). -/
def Inflight.outTag (x : Inflight) : Tag := if x.bad then x.tag ||| 0xFF00 else x.tag

/-- The keys of a block and its tag. -/
def blockKeys (locs : List Nat) : List Nat := locs ++ [tagKey (blockOf (locs.headD 0))]

/-- A block and its tag leave for their home, for a command; at the engine's own party they are written at once (R167, R386). -/
def sendBlock (party core : CoreId) (chain seq : Nat) (xs : List XOk) (x : Inflight) (t : Tag) (s : State) : Inflight × State :=
  let locs := xs.map (·.loc)
  let h := homeName (locs.headD 0)
  let bytes := withBytes locs x.data.toNat
  let tags := [(blockOf (locs.headD 0), t)]
  if h = party then ({ x with out := true, acked := true, locs := locs }, engineWrite chain seq bytes tags s)
  else ({ x with out := true, locs := locs },
    sendFor core h party h (ctxOf s core) 0 (.store core x.id chain seq bytes tags) s)

/-- The write of a block by an engine: it is sent, then its home acknowledges it, and `written` goes on with its keys; an access that
fails, and one that is on its way, go on with `failed` and `sent`. -/
def writing (party core : CoreId) (chain seq : Nat) (hostOk : Bool) (va : Word) (x : Inflight) (t : Tag) (failed : EngErr → State → State)
    (sent : Inflight → State → State) (written : List Nat → State → State) (s : State) : State :=
  if x.out then (if x.acked then written (blockKeys x.locs) s else s)
  else match engLocs s core hostOk va .engWrite with
  | .error e => failed e s
  | .ok xs =>
    let r := sendBlock party core chain seq xs x t s
    if r.1.acked then written (blockKeys r.1.locs) r.2 else sent r.1 r.2

/-- An engine's access at a party waits on the teff core of its core (R303, R304); its request number is open (log 15). -/
def parkEngine (who : Parked) (party core : CoreId) (va : Word) (k : FKind) (s : State) : State :=
  let x := match (getCore s core).ctx with | some n => findCtx s n | none => none
  sendAs party (teffName (teffOf s core)) (ctxOf s core) 0 (.fault {
    who := who
    asid := match x with | some c => c.asid | none => 0
    root := match x with | some c => c.root | none => 0
    va := renamed s (getCore s core) va
    report := va
    kind := k
    place := whereOf core 0
    seq := (openA s).setWidth 24
    stage := 1
    record := none }) s

/-! ## Tokens (R202) -/

/-- A number that names a command, and the counter behind it. -/
def newKey (s : State) : Nat × State := (s.msgs, { s with msgs := s.msgs + 1 })

/-- A token's word. -/
def tokenWord (status value : Nat) : Word := BitVec.ofNat 64 (status * 2 ^ 56 + value % 2 ^ 48)

/-- The current agent has a pending token; that of GATHER and SCATTER is a numbered request (R190, R238). -/
def addToken (d : Reg) (key : Nat) (counts : Bool) (s : State) : State :=
  { s with ag := { s.ag with
      tokens := s.ag.tokens ++ [⟨d.toNat, key, counts⟩]
      outreq := if counts then s.ag.outreq + 1 else s.ag.outreq
      reqseq := if counts then s.ag.reqseq + 1 else s.ag.reqseq } }

/-- The agent takes a token in: the register, which a double trap has frozen (R240), and the bytes of the command, which its
later reads return and its PUBLISH makes visible (R202, R356, R389). -/
def takeToken (m : Mem) (key : Nat) (w : Word) (keys : List Nat) (a : Agent) : Agent :=
  match a.tokens.find? (fun t => t.key == key) with
  | none => a
  | some t =>
    { takeIn m keys a with
      tokens := a.tokens.filter fun x => x.key != key
      s := if t.reg = 0 ∨ a.run = .dead then a.s else a.s.setIfInBounds t.reg w
      outreq := if t.counts then a.outreq - 1 else a.outreq
      cmdKeys := addWritten keys a.cmdKeys }

/-- A token reaches its agent. -/
def landToken (aid key : Nat) (w : Word) (keys : List Nat) (s : State) : State := onAgent aid (takeToken s.mem key w keys) s

/-- The unit of a core writes a token: at its own core at once, elsewhere by a message. -/
def writeToken (core : CoreId) (aid key : Nat) (w : Word) (keys : List Nat) (s : State) : State :=
  match findAgent s aid with
  | none => s
  | some a => if a.place = core then landToken aid key w keys s else send core a.place a.ctx (.token aid key w keys) s

/-! ## Fills of tile buffers (R320) -/

/-- The tile buffer whose handle an address is. -/
def handleBuf (s : State) (core : CoreId) (va : Word) : Option (CoreId × Nat) :=
  match (getCore s core).ctx with
  | none => none
  | some n =>
    if va.toNat / 2 ^ 48 ≠ 0xFE ∨ va.toNat / 2 ^ 21 % 2 = 1 ∨ va.toNat % 1024 ≠ 0 then none
    else match windowLoc s n va.toNat [] with
      | .error _ => none
      | .ok l =>
        let b := sliceOff l / 1024
        if b < (getCore s (coreOfLoc l)).kd.tiles then some (coreOfLoc l, b) else none

/-- A fill begins at a destination: none where it is refused; otherwise the buffer, when there is one (R320). -/
def beginFill (core : CoreId) (dst : Word) (s : State) : Option (Option (CoreId × Nat) × State) :=
  match handleBuf s core dst with
  | none => some (none, s)
  | some (c, b) =>
    let t := bufOf (getCore s c) b
    let share := if t.state = .free then 0 else t.share
    if share ≠ 0 ∨ (t.state ≠ .free ∧ t.waiter) then none
    else some (some (c, b), onCore c (setBuf b ⟨.empty, 0, true⟩) s)

/-- A fill ends (R320). -/
def endFill (ok : Bool) (f : Option (CoreId × Nat)) (s : State) : State :=
  match f with
  | none => s
  | some (c, b) => onCore c (fun x =>
      setBuf b { bufOf x b with state := if ok then .full else (bufOf x b).state, waiter := false } x) s

/-! ## Chains (R342 to R344) -/

/-- A field of a block: n bytes from an offset. -/
def blkNat (b : Block) (off n : Nat) : Nat := b.toNat / 2 ^ (8 * off) % 2 ^ (8 * n)
/-- A signed field of a block, as a word. -/
def blkInt (b : Block) (off n : Nat) : Word := BitVec.ofInt 64 (codeInt true (8 * n) (blkNat b off n))
/-- A word of a block. -/
def blkWord (b : Block) (off : Nat) : Word := BitVec.ofNat 64 (blkNat b off 8)

/-- The kept state of the chain whose header stands at a slice offset. -/
def findChain (c : Core) (hdr : Nat) : Option Chain := c.chains.find? fun x => x.hdr == hdr
/-- Change a chain's state. -/
def onChain (core : CoreId) (hdr : Nat) (f : Chain → Chain) (s : State) : State :=
  onCore core (fun c => { c with chains := c.chains.map fun x => if x.hdr = hdr then f x else x }) s

/-- The name of a chain: its header block's location. -/
def chainName (core : CoreId) (hdr : Nat) : Nat := sliceBase core + hdr

/-- The locations of n bytes from an offset of a block, seen through a view (R69). -/
def viewLocs (skew : Bool) (base blk off n : Nat) : List Nat :=
  (List.range n).map fun i => base + (if skew then skewOff (blk + off + i) else blk + off + i)

/-- A block seen through a view. -/
def viewBlock (m : Mem) (skew : Bool) (core : CoreId) (blk : Nat) : Block :=
  BitVec.ofNat 512 (bytesToNat ((viewLocs skew (sliceBase core) blk 0 64).map (memByte m)))

/-- A window address names the skewed view (R66, R69). -/
def isSkewed (a : Word) : Bool := a.getLsbD 21

/-- The header of a block of memory, when it obeys its limits (R342). -/
def chainOf (s : State) (core : CoreId) (hdr : Nat) (skew : Bool) : Option Chain :=
  let b := viewBlock s.mem skew core hdr
  let ring := blkWord b 8
  let kind := blkNat b 0 1
  let lg := blkNat b 1 1
  let st := blkNat b 2 1
  match (getCore s core).ctx with
  | none => none
  | some n =>
    match windowLoc s n ring.toNat [], windowLoc s n (ring.toNat + 64 * (2 ^ lg - 1)) [] with
    | .ok l, .ok l' =>
      if kind = 0 ∨ 3 < kind ∨ lg = 0 ∨ 12 < lg ∨ 11 < st ∨ (kind ≠ 3 ∧ st ≠ 0) ∨ blkNat b 3 5 ≠ 0 ∨
          ring.toNat / 2 ^ 48 ≠ 0xFE ∨ ring.toNat % 64 ≠ 0 ∨ coreOfLoc l ≠ core ∨ coreOfLoc l' ≠ core ∨ blkNat b 16 25 ≠ 0 ∨
          blkNat b 41 23 ≠ 0 ∨ 64 ≤ (getCore s core).chains.length then none
      else some ⟨hdr, kind, lg, st, blockOf (sliceOff l), skew, isSkewed ring, 0, 0, none, []⟩
    | _, _ => none

/-- The chain that an ENQ reaches, and the state with its header taken (R342). -/
def takeChain (core : CoreId) (hdr : Nat) (skew : Bool) (s : State) : Option (Chain × State) :=
  match findChain (getCore s core) hdr with
  | some x => some (x, s)
  | none => match chainOf s core hdr skew with
    | none => none
    | some x => some (x, onCore core (fun c => { c with chains := c.chains ++ [x] }) s)

/-- Slice offset of the ring block of a sequence number (R343). -/
def ringOff (x : Chain) (n : Nat) : Nat := x.ring + 64 * (n % 2 ^ x.ringlog)

/-- The command in the ring under a sequence number. -/
def ringCmd (s : State) (core : CoreId) (x : Chain) (n : Nat) : Block := viewBlock s.mem x.ringSkew core (ringOff x n)

/-- Locations of n bytes of a chain's header. -/
def headerBytes (core : CoreId) (x : Chain) (off n : Nat) : List Nat := viewLocs x.skew (sliceBase core) x.hdr off n

/-- The hardware writes a word of a chain's header for a command (R343, R344). -/
def headerWord (core : CoreId) (x : Chain) (seq off v : Nat) (s : State) : State :=
  engineWrite (chainName core x.hdr) seq (withBytes (headerBytes core x off 8) v) [] s

/-- The block that ENQ writes into the ring: vb, but for the sequence number, TOPX and byte 63 (R343). -/
def ringBlock (b : Block) (n : Nat) (topx : Bool) : Block :=
  BitVec.ofNat 512 (b.toNat % 2 ^ 448 + n % 2 ^ 48 * 2 ^ 448 +
    (b.toNat / 2 ^ 497 % 2 ^ 7 * 2 + (if topx then 1 else 0)) * 2 ^ 496)

/-- A command in hand. -/
def beginCmd (n : Nat) (b : Block) : EngCmd := ⟨n, b, b.getLsbD 496, 0, 0, [], false, 0, false, none, none, []⟩

/-- OP of a command. -/
def cmdOp (b : Block) : Nat := blkNat b 0 1
/-- POST of a command. -/
def cmdPost (b : Block) : Bool := b.getLsbD 8

/-- The token of a command, when an agent waits for it. -/
def chainToken (core : CoreId) (hdr seq : Nat) (w : Word) (keys : List Nat) : List (Nat × Nat × Nat) → State → State
  | [], s => s
  | t :: ts, s =>
    chainToken core hdr seq w keys ts (if t.1 = seq then writeToken core t.2.1 t.2.2 w keys s else s)

/-- A command ends with a code: FAILSEQ and FAILCODE, COMPLETION, the token (R344). -/
def finishCmd (core : CoreId) (ch : Chain) (c : EngCmd) (code : Nat) (s : State) : State :=
  let nm := chainName core ch.hdr
  let s1 := endFill (code == 0) c.fill s
  let s2 := if code = 0 then s1
    else engineWrite nm c.seq (withBytes (headerBytes core ch 40 1) code) [] (headerWord core ch c.seq 32 c.seq s1)
  let s3 := headerWord core ch c.seq 24 c.seq s2
  let s4 := onChain core ch.hdr (fun x =>
    { x with comp := c.seq, cmd := none, toks := x.toks.filter fun t => t.1 != c.seq }) s3
  chainToken core ch.hdr c.seq (tokenWord code c.seq) c.keys ch.toks s4

/-- Set the command in hand. -/
def putCmd (core : CoreId) (ch : Chain) (c : EngCmd) (s : State) : State :=
  onChain core ch.hdr (fun x => { x with cmd := some c }) s

/-- The command waits on the teff core. -/
def parkCmd (core : CoreId) (ch : Chain) (c : EngCmd) (va : Word) (k : FKind) (s : State) : State :=
  parkEngine (.chain core ch.hdr) (chainParty core ch) core va k (putCmd core ch { c with parked := true } s)

/-- An access of a command has failed: it waits, or ends with the access's code. -/
def cmdFailed (core : CoreId) (ch : Chain) (c : EngCmd) (va : Word) (k : FKind) (e : EngErr) (s : State) : State :=
  match e with
  | .miss => parkCmd core ch c va k s
  | .bounds => finishCmd core ch c 3 s
  | .misaligned => finishCmd core ch c 2 s

/-! ## Posts (R293, R294) -/

/-- A post leaves the engine of a chain for its barrier; one whose handle names no core of the context is refused at once (R179, R180,
R294). -/
def sendPost (core : CoreId) (ch : Chain) (c : EngCmd) (n : Nat) (s : State) : State :=
  let h := blkNat c.cmd 4 4
  let t := coreNear core (h / 2 ^ 22)
  if h / 2 ^ 8 % 2 ^ 14 ≠ 0 ∨ !isComputeCore t ∨ (getCore s t).ctx ≠ (getCore s core).ctx then finishCmd core ch c 6 s
  else
    sendFor core t (chainParty core ch) t (ctxOf s core) 0 (.post (BitVec.ofNat 8 h) (BitVec.ofNat 40 n) ch.hdr)
      (putCmd core ch { c with posting := true } s)

/-- The answer to a post (R294). -/
def postAnswered (ok : Bool) (c : EngCmd) : EngCmd :=
  { c with posting := false, posted := c.posted + 1, fail := if ok then c.fail else some 6 }

/-! ## COPY (R346) -/

/-- Cj of a COPY. -/
def copyC (b : Block) (j : Nat) : Nat := blkNat b (24 + 2 * j) 2
/-- Blocks of one tile. -/
def copyPer (b : Block) : Nat := copyC b 0 * copyC b 1
/-- Blocks of the command. -/
def copyTotal (b : Block) : Nat := copyPer b * copyC b 2 * copyC b 3
/-- Source of block i, or none outside the tensor. -/
def copySrc (b : Block) (i : Nat) : Option Word :=
  let k := i / copyPer b
  let r := i % copyPer b
  let y := r / copyC b 0
  let c := k % copyC b 2
  let d := k / copyC b 2
  if y < blkNat b 44 2 ∧ c < blkNat b 46 2 ∧ d < blkNat b 48 2 then
    some (blkWord b 8 + BitVec.ofNat 64 (64 * (r % copyC b 0)) + BitVec.ofNat 64 y * blkInt b 32 4 +
      BitVec.ofNat 64 c * blkInt b 36 4 + BitVec.ofNat 64 d * blkInt b 40 4)
  else none
/-- Distance of tiles. -/
def copyStride (b : Block) : Word := if blkNat b 52 4 = 0 then BitVec.ofNat 64 (64 * copyPer b) else blkInt b 52 4
/-- Destination of block i. -/
def copyDst (b : Block) (i : Nat) : Word :=
  blkWord b 16 + BitVec.ofNat 64 (i / copyPer b) * copyStride b + BitVec.ofNat 64 (64 * (i % copyPer b))
/-- The fill block and its tag. -/
def copyFill (b : Block) : Block × Tag :=
  if !b.getLsbD 9 then (0, 0x7FC0)
  else match blkNat b 1 1 / 4 % 4 with
    | 0 => (mkBlock 16 32 fun _ => nanBits fmtBF16, 0x7FC1)
    | 1 => (mkBlock 16 32 fun _ => nanBits fmtF16, 0x7FC2)
    | 2 => (mkBlock 32 16 fun _ => nanBits fmtF32, 0x7FC3)
    | _ => (mkBlock 64 8 fun _ => nanBits fmtF64, 0x7FC4)

/-- Checks of the bytes that every command shares (R345). -/
def headBad (b : Block) : Bool :=
  blkNat b 1 1 / 16 != 0 || blkNat b 2 2 != 0 || (!cmdPost b && blkNat b 4 4 != 0)

/-- The check that a command begins with: a failure code or 0. -/
def cmdCheck (s : State) (core : CoreId) (ch : Chain) (b : Block) : Nat :=
  let mis := fun (offs : List (Nat × Nat)) => offs.any fun p => blkNat b p.1 p.2 % 64 != 0
  if headBad b then 1
  else match cmdOp b, ch.kind with
    | 0, _ => 0
    | 1, 1 =>
      if copyTotal b = 0 ∨ blkNat b 50 2 ≠ 0 then 1
      else if mis [(8, 8), (16, 8), (32, 4), (36, 4), (40, 4), (52, 4)] then 2 else 0
    | 2, 2 =>
      let n := blkNat b 24 4
      if n = 0 ∨ 65536 < n ∨ blkNat b 28 28 ≠ 0 then 1 else if mis [(8, 8), (16, 8)] then 2 else 0
    | 5, 1 => if mis [(8, 8)] then 2 else 0
    | 3, 3 => ssCheck mis
    | 4, 3 => ssCheck mis
    | _, _ => 1
where
  /-- The checks of a state store command (R345, R348). -/
  ssCheck (mis : List (Nat × Nat) → Bool) : Nat :=
    if mis [(16, 8), (24, 4), (28, 4)] then 2
    else match (getCore s core).ctx with
      | none => 3
      | some n => match handleSlot s n (blkWord b 8) with
        | none => 8
        | some x =>
          if seqStack (blkWord b 8) ≠ ch.stack ∨ x.size < blkNat b 24 4 + blkNat b 28 4 then 8 else 0

/-- Block i of a COPY may begin a fill: of a tile of 1,024 bytes, or of the whole command where its smaller tiles follow one
another over 1,024 bytes (R320, R346). -/
def beginsFill (b : Block) (i : Nat) : Bool :=
  if copyPer b = 16 then i % 16 == 0
  else i == 0 && copyTotal b == 16 && copyStride b == BitVec.ofNat 64 (64 * copyPer b)

/-- A COPY goes on: a post that is due, the end, or the next block (R346). -/
def copyWork (core : CoreId) (ch : Chain) (c : EngCmd) (s : State) : State :=
  let b := c.cmd
  let per := copyPer b
  let i := c.next
  if !c.inflight.isEmpty then s
  else if cmdPost b ∧ c.posted < i / per then sendPost core ch c (64 * per) s
  else if i = copyTotal b then finishCmd core ch c 0 s
  else
    let go := fun (c : EngCmd) (s : State) =>
      match copySrc b i with
      | none =>
        let f := copyFill b
        putCmd core ch { c with next := i + 1, inflight := [madeBlock i f.1 f.2 s] } { s with msgs := s.msgs + 1 }
      | some va => match engLocs s core true va .engRead with
        | .error e => cmdFailed core ch c va .engRead e s
        | .ok xs =>
          let r := askBlock core core i xs s
          onCore core (bumpEngine 5 1) (putCmd core ch { c with next := i + 1, inflight := [r.1] } r.2)
    if beginsFill b i ∧ c.fill = none then
      match beginFill core (copyDst b i) s with
      | none => finishCmd core ch c 7 s
      | some (f, s1) => go { c with fill := f } s1
    else go c s

/-- A block of a COPY is written; an uncorrectable error in it ends the command (R345). -/
def copyWrote (core : CoreId) (ch : Chain) (c : EngCmd) (x : Inflight) (s : State) : State :=
  let b := c.cmd
  let va := copyDst b x.ix
  if x.bad then finishCmd core ch c 5 s
  else
    let last := (x.ix + 1) % 16 = 0
    writing core core (chainName core ch.hdr) c.seq true va x x.tag (fun e s => cmdFailed core ch c va .engWrite e s)
      (fun y s => putCmd core ch { c with inflight := [y] } s)
      (fun keys s =>
        let s1 := if last then endFill true c.fill s else s
        let s2 := if (copySrc b x.ix).isNone then onCore core (bumpEngine 6 1) s1 else s1
        putCmd core ch { c with
          inflight := []
          done := c.done + 1
          fill := if last then none else c.fill
          keys := c.keys ++ keys } s2) s

/-! ## GATHER commands (R347) -/

/-- The next entry of a GATHER's list: its address in memory, then what it holds. -/
def gatherEntry (s : State) (core : CoreId) (b : Block) (i : Nat) : Except (EngErr × Word) Word :=
  let la := blkWord b 8 + BitVec.ofNat 64 (8 * i / 64 * 64)
  match engLocs s core false la .engRead with
  | .error e => .error (e, la)
  | .ok xs => .ok (BitVec.ofNat 64 (lane 64 (i % 8) (engBlock s (xs.map (·.loc)) false).1))

/-- A GATHER goes on: it keeps up to 64 reads in flight; a failing entry ends it when every block below is written. -/
def gatherWork (core : CoreId) (ch : Chain) (c : EngCmd) (s : State) : State :=
  let b := c.cmd
  let i := c.next
  let count := blkNat b 24 4
  let failed := fun (e : EngErr) (va : Word) (s : State) =>
    match e with
    | .miss => parkCmd core ch c va .engRead s
    | .bounds => putCmd core ch { c with fail := some 3 } s
    | .misaligned => putCmd core ch { c with fail := some 2 } s
  if i = count then
    if !c.inflight.isEmpty then s
    else if c.fill.isSome then putCmd core ch { c with fill := none } (endFill true c.fill s)
    else if cmdPost b ∧ c.done > 0 ∧ c.posted = 0 then sendPost core ch c (64 * c.done) s
    else finishCmd core ch c 0 s
  else if 64 ≤ c.inflight.length then s
  else match (if i = 0 ∧ count = 16 ∧ c.fill = none then beginFill core (blkWord b 16) s else some (c.fill, s)) with
    | none => finishCmd core ch c 7 s
    | some (f, s1) =>
      let c := { c with fill := f }
      match gatherEntry s1 core b i with
      | .error (e, la) => failed e la (putCmd core ch c s1)
      | .ok va =>
        if va = 0 then putCmd core ch { c with next := i + 1 } s1
        else match engLocs s1 core false va .engRead with
          | .error e => failed e va (putCmd core ch c s1)
          | .ok xs =>
            let r := askBlock core core i xs s1
            putCmd core ch { c with next := i + 1, inflight := c.inflight ++ [r.1] } r.2

/-- A block of a GATHER is written, in ascending order; one with an uncorrectable error is written as poisoned (R347). The last
one ends a fill (R320). -/
def gatherWrote (core : CoreId) (ch : Chain) (c : EngCmd) (x : Inflight) (s : State) : State :=
  let va := blkWord c.cmd 16 + BitVec.ofNat 64 (64 * x.ix)
  let last := c.next = blkNat c.cmd 24 4 ∧ c.inflight.length = 1
  writing core core (chainName core ch.hdr) c.seq false va x x.outTag (fun e s => cmdFailed core ch c va .engWrite e s)
    (fun y s => putCmd core ch { c with inflight := y :: c.inflight.drop 1 } s)
    (fun keys s =>
      let s1 := if last then endFill true c.fill s else s
      putCmd core ch { c with
        inflight := c.inflight.drop 1
        done := c.done + 1
        fill := if last then none else c.fill
        keys := c.keys ++ keys } (onCore core (bumpEngine 7 1) s1)) s

/-! ## State store commands (R348, R391) -/

/-- A state store command goes on; at a stop of the core it starts no other block (R333). -/
def ssWork (core : CoreId) (ch : Chain) (c : EngCmd) (s : State) : State :=
  let b := c.cmd
  let i := c.next
  let h := blkWord b 8
  if !c.inflight.isEmpty then s
  else if i = blkNat b 28 4 / 64 then
    if cmdPost b ∧ i > 0 ∧ c.posted = 0 then sendPost core ch c (64 * i) s else finishCmd core ch c 0 s
  else if (getCore s core).stopped then s
  else match handleSlot s ((getCore s core).ctx.getD 0) h with
    | none => finishCmd core ch c 8 s
    | some x =>
      if cmdOp b = 3 then
        let r := headGet (getStore s ch.stack) x (blkNat b 24 4 + 64 * i)
        putCmd core ch { c with next := i + 1, inflight := [madeBlock i r.1 r.2 s] } { s with msgs := s.msgs + 1 }
      else
        let va := blkWord b 16 + BitVec.ofNat 64 (64 * i)
        match engLocs s core true va .engRead with
        | .error e => cmdFailed core ch c va .engRead e s
        | .ok xs =>
          let r := askBlock (stackId ch.stack) core i xs s
          putCmd core ch { c with next := i + 1, inflight := [r.1] } r.2

/-- A block of a state store command is written: to memory, or to the head. -/
def ssWrote (core : CoreId) (ch : Chain) (c : EngCmd) (x : Inflight) (s : State) : State :=
  let b := c.cmd
  let h := blkWord b 8
  let done := { c with inflight := [], done := c.done + 1 }
  if cmdOp b = 3 then
    let va := blkWord b 16 + BitVec.ofNat 64 (64 * x.ix)
    writing (stackId ch.stack) core (chainName core ch.hdr) c.seq true va x x.tag
      (fun e s => cmdFailed core ch c va .engWrite e s) (fun y s => putCmd core ch { c with inflight := [y] } s)
      (fun keys s => putCmd core ch { done with keys := c.keys ++ keys } s) s
  else match handleSlot s ((getCore s core).ctx.getD 0) h with
    | none => finishCmd core ch c 8 s
    | some _ =>
      match headSet (granuleCap s ch.stack) (seqNum h) (blkNat b 24 4 + 64 * x.ix) (x.data, x.outTag) (getStore s ch.stack) with
      | none => finishCmd core ch c 8 s
      | some st => putCmd core ch done (setStore ch.stack st s)

/-- COUNTERS (R349): the counters are read, and their block is written. -/
def countersWork (core : CoreId) (ch : Chain) (c : EngCmd) (s : State) : State :=
  let ws := (getCore s core).engines.toList
  let x := madeBlock 0 (mkBlock 64 8 fun i => (ws.getD i 0).toNat) 0x7FC0 s
  putCmd core ch { c with inflight := [x] } { s with msgs := s.msgs + 1 }

/-- The block of COUNTERS is written, and the command ends. -/
def countersWrote (core : CoreId) (ch : Chain) (c : EngCmd) (x : Inflight) (s : State) : State :=
  let va := blkWord c.cmd 8
  writing core core (chainName core ch.hdr) c.seq false va x x.tag (fun e s => cmdFailed core ch c va .engWrite e s)
    (fun y s => putCmd core ch { c with inflight := [y] } s) (fun keys s => finishCmd core ch { c with keys := keys } 0 s) s

/-! ## The events of a chain (R344) -/

/-- The OP of the command in hand, or of the next one when a command may start. -/
def chainOp (s : State) (core : CoreId) (ch : Chain) : Option Nat :=
  match ch.cmd with
  | some c => some (cmdOp c.cmd)
  | none => if ch.comp < ch.tail ∧ !(getCore s core).stopped then some (cmdOp (ringCmd s core ch (ch.comp + 1))) else none

/-- A chain has work that its engine may take up now: a command to start, or one in hand that waits for nothing. -/
def chainWorks (s : State) (core : CoreId) (ch : Chain) : Bool :=
  (chainOp s core ch).isSome && match ch.cmd with
    | none => true
    | some c => !c.parked && !c.posting && match c.fail with
      | some _ => c.inflight.isEmpty
      | none =>
        if ch.kind = 2 then c.inflight.length < 64 && (c.next < blkNat c.cmd 24 4 || c.inflight.isEmpty)
        else c.inflight.isEmpty && !(ch.kind == 3 && (getCore s core).stopped && c.next < blkNat c.cmd 28 4 / 64)

/-- A CPY that the copy unit of a core may take up now. -/
def cpyWorks (c : Core) : Bool :=
  match c.cpys with
  | [] => false
  | y :: _ => !y.parked && y.inflight.isEmpty && !(y.done == 0 && c.stopped)

/-- The turn in a round among those that have work (R344): the first after the one served last, else the first. -/
def turnOf (last : Nat) (works : List Nat) : Option Nat :=
  let l := sortBy (· ≤ ·) works
  (l.find? (last < ·)).or l.head?

/-- Those with work at the copy unit of a core: 0 stands for CPY, one more than its header's offset for a chain. -/
def copyRound (s : State) (c : Core) : List Nat :=
  (if cpyWorks c then [0] else []) ++
    (c.chains.filter fun ch => ch.kind == 1 && chainWorks s c.id ch).map (·.hdr + 1)
/-- Those with work at the gather engine of a core. -/
def gatherRound (s : State) (c : Core) : List Nat :=
  (c.chains.filter fun ch => ch.kind == 2 && chainWorks s c.id ch).map (·.hdr + 1)
/-- Those with work at the state store engine of a stack, by their headers' locations. -/
def storeRound (s : State) (k : Nat) : List Nat :=
  (s.core :: s.cores).flatMap fun c =>
    (c.chains.filter fun ch => ch.kind == 3 && ch.stack == k && chainWorks s c.id ch).map fun ch => chainName c.id ch.hdr

/-- It is a chain's turn at its engine (R344). -/
def isTurn (s : State) (core : CoreId) (ch : Chain) : Bool :=
  let c := getCore s core
  match ch.kind with
  | 1 => turnOf c.lastCopy (copyRound s c) == some (ch.hdr + 1)
  | 2 => turnOf c.lastGather (gatherRound s c) == some (ch.hdr + 1)
  | _ => turnOf (getStore s ch.stack).last (storeRound s ch.stack) == some (chainName core ch.hdr)

/-- It is CPY's turn at the copy unit of a core. -/
def isCpyTurn (s : State) (core : CoreId) : Bool :=
  turnOf (getCore s core).lastCopy (copyRound s (getCore s core)) == some 0

/-- The engine has served a chain. -/
def serve (core : CoreId) (ch : Chain) (s : State) : State :=
  match ch.kind with
  | 1 => onCore core (fun c => { c with lastCopy := ch.hdr + 1 }) s
  | 2 => onCore core (fun c => { c with lastGather := ch.hdr + 1 }) s
  | _ => setStore ch.stack { getStore s ch.stack with last := chainName core ch.hdr } s

/-- An event of the chain for the OPs that it serves, in its turn: a command starts with its checks, or goes on. -/
def chainEvent (core : CoreId) (hdr : Word) (ops : Nat → Bool) (work : Chain → EngCmd → State → State) (s : State) : State :=
  match findChain (getCore s core) (sliceOff hdr.toNat) with
  | none => s
  | some ch =>
    match chainOp s core ch with
    | none => s
    | some op =>
      if !ops op || !chainWorks s core ch || !isTurn s core ch then s
      else serve core ch <| match ch.cmd with
        | none =>
          let n := ch.comp + 1
          let c := beginCmd n (ringCmd s core ch n)
          let code := cmdCheck s core ch c.cmd
          if code = 0 then putCmd core ch c s else finishCmd core ch c code s
        | some c =>
          match c.fail with
          | some code => finishCmd core ch c code s
          | none => work ch c s

/-- R345: NOP, and an OP that no kind has, finish at once. -/
def execEngineNop (core : CoreId) (hdr : Word) (s : State) : Outc :=
  .next (chainEvent core hdr (fun op => op == 0 || 5 < op) (fun ch c => finishCmd core ch c 0) s)
/-- R346 -/
def execCopyCmd (core : CoreId) (hdr : Word) (s : State) : Outc :=
  .next (chainEvent core hdr (· == 1) (copyWork core) s)
/-- R347 -/
def execGatherCmd (core : CoreId) (hdr : Word) (s : State) : Outc :=
  .next (chainEvent core hdr (· == 2) (gatherWork core) s)
/-- R348, OP 3 -/
def execSsHeadToMemory (core : CoreId) (hdr : Word) (s : State) : Outc :=
  .next (chainEvent core hdr (· == 3) (ssWork core) s)
/-- R348, OP 4 -/
def execSsMemoryToHead (core : CoreId) (hdr : Word) (s : State) : Outc :=
  .next (chainEvent core hdr (· == 4) (ssWork core) s)
/-- R349 -/
def execCountersCmd (core : CoreId) (hdr : Word) (s : State) : Outc :=
  .next (chainEvent core hdr (· == 5) (countersWork core) s)
/-- R344, R346 to R348: a block that an engine has read is written. -/
def execEngineReadReply (core : CoreId) (hdr : Word) (s : State) : Outc :=
  match findChain (getCore s core) (sliceOff hdr.toNat) with
  | none => .next s
  | some ch => match ch.cmd with
    | none => .next s
    | some c => match c.inflight with
      | [] => .next s
      | x :: _ =>
        if c.parked || !x.here then .next s
        else match cmdOp c.cmd with
          | 1 => .next (copyWrote core ch c x s)
          | 2 => .next (gatherWrote core ch c x s)
          | 5 => .next (countersWrote core ch c x s)
          | _ => .next (ssWrote core ch c x s)

/-- The post that may arrive at a barrier of a core now. -/
def postAt (s : State) (core : CoreId) (num : BitVec 8) (n : BitVec 40) : Option (Msg × Nat) :=
  s.net.findSome? fun m => match m.body with
    | .post k c h => if m.dst = core ∧ isHere m ∧ firstOf s m ∧ k = num ∧ c = n then some (m, h) else none
    | _ => none

/-- The answer to a post reaches the chain of a core. -/
def landPosted (core : CoreId) (hdr : Nat) (ok : Bool) (s : State) : State :=
  onChain core hdr (fun y => { y with cmd := y.cmd.map (postAnswered ok) }) s

/-- The answer to a post leaves the barrier's core for the engine (R294); at the engine's own core it is there at once. -/
def answerPost (m : Msg) (hdr : Nat) (ok : Bool) (s : State) : State :=
  if m.src = m.dst then landPosted m.sndr hdr ok s
  else sendFor m.rcvr m.sndr m.dst m.src m.ctx 0 (.posted m.sndr hdr ok) s

/-- R180, R293, R294: a post arrives at its barrier. -/
def execEnginePost (core : CoreId) (num : BitVec 8) (n : BitVec 40) (s : State) : Outc :=
  match postAt s core num n with
  | none => .next s
  | some (m, h) =>
    let s1 := performed m s
    if (getCore s core).kd.barriers ≤ num.toNat then .next (answerPost m h false s1)
    else match arrive core num.toNat n.toNat s1 with
      | none => .next (answerPost m h false s1)
      | some r => .next (answerPost m h true r.1)

/-! ## ENQ and ENWAIT (R203, R204) -/

/-- The slice location of a chain header or one of its words: an accessible SRAM window address (R203, R204). -/
def headerLoc (s : State) (a : Word) : Option Nat :=
  if a.toNat / 2 ^ 48 ≠ 0xFE then none
  else match windowLoc s s.ag.ctx a.toNat [] with
    | .ok l => some l
    | .error _ => none

/-- The ring of the chain whose header stands at a location is full: an ENQ waits (R203). -/
def ringFull (s : State) (l : Nat) : Bool :=
  match findChain (getCore s (coreOfLoc l)) (blockOf (sliceOff l)) with
  | some ch => ch.tail - ch.comp == 2 ^ ch.ringlog
  | none => false

/-- ENQ at the home of its chain, for the current agent (R203, R343): the command enters the ring, and its token is pending. -/
def enqAct (d : Reg) (l : Nat) (skew : Bool) (b : Block) (s : State) : State × Option OpAnswer :=
  let core := coreOfLoc l
  match takeChain core (blockOf (sliceOff l)) skew s with
  | none => (s, some (.trapped cQueueBad (openA s)))
  | some (ch, s1) =>
    if ch.tail - ch.comp = 2 ^ ch.ringlog then (s1, some .ringFull)
    else
      let n := ch.tail + 1
      let k := newKey s1
      let blk := ringBlock b n s.core.topx
      let s2 := writeMem (withBytes (viewLocs ch.ringSkew (sliceBase core) (ringOff ch n) 0 64) blk.toNat) [] k.2
      let s3 := onChain core ch.hdr (fun x => { x with tail := n, toks := x.toks ++ [(n, s.ag.aid, k.1)] }) s2
      (addToken d k.1 false (headerWord core ch n 16 n s3), some (answer 0))

/-- R203 -/
def execEnq (d a b : Reg) (s : State) : Outc :=
  let fin := fun (_ : OpData) (s : State) => .next (advance 4 s)
  completing fin s <| checked [.s d, .s a, .v b] s <| unpoisoned [b] s <|
    let h := getS s a
    if h.toNat % 64 ≠ 0 then trap cMisaligned h s
    else match headerLoc s h with
      | none => trap cBounds h s
      | some l => storesFirst s fun s1 =>
        if ringFull s1 l then .next (blockOn .engineRoom s1)
        else atParty (coreOfLoc l) (.enq d l (isSkewed h) (getV s b)) (enqAct d l (isSkewed h) (getV s b)) fin s1

/-- The current agent takes in what commands of a chain up to n have written (R204, R387). -/
def takeChainWrites (nm n : Nat) (s : State) : State :=
  let mine := fun (i : Incoming) => match i.src with
    | .engine c k => c == nm && k ≤ n
    | .host => false
    | .agent _ _ _ => false
    | .instance_ _ _ => false
    | .far _ => false
  let keys := (s.ag.incoming.filter mine).map (·.key)
  { s with ag := { takeIn s.mem keys s.ag with incoming := s.ag.incoming.filter fun i => !mine i } }

/-- The completion count that the home of a chain keeps (R204, R343). -/
def chainComp (s : State) (core : CoreId) (hdr : Nat) : Nat :=
  match findChain (getCore s core) hdr with
  | some ch => ch.comp
  | none => 0

/-- ENWAIT at the home of its chain (R204). -/
def enwaitAct (core : CoreId) (hdr : Nat) (n : Word) (s : State) : State × Option OpAnswer :=
  (s, some (if n.toNat ≤ chainComp s core hdr then answer 0 else .ringFull))

/-- R204 -/
def execEnwait (a b : Reg) (s : State) : Outc :=
  checked [.s a, .s b] s <|
    let h := getS s a
    let n := getS s b
    match headerLoc s h with
    | none => if h.toNat % 64 ≠ 24 then trap cMisaligned h s else trap cBounds h s
    | some l =>
      let core := coreOfLoc l
      let hdr := blockOf (sliceOff l)
      let fin := fun (_ : OpData) (s : State) => .next (advance 4 (takeChainWrites (chainName core hdr) n.toNat s))
      completing fin s <|
        if h.toNat % 64 ≠ 24 then trap cMisaligned h s
        else if n.toNat ≤ chainComp s core hdr then atParty core (.enwait core hdr n) (enwaitAct core hdr n) fin s
        else .next (blockOn .sequence s)

/-! ## GATHER and SCATTER instructions (R205) -/

/-- The non-zero lanes of vb: number and address. -/
def usedLanes (b : Block) : List (Nat × Word) :=
  ((List.range 8).map fun i => (i, BitVec.ofNat 64 (lane 64 i b))).filter fun p => p.2 != 0

/-- The block at an address lies in the own accessible slice region. -/
def ownBlock (s : State) (a : Word) : Bool :=
  match headerLoc s a with
  | some l => inSlice s.ag.place l
  | none => false

/-- The reads of every lane leave at once (R205): of the address that it holds, or for SCATTER of its local block. -/
def readLanes (core : CoreId) (here : Nat → Word) (scatter : Bool) : List (Nat × Word) → State → List Inflight × State
  | [], s => ([], s)
  | p :: ps, s =>
    match engLocs s core false (if scatter then here p.1 else p.2) .engRead with
    | .error _ => readLanes core here scatter ps s
    | .ok xs =>
      let r := askBlock core core p.1 xs s
      let t := readLanes core here scatter ps r.2
      (r.1 :: t.1, t.2)

/-- GATHER and SCATTER (R205). Where the local run alone lies outside the slice, TRAPA is open (log 15). -/
def moveLanes (scatter : Bool) (d a b : Reg) (s : State) : Outc :=
  checked [.s d, .s a, .v b] s <| unpoisoned [b] s <|
    let base := getS s a
    let ls := usedLanes (getV s b)
    if base.toNat % 64 ≠ 0 then trap cMisaligned base s
    else match ls.find? (fun p => p.2.toNat % 64 != 0) with
      | some p => trap cMisaligned p.2 s
      | none =>
        match ls.find? (fun p => (headerLoc s p.2).isNone) with
          | some p => trap cBounds p.2 s
          | none => if !(ownBlock s base) ∨ !(ownBlock s (base + 448)) then trap cBounds (openA s) s
          else storesFirst s fun s1 =>
            let k := newKey s1
            let r := readLanes s.ag.place (fun i => base + BitVec.ofNat 64 (64 * i)) scatter ls k.2
            let g : GatherOp := ⟨s.ag.aid, k.1, scatter, base, ls, 0, r.1, []⟩
            .next (advance 4 (addToken d k.1 true
              { r.2 with core := { r.2.core with gathers := r.2.core.gathers ++ [g] } }))

/-- R205 -/
def execGather (d a b : Reg) (s : State) : Outc := moveLanes false d a b s
/-- R205 -/
def execScatter (d a b : Reg) (s : State) : Outc := moveLanes true d a b s

/-- The name under which a GATHER or SCATTER publishes. -/
def gatherName (key : Nat) : Nat := 2 ^ 61 + key
/-- The name under which a core's copy unit publishes. -/
def cpyName (core : CoreId) : Nat := 2 ^ 60 + core.toNat

/-- Source and destination of a lane. -/
def laneEnds (g : GatherOp) (p : Nat × Word) : Word × Word :=
  let l := g.base + BitVec.ofNat 64 (64 * p.1)
  if g.scatter then (l, p.2) else (p.2, l)

/-- Change a GATHER in hand. -/
def putGather (core : CoreId) (g : GatherOp) (s : State) : State :=
  onCore core (fun c => { c with gathers := c.gathers.map fun x => if x.key = g.key then g else x }) s

/-- A GATHER or SCATTER ends. -/
def endGather (core : CoreId) (g : GatherOp) (code : Nat) (s : State) : State :=
  writeToken core g.aid g.key (tokenWord code g.lanes.length) g.keys
    (onCore core (fun c => { c with gathers := c.gathers.filter fun x => x.key != g.key }) s)

/-- One step of a GATHER or SCATTER: the end, or the write of the next lane if it has been read. -/
def gatherStep (core : CoreId) (g : GatherOp) (s : State) : State :=
  match g.lanes[g.next]? with
  | none => endGather core g 0 s
  | some p =>
    match g.inflight.find? (fun x => x.ix == p.1 && x.here) with
    | none => s
    | some x =>
      writing core core (gatherName g.key) 0 false (laneEnds g p).2 x x.outTag (fun e s => endGather core g (engCode e) s)
        (fun y s => putGather core { g with inflight := g.inflight.map fun z => if z.ix = y.ix then y else z } s)
        (fun keys s =>
          let s1 := if g.scatter then s else onCore core (bumpEngine 7 1) s
          putGather core { g with next := g.next + 1, keys := g.keys ++ keys } s1) s

/-- R205: a reply to a GATHER or SCATTER of a core. -/
def execGatherReply (core : CoreId) (s : State) : Outc :=
  let gs := (getCore s core).gathers
  match gs[Config.choose s.draws % gs.length]? with
  | none => .next s
  | some g => .next (gatherStep core g s)

/-! ## CPY (R229) -/

/-- R229 -/
def execCpy (d a b : Reg) (len : BitVec 32) (s : State) : Outc :=
  checked [.s d, .s a, .s b] s <|
    match [getS s a, getS s b, len.setWidth 64].find? (fun x => x.toNat % 64 != 0) with
    | some x => trap cMisaligned x s
    | none =>
      let n := s.core.cpyCount + 1
      if len = 0 then .next (advance 8 (setS d (tokenWord 0 n.toNat) { s with core := { s.core with cpyCount := n } }))
      else
        storesFirst s fun s0 =>
        let k := newKey { s0 with core := { s0.core with cpyCount := n } }
        let c : CpyCmd := ⟨s.ag.aid, k.1, n.toNat, getS s a, getS s b, len.toNat / 64, 0, [], false, none, []⟩
        .next (advance 8 (addToken d k.1 false { k.2 with core := { k.2.core with cpys := k.2.core.cpys ++ [c] } }))

/-- Change the CPY in hand. -/
def putCpy (core : CoreId) (y : CpyCmd) (s : State) : State :=
  onCore core (fun c => { c with cpys := c.cpys.map fun x => if x.key = y.key then y else x }) s

/-- A CPY ends. -/
def endCpy (core : CoreId) (y : CpyCmd) (code : Nat) (s : State) : State :=
  writeToken core y.aid y.key (tokenWord code y.seq) y.keys
    (endFill (code == 0) y.fill (onCore core (fun c => { c with cpys := c.cpys.filter fun x => x.key != y.key }) s))

/-- An access of a CPY has failed. -/
def cpyFailed (core : CoreId) (y : CpyCmd) (va : Word) (k : FKind) (e : EngErr) (s : State) : State :=
  match e with
  | .miss => parkEngine (.cpy core y.key) core core va k (putCpy core { y with parked := true } s)
  | .bounds => endCpy core y 3 s
  | .misaligned => endCpy core y 2 s

/-- The copy unit reads the next block of a CPY. -/
def cpyRead (core : CoreId) (y : CpyCmd) (s : State) : State :=
  let va := y.src + BitVec.ofNat 64 (64 * y.done)
  match engLocs s core true va .engRead with
  | .error e => cpyFailed core y va .engRead e s
  | .ok xs =>
    let r := askBlock core core y.done xs s
    onCore core (bumpEngine 5 1) (putCpy core { y with inflight := [r.1] } r.2)

/-- The copy unit writes the block it has read; the last one ends the CPY, and so does an uncorrectable error (R229, R345). -/
def cpyWrite (core : CoreId) (y : CpyCmd) (x : Inflight) (s : State) : State :=
  let va := y.dst + BitVec.ofNat 64 (64 * y.done)
  if x.bad then endCpy core y 5 s
  else
    writing core core (cpyName core) y.seq true va x x.tag (fun e s => cpyFailed core y va .engWrite e s)
      (fun z s => putCpy core { y with inflight := [z] } s)
      (fun keys s =>
        let z := { y with done := y.done + 1, inflight := [], keys := y.keys ++ keys }
        if z.done = z.blocks then endCpy core z 0 (putCpy core z s) else putCpy core z s) s

/-- R229: the copy unit of a core writes the block it has read of its oldest CPY, or reads one in CPY's turn; a stopped core
starts none (R253). -/
def execCpyBlock (core : CoreId) (s : State) : Outc :=
  match (getCore s core).cpys with
  | [] => .next s
  | y :: _ =>
    if y.parked then .next s
    else match y.inflight with
      | x :: _ => .next (if x.here then cpyWrite core y x s else s)
      | [] =>
        if !cpyWorks (getCore s core) ∨ !isCpyTurn s core then .next s
        else
          let s0 := onCore core (fun c => { c with lastCopy := 0 }) s
          if y.done = 0 ∧ y.blocks = 16 ∧ y.fill = none then
            match beginFill core y.dst s0 with
            | none => .next (endCpy core y 7 s0)
            | some (f, s1) => .next (cpyRead core { y with fill := f } s1)
          else .next (cpyRead core y s0)

/-! ## Streams (R79, R80) -/

/-- Append a strip to a queue register and go on to the next one. -/
def addStrip (core : CoreId) (q : Nat) (st : Stream) (e : QEntry) (s : State) : State :=
  onCore core (fun c =>
    setQ q ⟨(getQ c q).entries ++ [e], some { st with next := st.next + 1, parked := false }⟩ c) s

/-- A strip has failed, or one before it has. -/
def stripFailed (es : List QEntry) : Bool := es.any fun e => match e with
  | .failed _ _ => true
  | .data _ _ => false
  | .coming _ => false

/-- R79, R80: the copy unit fetches the next strip of a stream. -/
def execStripFetch (core : CoreId) (q : BitVec 3) (s : State) : Outc :=
  let x := getQ (getCore s core) q.toNat
  match x.stream with
  | none => .next s
  | some st =>
    if st.parked ∨ streamTotal st ≤ st.next ∨ 4 ≤ x.entries.length ∨ stripFailed x.entries ∨ (getCore s core).stopped then
      .next s
    else
      let va := stripAddr st st.next
      match engLocs s core true va .engRead with
      | .error .miss =>
        .next (parkEngine (.strip core q.toNat) core core va .engRead
          (onCore core (fun c => setQ q.toNat ⟨x.entries, some { st with parked := true }⟩ c) s))
      | .error .bounds => .next (addStrip core q.toNat st (.failed cBounds va) s)
      | .error .misaligned => .next (addStrip core q.toNat st (.failed cBounds va) s)
      | .ok xs =>
        let r := askBlock core core 0 xs s
        .next (addStrip core q.toNat st (if r.1.here then .data r.1.data r.1.tag else .coming r.1) r.2)

/-! ## Replies to reads by engines, and acknowledgements of their writes (R167, R394) -/

/-- Change the block of a number. -/
def onBlock (id : Nat) (f : Inflight → Inflight) (l : List Inflight) : List Inflight := l.map fun x => if x.id = id then f x else x

/-- A strip that its engine has asked for changes; one that has reached it stands in the queue register. -/
def onStrip (id : Nat) (f : Inflight → Inflight) (e : QEntry) : QEntry :=
  match e with
  | .coming x =>
    if x.id = id then (if (f x).here then .data (f x).data (f x).outTag else .coming (f x)) else e
  | .data _ _ => e
  | .failed _ _ => e

/-- A block that a core's engine has asked for or sent changes, in whatever command it lies. -/
def onAsked (id : Nat) (f : Inflight → Inflight) (c : Core) : Core :=
  { c with
    chains := c.chains.map fun ch => { ch with cmd := ch.cmd.map fun y => { y with inflight := onBlock id f y.inflight } }
    cpys := c.cpys.map fun y => { y with inflight := onBlock id f y.inflight }
    gathers := c.gathers.map fun y => { y with inflight := onBlock id f y.inflight }
    q := c.q.map fun x => { x with entries := x.entries.map (onStrip id f) }
    image := c.image.map (onBlock id f) }

/-- The request of an engine is performed at the home: the block is read (R385). -/
def readAsked (core : CoreId) (id : Nat) (s : State) : State := onCore core (onAsked id (fillBlock s)) s

/-- An answer has come: to a read, with the data, which a parity error may have struck (R422); to a write, its acknowledgement. -/
def takeBlock (bad : Bool) (x : Inflight) : Inflight :=
  if x.out then { x with acked := true } else { x with here := true, bad := x.bad || bad }

/-- The answer to an engine's read or write has come. -/
def replyAsked (core : CoreId) (id : Nat) (bad : Bool) (s : State) : State := onCore core (onAsked id (takeBlock bad)) s

/-- The block that an engine asked another package for has come (R376). -/
def readFarAsked (core : CoreId) (id : Nat) (b : Block) (t : Tag) (bad : Bool) (s : State) : State :=
  replyAsked core id bad (onCore core (onAsked id fun x => { x with data := b, tag := if x.poison then t ||| 0xFF00 else t }) s)

/-! ## PUBLISH (R206, R389) -/

/-- The blocks of storage that a pair's visible range reaches, as its page table maps it. -/
def visibleBlocks (s : State) (c : Core) (ctx : Nat) (p : Shadow) : List Nat :=
  (List.range ((p.bytes + 63) / 64)).filterMap fun i =>
    (pageLoc s c ctx .read (p.va + BitVec.ofNat 64 (64 * i))).map blockOf

/-- The scope of a pair as a level of scopeLevel (R389). -/
def inPairScope (p : Shadow) (c : CoreId) : Bool := p.scope ≥ 6 || scopeLevel c p.home ≤ p.scope

/-- The flip: agents of the instance within the pair's scope take in the publisher's writes, and its commands', to the new
visible half at once; to other agents within the scope they are published (R206, R389). -/
def flipPair (p : Shadow) (s : State) : State :=
  let q := { p with flipped := !p.flipped, count := p.count + 1 }
  let s1 := onInst s.ag.ctx s.ag.inst (fun i => { i with shadows := i.shadows.map fun x => if x.va = p.va then q else x }) s
  let blocks := visibleBlocks s1 s1.core s1.ag.ctx q
  let keys := (addWritten s1.ag.cmdKeys s1.ag.written).filter fun k => blocks.contains (blockOf (keyLoc k))
  let take := fun (a : Agent) =>
    if !inPairScope p a.place then a
    else if a.ctx = s.ag.ctx ∧ a.inst = s.ag.inst then takeIn s1.mem keys a
    else addIncoming keys (.agent s.ag.aid s.ag.place .package) a
  noteNews keys (some (.package, s.ag.place)) { s1 with ag := take s1.ag, agents := s1.agents.map take }

/-- The pair whose label an address is, within whose scope the agent lies (R206, R389). -/
def labelledPair (s : State) (a : Word) : Option Shadow :=
  match findInst s s.ag.ctx s.ag.inst with
  | none => none
  | some i => match i.shadows.find? (fun p => p.va == a) with
    | none => none
    | some p => if inPairScope p s.ag.place then some p else none

/-- PUBLISH at the home of its pair, for the current agent (R206, R389). -/
def publishAct (va : Word) (s : State) : State × Option OpAnswer :=
  match labelledPair s va with
  | none => (s, some (.trapped cBounds va))
  | some p => (flipPair p s, some (answer (p.count + 1)))

/-- R206. DESIGN CHOICE (log 15): TRAPA of an sa that is no label of a pair is sa. -/
def execPublish (d a : Reg) (s : State) : Outc :=
  checked [.s d, .s a] s <| completing (codeFin d) s <|
    match labelledPair s (getS s a) with
    | none => trap cBounds (getS s a) s
    | some p =>
      if !s.ag.tokens.isEmpty || !quiet s then .next (blockOn .quietTokens s)
      else atParty p.home (.publish (getS s a)) (publishAct (getS s a)) (codeFin d) (drainAll s)

end Sys2Proof.Machine
end

