-- ==== Sys2Proof/Machine/Route.lean ====
section
/-! DEFINITION. The way of a packet through the package (R8, R9, R12, R399, R400): where it goes next from each fabric. -/

namespace Sys2Proof.Machine

/-- A party of the package as the fabrics reach it: a core or teff core at its physical place, a stack, a tiller die at its die-to-die
port, or the culm die with the host behind it. -/
inductive Party
  | core (p : CoreId)
  | stack (k : Nat)
  | die (d : Nat)
  | culm
  deriving DecidableEq, Repr

/-- The party of a sender's or destination's name; a core is where the core map has it (R252). -/
def partyOf (s : State) (c : CoreId) : Party :=
  if clusterOf c < 6 then .core (if coreNumOf c < 16 then (getCore s c).phys else c)
  else if clusterOf c = 6 ∧ coreNumOf c < 3 then .stack (dieOf c * 3 + coreNumOf c)
  else if clusterOf c = 6 then .die (dieOf c)
  else .culm

/-- The stop of a core, a teff core included (R9). -/
def stopNo (p : CoreId) : Nat := if coreNumOf p < 16 then coreNumOf p / 2 else 0

/-- Where a packet goes that has left the mesh at a router of a die: to the ring, to the tiller port of a stack, or off the
die by the port at router 1 (R12, R399). Two routers are one where they are equal. -/
def routerGoal (die : Nat) (d : Party) : Nat :=
  match d with
  | .core p => if dieOf p = die then clusterOf p else 1
  | .stack k => if k / 3 = die then k % 3 else 1
  | .die _ => 1
  | .culm => 1

/-- The next site of a packet at a router of a die. -/
def fromRouter (die r : Nat) (d : Party) : Site :=
  if routerGoal die d ≠ r then .toMesh die r
  else match d with
    | .core p => if dieOf p ≠ die then .toLink die true else if stopNo p = 4 then .there else .toRing (clusterIdx p)
    | .stack k => if k / 3 = die then .there else .toLink die true
    | .die d => if d = die then .there else .toLink die true
    | .culm => .toLink die true

/-- The next site of a packet that leaves the culm die's crossbar: a stack is reached by its culm port (R12, R400). -/
def fromCulm (d : Party) : Site :=
  match d with
  | .core p => .toLink (dieOf p) false
  | .stack _ => .there
  | .die d => .toLink d false
  | .culm => .there

/-- The next site of a packet at stop 4 of a cluster, or at its destination's stop. -/
def fromStop (p : CoreId) (stop : Nat) (d : Party) : Site :=
  match d with
  | .core q =>
    if clusterIdx q = clusterIdx p then (if stopNo q = stop then .there else .start)
    else if stop = 4 then fromRouter (dieOf p) (clusterOf p) d else .start
  | .stack _ => if stop = 4 then fromRouter (dieOf p) (clusterOf p) d else .start
  | .die _ => if stop = 4 then fromRouter (dieOf p) (clusterOf p) d else .start
  | .culm => if stop = 4 then fromRouter (dieOf p) (clusterOf p) d else .start

/-- Where a packet is that its sender's interface holds: `start` where it waits for the sender's ring. -/
def fromSender (a d : Party) : Site :=
  match a with
  | .core p => fromStop p (stopNo p) d
  | .stack k => match d with
    | .core p => if dieOf p = k / 3 then fromRouter (k / 3) (k % 3) d else .xbar
    | .stack _ => .xbar
    | .die _ => .xbar
    | .culm => .xbar
  | .die e => fromRouter e 1 d
  | .culm => .xbar

/-- The site of a message's packet. -/
def siteOf (s : State) (m : Msg) : Site :=
  if m.site = .start then fromSender (partyOf s m.src) (partyOf s m.dst) else m.site

/-- The packet has reached the interface of its destination. -/
def packetThere (s : State) (m : Msg) : Bool := siteOf s m == .there

/-- The stop to which a packet on a cluster's ring goes. -/
def ringGoal (cl : Nat) (d : Party) : Nat :=
  match d with
  | .core q => if clusterIdx q = cl then stopNo q else 4
  | .stack _ => 4
  | .die _ => 4
  | .culm => 4

/-- Flits of the packet of an operation: 3 where it brings a block (R394). -/
def opFlits : HomeOp → Nat
  | .seq (.store _ _ _ _) => 3
  | .enq _ _ _ _ => 3
  | _ => 1

/-- An answer brings the data of a block. -/
def bringsBlock : OpAnswer → Bool
  | .done d => d.brings
  | .trapped _ _ => false
  | .tableFull => false
  | .ringFull => false
  | .guarded _ _ => false

/-- Flits of a message's packet (R394): 4 of a push, 3 of a block of data, 1 of another. -/
def bodyFlits : Body → Nat
  | .push _ => 4
  | .farPush _ _ _ _ => 4
  | .farAnswer _ _ _ => 1
  | .farReply _ _ _ _ => 1
  | .free _ _ _ => 1
  | .reply _ => 1
  | .refusal _ _ => 1
  | .wake _ => 1
  | .waiter _ _ => 1
  | .stream _ => 3
  | .post _ _ _ => 1
  | .posted _ _ _ => 1
  | .token _ _ _ _ => 1
  | .write _ _ => 3
  | .op _ _ o => opFlits o
  | .result _ _ _ a => if bringsBlock a then 3 else 1
  | .store _ _ _ _ _ _ => 3
  | .hint _ _ => 1
  | .report _ _ _ => 1
  | .fault _ => 1
  | .mapped _ => 1
  | .hostWrite _ _ => 3
  | .hostRead _ _ _ => 1
  | .hostData _ _ => 3
  | .command _ _ => 3
  | .commanded _ _ _ _ _ => 3
  | .readFar _ _ => 1
  | .farData _ _ _ _ => 3
  | .tellFar _ => 1
  | .farReq _ _ r => match r with
    | .write _ _ _ _ _ _ _ => 3
    | .read _ => 1
    | .amo _ _ _ _ _ _ => 1
    | .cas _ _ _ _ _ _ => 1
    | .publish _ => 1
  | .farAns _ _ a => match a with
    | .ack => 1
    | .data _ _ => 3
    | .value _ _ => 1
  | .request _ up _ => if up then 3 else 1
  | .answer _ block => if block then 3 else 1

/-- The packet travels on the reply channel of a mesh or crossbar (R399, R400). -/
def isReply : Body → Bool
  | .push _ => false
  | .farPush _ _ _ _ => false
  | .farAnswer _ _ _ => true
  | .farReply _ _ _ _ => true
  | .free _ _ _ => false
  | .reply _ => true
  | .refusal _ _ => true
  | .wake _ => false
  | .waiter _ _ => true
  | .stream _ => false
  | .post _ _ _ => false
  | .posted _ _ _ => true
  | .token _ _ _ _ => true
  | .write _ _ => false
  | .op _ _ _ => false
  | .result _ _ _ _ => true
  | .store _ _ _ _ _ _ => false
  | .hint _ _ => false
  | .report _ _ _ => false
  | .fault _ => false
  | .mapped _ => true
  | .hostWrite _ _ => false
  | .hostRead _ _ _ => false
  | .hostData _ _ => true
  | .command _ _ => false
  | .commanded _ _ _ _ _ => true
  | .readFar _ _ => false
  | .farData _ _ _ _ => true
  | .tellFar _ => false
  | .farReq _ _ _ => false
  | .farAns _ _ _ => true
  | .request _ _ _ => false
  | .answer _ _ => true

/-- The flits of a message's packet, for a stop. -/
def flitsOf (m : Msg) (stop : Nat) : List Flit :=
  let n := bodyFlits m.body
  (List.range n).map fun i => ⟨m.id, i, i + 1 == n, stop, 0, false, 0⟩

end Sys2Proof.Machine
end

