-- ==== Sys2Proof/Machine/FarMem.lean ====
section
/-! DEFINITION. Memory of other packages (R376, R381): requests that leave the package and the answers that come, and the requests of
other packages that are performed here (log 30). -/

namespace Sys2Proof.Machine

/-! ## Requests that leave -/

/-- The model's name of an agent as other packages know it. -/
def farWho (aid : Nat) : BitVec 32 := BitVec.ofNat 32 aid

/-- The bytes of a write of one block as a mask of the block and the block. -/
def maskedBytes (bytes : List (Nat × Byte)) : Word × Block :=
  (BitVec.ofNat 64 (bytes.foldl (fun m p => m ||| 2 ^ (p.1 % 64)) 0),
    BitVec.ofNat 512 (bytesToNat ((List.range 64).map fun i =>
      match bytes.reverse.find? (fun p => p.1 % 64 == i) with | some p => p.2 | none => 0)))

/-- The request of a write of one block at a location. -/
def writeReq (l : Nat) (bytes : List (Nat × Byte)) (tags : List (Nat × Tag)) (bad : Bool) (who : BitVec 32) (published : Bool) : FarReq :=
  let r := maskedBytes bytes
  .write (blockOf (farPA l)) r.1 r.2 (tags.getLast?.map (·.2)) bad who published

/-- The request with which a message goes to another package's memory. -/
def reqOf (s : State) (m : Msg) : Option FarReq :=
  match m.body with
  | .write aid id => ((findAgent s aid).bind fun a => a.posted.find? fun w => w.id == id).map fun w =>
      writeReq (writeLoc w) w.bytes w.tags m.bad (farWho aid) false
  | .op aid _ (.amo op w u locs b _) => some (.amo op w u (farPA (locs.headD 0)) b (farWho aid))
  | .op aid _ (.cas w u locs x y _) => some (.cas w u (farPA (locs.headD 0)) x y (farWho aid))
  | .store _ _ _ _ bytes tags =>
    some (writeReq (match bytes, tags with | p :: _, _ => p.1 | [], q :: _ => q.1 | [], [] => 0) bytes tags m.bad 0 true)
  | .readFar _ l => some (.read (farPA l))
  | .tellFar aid => some (.publish (farWho aid))
  | _ => none

/-- The write of a message is no longer pending: its packet has left the package. -/
def writeLeft (m : Msg) (s : State) : State :=
  match m.body with
  | .write aid id => onAgent aid (fun a => { a with posted := a.posted.filter fun w => w.id != id }) s
  | _ => s

/-- A request for another package's memory leaves by its port, and its answer is awaited (R376, R400). -/
def leaveFar (m : Msg) (s : State) : State :=
  match reqOf s m with
  | none => s
  | some r =>
    let s1 := farSend (farOfId m.dst) m.ctx (reqFlits s.cfg.position (farOfId m.dst) m.id r) s
    writeLeft m { s1 with farWait := s1.farWait ++ [m] }

/-! ## Answers that come -/

/-- The current agent's immediate operation has written bytes of another package's memory (R353, R355). -/
def wroteFar (bytes : List (Nat × Byte)) (s : State) : State :=
  { s with ag := seeWrite bytes [] s.ag }

/-- The answer to an immediate operation has come: what it wrote is a write of its agent, and the old value goes to it (R173, R175,
R355). -/
def opAnswered (home : CoreId) (m : Msg) (aid key : Nat) (o : HomeOp) (old : Word) (psn : Bool) (s : State) : State :=
  match o with
  | .amo op w u locs b bad =>
    let new := amoNew op u (8 * amoBytes w) old.toNat (b.toNat % 2 ^ (8 * amoBytes w))
    answerTo home aid key m.seq true (.done ⟨amoOld w u old.toNat, 0, 0, psn || bad, false⟩)
      (wroteFar (withBytes locs new) (checkout aid s))
  | .cas w u locs x y bad =>
    let n := 2 ^ (8 * amoBytes w)
    let s1 := checkout aid s
    answerTo home aid key m.seq true (.done ⟨amoOld w u old.toNat, 0, 0, psn || bad, false⟩)
      (if old.toNat = x.toNat % n then wroteFar (withBytes locs (y.toNat % n)) s1 else s1)
  | _ => s

/-- An acknowledgement goes on from a port to an agent (R167). -/
def ackAgent (home : CoreId) (m : Msg) (aid : Nat) (s : State) : State :=
  match findAgent s aid with
  | none => s
  | some a => sendAs home a.place a.ctx m.seq (.reply aid) s

/-- The answer to a request goes on to the party that asked. -/
def answered (home : CoreId) (m : Msg) (x : FarAns) (s : State) : State :=
  match m.body, x with
  | .write aid _, _ => ackAgent home m aid s
  | .tellFar aid, _ => ackAgent home m aid s
  | .op aid key o, .value old psn => opAnswered home m aid key o old psn s
  | .readFar who l, .data b t => sendFor m.rcvr m.sndr home m.src m.ctx m.seq (.farData who l b t) s
  | .store core id _ _ _ _, _ => sendFor m.rcvr m.sndr home m.src m.ctx m.seq (.answer (.engine core id) false) s
  | _, _ => s

/-- A request is the one that an answer of a package, or of a peer, names. -/
def answers (peer : Bool) (src : BitVec 8) (id : Nat) (m : Msg) : Bool :=
  m.id % 2 ^ 24 == id && (if peer then 256 ≤ farOfId m.dst else farOfId m.dst == src.toNat)

/-- An answer has come to a port; that to a request of a destroyed context is discarded (R259). -/
def takeFarAns (port : CoreId) (peer : Bool) (src : BitVec 8) (id : Nat) (x : FarAns) (s : State) : State :=
  match s.farWait.find? (answers peer src id) with
  | none => s
  | some m =>
    let s1 := { s with farWait := s.farWait.erase m }
    if ofLiving s m then answered port m x s1 else s1

/-! ## What an agent reads there (R368) -/

/-- A byte or tag that the agent has read enters its snapshot, where that has none (R368). -/
def learnKey (v : Mem) (k : Nat) (a : Agent) : Agent :=
  if a.farSeen.contains k then a else { a with view := takeKey v { a with posted := [] } k a.view, farSeen := k :: a.farSeen }

/-- The bytes and the tag of a block. -/
def learnBlock (l : Nat) (b : Block) (t : Tag) (a : Agent) : Agent :=
  let v : Mem := memSetTags (memSetBytes ⟨[], []⟩ (withBytes ((List.range 64).map (l + ·)) b.toNat)) [(l, t)]
  (((List.range 64).map (l + ·)) ++ [tagKey l]).foldl (fun a k => learnKey v k a) a

/-! ## Requests of other packages, performed here -/

/-- The party at which a request of another package is performed. -/
def reqHome : FarReq → CoreId
  | .write l _ _ _ _ _ _ => homeName l
  | .read l => homeName l
  | .amo _ _ _ l _ _ => homeName l
  | .cas _ _ l _ _ _ => homeName l
  | .publish _ => culmId

/-- Keys written for a writer of another package that it has not published. -/
def noteFar (pkg : Nat) (who : BitVec 32) (keys : List Nat) (s : State) : State :=
  { s with farWrote := s.farWrote ++ [⟨pkg, who, keys⟩] }

/-- A writer of another package has published what it wrote here: refreshes that reach that package take it in (R369, R376). -/
def farPublish (pkg : Nat) (who : BitVec 32) (s : State) : State :=
  let mine := fun (w : FarWrote) => w.pkg == pkg && w.who == who
  announce ((s.farWrote.filter mine).flatMap (·.keys)) (.far (256 ≤ pkg)) { s with farWrote := s.farWrote.filter fun w => !mine w }

/-- A write of another package, published or not, the bytes of addresses that are populated here (R67, R376, R422). -/
def farWrite (pkg l : Nat) (mask : Word) (data : Block) (tag : Option Tag) (bad : Bool) (who : BitVec 32) (published : Bool) (s : State) :
    State :=
  let bytes := ((List.range 64).filter fun i => mask.getLsbD i && paOk s (l + i)).map fun i => (l + i, data.extractLsb' (8 * i) 8)
  let tags := if paOk s l then (tag.map fun t => (l, t)).toList else []
  let s1 := spoilBlocks (bad && paOk s l) [l] (writeMem bytes tags s)
  let keys := keysOf bytes tags
  if published then announce keys (.far (256 ≤ pkg)) s1 else noteFar pkg who keys s1

/-- Bytes of a word here. -/
def farOld (s : State) (w : Bool) (l : Nat) : Nat := memNat s.mem l (amoBytes w)

/-- A word written by an immediate operation of another package. -/
def farPut (pkg l : Nat) (w : Bool) (who : BitVec 32) (x : Nat) (s : State) : State :=
  let bytes := (withBytes ((List.range (amoBytes w)).map (l + ·)) x).filter fun p => paOk s p.1
  noteFar pkg who (keysOf bytes []) (writeMem bytes [] s)

/-- A request of another package is performed, and its answer (R173 to R175, R376, R381). -/
def farAct (pkg : Nat) (spoiled : Bool) (r : FarReq) (s : State) : FarAns × State :=
  match r with
  | .write l mask d t bad who pub => (.ack, farWrite pkg l mask d t (bad || spoiled) who pub s)
  | .read l => (.data (BitVec.ofNat 512 (memNat s.mem l 64)) (memTag s.mem l), s)
  | .amo op w u l b who =>
    let old := farOld s w l
    (.value (BitVec.ofNat 64 old) (poisoned (memTag s.mem l)),
      farPut pkg l w who (amoNew op u (8 * amoBytes w) old (b.toNat % 2 ^ (8 * amoBytes w))) s)
  | .cas w _ l x y who =>
    let n := 2 ^ (8 * amoBytes w)
    let old := farOld s w l
    (.value (BitVec.ofNat 64 old) (poisoned (memTag s.mem l)), if old = x.toNat % n then farPut pkg l w who (y.toNat % n) s else s)
  | .publish who => (.ack, farPublish pkg who s)

/-- A request that a port has received goes on to its home (R376, R400). -/
def takeFarReq (port : BitVec 3) (peer : Bool) (src : BitVec 8) (id : Nat) (r : FarReq) (s : State) : State :=
  let n := if peer then 256 + port.toNat else src.toNat
  send (portId port.toNat) (reqHome r) hostCtx (.farReq n id r) s

/-- Such a request is performed at its home, and the answer leaves for the port (R174, R376). -/
def performFarReq (m : Msg) (pkg id : Nat) (r : FarReq) (s : State) : State :=
  let x := farAct pkg m.bad r s
  sendFor m.rcvr m.sndr m.dst m.src m.ctx m.seq (.farAns pkg id x.1) x.2

end Sys2Proof.Machine
end

