-- ==== Sys2Proof/Machine/Packages.lean ====
section
/-! DEFINITION. Pushes between packages (R268, R270, R376, R384): the answer to a push that went to another package, and packets
that a port has received. -/

namespace Sys2Proof.Machine

/-- The TRANSIT record that is being offered to another package under an identity. -/
def askedTransit (s : State) (dest : FarId) : Option (CoreId × KEntry) :=
  (s.core :: s.cores).findSome? fun c =>
    (c.kq.find? fun e => e.asking && e.origin == some dest).map fun e => (c.id, e)

/-- A record that its target in another package holds as staged is promoted when its handler retires: now, where it has. -/
def noteStaged (id : FarId) (aid : Nat) (retired : Bool) (s : State) : State :=
  if retired then tellFar id.place id .retired 0 s
  else onAgent aid (fun a => { a with hrec := a.hrec.map fun r => { r with far := r.far ++ [id] } }) s

/-- A refused push to another package: its pusher gets QUEUE_BAD late (R199, R263). -/
def farRefused (aid : Nat) (seq : BitVec 24) (word : Word) (s : State) : State := onAgent aid (addLate ⟨cQueueBad, word, seq⟩) s

/-- The answer to a record that was offered again. -/
def answerTransit (core : CoreId) (e : KEntry) (f : FarPush) (id : FarId) (code : FarCode) (word : Word) (s : State) : State :=
  match code with
  | .admitted =>
    let s1 := onCore core (dropPlace e.place) s
    if f.rcd.staged then noteStaged id f.aid e.retired s1 else s1
  | .compatible => onCore core (onPlace e.place fun x => { x with asking := false, waited := true }) s
  | .refused => farRefused f.aid e.seq word (onCore core (dropPlace e.place) s)
  | .retired => s

/-- The answer to a push that went to another package (R268, R270): OUTREQ falls; a record that finds no room stays in TRANSIT in
the place that its handler reserved. -/
def answerFar (f : FarPush) (id : FarId) (code : FarCode) (word : Word) (s : State) : State :=
  let s1 := onAgent f.aid (fun a => { a with outreq := a.outreq - 1 }) s
  let q := homeQueue s (some f.aid) f.place
  match code with
  | .admitted => if f.rcd.staged then noteStaged id f.aid false (unreserve f.aid s1) else s1
  | .compatible =>
    keepRecord q .transit true
      { entryOf s q f.rcd with far := some f.pkg, target := f.dst, origin := some id, waited := true } (unreserve f.aid s1)
  | .refused => farRefused f.aid f.rcd.seq word s1
  | .retired => s1

/-- An answer from another package reaches the core of a push (R270). -/
def takeFarReply (dest : FarId) (src : BitVec 8) (code : FarCode) (word : Word) (s : State) : State :=
  let id := { dest with pkg := src }
  match s.farOut.find? (fun f => f.pkg == src && f.place == dest.place && f.num == dest.num && f.rcd.seq == dest.seq) with
  | none => s
  | some f =>
    let s1 := { s with farOut := s.farOut.erase f }
    match askedTransit s1 id with
    | some (core, e) => answerTransit core e f id code word s1
    | none => answerFar f id code word s1

/-- Word of a retirement in another package: the staged records of that push are eligible (R268). -/
def farRetired (id : FarId) (s : State) : State :=
  let mark := fun (e : KEntry) => if e.origin = some id ∧ e.state = .staged then { e with retired := true } else e
  let f := fun (c : Core) => { c with kq := c.kq.map mark }
  let s1 := { s with core := f s.core, cores := s.cores.map f }
  promoteCores (coreNames s1) s1

/-- A push from another package has been received at a port: it goes on to its core; where that core hosts no group of its
context with the rule, it is refused at once (DESIGN CHOICE, log 1). -/
def takeFarPush (port : BitVec 3) (dst : CoreId) (who : FarId) (topx staged waited : Bool) (key word : Word) (tag : Tag)
    (payload : Block) (s : State) : State :=
  let c := getCore s dst
  let rule := word.toNat % 2 ^ 12
  let r : PushRec := {
    key := key, payload := payload, tag := tag, rule := rule, op := ruleOp c.kd rule, topx := topx, nodes := none, missing := false,
    builtin := false, pusher := none, staged := staged, target := word, seq := who.seq, origin := some who,
    waited := waited }
  if c.ctx = some (ctxOfName dst) ∧ rule < c.kd.rules.length then sendAs (portId port.toNat) dst (ctxOfName dst) who.seq (.push r) s
  else send (portId port.toNat) (portOf s who.pkg) (ctxOfName dst) (.farAnswer who .refused word) s

/-- A packet that a port has received. -/
def takePacket (port : BitVec 3) (x : FarPacket) (s : State) : State :=
  match x with
  | .push dst who topx staged waited key word tag payload => takeFarPush port dst who topx staged waited key word tag payload s
  | .answer dest src code word =>
    if code = .retired then farRetired { dest with pkg := src } s
    else send (portId port.toNat) dest.place (ctxOfName dest.place) (.farReply dest src code word) s
  | .req peer src id r => takeFarReq port peer src id r s
  | .ans peer src id a => takeFarAns (portId port.toNat) peer src id a s
  | .other pkg ctx fs => pkgSend pkg ctx fs s

/-- Packets that a port has received, one after another. -/
def takePackets (port : BitVec 3) : List FarPacket → State → State
  | [], s => s
  | x :: xs, s => takePackets port xs (takePacket port x s)

/-- The whole packets among a port's received flits go on into the package (R400, R403). -/
def takeReceived (port : BitVec 3) (s : State) : State :=
  let x := getPort s port
  let r := packetsIn s.cfg.position x.received.length x.received
  takePackets port r.1 (setPort port { x with received := r.2 } s)

end Sys2Proof.Machine
end

