-- ==== Sys2Proof/Machine/Arrivals.lean ====
section
/-! DEFINITION. What arrives: requests at their homes, replies, refusals, late traps, wakes and packets (R12, R167, R174, R184,
R194, R218, R238, R239, R250, R395, R422). -/

namespace Sys2Proof.Machine

/-! ## Messages that have reached their destination -/

/-- A forwarding entry of a core names an agent (R250). -/
def forwards (c : Core) (aid : Nat) : Bool := c.fwd.any fun f => f.aid == aid

/-- A message at a core reaches an agent, which is there or has left a forwarding entry (R250). -/
def reaches (s : State) (m : Msg) (a : Agent) : Bool :=
  isHere m && (m.dst == a.place || forwards (getCore s m.dst) a.aid)

/-- The message is performed; one that was forwarded has been sent on (R250). -/
def received (m : Msg) (a : Agent) (s : State) : State := oneWay m.dst a.place a.ctx (performed m s)

/-- The agent that a request's answer is for. -/
def askerAgent : Asker → Option Nat
  | .nobody => none
  | .agent a _ => some a
  | .tile a _ => some a
  | .engine _ _ => none

/-- The agent whose access a teff core answers. -/
def parkedAgent : Parked → Option Nat
  | .agent a => some a
  | .strip _ _ => none
  | .cpy _ _ => none
  | .chain _ _ => none
  | .gather _ _ => none
  | .prepare _ => none
  | .sequencer _ => none

/-- The agent that a message is for by its model name. -/
def bodyAgent : Body → Option Nat
  | .reply a => some a
  | .refusal a _ => some a
  | .waiter a _ => some a
  | .wake a => some a
  | .stream a => some a
  | .result a _ _ _ => some a
  | .token a _ _ _ => some a
  | .answer who _ => askerAgent who
  | .mapped x => parkedAgent x.who
  | .push _ => none
  | .farPush _ _ _ _ => none
  | .farAnswer _ _ _ => none
  | .farReply _ _ _ _ => none
  | .free _ _ _ => none
  | .post _ _ _ => none
  | .posted _ _ _ => none
  | .write _ _ => none
  | .op _ _ _ => none
  | .store _ _ _ _ _ _ => none
  | .hint _ _ => none
  | .report _ _ _ => none
  | .fault _ => none
  | .hostWrite _ _ => none
  | .hostRead _ _ _ => none
  | .hostData _ _ => none
  | .command _ _ => none
  | .commanded _ _ _ _ _ => none
  | .request _ _ _ => none
  | .readFar _ _ => none
  | .farData who _ _ _ => askerAgent who
  | .tellFar _ => none
  | .farReq _ _ _ => none
  | .farAns _ _ _ => none

/-- What follows when the agent of a model name is the current one; nothing happens where there is none. -/
def withAgent (aid : Nat) (s : State) (k : State → Outc) : Outc :=
  match findAgent s aid with
  | none => .next s
  | some _ => k (checkout aid s)

/-! ## Requests at their homes (R12, R167, R174, R190, R194, R367) -/

/-- A refusing answer leaves a home for an agent (R238). -/
def refuseAgent (home : CoreId) (aid : Nat) (t : LateTrap) (s : State) : State :=
  match findAgent s aid with
  | none => s
  | some a =>
    if a.place = home then onAgent aid (fun b => addLate t (lowerOut true b)) s
    else sendAs home a.place a.ctx t.seq (.refusal aid t) s

/-- FREE is performed at the home of its node (R194). -/
def performFree (m : Msg) (node : Word) (aid : Nat) (seq : BitVec 24) (s : State) : State :=
  let s1 := performed m s
  match findAgent s1 aid with
  | none => s1
  | some a => match freeNode a.place node s1 with
    | some s2 => answerPush m.dst none (some aid) s2
    | none => refuseAgent m.dst aid ⟨cLinkBad, node, seq⟩ s1

/-- The answer to a message leaves the party that has performed it, for the party that sent it; the parties that count the one count
the other (R253). -/
def respond (m : Msg) (b : Body) (s : State) : State := sendFor m.rcvr m.sndr m.dst m.src m.ctx m.seq b s

/-- A request is performed at its home (R394, R395): the block that an engine asks for is read, and the answer leaves. -/
def performRequest (m : Msg) (who : Asker) (down : Bool) (s : State) : State :=
  respond m (.answer who down) (match who with
    | .engine core id => readAsked core id s
    | .agent _ _ => s
    | .tile _ _ => s
    | .nobody => s)

/-- A write of an engine is performed at its home, a block that a parity error has struck as poisoned, and is acknowledged (R167, R386,
R422). -/
def performStore (m : Msg) (core : CoreId) (id chain seq : Nat) (bytes : List (Nat × Byte)) (tags : List (Nat × Tag)) (s : State) :
    State :=
  respond m (.answer (.engine core id) false)
    (spoilBlocks m.bad (blocksOf (bytes.map (·.1))) (engineWrite chain seq bytes tags s))

/-- The bytes of the host's write in HBM are performed at their home, a block that a parity error has struck as poisoned (R380, R404,
R422). -/
def performHostWrite (m : Msg) (l : Nat) (bytes : List Byte) (s : State) : State :=
  let ps := (placed l bytes).filter fun p => paOk s p.1
  respond m (.answer .nobody false) (spoilBlocks m.bad (blocksOf (ps.map (·.1))) (hostWrite ps s))

/-- A byte as CXL.mem reads it: one that it does not reach reads as all ones (log 14). -/
def cxlByte (s : State) (l : Nat) : Byte := if !isHostLoc l && paOk s l then memByte s.mem l else 0xFF

/-- A state store operation's block that a parity error has struck on its way is poisoned (R422). -/
def spoiledOp (bad : Bool) : HomeOp → HomeOp
  | .seq (.store h off b t) => .seq (.store h off b (if bad then t ||| 0xFF00 else t))
  | o => o

/-- The agent that a WAKE to a place reaches (R218): the agent there, or the one that a forwarding entry names. -/
def wakeTarget (s : State) (ctx : Nat) (core : CoreId) (num : BitVec 3) : Option Agent :=
  let ok := fun (a : Agent) => a.ctx == ctx
  ((agentAt s core num).filter ok).or
    (match (getCore s core).fwd.find? (fun f => f.num == num) with
    | none => none
    | some f => (findAgent s f.aid).filter ok)

/-- The wake sets the wake-pending bit, or ends the SLEEP that waits for it. -/
def takeWake (a : Agent) : Agent :=
  match a.run with
  | .blocked (.sleep _) => { a with run := .blocked (.slept 0) }
  | _ => { a with wake := true }

/-- A WAKE acts at the core of its place (R218): on the agent there, or it goes on to the one that a forwarding entry names. -/
def wakeAt (t : CoreId) (g : Agent) (s : State) : State :=
  if g.place = t then onAgent g.aid takeWake s else send t g.place g.ctx (.wake g.aid) s

/-- WAKE at the core of its place, for the current agent (R218): it tells whether the place, or a forwarding entry there, is an agent of
the context. -/
def wakeAct (t : CoreId) (h : Word) (s : State) : State × Option OpAnswer :=
  match wakeTarget s s.ag.ctx t (BitVec.ofNat 3 h.toNat) with
  | none => (s, some (answer 0))
  | some g => (wakeAt t g s, some (answer 1))

/-- The master distributor's answer to WAITPRED, when the predecessors are DONE (R215). -/
def predsAct (s : State) : State × Option OpAnswer := (s, some (answer 0))

/-- LAUNCH at the master distributor: it waits until a step accepts it (R214). -/
def launchAct (key : Nat) (seq : BitVec 24) (step : Nat) (k : Vector Word 16) (s : State) : State × Option OpAnswer :=
  ({ s with launches := s.launches ++ [⟨s.ag.aid, key, seq, s.ag.ctx, step, k⟩] }, none)

/-- LINK at the link unit of a core: it waits for its turn (R195). -/
def linkAct (core : CoreId) (key : Nat) (seq : BitVec 24) (sn sa : Word) (s : State) : State × Option OpAnswer :=
  (queueLink core ⟨s.ag.aid, key, seq, sn, sa⟩ s, none)

/-- What an operation does at the party where it acts, for the current agent, and its answer; none comes later. -/
def actAt (home : CoreId) (key : Nat) (seq : BitVec 24) (o : HomeOp) (s : State) : State × Option OpAnswer :=
  match o with
  | .amo op w u l b bad => amoAct op w u l b bad s
  | .cas w u l x y bad => casAct w u l x y bad s
  | .bara c n k h => baraAct c n k h s
  | .barw c n p => barwAct c n p s
  | .waitf l e => waitfAct l e s
  | .fill l v => fillAct l v s
  | .new a l h => newAct a l h s
  | .link sn sa => linkAct home key seq sn sa s
  | .wire x y => wireAct home x y s
  | .tshare c b h => tshareAct c b h s
  | .tdrop c b h => tdropAct c b h s
  | .publish va => publishAct va s
  | .seq o => seqAct o s
  | .wake c h => wakeAct c h s
  | .enq d l skew b => enqAct d l skew b s
  | .enwait c hdr n => enwaitAct c hdr n s
  | .launch step k => launchAct key seq step k s
  | .preds => predsAct s
  | .guard c b => guardAct c b s

/-- An operation that has arrived acts for its agent, and its answer leaves (R167, R174, R190). -/
def performOp (m : Msg) (aid key : Nat) (o : HomeOp) (s : State) : State :=
  match findAgent s aid with
  | none => s
  | some _ =>
    let r := actAt m.dst key m.seq (spoiledOp m.bad o) (checkout aid s)
    match r.2 with
    | some ans => answerTo m.dst aid key m.seq (countsOut o) ans r.1
    | none => r.1

/-- A home performs a message that it has received (R174, R190, R194, R367). -/
def performHome (m : Msg) (s : State) : State :=
  let s1 := performed m s
  match m.body with
  | .free n aid q => performFree m n aid q s
  | .write aid id => performPacket m aid id s
  | .request who _ down => performRequest m who down s1
  | .op aid key o => performOp m aid key o s1
  | .store core id chain seq bytes tags => performStore m core id chain seq bytes tags s1
  | .hostWrite l bytes => performHostWrite m l bytes s1
  | .hostRead l n off => respond m (.hostData off ((List.range n).map fun i => cxlByte s1 (l + i))) s1
  | .farReq pkg id r => performFarReq m pkg id r s1
  | _ => s

/-- A message is a request that its home may perform once it is the first of its sender (R395). -/
def homeMay (s : State) (m : Msg) : Bool :=
  match m.body with
  | .free _ _ _ => true
  | .write aid id => writeMay s aid id
  | .request _ _ _ => true
  | .op _ _ _ => true
  | .store _ _ _ _ _ _ => true
  | .hostWrite _ _ => true
  | .hostRead _ _ _ => true
  | .farReq _ _ _ => true
  | _ => false

/-- The requests that a home may perform now. -/
def homeDue (s : State) (home : CoreId) (f : Msg → Bool) : List Msg :=
  s.net.filter fun m => m.dst == home && isHere m && homeMay s m && firstOf s m && f m

/-- One of several requests is performed. -/
def performOne (l : List Msg) (s : State) : State :=
  match l[Config.choose s.draws % l.length]? with
  | some m => performHome m s
  | none => s

/-- R174, R194, R367: a request at a core's home is admitted and performed. -/
def execRemoteImmediateOp (core : CoreId) (s : State) : Outc := .next (performOne (homeDue s core fun _ => true) s)

/-- A request reaches a stack at its culm port: its sender is no core on the stack's own tiller die, or the die is evacuated (R12,
R13). -/
def atCulmPort (s : State) (stack : Nat) (c : CoreId) : Bool :=
  match partyOf s c with
  | .core p => dieOf p != stack / 3 || s.evacuated.contains (stack / 3)
  | .stack _ => true
  | .die _ => false
  | .culm => true

/-- R12: a stack's arbiter performs a request that waits at one of its ports. -/
def execStackRequest (stack : BitVec 4) (culm : Bool) (s : State) : Outc :=
  let k := stack.toNat
  .next (performOne (homeDue s (stackId k) fun m => atCulmPort s k m.src == culm) s)

/-! ## Answers (R167, R238, R333, R380) -/

/-- The agent that an answer to a request is for. -/
def replyTo : Body → Option Nat
  | .reply a => some a
  | .result a _ _ _ => some a
  | .token a _ _ _ => some a
  | .answer who _ => askerAgent who
  | .farData who _ _ _ => askerAgent who
  | _ => none

/-- The reply that has reached an agent. -/
def replyFor (s : State) (a : Agent) : Option Msg :=
  s.net.find? fun m => reaches s m a && firstOf s m && replyTo m.body == some a.aid

/-- The answer to read requests of the agent: one fewer is to come where it waits for them. -/
def takeData (key : Nat) (bad : Bool) (a : Agent) : Agent :=
  match a.run with
  | .blocked (.reads k n b ls) => if k = key then { a with run := .blocked (.reads k (n - 1) (b || bad) ls) } else a
  | _ => a

/-- A block of a tile image has come: one fewer is to come where the agent waits for them. -/
def takeImage (key : Nat) (a : Agent) : Agent :=
  match a.run with
  | .blocked (.tileRestore n k left) => if k = key then { a with run := .blocked (.tileRestore n k (left - 1)) } else a
  | _ => a

/-- An answer as it is delivered: a block that a parity error has struck is poisoned (R422). -/
def spoiledAnswer (bad : Bool) : OpAnswer → OpAnswer
  | .done d => .done { d with tag := if bad then d.tag ||| 0xFF00 else d.tag }
  | x => x

/-- A reply reaches the current agent. -/
def takeReply (m : Msg) (s : State) : State :=
  match m.body with
  | .answer (.agent _ key) _ => { s with ag := takeData key m.bad (lowerOut true s.ag) }
  | .farData (.agent _ key) l b t => { s with ag := learnBlock l b t (takeData key m.bad (lowerOut true s.ag)) }
  | .answer (.tile _ key) _ => { s with ag := takeImage key s.ag }
  | .result _ key counts ans => takeResult key (spoiledAnswer m.bad ans) { s with ag := lowerOut counts s.ag }
  | .token _ key w keys => { s with ag := takeToken s.mem key w keys s.ag }
  | _ => { s with ag := lowerOut true s.ag }

/-- R167: a reply or acknowledgement reaches the agent. -/
def execReplyArrival (aid : Nat) (s : State) : Outc :=
  match findAgent s aid with
  | none => .next s
  | some a => match replyFor s a with
    | none => .next s
    | some m => .next (takeReply m (checkout aid (received m a s)))

/-- The refusal that has reached an agent. -/
def refusalFor (s : State) (a : Agent) : Option (Msg × LateTrap) :=
  s.net.findSome? fun m => match m.body with
    | .refusal b t => if b = a.aid ∧ reaches s m a ∧ firstOf s m then some (m, t) else none
    | _ => none

/-- The agent is blocked on the request of a number (R239). -/
def blockedOn (r : Run) (seq : BitVec 24) : Bool :=
  match r with
  | .blocked (.translation q) => q == seq
  | .blocked (.nodePage _ q) => q == seq
  | _ => false

/-- A refusing answer reaches the current agent (R238, R239): one of the request that it is blocked on ends the wait and
is delivered at once, with handler state set as a double trap; any other one becomes pending. A refused fetch is the
precise trap FETCH (R97, R305). -/
def takeRefusal (t : LateTrap) (s : State) : State :=
  let s1 := { s with ag := lowerOut true s.ag }
  if blockedOn s.ag.run t.seq then
    if t.cause = cFetch then trapWaited cFetch (t.trapa != s.ag.pc) t.trapa s1
    else deliver t.cause false t.trapa t.seq s.ag.pc s1
  else if t.cause = cFetch then s1
  else { s1 with ag := addLate t s1.ag }

/-- R238, R239 -/
def execRefusalArrival (aid : Nat) (s : State) : Outc :=
  match findAgent s aid with
  | none => .next s
  | some a => match refusalFor s a with
    | none => .next s
    | some (m, t) => .next (takeRefusal t (checkout aid (received m a s)))

/-! ## Late traps (R239) -/

/-- A wake of the agent's wait-table entry is on its way. -/
def wakeComing (s : State) (aid : Nat) : Bool :=
  s.net.any fun m => match m.body with
    | .waiter a _ => a == aid
    | _ => false

/-- The migration of an agent that is under way. -/
def moveOf (s : State) (aid : Nat) : Option Move := s.moves.find? fun m => m.aid == aid

/-- The agent has been captured and has not resumed. -/
def inTransit (s : State) (aid : Nat) : Bool := s.moves.any fun m => m.aid == aid && m.captured

/-- The agent stands at an instruction boundary (R239). One whose operation has left for another party first gets its answer, one
that a wake has reached ends its instruction, and one in transit resumes (DEDUCED, log 16). -/
def atBoundary (s : State) (a : Agent) : Bool :=
  !inTransit s a.aid && match a.run with
    | .running => true
    | .blocked (.op _ _) => false
    | .blocked (.slept _) => false
    | .blocked (.woken _ none) => !wakeComing s a.aid
    | .blocked (.woken _ (some _)) => false
    | .blocked _ => true
    | .free => false
    | .halted => false
    | .dead => false

/-- A late trap of the agent may be delivered. -/
def lateDue (s : State) (a : Agent) : Bool :=
  !a.handler && !a.late.isEmpty && atBoundary s a && !(getCore s a.place).stopped

/-- The pending late trap of the lowest TRAPSEQ. -/
def firstLate : List LateTrap → Option LateTrap
  | [] => none
  | t :: ts => match firstLate ts with
    | none => some t
    | some u => some (if u.seq.toNat < t.seq.toNat then u else t)

/-- Remove one pending trap. -/
def dropLate (t : LateTrap) (a : Agent) : Agent := { a with late := a.late.erase t }

/-- Forget what an agent waits for in a core. -/
def forget (aid : Nat) (c : Core) : Core :=
  { c with
    waiters := c.waiters.filter fun w => w.aid != aid
    refused := c.refused.filter fun w => w.aid != aid }

/-- The current agent leaves the instruction it is blocked in, which has not been performed: its entry in a wait table is withdrawn,
and a migration that has not begun is abandoned. -/
def leaveWait (s : State) : State :=
  let aid := s.ag.aid
  let s1 := { s with core := forget aid s.core, cores := s.cores.map (forget aid) }
  match s.ag.run with
  | .blocked .waitTable => { s1 with ag := { s1.ag with waitAt := none } }
  | .blocked (.woken counts _) => { s1 with ag := lowerOut counts { s1.ag with waitAt := none } }
  | .blocked .migration => { s with moves := s.moves.filter fun m => m.aid != aid }
  | .blocked .extension => { s with moves := s.moves.filter fun m => m.aid != aid }
  | _ => s

/-- R239: the pending trap of the lowest TRAPSEQ is delivered. -/
def execLateTrapDelivery (aid : Nat) (s : State) : Outc :=
  withAgent aid s fun s1 =>
    if lateDue s1 s1.ag then
      match firstLate s1.ag.late with
      | none => .next s1
      | some t =>
        let s2 := leaveWait s1
        .next (deliver t.cause false t.trapa t.seq s2.ag.pc { s2 with ag := dropLate t s2.ag })
    else .next s

/-! ## Wait tables, wakes and sleeps (R184, R186, R218) -/

/-- The refused waiters of a core whose agents know of the refusal. -/
def retrying (s : State) (core : CoreId) : List Waiter :=
  (getCore s core).refused.filter fun w => match findAgent s w.aid with
    | some a => a.run == .blocked .waitTable
    | none => false

/-- R184: a refused waiter of a core repeats its request. -/
def execWaitTableRetry (core : CoreId) (s : State) : Outc :=
  let l := retrying s core
  match l[Config.choose s.draws % l.length]? with
  | none => .next s
  | some w =>
    .next (onAgent w.aid (fun a => { a with run := .running })
      (onCore core (fun c => { c with refused := c.refused.filter fun x => x.aid != w.aid }) s))

/-- The wake of a wait-table entry that has reached its agent at a core. -/
def waiterAt (s : State) (core : CoreId) : Option (Msg × Agent × Word) :=
  s.net.findSome? fun m => match m.body with
    | .waiter aid v => match findAgent s aid with
      | some a => if m.dst = core ∧ reaches s m a ∧ firstOf s m then some (m, a, v) else none
      | none => none
    | _ => none

/-- A wake hands the agent its value, and acknowledges the request that entered the table (R167, R184). -/
def takeWoken (v : Word) (a : Agent) : Agent :=
  match a.run with
  | .blocked (.woken counts none) => { lowerOut counts a with run := .blocked (.woken counts (some v)) }
  | _ => a

/-- R184, R186: the wake hands the agent its value; the instruction ends at its next issue. -/
def execWaiterWake (core : CoreId) (s : State) : Outc :=
  match waiterAt s core with
  | none => .next s
  | some (m, a, v) => .next (onAgent a.aid (takeWoken v) (received m a s))

/-- The WAKE that a forwarding entry has sent on and that has reached an agent. -/
def wakeFor (s : State) (a : Agent) : Option Msg :=
  s.net.find? fun m => m.body == .wake a.aid && reaches s m a && firstOf s m

/-- R218 -/
def execWakeArrival (aid : Nat) (s : State) : Outc :=
  match findAgent s aid with
  | none => .next s
  | some a => match wakeFor s a with
    | none => .next s
    | some m => .next (onAgent aid takeWake (received m a s))

/-- R218: the cycle limit of a SLEEP expires, if CYCLE reaches it. -/
def execSleepTimeout (aid : Nat) (s : State) : Outc :=
  match findAgent s aid with
  | none => .next s
  | some a => match a.run with
    | .blocked (.sleep (some d)) =>
      if 2 ^ 64 ≤ d then .next s
      else .next (onAgent aid (fun b => { b with run := .blocked (.slept 1) })
        { s with cycle := if s.cycle.toNat < d then BitVec.ofNat 64 d else s.cycle })
    | _ => .next s

/-! ## Packets (R250, R259, R395) -/

/-- Change a message in the net. -/
def onMsg (i : Nat) (f : Msg → Msg) (s : State) : State :=
  { s with net := s.net.map fun m => if m.id = i then f m else m }

/-- A message is the next of its sender for its destination (R395). -/
def nextOf (s : State) (m : Msg) : Bool :=
  (s.net.find? fun x => !isHere x && x.src == m.src && x.dst == m.dst).map (·.id) == some m.id

/-- A party that performs what it receives at its arrival: host memory and what else stands behind the culm die (R12). -/
def actsAtOnce (c : CoreId) : Bool := clusterOf c == 7

/-- A host command, or its answer (R404). -/
def ofCommand : Body → Bool
  | .command _ _ => true
  | .commanded _ _ _ _ _ => true
  | _ => false

/-- A message is performed at its arrival: an answer for which no agent waits, a packet for another package or an answer of one, a
request at a teff core, and any message for a party without an event of its own. -/
def atDelivery (m : Msg) : Bool :=
  (actsAtOnce m.dst && !ofCommand m.body) || match m.body with
    | .answer who _ => (askerAgent who).isNone
    | .farData who _ _ _ => (askerAgent who).isNone
    | .posted _ _ _ => true
    | .farReply _ _ _ _ => true
    | .request _ _ _ => coreNumOf m.dst == 16
    | _ => false

/-- The message is discarded at its arrival: its context is destroyed, or its agent has ended (R259). -/
def forNobody (s : State) (m : Msg) : Bool :=
  (m.ctx != hostCtx && !ofLiving s m) || match bodyAgent m.body with
    | some aid => (findAgent s aid).isNone
    | none => false

/-- A packet may be delivered: it is the next of its sender for its destination, and what is performed at its arrival is the
first not performed (R395). -/
def deliverable (s : State) (m : Msg) : Bool :=
  !isHere m && nextOf s m && packetThere s m && (!atDelivery m || (firstOf s m && match m.body with
    | .write aid id => writeMay s aid id
    | _ => true))

/-- The instance of a number in a context gives a hint: a pending successor of it is released for early placement (R215, R279). -/
def hinted (draws : Nat) (own : Inst) (preds : List Nat) (n : Nat) (i : Inst) : Inst :=
  if i.ctx = own.ctx ∧ i.replay = own.replay ∧ i.step = n ∧ i.state = .pending ∧ !own.launched ∧ preds.contains own.step
  then { i with state := .early, early := true, age := draws } else i

/-- A hint reaches the master distributor (R215). -/
def takeHint (ctx : Nat) (inst : BitVec 32) (n : Nat) (s : State) : State :=
  match (findCtx s ctx).bind (fun x => x.plan[n]?), findInst s ctx inst with
  | some st, some own => { s with insts := s.insts.map (hinted s.draws own st.preds n) }
  | _, _ => s

/-- A report of a die reaches the master distributor, which then knows what it says (R286). -/
def takeReport (die : Nat) (free : List CoreId) (agents : List (Nat × Nat)) (s : State) : State :=
  let gone := fun (k : Nat) => dieOf (getCore s (BitVec.ofNat 17 k)).phys == die
  { s with
    reports := s.reports.filter (fun p => dieOf p != die) ++ free
    freeAgents := agents.foldl (fun l p => alSet 0 l p.1 p.2) (s.freeAgents.filter fun p => !gone p.1) }

/-- The bytes that a host read brings are placed where the host reads them (R404). -/
def takeHostData (off : Nat) (bytes : List Byte) (s : State) : State :=
  { s with hostOut := s.hostOut.take off ++ bytes ++ s.hostOut.drop (off + bytes.length) }

/-- A message is performed at its arrival. -/
def performNow (m : Msg) (s : State) : State :=
  if isFarId m.dst then leaveFar m (performed m s)
  else match m.body with
  | .farData (.engine core id) _ b t => readFarAsked core id b t m.bad (performed m s)
  | .farReq _ _ _ => performHome m s
  | .answer (.engine core id) _ => replyAsked core id m.bad (performed m s)
  | .posted core hdr ok => landPosted core hdr ok (performed m s)
  | .farReply dest src code word => takeFarReply dest src code word (performed m s)
  | .hint inst n => takeHint m.ctx inst n (performed m s)
  | .report d free agents => takeReport d free agents (performed m s)
  | .hostData off bytes => takeHostData off bytes (performed m s)
  | .write _ _ => performHome m s
  | .request _ _ _ => performHome m s
  | .op _ _ _ => performHome m s
  | .store _ _ _ _ _ _ => performHome m s
  | _ => leavePackage m (performed m s)

/-- R395: a packet reaches its destination in the order of its sender. One of a destroyed context is discarded (R259). -/
def execPacketDelivery (i : Nat) (s : State) : Outc :=
  match s.net.find? (fun m => m.id == i) with
  | none => .next s
  | some m =>
    if !deliverable s m then .next s
    else if forNobody s m then .next (performed m s)
    else if atDelivery m then .next (performNow m s)
    else .next (onMsg i (fun x => { x with arrived := true, order := s.draws }) s)

/-- A message has arrived where it finds neither its agent nor a forwarding entry. -/
def isStray (s : State) (m : Msg) : Bool :=
  isHere m && match bodyAgent m.body with
    | none => false
    | some aid => match findAgent s aid with
      | none => true
      | some a => !reaches s m a

/-- The counts of a message that is sent again: it has counted at its sender if it left it, and counts at its receiver if it
has another one (R253). -/
def recount (m : Msg) (dest : CoreId) (s : State) : State :=
  if !ofLiving s m then s
  else if m.src = m.dst then (if isComputeCore m.src && m.src != dest then countSent m.src s else s)
  else if isComputeCore m.src && m.src == dest then countRcvd dest s
  else s

/-- R250: such a message goes back to its sender, which looks up the agent's place and sends it again; one for an agent that has
ended is discarded. -/
def execMessageReturn (i : Nat) (s : State) : Outc :=
  match s.net.find? (fun m => m.id == i) with
  | none => .next s
  | some m =>
    if !isStray s m then .next s
    else match (bodyAgent m.body).bind (findAgent s) with
      | none => .next (performed m s)
      | some a => .next (onMsg i (fun x => { x with dst := a.place, rcvr := a.place, arrived := false, site := .start }) (recount m a.place s))

/-! ## The patrol scrub (R422, R423) -/

/-- An uncorrectable error in a block: scale byte 0xFF in its tag, for every reader. -/
def poisonBlock (l : Nat) (s : State) : State :=
  let hit := fun (a : Agent) => { a with view := memSetTag a.view l (memTag a.view l ||| 0xFF00) }
  { s with
    mem := memSetTag s.mem l (memTag s.mem l ||| 0xFF00)
    struck := blockOf l :: s.struck.filter (· != blockOf l)
    ag := hit s.ag
    agents := s.agents.map hit }

/-- Poison a block of a granule. -/
def poisonGranule (off : Nat) (g : Granule) : Granule :=
  let i := off % 4096 / 64
  let b := alGet zeroBlock g.blocks i
  { g with blocks := alSet zeroBlock g.blocks i (b.1, b.2 ||| 0xFF00) }

/-- An uncorrectable error at an offset of a stack's store reservation poisons that block of the granule there (R327, R422; log 31). -/
def poisonStore (k off : Nat) (s : State) : State :=
  let st := getStore s k
  setStore k { st with granules := st.granules.map fun g => if g.num = off / 4096 + 1 then poisonGranule off g else g } s

/-- R422, R423: the scrub of a stack, which begins at step 5 of bring-up (R417), corrects a block, or finds an error that it cannot
correct and that poisons the block. -/
def execPatrolScrub (stack : BitVec 4) (pa : Word) (uncorrectable : Bool) (s : State) : Outc :=
  let k := stack.toNat
  let off := pa.toNat % 2 ^ 36
  if 12 ≤ k ∨ s.boot.reached < 6 then .next s
  else
    let n := s.hbmErr.toList.getD k (0, 0)
    let n' := if uncorrectable then (n.1, n.2 + 1) else (n.1 + 1, n.2)
    let s1 := { s with hbmErr := s.hbmErr.setIfInBounds k n' }
    .next (if !uncorrectable then s1
      else if off < stackEnd s k then poisonBlock (k * 2 ^ 36 + off) s1
      else poisonStore k (off - stackEnd s k) s1)

end Sys2Proof.Machine
end

