-- ==== Sys2Proof/Machine/Instance.lean ====
section
/-! DEFINITION. Cores that host an instance: taking one, preparing it, starting its agents and giving it back (R206, R252,
R273, R276, R279, R282 to R285, R379, R389). -/

namespace Sys2Proof.Machine

/-! ## Physical cores -/

/-- Every core that holds state. -/
def allCores (s : State) : List Core := s.core :: s.cores

/-- A core hosts an instance of a context (R283). -/
def hosts (ctx : Nat) (inst : BitVec 32) (c : Core) : Bool := c.ctx == some ctx && c.inst == inst

/-- The cores of a context. -/
def coresOf (s : State) (ctx : Nat) : List Core := (allCores s).filter fun c => c.ctx == some ctx

/-- The core that a physical core is. -/
def coreOn (s : State) (p : CoreId) : Option Core := (allCores s).find? fun c => c.ctx.isSome && !c.out && c.phys == p

/-- A physical core hosts no instance. -/
def physFree (s : State) (p : CoreId) : Bool := (coreOn s p).isNone

/-- The compute cores of the package by die, cluster and core (R8). -/
def physCores : List CoreId :=
  (List.range 384).map fun i => coreId (i / 96) (i / 16 % 6) (i % 16)

/-- Index of a compute core in the mask of 384: die, cluster, core (R419). -/
def physIdx (p : CoreId) : Nat := clusterIdx p * 16 + coreNumOf p

/-- A spare core is held back from placement (R258, R419). -/
def isSpare (s : State) (p : CoreId) : Bool := s.cfg.spare.getLsbD (physIdx p)

/-- The other context that has reserved a cluster. -/
def ownerOf (s : State) (n cl : Nat) : Option Ctx := s.ctxs.find? fun y => y.num != n && y.reserve.contains cl

/-- Bytes of save area for a core: 8 agent images with 8 tiles each, and the core's state (R244). -/
def savePerCore : Nat := (12 * 8 + 1088) * 1024

/-- How many cores more a context may hold: its save area has room for them (R244; DEDUCED, log 21). -/
def coresLeft (s : State) (x : Ctx) : Nat := x.saveLen.toNat / savePerCore - (coresOf s x.num).length

/-- A core is held back from placement: a spare one, or one of a die that is evacuated and stopped (R13, R258). -/
def barred (s : State) (p : CoreId) : Bool := isSpare s p || s.evacuated.contains (dieOf p)

/-- A context may use a physical core that is free (R244, R257, R288): one of another's reservation it only borrows, at a lower
priority, and not while the owner waits for it. -/
def mayUse (s : State) (x : Ctx) (p : CoreId) : Bool :=
  !barred s p && 0 < coresLeft s x &&
    match ownerOf s x.num (clusterIdx p) with
    | none => true
    | some y => x.prio.toNat < y.prio.toNat && s.pendingIn != some y.num

/-- No core of a context has the name of a physical core. -/
def nameFree (s : State) (x : Ctx) (p : CoreId) : Bool := (getCore s (ctxCore x.num (coreName p))).ctx.isNone

/-- The physical core whose name a physical core takes in a context: its own, or where a relocated core has that, the one on which
that core is seated, and so on (R252; DESIGN CHOICE, log 21). The fuel bounds the cores. -/
def nameFor (s : State) (x : Ctx) : Nat → CoreId → CoreId
  | 0, p => p
  | n + 1, p => if nameFree s x p then p else nameFor s x n (getCore s (ctxCore x.num (coreName p))).phys

/-- The name under which a context takes a physical core. -/
def nameOf (s : State) (x : Ctx) (p : CoreId) : CoreId := ctxCore x.num (coreName (nameFor s x 384 p))

/-- Remove a core's record. -/
def removeCore (c : CoreId) (s : State) : State :=
  if s.core.id = c then { s with core := Core.fresh c } else { s with cores := s.cores.filter fun x => x.id != c }

/-- Memory without the entries of a range of locations. -/
def clearRange (lo hi : Nat) (m : Mem) : Mem :=
  ⟨m.bytes.filter fun p => p.1 < lo || hi ≤ p.1, m.tags.filter fun p => p.1 < lo || hi ≤ p.1⟩

/-- The blocks of a range of locations hold no uncorrectable error any longer. -/
def unstruck (lo hi : Nat) (s : State) : State := { s with struck := s.struck.filter fun l => l < lo || hi ≤ l }

/-- A core is seated on a physical core, whose TLB and event counters it has from now on (R252, R302, R423). -/
def seat (c : Core) (p : CoreId) (s : State) : State :=
  setCore { c with phys := p, out := false, tlb := (getCore s p).tlb, events := (getCore s p).events } s

/-- A core leaves its physical core, which keeps the TLB and the event counters. -/
def unseat (c : Core) (s : State) : State := setCore { Core.fresh c.phys with tlb := c.tlb, events := c.events } s

/-- The locations of a context's save area. -/
def saveArea (x : Ctx) : List Nat := (List.range x.saveLen.toNat).map (x.save.toNat + ·)

/-- The firmware has written in a context's save area, whose layout is its own: every byte and tag there is free (R251, R256,
log 21). -/
def writeSaveArea (n : Nat) (s : State) : State :=
  match findCtx s n with
  | none => s
  | some x =>
    let m := memSetBytes s.mem ((saveArea x).map fun l => (l, Config.saveByte s.draws l))
    { s with mem := memSetTags m ((blocksOf (saveArea x)).map fun l => (l, Config.saveTag s.draws l)) }

/-- A physical core is taken for an instance, under a name of its context (R252, R283). Its STOPCNT is that of the context (DESIGN
CHOICE, log 21). -/
def hostCore (x : Ctx) (i : Inst) (kd : KDesc) (key p : CoreId) (s : State) : State :=
  seat { Core.fresh key with
    ctx := some x.num, inst := i.num, topx := x.topx, kd := kd, kparam := i.kparam, stopcnt := x.stops } p s

/-- What waits on a teff core is an engine of a core, its sequencer, or its preparation. -/
def parkedFor (c : CoreId) : Parked → Bool
  | .agent _ => false
  | .strip k _ => k == c
  | .cpy k _ => k == c
  | .chain k _ => k == c
  | .gather k _ => k == c
  | .prepare k => k == c
  | .sequencer k => k == c

/-- A core is released: its slice and its state cease to exist (R279), and what its engines had asked for finds no one. What it counted
stays with the context (R253, R254). -/
def releaseCore (c : Core) (s : State) : State :=
  let s1 := removeCore c.id (dropAccesses c.id (parkedFor c.id) (if c.out then s else unseat c s))
  onCtx (c.ctx.getD 64) (fun x => { x with sentGone := x.sentGone + c.sentcnt, rcvdGone := x.rcvdGone + c.rcvdcnt })
    (unstruck (sliceBase c.id) (sliceBase c.id + 2 ^ 22) { s1 with mem := clearRange (sliceBase c.id) (sliceBase c.id + 2 ^ 22) s1.mem })

/-- Release cores. -/
def releaseCores : List Core → State → State
  | [], s => s
  | c :: cs, s => releaseCores cs (releaseCore c s)

/-! ## Preparing a core (R276) -/

/-- How a preparation goes. -/
inductive PrepRes
  | ready (s : State)
  /-- Blocks of SLICEIMG are on their way. -/
  | waiting (s : State)
  /-- A block of SLICEIMG misses in the TLB of a core. -/
  | miss (s : State) (core : CoreId) (va : Word)
  /-- An address of SLICEIMG that R65 to R67 refuse. -/
  | refused

/-- Bytes of SLICEIMG: SPAD bytes of data, then a tag of 16 bits for each block (R273). -/
def imageLen (k : KDesc) : Nat := if k.sliceimg = 0 then 0 else k.spad + k.spad / 32

/-- The blocks in which SLICEIMG lies, by number, and the first one's. -/
def imageFirst (k : KDesc) : Nat := k.sliceimg.toNat / 64
/-- How many blocks SLICEIMG lies in. -/
def imageCount (k : KDesc) : Nat :=
  if imageLen k = 0 then 0 else (k.sliceimg.toNat + imageLen k + 63) / 64 - imageFirst k

/-- Ask for blocks of SLICEIMG, as the engines of a core do; the first that is refused or misses ends it (R276). -/
def askImage (c : Core) : List Nat → State → List Inflight → PrepRes
  | [], s, xs => .waiting (onCore c.id (fun k => { k with image := some xs }) s)
  | i :: is, s, xs =>
    let va : Word := BitVec.ofNat 64 (64 * (imageFirst c.kd + i))
    match engLocs s c.id false va .engRead with
    | .error .miss => .miss s c.id va
    | .error _ => .refused
    | .ok ls =>
      let r := askBlock c.id c.id i ls s
      askImage c is r.2 (xs ++ [r.1])

/-- Every block of a list has been read. -/
def allHere (xs : List Inflight) : Bool := xs.all (·.here)

/-- Bytes of a core's image from an offset, and whether an uncorrectable error or a poisoned tag lies in a block of them. -/
def imageNat (k : KDesc) (xs : List Inflight) (off n : Nat) : Nat × Bool :=
  let at_ := fun (o : Nat) => xs.find? fun x => x.ix == (k.sliceimg.toNat + o) / 64 - imageFirst k
  let byte := fun (o : Nat) => match at_ o with
    | some x => (BitVec.ofNat 8 (blkNat x.data ((k.sliceimg.toNat + o) % 64) 1) : Byte)
    | none => 0
  let os := (List.range n).map (off + ·)
  (bytesToNat (os.map byte), os.any fun o => match at_ o with | some x => poisoned x.outTag | none => false)

/-- Block i of SLICEIMG is placed at the start of the allotment, with its tag (R273, R276). -/
def placeBlock (c : Core) (xs : List Inflight) (s : State) (i : Nat) : State :=
  let d := imageNat c.kd xs (64 * i) 64
  let t : Tag := BitVec.ofNat 16 (imageNat c.kd xs (c.kd.spad + 2 * i) 2).1
  let l := sliceBase c.id + spadBase c.kd + 64 * i
  writeMem (withBytes ((List.range 64).map (l + ·)) d.1) [(l, if d.2 then t ||| 0xFF00 else t)] s

/-- These blocks of SLICEIMG are placed. -/
def placeImage (c : Core) (xs : List Inflight) (is : List Nat) (s : State) : State := is.foldl (placeBlock c xs) s

/-- A core has been prepared. -/
def preparedCore (c : CoreId) (s : State) : State := onCore c (fun x => { x with prepared := true, image := none }) s

/-- Items 1 to 3 of R68 are zeroed, and the core's storage has its initial state (R276 steps 1 to 3). Zeroed blocks are tagged 0x7FC0. -/
def clearCore (c : CoreId) (s : State) : State :=
  let b := sliceBase c
  let e := b + accEnd (getCore s c).kd
  onCore c (fun x => { x with
      full := [], bufs := [], bars := [], arena := [], relpend := []
      oslots := Vector.replicate 64 OSlot.initial, aslots := Vector.replicate 16 ASlot.zero
      oclaim := Vector.replicate 64 none, aclaim := Vector.replicate 16 none })
    (unstruck b e { s with mem := clearRange b e s.mem })

/-- Steps 1 to 3 of R276 for a core that an instance has taken: the clearing, then the slice image, which is placed when every block of
it has been read. -/
def prepareCore (c : CoreId) (s : State) : PrepRes :=
  let k := getCore s c
  match k.image with
  | some xs =>
    if allHere xs then .ready (preparedCore c (placeImage k xs (List.range (k.kd.spad / 64)) s)) else .waiting s
  | none =>
    if imageCount k.kd = 0 then .ready (preparedCore c (clearCore c s))
    else askImage k (List.range (imageCount k.kd)) (clearCore c s) []

/-- Prepare the cores of a list that are not prepared yet. -/
def prepareCores : List CoreId → State → PrepRes
  | [], s => .ready s
  | c :: cs, s =>
    if (getCore s c).prepared then prepareCores cs s
    else match prepareCore c s with
      | .ready s1 => prepareCores cs s1
      | .waiting s1 => (match prepareCores cs s1 with
        | .ready s2 => .waiting s2
        | r => r)
      | r => r

/-- Blocks of a core's slice image are on their way. -/
def imageComing (s : State) (c : CoreId) : Bool :=
  match (getCore s c).image with
  | some xs => !allHere xs
  | none => false

/-- Word i of a record of the node image, as step 4 of R276 places it in the slice of a core. -/
def nodeWord (c : Core) (kind i : Nat) (w : Word) : Word :=
  let arena := BitVec.ofNat 64 (winBase c.id + arenaBase c.kd)
  if i = 7 then 0
  else if 3 ≤ i then
    match portState w with
    | 0 => w
    | 3 => heldBy (BitVec.ofNat 64 (winBase c.id) + portPartner w)
    | st => portWord st (arena + portPartner w)
  else if i = 1 ∧ kind = 4 then BitVec.ofNat 64 (winBase c.id) + w
  else w

/-- A record of the node image, placed. -/
def nodeBlock (c : Core) (b : Block) : Nat :=
  let w := fun (i : Nat) => (BitVec.ofNat 64 (lane 64 i b) : Word)
  (mkBlock 64 8 fun i => (nodeWord c (hdrKind (w 0)) i (w i)).toNat).toNat

/-- The records of the node image, placed. -/
def placeNodes (c : Core) (bs : List Block) (m : Mem) : Mem :=
  bs.zipIdx.foldl (fun m p => memSetNat m (sliceBase c.id + arenaBase c.kd + 64 * p.2) 64 (nodeBlock c p.1)) m

/-- The active pairs of the node image: two numbers each, the lower first (R22). -/
def imagePairs (img : List Block) : List (Nat × Nat) :=
  img.zipIdx.filterMap fun p =>
    let w : Word := BitVec.ofNat 64 (lane 64 3 p.1)
    let o := (portPartner w).toNat
    if portState w = 1 ∧ o % 64 = 24 ∧ p.2 < o / 64 then some (p.2, o / 64) else none

/-- The loader pushes the active pairs (R276 step 5), in an order that is free (R318, R319). -/
def pushImage (c : Core) : Nat → List (Nat × Nat) → State → State
  | 0, _, s => s
  | n + 1, ps, s =>
    let k := Config.choose (s.draws + n) % ps.length
    match ps[k]? with
    | none => s
    | some p =>
      let a := fun (i : Nat) => (BitVec.ofNat 64 (winBase c.id + arenaBase c.kd + 64 * i) : Word)
      pushImage c n (ps.eraseIdx k)
        (startEntry c.id (entryOf s c.id (pairRecord (a p.1) (a p.2) c.topx none false 0)) s)

/-- Steps 4 and 5 of R276 on the lowest-numbered core of group 0. -/
def loadNet (c : CoreId) (s : State) : State :=
  let k := getCore s c
  let s1 := onCore c (fun x => { x with arena := List.range k.kd.nodeimg.length })
    (unstruck (sliceBase c + arenaBase k.kd) (sliceBase c + arenaBase k.kd + 64 * k.kd.nodeimg.length)
      { s with mem := placeNodes k k.kd.nodeimg s.mem })
  let ps := imagePairs k.kd.nodeimg
  pushImage (getCore s1 c) ps.length ps s1

/-! ## Starting agents (R276, R282, R284, R379) -/

/-- Cores of one group of a level (R282); agent groups share a core. -/
def groupCores : Nat → Nat
  | 2 => 16
  | 3 => 32
  | 4 => 384
  | _ => 1

/-- How many agents start on the i-th core of an instance (R282). -/
def agentsOn (kd : KDesc) (groups i : Nat) : Nat :=
  if kd.level = 0 then min kd.agents (groups - i * kd.agents) else kd.agents

/-- GROUPID of agent a of the i-th core of an instance (R83, R284). -/
def groupId (s : State) (kd : KDesc) (i a : Nat) (c : CoreId) : Word :=
  let group := match kd.level with
    | 0 => i * kd.agents + a
    | 4 => s.cfg.position.toNat
    | l => i / groupCores l
  let rank := match kd.level with
    | 0 => 0
    | 1 => a
    | 2 => coreNumOf c * kd.agents + a
    | 3 => (clusterOf c / 3 * 16 + coreNumOf c) * kd.agents + a
    | _ => (clusterIdx c * 16 + coreNumOf c) * kd.agents + a
  BitVec.ofNat 64 (kd.level * 2 ^ 48 + group * 2 ^ 16 + rank)

/-- The snapshot with which an agent starts, fixed at its first issue (R379, R382, R412), and whether it takes in every write performed
so far. In an instance that a LAUNCH created it may be the memory of its acceptance with what had been published, until the instance
started, at a scope that contains the agent. -/
def startView (s : State) (c : CoreId) (x : Option Inst) : Mem × Bool :=
  match x.bind fun i => i.base.map fun m => (m, i.news) with
  | none => (s.mem, true)
  | some (m, news) =>
    if Config.refreshAll s.draws then (s.mem, true)
    else
      let keys := (news.filter fun p => match p.2 with
        | none => true
        | some (sc, q) => scopeHolds sc (scopeLevel q c)).map (·.1)
      (takeKeys s.mem (Agent.fresh c 0) keys m, false)

/-- The current agent issues; at its first issue its snapshot is fixed (R412). -/
def begins (s : State) : State :=
  if s.ag.begun then s
  else
    let v := startView s s.ag.place (findInst s s.ag.ctx s.ag.inst)
    { s with ag := { s.ag with
        begun := true
        view := v.1
        incoming := if v.2 then [] else s.ag.incoming } }

/-- An agent at its start. -/
def startAgent (s : State) (c : Core) (i a : Nat) (x : Inst) : Agent :=
  { Agent.fresh c.id (BitVec.ofNat 3 a) with
    aid := s.msgs
    ctx := x.ctx
    inst := x.num
    run := .running
    lastIssue := s.draws
    pc := c.kd.entry
    groupid := groupId s c.kd i a c.id
    ns := c.kd.ns
    nv := c.kd.nv
    np := c.kd.np
    nt := c.kd.nt }

/-- Start the agents from number a on of the i-th core: n of them. -/
def startAgents (c : Core) (i : Nat) (x : Inst) : Nat → Nat → State → State
  | 0, _, s => s
  | n + 1, a, s =>
    startAgents c i x n (a + 1) { s with agents := s.agents ++ [startAgent s c i a x], msgs := s.msgs + 1 }

/-- Start the agents of the cores from the i-th on. -/
def startCores (groups : Nat) (x : Inst) : Nat → List CoreId → State → State
  | _, [], s => s
  | i, c :: cs, s =>
    let k := getCore s c
    startCores groups x (i + 1) cs (startAgents k i x (agentsOn k.kd groups i) 0 s)

/-- A shadow pair of an instance at its start (R206, R389). Its scope is taken around the core whose slice holds it; for a pair in
translated memory around the lowest-numbered core of group 0 (DESIGN CHOICE, log 20). -/
def startShadow (s : State) (x : Inst) (c : CoreId) (p : Word × Nat × Nat) : Shadow where
  va := p.1
  bytes := p.2.1
  scope := p.2.2
  home := match nodeLoc s (getCore s c) x.ctx p.1 with
    | some l => if isSliceLoc l then coreOfLoc l else c
    | none => c
  flipped := false
  count := 0

/-- Every record of the kernel's HBM node arena is free, those that another instance holds among them (R193, R276 step 3). -/
def freeArena (c : CoreId) (s : State) : State :=
  if (getCore s c).kd.hrecs = 0 then s else onArena c (fun h => { h with used := [], pend := [] }) s

/-- The prepared cores of an instance start it: the net, the shadow pairs and the agents (R276). -/
def startInstance (groups : Nat) (x : Inst) (s : State) : State :=
  match x.cores with
  | [] => onInst x.ctx x.num (fun y => { y with started := true }) s
  | c :: _ =>
    let s1 := loadNet c (freeArena c s)
    let sh := (getCore s1 c).kd.shadows.map (startShadow s1 x c)
    startCores groups x 0 x.cores
      (onInst x.ctx x.num (fun y => { y with started := true, shadows := sh }) s1)

end Sys2Proof.Machine
end

