-- ==== Sys2Proof/Machine/Migrate.lean ====
section
/-! DEFINITION. Live migration: MIGRATE, migration to an extension, forwarding entries and tile restores (R159, R219, R249 to
R251, R289, R323). -/

namespace Sys2Proof.Machine

/-! ## Targets -/

/-- The word breaks the format of WHERE, or names no compute core (R83, R218, R219). -/
def placeBad (x : Word) : Bool :=
  x.toNat / 2 ^ 48 != 0xFE || x.toNat / 2 ^ 32 % 2 ^ 16 != 0 || x.toNat / 8 % 2 ^ 19 != 0 ||
    !isComputeCore (BitVec.ofNat 17 (x.toNat / 2 ^ 22 % 1024))

/-- The agent numbers of a core that are free: no agent holds them and no migration has reserved them. -/
def freeNums (s : State) (c : CoreId) : List (BitVec 3) :=
  ((List.range 8).map (BitVec.ofNat 3)).filter fun n =>
    (agentAt s c n).isNone && !s.moves.any fun m => m.target == c && m.num == n

/-- Two claim tables both claim a slot of one number, the first for an agent. -/
def claimsMeet (g : BitVec 3) (a b : List (Option (BitVec 3))) : Bool :=
  (a.zip b).any fun p => p.1 == some g && p.2.isSome

/-- Two agents of two cores claim a slot of one number. -/
def bothClaim (g h : BitVec 3) (a b : List (Option (BitVec 3))) : Bool :=
  (a.zip b).any fun p => p.1 == some g && p.2 == some h

/-- A slot that an agent claims is claimed at the target (R219). -/
def slotsTaken (s : State) (a : Agent) (t : CoreId) : Bool :=
  let c := getCore s a.place
  let d := getCore s t
  claimsMeet a.num c.oclaim.toList d.oclaim.toList || claimsMeet a.num c.aclaim.toList d.aclaim.toList

/-- A slot that an agent claims comes to the target with another agent, whose migration there has been decided before. -/
def slotsPromised (s : State) (a : Agent) (t : CoreId) : Bool :=
  let c := getCore s a.place
  s.moves.any fun m => m.target == t && !m.captured && m.aid != a.aid && match findAgent s m.aid with
    | none => false
    | some b =>
      let d := getCore s b.place
      bothClaim a.num b.num c.oclaim.toList d.oclaim.toList || bothClaim a.num b.num c.aclaim.toList d.aclaim.toList

/-- The target refuses an agent for the slots it holds (R219). -/
def slotsMeet (s : State) (a : Agent) (t : CoreId) : Bool := slotsTaken s a t || slotsPromised s a t

/-- An agent holds a slot of its core. -/
def hasSlots (s : State) (a : Agent) : Bool :=
  let c := getCore s a.place
  c.oclaim.toList.contains (some a.num) || c.aclaim.toList.contains (some a.num)

/-- A migration is decided: the target agent is reserved (R249 step 1). -/
def reserveMove (aid : Nat) (t : CoreId) (ret : Option Reg) (s : State) : State :=
  let l := freeNums s t
  match l[Config.choose s.draws % l.length]? with
  | none => s
  | some n => { s with moves := s.moves ++ [⟨aid, t, n, false, ret⟩] }

/-- R219 -/
def execMigrate (d a : Reg) (s : State) : Outc :=
  checked [.s d, .s a] s <|
    let x := getS s a
    let t := coreNear s.ag.place (x.toNat / 2 ^ 22)
    if placeBad x ∨ !sameKernel s t s.ag.place then trap cBounds x s
    else if t = s.ag.place then .next (advance 4 (setS d 1 s))
    else if holdsSlots s ∧ isVectorCore t then trap cMigrateFail (word0 (.migrate d a)) s
    else if slotsMeet s s.ag t ∨ (freeNums s t).isEmpty then .next (advance 4 (setS d 0 s))
    else .next (blockOn .migration (reserveMove s.ag.aid t (some d) s))

/-! ## Capture and resumption (R249, R251, R323) -/

/-- Dirty tiles are written to the tile image, and are clean (R251). -/
def saveTiles (a : Agent) : Agent :=
  { a with
    timg := Vector.ofFn fun (i : Fin 8) => if a.tdirty.getLsbD i.val then a.t[i] else a.timg[i]
    tdirty := 0 }

/-- The configured tiles, by TSHAPE (R82). -/
def configuredTiles (a : Agent) : BitVec 8 :=
  BitVec.ofNat 8 (((List.range 8).map fun i => if a.tshape.toNat / 2 ^ (8 * i) % 16 = 15 then 0 else 2 ^ i).sum)

/-- Configured tiles are restored when an instruction first names them (R323). -/
def pendTiles (a : Agent) : Agent := { a with trest := configuredTiles a }

/-- The snapshot of an agent that leaves a slice holds what the slice holds: until then it read the slice itself. -/
def leaveSlice (c : CoreId) (m view : Mem) : Mem :=
  let lo := sliceBase c
  let hi := lo + 2 ^ 22
  ⟨view.bytes.filter (·.1 < lo) ++ m.bytes.filter (fun p => lo ≤ p.1 && p.1 < hi) ++ view.bytes.filter (hi ≤ ·.1),
    view.tags.filter (·.1 < lo) ++ m.tags.filter (fun p => lo ≤ p.1 && p.1 < hi) ++ view.tags.filter (hi ≤ ·.1)⟩

/-- A slot's claim moves: the source frees it and the target claims it, for the slots of one agent. -/
def moveClaims (g h : BitVec 3) : List (Option (BitVec 3)) → List (Option (BitVec 3)) → List (Option (BitVec 3))
  | x :: xs, y :: ys => (if x = some g then some h else y) :: moveClaims g h xs ys
  | _, ys => ys

/-- Slots that an agent claims take their contents along (R159). -/
def moveSlots {α : Type} (g : BitVec 3) : List (Option (BitVec 3)) → List α → List α → List α
  | x :: xs, a :: as, b :: bs => (if x = some g then a else b) :: moveSlots g xs as bs
  | _, _, bs => bs

/-- The target core with the slots of an agent of a source core. -/
def withSlots (g h : BitVec 3) (src c : Core) : Core :=
  { c with
    oslots := vecOf 64 OSlot.initial (moveSlots g src.oclaim.toList src.oslots.toList c.oslots.toList)
    aslots := vecOf 16 ASlot.zero (moveSlots g src.aclaim.toList src.aslots.toList c.aslots.toList)
    oclaim := vecOf 64 none (moveClaims g h src.oclaim.toList c.oclaim.toList)
    aclaim := vecOf 16 none (moveClaims g h src.aclaim.toList c.aclaim.toList) }

/-- The source core after an agent has left it, with its forwarding entry (R250). -/
def withoutAgent (g : BitVec 3) (f : Fwd) (c : Core) : Core :=
  { c with
    oclaim := vecOf 64 none (freeClaims g c.oclaim.toList)
    aclaim := vecOf 16 none (freeClaims g c.aclaim.toList)
    fwd := c.fwd ++ [f] }

/-- An agent stands where it may be captured: at an instruction boundary, or in a wait whose instruction has not acted (R249). One
that a wake or the answer to its operation has reached first ends its instruction. -/
def captureWait (a : Agent) : Bool :=
  match a.run with
  | .running => true
  | .blocked (.op _ (some _)) => false
  | .blocked (.slept _) => false
  | .blocked (.woken _ (some _)) => false
  | .blocked _ => true
  | .free => false
  | .halted => false
  | .dead => false

/-- An agent may be captured: its coprocessor queue entries, tile results and slice writes are done, and a forwarding entry is
free (R159, R249, R250, R352). -/
def mayCapture (s : State) (a : Agent) : Bool :=
  let c := getCore s a.place
  captureWait a && !c.coq.any (fun e => e.aid == a.aid) && a.tmma.isEmpty && c.fwd.length < 64 &&
    (takeOwn a.place [] a.posted.length a.posted).2.all fun w => !inSlice a.place (writeLoc w)

/-- What a captured agent keeps of its wait: one in RETIRE step 5 begins that step again on the target (R249). -/
def movedRun (n : Nat) : Run → Run
  | .blocked (.retire _) => .blocked (.retire n)
  | .blocked (.nodePage _ _) => .blocked (.retire n)
  | r => r

/-- The instruction is a WAITF or BARW. -/
def isWait : Option Instr → Bool
  | some (.waitf ..) => true
  | some (.barw ..) => true
  | _ => false

/-- Where an agent that waits in a WAITF or BARW began to wait (R184, R364). -/
def waitPlace (a : Agent) : Option CoreId :=
  match a.run with
  | .blocked .waitTable => some (a.waitAt.getD a.place)
  | .blocked (.woken _ _) => some (a.waitAt.getD a.place)
  | .blocked (.op _ _) => if isWait a.inhand then some (a.waitAt.getD a.place) else none
  | _ => none

/-- A captured agent in its target's place. What its old slice held, which it has read directly until now, enters its snapshot; its
own pending writes stay on top (R353, R354, R368). -/
def movedAgent (m : Move) (n : Nat) (mem : Mem) (b : Agent) : Agent :=
  { pendTiles (saveTiles b) with
    place := m.target
    num := m.num
    run := movedRun n b.run
    waitAt := waitPlace b
    view := overlay b.posted (leaveSlice b.place mem b.view) }

/-- How many tiles of an agent are dirty. -/
def dirtyTiles (a : Agent) : Nat := ((List.range 8).filter fun i => a.tdirty.getLsbD i).length

/-- The capture of an agent, and its stream to the target (R249 steps 2 to 4). Dirty tiles go to the save area: the source core's copy
unit sends their blocks (R251). -/
def captureAgent (a0 : Agent) (m : Move) (s : State) : State :=
  let s0 := drainOwn a0.aid a0.posted.length s
  let s1 := if a0.tdirty = 0 then s0
    else unitMsgs a0.place (imageHome s0 a0.ctx) a0.ctx .nobody true (16 * dirtyTiles a0) (writeSaveArea a0.ctx s0)
  let src := getCore s1 a0.place
  let s2 := setCore (withoutAgent a0.num ⟨a0.num, a0.aid, m.target⟩ src)
    (onCore m.target (withSlots a0.num m.num src) s1)
  let s3 := onAgent a0.aid (movedAgent m s2.draws s2.mem) s2
  send a0.place m.target a0.ctx (.stream a0.aid)
    { s3 with moves := s3.moves.map fun x => if x.aid = m.aid then { x with captured := true } else x }

/-- A migration ends before its capture, because the target's slots are taken by now (R219): MIGRATE answers 0. -/
def dropMove (m : Move) (s : State) : State :=
  let s1 := { s with moves := s.moves.filter fun x => x.aid != m.aid }
  match m.ret with
  | some d => let s2 := checkout m.aid s1; if s2.ag.aid = m.aid then advance 4 (setS d 0 s2) else s1
  | none => s1

/-- R249: an agent whose migration has been decided is captured and streamed; a gang-stopped agent is not. -/
def execMigrationCapture (aid : Nat) (s : State) : Outc :=
  match findAgent s aid, moveOf s aid with
  | some a, some m =>
    if m.captured ∨ !mayCapture s a ∨ (getCore s a.place).stopped then .next s
    else if slotsMeet s a m.target then .next (dropMove m s)
    else .next (captureAgent a m s)
  | _, _ => .next s

/-- The forwarding entries of an agent are freed. -/
def freeFwd (aid : Nat) (s : State) : State :=
  let f := fun (c : Core) => { c with fwd := c.fwd.filter fun x => x.aid != aid }
  { s with core := f s.core, cores := s.cores.map f }

/-- The cores with a forwarding entry for an agent. -/
def fwdCores (s : State) (aid : Nat) : List CoreId := ((allCores s).filter fun c => forwards c aid).map (·.id)

/-- The stream of a captured agent that has reached its target. -/
def streamFor (s : State) (aid : Nat) : Option Msg :=
  s.net.find? fun m => m.body == .stream aid && isHere m && firstOf s m

/-- The agent resumes (R187, R191, R249): MIGRATE answers 1; an instruction that waits for an extension, at a queue register or for a
tile executes again; any other wait goes on, and the instruction completes on the target. -/
def resumed (m : Move) (s : State) : State :=
  match m.ret with
  | some d => advance 4 (setS d 1 s)
  | none => match s.ag.run with
    | .blocked .extension => jumpTo s.ag.pc s
    | .blocked (.queueEntry _ _) => jumpTo s.ag.pc s
    | .blocked (.queueRoom _ _) => jumpTo s.ag.pc s
    | .blocked (.tileRestore _ _ _) => jumpTo s.ag.pc s
    | _ => s

/-- R249, R250: the agent issues on the target, which confirms; the confirmation frees the forwarding entries. -/
def execMigrationResume (aid : Nat) (s : State) : Outc :=
  match moveOf s aid, streamFor s aid with
  | some m, some x =>
    if !m.captured then .next s
    else
      let s1 := performed x s
      let s2 := checkout aid { s1 with moves := s1.moves.filter fun x => x.aid != aid }
      if s2.ag.aid ≠ aid then .next s2
      else
        let s3 := resumed m s2
        .next (freeFwd aid ((fwdCores s3 aid).foldl (fun y c => oneWay m.target c s3.ag.ctx y) s3))
  | _, _ => .next s

/-- R250: 100 µs after its installation a forwarding entry is freed: the oldest of a core. -/
def execForwardingExpiry (core : CoreId) (s : State) : Outc :=
  .next (onCore core (fun c => { c with fwd := c.fwd.drop 1 }) s)

/-- A tile is as its image has it, and its restore is done. -/
def restoreTile (n : BitVec 3) (a : Agent) : Agent :=
  { a with t := a.t.setIfInBounds n.toNat (a.timg.toList.getD n.toNat Tile.zero), trest := a.trest &&& ~~~bit8 n.toNat }

/-- The 16 blocks of a tile's image have reached the agent that waits for them. -/
def imageCame (a : Agent) (n : BitVec 3) : Bool :=
  a.trest.getLsbD n.toNat && match a.run with
    | .blocked (.tileRestore k _ left) => k == n.toNat && left == 0
    | _ => false

/-- R251, R323: the restore of a tile is done. -/
def execTileRestoreDone (aid : Nat) (n : BitVec 3) (s : State) : Outc :=
  .next (onAgent aid (fun a => if imageCame a n then restoreTile n a else a) s)

/-! ## Migration to an extension (R289) -/

/-- Ring hops between the stops of two cores of a cluster (R9). -/
def ringHops (a b : CoreId) : Nat :=
  let d := (coreNumOf a / 2 + 8 - coreNumOf b / 2) % 8
  min d (8 - d)

/-- The core of the other kind nearest to a core, the lower-numbered on a tie. -/
def nearest (a : CoreId) : List CoreId → Option CoreId
  | [] => none
  | c :: cs => match nearest a cs with
    | none => some c
    | some x =>
      let d := ringHops a c
      let e := ringHops a x
      some (if d < e ∨ (d = e ∧ coreNumOf c < coreNumOf x) then c else x)

/-- The cores of an agent's cluster that have the extension which its own core lacks. -/
def otherKind (c : CoreId) : List CoreId :=
  ((List.range 16).map fun i => coreNear c (coreName c / 32 * 32 + i)).filter fun x => isVectorCore x != isVectorCore c

/-- A core of the instance with a free agent. -/
def canReceive (s : State) (c x : CoreId) : Bool := sameKernel s x c && (getCore s x).prepared && !(freeNums s x).isEmpty

/-- The cores of an agent's own group, by the group number of its GROUPID (R83, R284). -/
def groupOf (s : State) (a : Agent) : List CoreId :=
  let k := (getCore s a.place).kd
  let g := a.groupid.toNat / 2 ^ 16 % 2 ^ 32
  match findInst s a.ctx a.inst with
  | none => []
  | some i => match k.level with
    | 0 => (i.cores.drop (g / k.agents)).take 1
    | 4 => i.cores
    | l => (i.cores.drop (g * groupCores l)).take (groupCores l)

/-- The candidates of R289's first two sets for an agent. -/
def extTarget (s : State) (a : Agent) : Option CoreId :=
  let l := (otherKind a.place).filter (canReceive s a.place)
  (nearest a.place (l.filter (groupOf s a).contains)).or (nearest a.place l)

/-- A free physical core that an instance's context may use, by its name in the context (R257, R288). -/
def mayJoin (s : State) (x : CoreId) : Bool :=
  let p : CoreId := BitVec.ofNat 17 (coreName x)
  match findCtx s (ctxOfName x) with
  | none => false
  | some k => physFree s p && mayUse s k p && nameFree s k p

/-- A core of the cluster that joins the instance: one that is being prepared, else one that hosts nothing. -/
def joinCore (s : State) (c : CoreId) : Option CoreId :=
  let l := otherKind c
  let open_ := l.filter fun x => sameKernel s x c && !(getCore s x).prepared
  (nearest c open_).or (nearest c (l.filter (mayJoin s)))

/-- A physical core joins the instance of another core, under a name; a gang stop that has yet to reach that one has yet to reach it too
(R253). -/
def joinInstance (c x p : CoreId) (s : State) : State :=
  if (getCore s x).ctx.isSome then s
  else match (getCore s c).ctx with
    | none => s
    | some n => match findCtx s n, findInst s n (getCore s c).inst with
      | some k, some i =>
        onCore x (fun y => { y with stopcnt := (getCore s c).stopcnt })
          (hostCore k i (getCore s c).kd x p s)
      | _, _ => s

/-- A message is a fault message, or the answer to one, of a party. -/
def asksFor (who : Parked) : Body → Bool
  | .fault a => a.who == who
  | .mapped x => x.who == who
  | _ => false

/-- A preparation of the core waits on the teff core. -/
def prepParked (s : State) (c : CoreId) : Bool :=
  s.teffs.toList.any (fun t => t.parked.any fun a => a.who == .prepare c) || s.net.any fun m => asksFor (.prepare c) m.body

/-- A physical core joins the instance of an agent under a name and is prepared, no agent started (R289): an image that is refused faults the
instance. -/
def joinFor (a : Agent) (x p : CoreId) (s : State) : State :=
  let s1 := joinInstance a.place x p s
  match prepareCore x s1 with
  | .ready s2 => s2
  | .waiting s2 => s2
  | .miss s2 k va => parkEngine (.prepare k) k k va .engRead s2
  | .refused => reportFault a.ctx a.inst s1

/-- R289: an agent that waits at an instruction its core lacks finds a target; a core that joins the instance is prepared
first, and an image that is refused faults the instance. -/
def execExtensionTargetFree (aid : Nat) (s : State) : Outc :=
  match findAgent s aid with
  | none => .next s
  | some a =>
    if a.run ≠ .blocked .extension ∨ (moveOf s aid).isSome ∨ (getCore s a.place).stopped then .next s
    else match extTarget s a with
      | some t => .next (reserveMove aid t none s)
      | none => match joinCore s a.place with
        | none => .next s
        | some x => if prepParked s x || imageComing s x then .next s
          else .next (joinFor a x (BitVec.ofNat 17 (coreName x)) s)

end Sys2Proof.Machine
end

