-- ==== Sys2Proof/Machine/System.lean ====
section
/-! DEFINITION. LAUNCH, HINTSUCC, WAITPRED, RTE, HALT, SLEEP and WAKE (R214 to R218). -/

namespace Sys2Proof.Machine

/-! ## Kernels from device code (R214, R215, R412) -/

/-- The step of the context's plan that a number names. -/
def stepOf (s : State) (n : Nat) : Option Step :=
  match findCtx s s.ag.ctx with
  | none => none
  | some x => x.plan[n]?

/-- Values in pairs. -/
def pairsOf : List Word → List (Nat × Word)
  | a :: b :: r => (a.toNat, b) :: pairsOf r
  | _ => []

/-- The patches that the lanes of a patch table hold, the count first, or BOUNDS for an index above 15 (R214 step 2). -/
def patchesOf (b : Word) (ls : List (List XOk)) (s : State) (k : List (Nat × Word) → State → Outc) : Outc :=
  let ps := pairsOf ((ls.drop 1).map fun xs => BitVec.ofNat 64 (agNat s xs))
  if ps.any (fun p => 15 < p.1) then trap cBounds b s else k ps (orStatus (stickyIf (ls.any (anyPoison s)) stPSN) s)

/-- The patch table of LAUNCH (R214 step 2): window addresses only (R191), read as a scalar load reads them. -/
def patchTable (b : Word) (s : State) (k : List (Nat × Word) → State → Outc) : Outc :=
  if b = 0 then k [] s
  else if b.toNat % 8 ≠ 0 then trap cMisaligned b s
  else if b.toNat / 2 ^ 48 ≠ 0xFE then trap cBounds b s
  else match gotReads s with
  | some ls => patchesOf b ls s k
  | none => access s false .read [] [(b, 8)] fun l0 =>
    let n := agNat s (l0.headD [])
    if 16 < n then trap cBounds b s
    else
      let lanes := (List.range (2 * n)).map fun i => (b + BitVec.ofNat 64 (8 * (i + 1)), 8)
      access s false .read [] lanes fun ls => fetching (l0 ++ ls) s (patchesOf b (l0 ++ ls) s k)

/-- KPARAM values with patches applied in order. -/
def patched (ps : List (Nat × Word)) (k : Vector Word 16) : Vector Word 16 :=
  ps.foldl (fun v p => v.setIfInBounds p.1 p.2) k

/-- The new instance's number in sd (R214). -/
def launchFin (d : Reg) (x : OpData) (s : State) : Outc := .next (advance 4 (setS d x.value s))

/-- R214: the checks, the release, and the hand-over to the master distributor, a request that counts in OUTREQ until it is accepted
(R190, R238). -/
def execLaunch (d a b : Reg) (s : State) : Outc :=
  checked [.s d, .s a, .s b] s <| completing (launchFin d) s <|
    match stepOf s (getS s a).toNat with
    | none => trap cBounds (getS s a) s
    | some st =>
      patchTable (getS s b) s fun ps s1 =>
        let sc := if st.kd.level = 4 then Scope.fabric else .package
        if !quiet s1 then .next (blockOn .quiet s)
        else told sc .quiet s (ask culmId (.launch (getS s a).toNat (patched ps s.core.kparam)) (publishNow sc s1))

/-- The instance of the current agent. -/
def ownInst (s : State) : Option Inst := findInst s s.ag.ctx s.ag.inst

/-- R215: the hint leaves for the master distributor. -/
def execHintsucc (a : Reg) (s : State) : Outc :=
  checked [.s a] s <|
    let n := (getS s a).toNat % 2 ^ 16
    match stepOf s n with
    | none => trap cBounds (openA s) s
    | some _ => .next (advance 4 (takeSeq (sendAs s.ag.place culmId s.ag.ctx s.ag.reqseq (.hint s.ag.inst n) s)))

/-- The steps that a step waits on. -/
def predsOf (s : State) (i : Inst) : List Nat :=
  match findCtx s i.ctx with
  | none => []
  | some x => match x.plan[i.step]? with
    | some st => st.preds
    | none => []

/-- The predecessor instances of an instance: those of its replay, none for one created by LAUNCH (R278). -/
def predInsts (s : State) (i : Inst) : List Inst :=
  if i.launched then []
  else s.insts.filter fun j => j.ctx == i.ctx && j.replay == i.replay && !j.launched && (predsOf s i).contains j.step

/-- Every predecessor of an instance is DONE. -/
def predsDone (s : State) (i : Inst) : Bool := (predInsts s i).all fun j => j.state == .done

/-- The current agent takes in what instances published at their completion, wherever they ran (R412). -/
def takeInsts (is : List Inst) (s : State) : State :=
  let mine := fun (i : Incoming) => match i.src with
    | .instance_ c n => is.any fun j => j.ctx == c && j.num == n
    | .engine _ _ => false
    | .host => false
    | .agent _ _ _ => false
    | .far _ => false
  let keys := (s.ag.incoming.filter mine).map (·.key)
  { s with ag := { takeIn s.mem keys s.ag with incoming := s.ag.incoming.filter fun i => !mine i } }

/-- WAITPRED goes on when its predecessors are DONE (R215, R412). -/
def waitpredFin (_ : OpData) (s : State) : Outc :=
  let is := match ownInst s with | some i => predInsts s i | none => []
  .next (advance 4 (refresh (levelScope s.core.kd) (takeInsts is s)))

/-- R215, R412: once every predecessor is DONE the master distributor says so. -/
def execWaitpred (s : State) : Outc :=
  completing waitpredFin s <| match ownInst s with
  | none => .next (advance 4 (refresh (levelScope s.core.kd) s))
  | some i => if predsDone s i then ask culmId .preds s else .next (blockOn .predecessors s)

/-! ## RTE and HALT (R216, R217) -/

/-- R216, R240 -/
def execRte (s : State) : Outc :=
  if !s.ag.handler then trap cIllegalOp (word0 .rte) s
  else if s.ag.trappc.toNat % 4 ≠ 0 then trap cMisaligned s.ag.trappc s
  else .next (trapReturn s.ag.trappc s)

/-- R217 -/
def execHalt (s : State) : Outc := haltOp .quietTokens s

/-! ## SLEEP and WAKE (R218) -/

/-- R218: the wake-pending bit ends SLEEP at once; a wake or its limit ends it later. -/
def execSleep (d a : Reg) (s : State) : Outc :=
  checked [.s d, .s a] s <|
    match s.ag.run with
    | .blocked (.slept v) => .next (advance 4 (setS d v s))
    | _ =>
      if s.ag.wake then .next (advance 4 (setS d 0 { s with ag := { s.ag with wake := false } }))
      else
        let n := (getS s a).toNat
        .next (blockOn (.sleep (if n = 0 then none else some (s.cycle.toNat + n))) s)

/-- R218: sd tells whether the place, or a forwarding entry there, is an agent of the context. A WAKE beyond the core is a request
that counts in OUTREQ until it is acknowledged (R190, R238). -/
def execWake (d a : Reg) (s : State) : Outc :=
  checked [.s d, .s a] s <| completing (codeFin d) s <|
    let x := getS s a
    let t := coreNear s.ag.place (x.toNat / 2 ^ 22)
    if placeBad x then trap cBounds x s else atParty t (.wake t x) (wakeAct t x) (codeFin d) s

end Sys2Proof.Machine
end

