-- ==== Sys2Proof/Machine/Teff.lean ====
section
/-! DEFINITION. The teff cores (R298 to R308, R428): walks, TLB fills, fault records, answers, and what the host commands do
to them. -/

namespace Sys2Proof.Machine

/-! ## Fault buffers (R303, R304) -/

/-- The teff core of a cluster. -/
def getTeff (s : State) (cl : Nat) : Teff := s.teffs.toList.getD cl ⟨[], [], 0, false⟩
/-- Set the teff core of a cluster. -/
def setTeff (cl : Nat) (t : Teff) (s : State) : State := { s with teffs := s.teffs.setIfInBounds cl t }

/-- KIND of a record (R304). -/
def kindCode : FKind → Nat
  | .read => 0 | .write => 1 | .readWrite => 2 | .fetch => 3 | .engRead => 4 | .engWrite => 5

/-- Two accesses share a record (R303): ASID, 64 KiB page and KIND. -/
def sameFault (a : Access) (r : FRecord) : Bool :=
  a.asid == r.asid && a.va.toNat / 2 ^ 16 == r.va.toNat / 2 ^ 16 && a.kind == r.kind

/-- The lowest record index that is not in use. -/
def freeIdx (t : Teff) : Option Nat := (List.range 256).find? fun i => !t.records.any fun r => r.idx == i

/-- One waiter more or fewer on a record; a record without waiters is freed. -/
def addWaiter (idx : Nat) (t : Teff) : Teff :=
  { t with records := t.records.map fun r => if r.idx = idx then { r with waiters := r.waiters + 1 } else r }
/-- A waiter of a record has been answered (R305). -/
def dropWaiter (rec : Option Nat) (t : Teff) : Teff :=
  match rec with
  | none => t
  | some idx =>
    let l := t.records.map fun r => if r.idx = idx then { r with waiters := r.waiters - 1 } else r
    { t with records := l.filter fun r => r.waiters != 0 }

/-- An access that finds its page not present is parked on a record, or without one in a full buffer (R303). -/
def recordFault (a : Access) (t : Teff) : Teff :=
  let onRec := fun (i : Nat) (t : Teff) => { t with parked := t.parked ++ [{ a with stage := 2, record := some i }] }
  match a.record with
  | some i => onRec i t
  | none =>
    match t.records.find? (sameFault a) with
    | some r => onRec r.idx (addWaiter r.idx t)
    | none => match freeIdx t with
      | some i => onRec i { t with records := t.records ++ [⟨i, a.va, a.asid, a.kind, 1, a.place, a.seq⟩] }
      | none => { t with parked := t.parked ++ [{ a with stage := 3 }], full := true }

/-! ## TLB fills and answers (R300 to R303) -/

/-- The core whose TLB an access uses. -/
def accessCore (s : State) : Parked → Option CoreId
  | .agent aid => (findAgent s aid).map (·.place)
  | .strip c _ => some c
  | .cpy c _ => some c
  | .chain c _ => some c
  | .gather c _ => some c
  | .prepare c => some c
  | .sequencer c => some c

/-- The party to which the answer goes: the core, or the stack of a state store engine (R12, R303). -/
def accessParty (s : State) (w : Parked) (c : CoreId) : CoreId :=
  match w with
  | .chain k hdr => match findChain (getCore s k) hdr with
    | some ch => chainParty k ch
    | none => k
  | _ => c

/-- A teff core enters a leaf in the TLB of a core of its cluster (R302), which an agent or a core may have left since: in a full
one it replaces some entry. -/
def fillTlb (cl : Nat) (c : CoreId) (e : TlbEntry) (s : State) : State :=
  if teffOf s c ≠ cl then s else onCore c (fun x =>
    let l := x.tlb.filter fun y => !(y.asid == e.asid && y.va == e.va && y.bits == e.bits)
    { x with tlb := if l.length < 128 then l ++ [e] else l.set (Config.tlbVictim s.draws % 128) e }) s

/-- An answer leaves a teff core for an access, with the number of its request (R303). -/
def tellAccess (cl : Nat) (a : Access) (mapped : Bool) (s : State) : State :=
  match accessCore s a.who with
  | none => s
  | some c =>
    sendAs (teffName cl) (accessParty s a.who c) (ctxOf s c) a.seq (.mapped ⟨a.who, a.va, a.report, a.kind, a.seq, mapped⟩) s

/-- The teff core refuses an access: an agent gets a refusing answer, FETCH for a fetch; an engine gets its own (R305). -/
def refuseAccess (cl : Nat) (a : Access) (s : State) : State :=
  match a.who with
  | .agent aid => (match findAgent s aid with
    | none => s
    | some g =>
      sendAs (teffName cl) g.place g.ctx a.seq
        (.refusal aid ⟨if a.kind = .fetch then cFetch else cRefused, a.report, a.seq⟩) s)
  | _ => tellAccess cl a false s

/-- An access ends with MAPPED: its core's TLB is filled and the answer leaves. -/
def mapAccess (cl : Nat) (a : Access) (e : TlbEntry) (s : State) : State :=
  tellAccess cl a true (match accessCore s a.who with
    | some c => fillTlb cl c { e with asid := a.asid, gen := asidGenOf s a.asid } s
    | none => s)

/-- The walk of an access that has been taken off the list ends (R300). -/
def endWalk (cl : Nat) (a : Access) (s : State) : State :=
  let done := fun (x : State) => setTeff cl (dropWaiter a.record (getTeff x cl)) x
  match walk s a.root a.va.toNat with
  | .absent => setTeff cl (recordFault a (getTeff s cl)) s
  | .malformed => refuseAccess cl a (done s)
  | .leaf e => if tlbAllows e a.kind then mapAccess cl a e (done s) else refuseAccess cl a (done s)

/-- The fault message that has reached the teff core of a cluster. -/
def faultFor (s : State) (cl : Nat) : Option (Msg × Access) :=
  s.net.findSome? fun m => match m.body with
    | .fault a => if m.dst = teffName cl ∧ isHere m ∧ firstOf s m then some (m, a) else none
    | _ => none

/-- R303: a fault message reaches the teff core of a cluster, which begins the walk. -/
def execFaultMessage (cluster : BitVec 5) (s : State) : Outc :=
  let cl := cluster.toNat
  match faultFor s cl with
  | none => .next s
  | some (m, a) =>
    let s1 := performed m s
    let t := getTeff s1 cl
    .next (setTeff cl { t with parked := t.parked ++ [{ a with stage := 1, record := none }] } s1)

/-- R300, R303: some walk of a cluster ends. -/
def execPageWalkResult (cluster : BitVec 5) (s : State) : Outc :=
  let cl := cluster.toNat
  let t := getTeff s cl
  let l := t.parked.filter (·.stage == 1)
  match l[Config.choose s.draws % l.length]? with
  | none => .next s
  | some a => .next (endWalk cl a (setTeff cl { t with parked := t.parked.erase a } s))

/-! ## Answers at the accesses (R80, R229, R276, R303, R344) -/

/-- A strip whose fetch is answered. -/
def answerStrip (core : CoreId) (q : Nat) (va : Word) (mapped : Bool) (s : State) : State :=
  let x := getQ (getCore s core) q
  match x.stream with
  | none => s
  | some st =>
    if !st.parked then s
    else if mapped then onCore core (setQ q { x with stream := some { st with parked := false } }) s
    else addStrip core q st (.failed cRefused va) s

/-- A CPY whose access is answered. -/
def answerCpy (core : CoreId) (key : Nat) (mapped : Bool) (s : State) : State :=
  match (getCore s core).cpys.find? (fun y => y.key == key) with
  | none => s
  | some y => if mapped then putCpy core { y with parked := false } s else endCpy core y 4 s

/-- A chain's command whose access is answered: refused, it ends with code 4 once the blocks in flight are written. -/
def answerCmd (core : CoreId) (hdr : Nat) (k : FKind) (mapped : Bool) (s : State) : State :=
  match findChain (getCore s core) hdr with
  | none => s
  | some ch => match ch.cmd with
    | none => s
    | some c =>
      if mapped then putCmd core ch { c with parked := false } s
      else putCmd core ch { c with
        parked := false
        fail := some 4
        inflight := if k = .engWrite then [] else c.inflight } s

/-- An answer reaches an agent: OUTREQ falls, and the access it is blocked on retries (R303); one that waits for a node's page is
in RETIRE step 5 again. -/
def answerAgent (seq : BitVec 24) (a : Agent) : Agent :=
  let b := lowerOut true a
  match a.run with
  | .blocked (.translation q) => if q = seq then { b with run := .running } else b
  | .blocked (.nodePage since q) => if q = seq then { b with run := .blocked (.retire since) } else b
  | _ => b

/-- The instance that a core hosts is reported faulted. -/
def faultCore (c : CoreId) (s : State) : State :=
  match (getCore s c).ctx with
  | none => s
  | some n => reportFault n (getCore s c).inst s

/-- An answer reaches the rewrite sequencer of a core. DESIGN CHOICE (log 16): a refusal marks the instance FAULTED, and the
sequencer asks no more. -/
def answerSeq (c : CoreId) (mapped : Bool) (s : State) : State :=
  if mapped then onCore c (fun k => { k with seqpark := false }) s
  else faultCore c (onCore c (fun k => { k with seqstuck := true }) s)

/-- One answer of a teff core at its access. -/
def takeAnswer (x : Answer) (s : State) : State :=
  match x.who with
  | .agent aid => onAgent aid (answerAgent x.seq) s
  | .strip c q => answerStrip c q x.report x.mapped s
  | .cpy c k => answerCpy c k x.mapped s
  | .chain c h => answerCmd c h x.kind x.mapped s
  | .gather _ _ => s
  | .prepare c => if x.mapped then s else faultCore c s
  | .sequencer c => answerSeq c x.mapped s

/-- An answer has come to where its access waits: for an agent, to where it is or to a forwarding entry (R250). -/
def answerHere (s : State) (m : Msg) (x : Answer) : Bool :=
  firstOf s m && match parkedAgent x.who with
    | some aid => (match findAgent s aid with | some a => reaches s m a | none => false)
    | none => isHere m

/-- The oldest answer of the teff core of a cluster that has come to its access. -/
def answerFrom (s : State) (cl : Nat) : Option (Msg × Answer) :=
  s.net.findSome? fun m => match m.body with
    | .mapped x => if m.src = teffName cl ∧ answerHere s m x then some (m, x) else none
    | _ => none

/-- The answer is performed; one that a forwarding entry sends on goes to its agent (R250). -/
def takenAnswer (m : Msg) (x : Answer) (s : State) : State :=
  match (parkedAgent x.who).bind (findAgent s) with
  | some a => received m a s
  | none => performed m s

/-- R303: the oldest answer of a teff core reaches its access. -/
def execTranslationAnswer (cluster : BitVec 5) (s : State) : Outc :=
  match answerFrom s cluster.toNat with
  | none => .next s
  | some (m, x) => .next (takeAnswer x (takenAnswer m x s))

/-! ## What the host commands do (R305 to R307) -/

/-- MAP: every access on a record walks again. -/
def walkRecord (idx : Nat) (t : Teff) : Teff :=
  { t with parked := t.parked.map fun a => if a.record = some idx then { a with stage := 1 } else a }

/-- REFUSE: the accesses on a record, one after another. -/
def refuseAll (cl : Nat) : List Access → State → State
  | [], s => s
  | a :: as, s => refuseAll cl as (refuseAccess cl a s)

/-- REFUSE: every access on a record is refused, and the record is freed. -/
def refuseRecord (cl idx : Nat) (s : State) : State :=
  let t := getTeff s cl
  let on := fun (a : Access) => a.record == some idx
  refuseAll cl (t.parked.filter on) (setTeff cl { t with
    parked := t.parked.filter fun a => !on a
    records := t.records.filter fun r => r.idx != idx } s)

/-- REPLAY: every parked access walks again, and is recorded anew if it faults again. -/
def replayTeff (t : Teff) : Teff :=
  { t with
    records := []
    parked := t.parked.map fun a => { a with stage := 1, record := none } }

/-- FLUSH: REPLAY, a new generation, and FULL clear. -/
def flushTeff (t : Teff) : Teff := { replayTeff t with gen := t.gen + 1, full := false }

/-- A TLB entry lies in a range of an ASID. -/
def inRange (asid : BitVec 16) (lo hi : Nat) (e : TlbEntry) : Bool :=
  e.asid == asid && e.va < hi && lo < e.va + 2 ^ e.bits

/-- Drop TLB entries of the cores that a test admits. -/
def dropTlbOf (cs : Core → Bool) (f : TlbEntry → Bool) (s : State) : State :=
  let g := fun (c : Core) => if cs c then { c with tlb := c.tlb.filter fun e => !f e } else c
  { s with core := g s.core, cores := s.cores.map g }

/-- Drop TLB entries of every core. -/
def dropTlb (f : TlbEntry → Bool) (s : State) : State := dropTlbOf (fun _ => true) f s

/-- Drop TLB entries of the cores of a cluster. -/
def dropClusterTlb (cl : Nat) (f : TlbEntry → Bool) (s : State) : State := dropTlbOf (fun c => clusterIdx c.phys == cl) f s

/-- Perform coprocessor entries of a core: n of them. -/
def drainCoproc (core : CoreId) : Nat → State → State
  | 0, s => s
  | n + 1, s => drainCoproc core n (coprocStep core s)

/-- Perform the coprocessor entries of several cores. -/
def drainCoprocs : List Core → State → State
  | [], s => s
  | c :: cs, s => drainCoprocs cs (drainCoproc c.id c.coq.length s)

/-- A pending write of an agent is performed: with its packet, or at the own slice. -/
def forceWrite (aid : Nat) (w : PWrite) (s : State) : State :=
  match s.net.find? (fun m => m.body == .write aid w.id) with
  | some m => performPacket m aid w.id s
  | none => performWrite w (onAgent aid (fun a => { a with posted := a.posted.filter fun x => x.id != w.id }) s)

/-- Pending writes of an agent are performed, in order. -/
def forceWrites (aid : Nat) : List PWrite → State → State
  | [], s => s
  | w :: ws, s => forceWrites aid ws (forceWrite aid w s)

/-- Perform every pending write of an agent whose data are known. -/
def settleAgent (aid : Nat) (s : State) : State :=
  match findAgent s aid with
  | none => s
  | some _ =>
    let s1 := sendReady (checkout aid s)
    forceWrites aid (s1.ag.posted.filter (·.ready)) s1

/-- Perform every pending write of several agents. -/
def settleAgents : List Agent → State → State
  | [], s => s
  | a :: as, s => settleAgents as (settleAgent a.aid s)

/-- A message whose effect its sender has translated: a FREE of a node, an operation, a write of an engine, or a read (R194, R306). -/
def translated (m : Msg) : Bool :=
  match m.body with
  | .free _ _ _ => true
  | .op _ _ _ => true
  | .store _ _ _ _ _ _ => true
  | .request (.engine _ _) _ _ => true
  | .request (.agent _ _) _ _ => true
  | _ => false

/-- Requests are performed at their homes. -/
def settleMsgs : List Msg → State → State
  | [], s => s
  | m :: ms, s => settleMsgs ms (performHome m s)

/-- The link unit of a core performs n requests. -/
def drainLinks (core : CoreId) : Nat → State → State
  | 0, s => s
  | n + 1, s => drainLinks core n (linkStep core s)

/-- The link units of cores perform what they hold. -/
def settleUnits : List Core → State → State
  | [], s => s
  | c :: cs, s => settleUnits cs (drainLinks c.id (getCore s c.id).linkq.length s)

/-- The numbers of the contexts with an ASID. -/
def ctxsWith (s : State) (asid : BitVec 16) : List Nat := (s.ctxs.filter fun x => x.asid == asid).map (·.num)

/-- INVALIDATE (R306): the accesses that have translated are performed, the entries are dropped. A walk under
way reads the page table when it ends, so that it needs no second walk. -/
def invalidateRange (asid : BitVec 16) (lo hi : Nat) (s : State) : State :=
  let ns := ctxsWith s asid
  let mine := (allCores s).filter fun c => match c.ctx with | some n => ns.contains n | none => false
  let s1 := drainCoprocs mine s
  let s2 := settleAgents ((allAgents s1).filter fun a => ns.contains a.ctx) s1
  let s3 := settleMsgs (s2.net.filter fun m => translated m && ns.contains m.ctx) s2
  dropTlb (inRange asid lo hi) (settleUnits mine s3)

/-- The ASID's generation rises by 1; one that would wrap sweeps every TLB first (R307). -/
def raiseGen (asid : BitVec 16) (s : State) : State :=
  let g := asidGenOf s asid
  let s1 := if g = 0xFF then dropTlb (fun e => e.asid == asid) s else s
  { s1 with asidGen := alSet 0 s1.asidGen asid.toNat (g + 1) }

end Sys2Proof.Machine
end

