-- ==== Sys2Proof/Machine/Distributor.lean ====
section
/-! DEFINITION. The master distributor: replays, the ready pool, placement, termination waves and the life of an instance
(R34, R214, R246, R257, R276 to R280, R282 to R288, R379, R412). -/

namespace Sys2Proof.Machine

/-! ## Replays and instances (R246, R278, R279, R379) -/

/-- A context can make progress: it is neither stopped nor switched out. -/
def ctxRuns (s : State) (n : Nat) : Bool :=
  match findCtx s n with
  | some x => x.state == .running
  | none => false

/-- A new instance of a step; one that a LAUNCH creates notes the memory of its acceptance (R214, R382). -/
def newInst (s : State) (x : Ctx) (n : Nat) (launched : Bool) (k : Vector Word 16) (st : InstState) : Inst where
  ctx := x.num
  num := x.created
  step := n
  state := st
  early := false
  age := s.draws
  overdue := false
  kparam := k
  launched := launched
  replay := x.replays
  cores := []
  shadows := []
  wave := none
  terminated := false
  started := false
  base := if launched then some s.mem else none
  news := []

/-- Create an instance of a context (R278). -/
def createInst (ctx n : Nat) (launched : Bool) (k : Vector Word 16) (st : InstState) (s : State) : State :=
  match findCtx s ctx with
  | none => s
  | some x =>
    onCtx ctx (fun y => { y with created := y.created + 1 }) { s with insts := s.insts ++ [newInst s x n launched k st] }

/-- Create the instances of a replay, from step n on. -/
def createSteps (ctx : Nat) (k : Vector Word 16) : Nat → List Step → State → State
  | _, [], s => s
  | n, st :: sts, s =>
    createSteps ctx k (n + 1) sts
      (if st.device then s else createInst ctx n false k (if st.preds.isEmpty then .ready else .pending) s)

/-- KPARAM of a replay (R246). -/
def kickParams (x : Ctx) (k : Kick) : Vector Word 16 :=
  let old := if x.replayed then x.kparam else x.planSlots
  Vector.ofFn fun i => if k.mask.getLsbD i.val then k.patch[i] else old[i]

/-- A replay starts with the oldest latched kick (R246). -/
def startReplay (x : Ctx) (k : Kick) (s : State) : State :=
  let p := kickParams x k
  createSteps x.num p 0 x.plan (onCtx x.num (fun y => { y with
    state := .running
    kparam := p
    replayed := true
    curseq := k.seq
    replays := y.replays + 1
    latch := y.latch.drop 1 }) s)

/-- Every instance of the replay in progress is DONE (R278). -/
def replayDone (s : State) (x : Ctx) : Bool :=
  s.insts.all fun i => i.ctx != x.num || i.replay != x.replays || i.state == .done

/-- The end of a replay: the publication at host scope, then PROGRESS (R243, R379). -/
def finishReplay (x : Ctx) (s : State) : State :=
  onCtx x.num (fun y => { y with state := .parked, done := y.done + 1, lastseq := y.curseq, wrote := [] })
    (announce x.wrote .host s)

/-- A parked context starts its latched kicks; a replay without instances is complete at once. The fuel bounds the kicks. -/
def runKicks : Nat → Nat → State → State
  | 0, _, s => s
  | f + 1, n, s =>
    match findCtx s n with
    | none => s
    | some x => match x.latch with
      | [] => s
      | k :: _ =>
        if x.state ≠ .parked then s
        else
          let s1 := startReplay x k s
          match findCtx s1 n with
          | none => s1
          | some y => if replayDone s1 y then runKicks f n (finishReplay y s1) else s1

/-- runKicks with fuel for every latched kick. -/
def wakeCtx (n : Nat) (s : State) : State := runKicks 9 n s

/-! ## The ready pool (R286, R287) -/

/-- Priority of an instance's context. -/
def prioOf (s : State) (i : Inst) : Nat :=
  match findCtx s i.ctx with
  | some x => x.prio.toNat
  | none => 0

/-- READY and EARLY instances of running contexts: highest priority first, then the oldest. -/
def readyPool (s : State) : List Inst :=
  sortBy (fun i j => prioOf s j < prioOf s i || (prioOf s i == prioOf s j && i.age ≤ j.age))
    (s.insts.filter fun i => (i.state == .ready || i.state == .early) && ctxRuns s i.ctx)

/-- The distributor takes a core to be free: its last report says so (R286). -/
def reportedFree (s : State) (x : Ctx) (p : CoreId) : Bool := s.reports.contains p && mayUse s x p

/-- The cores of a cluster, by its package-wide number. -/
def clusterCores (cl : Nat) : List CoreId := (List.range 16).map fun i => coreId (cl / 6) (cl % 6) i

/-- A list with the elements of the reservation first (R287). -/
def reservedFirst {α : Type} (f : α → Bool) (l : List α) : List α := l.filter f ++ l.filter fun a => !f a

/-- The cores on which an agent or core group may start, in the order of R285 and R287. -/
def orderedCores (x : Ctx) (ext : Nat) : List CoreId :=
  let l := reservedFirst (fun p => x.reserve.contains (clusterIdx p)) physCores
  let m := l.filter fun p => !isVectorCore p
  let v := l.filter isVectorCore
  if ext % 2 = 1 then m else if ext / 2 % 2 = 1 then v else v ++ m

/-- The cores of this package on which a step's groups may start, or its clusters or stacks. -/
def roomHere (st : Step) : Nat :=
  match st.kd.level with
  | 2 => 24
  | 3 => 12
  | 4 => 1
  | _ => if st.kd.ext % 2 = 1 then 288 else if st.kd.ext / 2 % 2 = 1 then 96 else 384

/-- The groups of a step that this package takes: all of them, where it has room; of more, in a partition of several packages, the
first, as many as it has room for (DESIGN CHOICE, log 1). -/
def groupsHere (s : State) (st : Step) : Nat :=
  if packages s = 1 then st.groups else min st.groups (roomHere st * if st.kd.level = 0 then st.kd.agents else 1)

/-- The cores of an instance's groups among those that a test admits (R282, R285, R287): none where they do not suffice. A group of
several cores takes them under their own names (DESIGN CHOICE, log 21). -/
def chooseCores (s : State) (x : Ctx) (st : Step) (ok : CoreId → Bool) : Option (List CoreId) :=
  let named := fun (p : CoreId) => ok p && nameFree s x p
  let whole := fun (cl : Nat) => (clusterCores cl).all named
  let own := fun (cl : Nat) => x.reserve.contains cl
  let n := groupsHere s st
  let need := if st.kd.level = 0 then (n + st.kd.agents - 1) / st.kd.agents else n
  let pick := fun (l : List (List CoreId)) => if l.length < need then none else some (l.take need).flatten
  match st.kd.level with
  | 2 => pick (((reservedFirst own (List.range 24)).filter whole).map clusterCores)
  | 3 =>
    let cls := fun (k : Nat) => [k / 3 * 6 + k % 3, k / 3 * 6 + k % 3 + 3]
    pick (((reservedFirst (fun k => (cls k).all own) (List.range 12)).filter fun k => (cls k).all whole).map fun k =>
      ((cls k).map clusterCores).flatten)
  | 4 => if physCores.all named then some physCores else none
  | _ => pick (((orderedCores x st.kd.ext).filter ok).map fun p => [p])

/-- The step of an instance. -/
def instStep (s : State) (i : Inst) : Option (Ctx × Step) :=
  match findCtx s i.ctx with
  | none => none
  | some x => (x.plan[i.step]?).map fun st => (x, st)

/-- Take cores for an instance, each under a name. -/
def hostCores (x : Ctx) (i : Inst) (kd : KDesc) : List (CoreId × CoreId) → State → State
  | [], s => s
  | p :: ps, s => hostCores x i kd ps (hostCore x i kd p.1 p.2 s)

/-- The dies of physical cores, each once. -/
def diesOf : List CoreId → List Nat
  | [] => []
  | p :: ps => dieOf p :: (diesOf ps).filter (· != dieOf p)

/-- The claim goes to each die, and its answer returns (R286, R400). -/
def claimMsgs (ps : List CoreId) (s : State) : State :=
  (diesOf ps).foldl (fun x d => oneWay (dieId d) culmId hostCtx (oneWay culmId (dieId d) hostCtx x)) s

/-- The claim of an instance's cores (R279, R286, R287): refused whole where one is no longer free. -/
def claimCores (x : Ctx) (i : Inst) (kd : KDesc) (ps : List CoreId) (s : State) : State :=
  let s0 := claimMsgs ps s
  if !ps.all (physFree s) then s0
  else
    let keys := ps.map (nameOf s x)
    let s1 := hostCores x i kd (keys.zip ps) { s0 with reports := s0.reports.filter fun p => !ps.contains p }
    onInst i.ctx i.num (fun j => { j with state := .running, cores := keys }) s1

/-- Cores that a context's save area has room for (R244). -/
def withinSave (s : State) (x : Ctx) : Option (List CoreId) → Option (List CoreId)
  | some ps => if ps.length ≤ coresLeft s x then some ps else none
  | none => none

/-! ## Taking capacity from lower priorities (R257) -/

/-- A context is gang-stopped (R253): the stop reaches its cores later. -/
def gangStop (n : Nat) (s : State) : State :=
  onCtx n (fun y =>
    if y.state = .running ∨ y.state = .parked then
      { y with wasRunning := y.state == .running, state := .stopped, stops := y.stops + 1 }
    else y) s

/-- A core that a context may take (R257, R288): one reported free that it may use, or one of its own reservation or of none on
which the distributor has placed a context of lower priority. -/
def mayTake (s : State) (x : Ctx) (p : CoreId) : Bool :=
  !barred s p && match coreOn s p with
  | none => reportedFree s x p
  | some c => (ownerOf s x.num (clusterIdx p)).isNone &&
      match c.ctx with
      | none => false
      | some n => match findCtx s n with
        | none => false
        | some y => y.num != x.num && y.prio.toNat < x.prio.toNat

/-- A core of a context's own reservation that is lent to a lower priority. -/
def ownLent (s : State) (x : Ctx) (p : CoreId) : Bool :=
  x.reserve.contains (clusterIdx p) && mayTake s x p && !physFree s p

/-- A core on which an instance of a context is to be placed: of its own reservation, lent or not, before any other (R288). -/
def mayPlace (s : State) (x : Ctx) (p : CoreId) : Bool := reportedFree s x p || ownLent s x p

/-- Where an instance is to be placed. -/
def placementOf (s : State) (i : Inst) : Option (Ctx × Step × List CoreId) :=
  match instStep s i with
  | none => none
  | some (x, st) => (withinSave s x (chooseCores s x st (mayPlace s x))).map fun ps => (x, st, ps)

/-- The first instance of the pool whose cores are free is placed; one whose wait has expired holds up those after it (R287). -/
def placeFirst (s : State) : List Inst → Option State
  | [] => none
  | i :: is =>
    match placementOf s i with
    | some (x, st, ps) =>
      if ps.all (reportedFree s x) then some (claimCores x i st.kd ps s)
      else if i.overdue then none else placeFirst s is
    | none => if i.overdue && (instStep s i).isSome then none else placeFirst s is

/-- A core moves to another physical core (R252). -/
def relocate (c : Core) (p : CoreId) (s : State) : State := seat c p (unseat c s)

/-- The context of a core is stopped, to be switched out. -/
def stopBorrower (c : Core) (s : State) : State :=
  let n := c.ctx.getD 64
  onCtx n (fun y => { y with switching := true }) (gangStop n s)

/-- Agents of a core that have not ended. -/
def liveOn (s : State) (c : CoreId) : List Agent :=
  (allAgents s).filter fun a => a.place == c && a.run != .halted && a.run != .dead

/-- Free agents of a core as the distributor knows them: those of an agent-level instance by the last report (R286). -/
def knownFree (s : State) (c : Core) : Nat :=
  if c.kd.level = 0 then alGet 0 s.freeAgents c.id.toNat else (freeNums s c.id).length

/-- A core outside a set of physical cores may take an agent in (R249): one of its instance, with a free agent, and for an agent
with slots a matrix core where they are not claimed. -/
def takesAgent (s : State) (ps : List CoreId) (a : Agent) (c : Core) : Bool :=
  hosts a.ctx a.inst c && !c.out && c.prepared && !ps.contains c.phys && c.id != a.place && 0 < knownFree s c &&
    !(freeNums s c.id).isEmpty && (!hasSlots s a || (!isVectorCore c.id && !slotsMeet s a c.id))

/-- A physical core outside a set that is reported free and that the context of a core may use, of the kind of that core. -/
def spaceFor (s : State) (ps : List CoreId) (c : Core) (ok : Ctx → CoreId → Bool) : Option CoreId :=
  match findCtx s (c.ctx.getD 64) with
  | none => none
  | some x => physCores.find? fun p =>
      !ps.contains p && s.reports.contains p && physFree s p && !barred s p && isVectorCore p == isVectorCore c.id && ok x p

/-- A physical core that may be seated with what a core of a context holds, in the terms of R257. -/
def maySeat (s : State) (x : Ctx) (p : CoreId) : Bool :=
  match ownerOf s x.num (clusterIdx p) with
  | none => true
  | some y => x.prio.toNat < y.prio.toNat

/-- An agent of a core that is taken away is migrated to a core of its instance, for which a free core joins the instance where
none has room; its context is stopped where there is none either (R249, R257). -/
def moveAway (ps : List CoreId) (c : Core) (a : Agent) (s : State) : State :=
  match (allCores s).find? (takesAgent s ps a) with
  | some t => reserveMove a.aid t.id none s
  | none =>
    match (allCores s).find? fun t => hosts a.ctx a.inst t && !t.prepared && !ps.contains t.phys with
    | some t => if prepParked s t.id || imageComing s t.id then s else joinFor a t.id t.phys s
    | none => match spaceFor s ps c (mayUse s), findCtx s a.ctx with
      | some p, some x => joinFor a (nameOf s x p) p { s with reports := s.reports.filter (· != p) }
      | _, _ => stopBorrower c s

/-- moveAway for the agents of a core that no migration takes away yet. -/
def moveAll (ps : List CoreId) (c : Core) : List Agent → State → State
  | [], s => s
  | a :: as, s => moveAll ps c as (if (moveOf s a.aid).isSome then s else moveAway ps c a s)

/-- A core is taken away (R257): its agents are migrated; what it holds when they have left, its slice among it, moves to a free
core by the core map (DESIGN CHOICE, log 21). -/
def vacate (ps : List CoreId) (s : State) (c : Core) : State :=
  if !ctxRuns s (c.ctx.getD 64) then stopBorrower c s
  else match liveOn s c.id with
    | [] =>
      if s.moves.any fun m => m.target == c.id || (findAgent s m.aid).map (·.place) == some c.id then s
      else match spaceFor s ps c (maySeat s) with
        | some p => relocate (getCore s c.id) p { s with reports := s.reports.filter (· != p) }
        | none => stopBorrower c s
    | as => moveAll ps c as s

/-- R257: an instance that finds no free cores takes some of a lower priority. -/
def reclaim (s : State) : List Inst → State
  | [] => s
  | i :: is =>
    match instStep s i with
    | none => reclaim s is
    | some (x, st) =>
      if (placementOf s i).isSome then reclaim s is
      else match withinSave s x (chooseCores s x st (mayTake s x)) with
      | none => if i.overdue then s else reclaim s is
      | some ps => (ps.filterMap (coreOn s)).foldl (vacate ps) s

/-- R257, R288: the lent cores of their own reservations that instances are to be placed on are taken back. -/
def reclaimOwn : List Inst → State → State
  | [], s => s
  | i :: is, s => reclaimOwn is (match placementOf s i with
    | some (_, _, ps) => (ps.filterMap (coreOn s)).foldl (vacate ps) s
    | none => s)

/-- R287, R257, R288: the distributor places an instance, or makes room for one. -/
def execInstancePlacement (s : State) : Outc :=
  let s0 := reclaimOwn (readyPool s) s
  match placeFirst s0 (readyPool s0) with
  | some s1 => .next s1
  | none => .next (reclaim s0 (readyPool s0))

/-- R287: the 1 ms wait of the oldest instance of the pool expires. -/
def execPlacementAgeLimit (s : State) : Outc :=
  match sortBy (fun i j => i.age ≤ j.age) ((readyPool s).filter fun i => !i.overdue) with
  | [] => .next s
  | i :: _ => .next (onInst i.ctx i.num (fun j => { j with overdue := true }) s)

/-- The free agents of the cores of agent-level instances on a die, by core. -/
def agentReport (s : State) (die : Nat) : List (Nat × Nat) :=
  ((allCores s).filter fun c => c.ctx.isSome && !c.out && dieOf c.phys == die && c.kd.level == 0).map fun c =>
    (c.id.toNat, (freeNums s c.id).length)

/-- The free cores of a die; an evacuated one reports none. -/
def freeOn (s : State) (die : Nat) : List CoreId :=
  if s.evacuated.contains die then [] else (physCores.filter fun p => dieOf p == die).filter (physFree s)

/-- What the master distributor knows of a die, or will know when the report on its way has come. -/
def lastReport (s : State) (die : Nat) : List CoreId × Option (List (Nat × Nat)) :=
  match s.net.reverse.findSome? (fun m => match m.body with
    | .report d free agents => if d = die then some (free, agents) else none
    | _ => none) with
  | some r => (r.1, some r.2)
  | none => (s.reports.filter fun p => dieOf p == die, none)

/-- A die has something to report: its free counts have changed (R286). -/
def reportDue (s : State) (die : Nat) : Bool :=
  let r := lastReport s die
  freeOn s die != r.1 || match r.2 with
    | some agents => agentReport s die != agents
    | none => (agentReport s die).any fun p => alGet 0 s.freeAgents p.1 != p.2

/-- R286: a tiller die reports its free cores, and the free agents of agent-level instances, to the master distributor. -/
def execFreeCountReport (die : BitVec 2) (s : State) : Outc :=
  let d := die.toNat
  .next (send (dieId d) culmId hostCtx (.report d (freeOn s d) (agentReport s d)) s)

/-! ## Preparation, acceptance, faults (R214, R276, R279) -/

/-- An instance that has been placed may be prepared: no preparation has failed (R276). -/
def mayPrepare (s : State) (i : Inst) : Bool :=
  i.state == .running && !i.started && ctxRuns s i.ctx && !s.faultReports.contains (i.ctx, i.num) &&
    !i.cores.any (prepParked s) && !i.cores.any (imageComing s)

/-- R276: the cores of a placed instance are prepared and its agents started. -/
def execInstancePrepare (ctx : BitVec 6) (inst : BitVec 32) (s : State) : Outc :=
  match findInst s ctx.toNat inst with
  | none => .next s
  | some i =>
    if !mayPrepare s i then .next s
    else match instStep s i with
      | none => .next s
      | some (_, st) => match prepareCores i.cores s with
        | .ready s1 => .next (startInstance (groupsHere s st) i s1)
        | .waiting s1 => .next s1
        | .miss s1 c va => .next (parkEngine (.prepare c) c c va .engRead s1)
        | .refused => .next (reportFault i.ctx i.num s)

/-- R214, R278: the distributor accepts the oldest LAUNCH of a running context, and LAUNCH returns the number. -/
def execLaunchAccept (s : State) : Outc :=
  match s.launches.find? (fun r => ctxRuns s r.ctx) with
  | none => .next s
  | some r => match findCtx s r.ctx with
    | none => .next s
    | some x =>
      .next (answerTo culmId r.aid r.key r.seq true (answer (x.created.setWidth 64))
        (createInst r.ctx r.step true r.kparam .ready { s with launches := s.launches.filter fun y => y.key != r.key }))

/-- R279: a report marks an instance FAULTED. -/
def execInstanceFault (ctx : BitVec 6) (inst : BitVec 32) (s : State) : Outc :=
  let key := (ctx.toNat, inst)
  if !s.faultReports.contains key then .next s
  else
    .next (onInst ctx.toNat inst (fun i =>
      if i.state = .running then { i with state := .faulted } else i)
      { s with faultReports := s.faultReports.filter fun k => k != key })

/-! ## Termination (R34) -/

/-- The agents of an instance. -/
def agentsOf (s : State) (i : Inst) : List Agent := (allAgents s).filter fun a => a.ctx == i.ctx && a.inst == i.num

/-- The cores of an instance, those that joined it included. -/
def instCores (s : State) (i : Inst) : List Core := (allCores s).filter (hosts i.ctx i.num)

/-- An agent has halted or waits in RETIRE step 5. -/
def restsInRetire (a : Agent) : Bool :=
  match a.run with
  | .halted => true
  | .blocked (.retire _) => true
  | .blocked (.nodePage _ _) => true
  | _ => false

/-- The idle bit of a core (R34); a push that has not left the core is a record of its queue. -/
def coreIdle (s : State) (c : Core) : Bool :=
  c.kq.isEmpty && c.linkq.isEmpty && c.seq.isNone &&
    !(s.net.any fun m => m.src == c.id && m.dst == c.id && match m.body with
      | .push _ => true
      | _ => false) &&
    (allAgents s).all fun a => a.place != c.id || restsInRetire a

/-- Sum of counts. -/
def sumWords (l : List Word) : Word := l.foldl (· + ·) 0

/-- An agent of a terminated kernel that waits in RETIRE ends as by HALT (R28, R217): now, or when its requests are answered and
its tokens written. -/
def endRetired (aid : Nat) (s : State) : State :=
  let s1 := checkout aid s
  if s1.ag.aid ≠ aid ∨ !restsInRetire s1.ag ∨ s1.ag.run = .halted then s
  else if s1.ag.tokens.isEmpty && quiet s1 && (farDue (levelScope s1.core.kd) s1).isEmpty then haltNow (releaseClaims s1)
  else blockOn .ending s1

/-- endRetired for several agents. -/
def endAll : List Agent → State → State
  | [], s => s
  | a :: as, s => endAll as (endRetired a.aid s)

/-- R34: a wave over the cores of an instance; two in a row that agree declare termination. -/
def execTerminationWave (ctx : BitVec 6) (inst : BitVec 32) (s : State) : Outc :=
  match findInst s ctx.toNat inst with
  | none => .next s
  | some i =>
    if i.state ≠ .running ∨ !i.started ∨ !ctxRuns s i.ctx then .next s
    else if i.terminated then .next (endAll (agentsOf s i) s)
    else
      let cs := instCores s i
      let sent := sumWords (cs.map (·.sentcnt))
      let rcvd := sumWords (cs.map (·.rcvdcnt))
      let put := fun (f : Inst → Inst) => onInst i.ctx i.num f s
      if !cs.all (coreIdle s) || sent != rcvd then .next (put fun j => { j with wave := none })
      else if i.wave = some (sent, rcvd) then .next (endAll (agentsOf s i) (put fun j => { j with terminated := true }))
      else .next (put fun j => { j with wave := some (sent, rcvd) })

/-! ## Completion (R279, R412) -/

/-- Every agent of an instance has halted, its net has terminated, and its predecessors are DONE (R279). -/
def instEnded (s : State) (i : Inst) : Bool :=
  match instStep s i with
  | none => false
  | some (_, st) =>
    i.state == .running && i.started && ctxRuns s i.ctx && (agentsOf s i).all (fun a => a.run == .halted) &&
      (st.kd.rules.isEmpty || i.terminated) && predsDone s i

/-- The writes of an instance's agents are published at its completion (R412). -/
def publishInst (i : Inst) : List Agent → State → State
  | [], s => s
  | a :: as, s =>
    publishInst i as (onCtx i.ctx (fun x => { x with wrote := addWritten a.written x.wrote })
      (announce a.written (.instance_ i.ctx i.num) (announce a.written (.agent a.aid a.place .package) s)))

/-- Remove the agents of an instance. -/
def dropAgents (f : Agent → Bool) (s : State) : State :=
  { s with
    ag := if f s.ag then Agent.fresh s.ag.place s.ag.num else s.ag
    agents := s.agents.filter fun a => !f a }

/-- A PENDING instance whose predecessors are all DONE enters the ready pool (R279). -/
def countDown (s : State) (i : Inst) : Inst :=
  if i.state = .pending ∧ predsDone s i then { i with state := .ready, age := s.draws } else i

/-- R279: a finished instance is published and released, its successors are counted down, and the last one of a replay
completes it. -/
def execInstanceDone (ctx : BitVec 6) (inst : BitVec 32) (s : State) : Outc :=
  match findInst s ctx.toNat inst with
  | none => .next s
  | some i =>
    if !instEnded s i then .next s
    else
      let s1 := publishInst i (agentsOf s i) s
      let s2 := dropAgents (fun a => a.ctx == i.ctx && a.inst == i.num) s1
      let s3 := releaseCores (instCores s2 i) s2
      let s4 := onInst i.ctx i.num (fun j => { j with state := .done, cores := [] }) s3
      let s5 := { s4 with insts := s4.insts.map (countDown s4) }
      match findCtx s5 i.ctx with
      | none => .next s5
      | some x => .next (if replayDone s5 x then wakeCtx x.num (finishReplay x s5) else s5)

end Sys2Proof.Machine
end

