-- ==== Sys2Proof/Machine/Plan.lean ====
section
/-! DEFINITION. Kernel descriptors and launch plans as they lie in memory, and the checks of an upload (R26, R68, R273 to
R277). An offending field is reported by its address. -/

namespace Sys2Proof.Machine

/-! ## The context's translated memory, as the firmware reads it -/

/-- The location of a virtual address of a context; host memory is not reached (R169). -/
def vaLoc (s : State) (x : Ctx) (va : Nat) (k : FKind) : Option Nat :=
  if 0xF0 * 2 ^ 48 ≤ va then none
  else match walk s x.root va with
    | .leaf e =>
      let pa := e.pa + va % 2 ^ e.bits
      if tlbAllows e k && paOk s pa && !isHostLoc pa then some pa else none
    | .absent => none
    | .malformed => none

/-- The first byte of a range that cannot be read. -/
def unreadable (s : State) (x : Ctx) (va n : Nat) : Option Nat :=
  ((List.range n).find? fun i => (vaLoc s x (va + i) .read).isNone).map (va + ·)

/-- n bytes at a virtual address; an unreadable byte counts as 0. -/
def vaBytes (s : State) (x : Ctx) (va n : Nat) : List Byte :=
  (List.range n).map fun i => match vaLoc s x (va + i) .read with
    | some l => memByte s.mem l
    | none => 0

/-- Those bytes as a little-endian number. -/
def vaNat (s : State) (x : Ctx) (va n : Nat) : Nat := bytesToNat (vaBytes s x va n)

/-- The address of the first field that breaks its limits. -/
def badField (l : List (Nat × Bool)) : Option Nat := (l.find? fun p => !p.2).map (·.1)

/-- The first offending address of several checks, in order. -/
def firstBadOf : List (Option Nat) → Option Nat
  | [] => none
  | some a :: _ => some a
  | none :: r => firstBadOf r

/-! ## Tag entries (R275) -/

/-- The first entry of a list of tag entries that breaks R275; entry i is (VA, word 1) at an address. -/
def tagsBad (s : State) (x : Ctx) (es : List (Nat × Nat × Nat)) : Option Nat :=
  firstBadOf (es.map fun e => badField
    [(e.1, e.2.1 % 64 == 0 && match vaLoc s x e.2.1 .write with
      | some l => !isHostLoc l
      | none => false), (e.1 + 8, e.2.2 < 2 ^ 16)])

/-- The tags that checked entries write. -/
def tagWrites (s : State) (x : Ctx) (es : List (Nat × Nat × Nat)) : List (Nat × Tag) :=
  es.filterMap fun e => (vaLoc s x e.2.1 .write).map fun l => (blockOf l, BitVec.ofNat 16 e.2.2)

/-- Tag writes of the firmware, performed at the homes of their blocks; they count as host writes (R275, R380). -/
def writeTags (ts : List (Nat × Tag)) (s : State) : State :=
  announce (ts.map fun t => tagKey t.1) .host { s with mem := memSetTags s.mem ts }

/-! ## The kernel descriptor (R273, R274) -/

/-- A field of a descriptor at an address. -/
def kfield (s : State) (x : Ctx) (k off n : Nat) : Nat := vaNat s x (k + off) n

/-- The descriptor's own limits, by offset. -/
def kernelFields (s : State) (x : Ctx) (k : Nat) : Option Nat :=
  let f := kfield s x k
  badField [
    (k, f 0 4 == 0x4C4E524B),
    (k + 4, f 4 2 == 0),
    (k + 6, f 6 2 == 1),
    (k + 8, f 8 8 % 4 == 0),
    (k + 16, 1 ≤ f 16 1 && f 16 1 ≤ 32 && (f 48 2 == 0 || 6 ≤ f 16 1)),
    (k + 17, 1 ≤ f 17 1 && f 17 1 ≤ 32),
    (k + 18, 1 ≤ f 18 1 && f 18 1 ≤ 8),
    (k + 19, f 19 1 ≤ 8),
    (k + 20, f 20 2 ≤ 512),
    (k + 22, f 22 2 ≤ 256),
    (k + 24, f 24 4 % 64 == 0),
    (k + 32, f 32 2 ≤ 8192),
    (k + 34, f 34 1 ≤ 4),
    (k + 35, 1 ≤ f 35 1 && f 35 1 ≤ 8),
    (k + 36, f 36 1 < 16),
    (k + 37, f 37 1 == 0 || f 37 1 == (if x.topx then 2 else 1)),
    (k + 38, f 38 2 ≤ 16),
    (k + 40, f 40 8 % 16 == 0),
    (k + 48, f 48 2 ≤ 4096),
    (k + 50, f 50 2 ≤ f 32 2),
    (k + 52, f 52 4 == 0),
    (k + 80, f 80 8 % 16 == 0),
    (k + 88, f 88 4 ≤ 65536),
    (k + 92, f 92 4 ≤ 16777216 && f 92 4 % 1024 == 0),
    (k + 96, f 96 8 % 65536 == 0 && (f 92 4 != 0 || f 96 8 == 0)),
    (k + 104, f 104 24 == 0)]

/-- The rule table as it lies in memory. -/
def kernelRules (s : State) (x : Ctx) (k : Nat) : List (Word × Word) :=
  let r := kfield s x k 40 8
  (List.range (kfield s x k 48 2)).map fun i =>
    (BitVec.ofNat 64 (vaNat s x (r + 16 * i) 8), BitVec.ofNat 64 (vaNat s x (r + 16 * i + 8) 8))

/-- KIND_HI and KIND_LO of a rule (R26). -/
def ruleKinds (w : Word) : Nat × Nat := (w.toNat / 2 ^ 38 % 1024, w.toNat / 2 ^ 28 % 1024)

/-- A kind that no rule may name. -/
def kindReserved (k : Nat) : Bool := 6 ≤ k && k < 16

/-- Word 1 of a rule breaks R26 or R274. -/
def ruleBad (w : Word) : Bool :=
  w.toNat / 2 ^ 48 != 0 || w.toNat / 2 ^ 24 % 16 != 0 || w.toNat / 2 ^ 18 % 4 != 0 || w.toNat % 2 ^ 15 != 0 ||
    4 < w.toNat / 2 ^ 15 % 8 || (ruleKinds w).1 < (ruleKinds w).2 || kindReserved (ruleKinds w).1 || kindReserved (ruleKinds w).2

/-- The rule table's first offending field: rules from number i on, the pairs of those before in seen. -/
def rulesBad (r : Nat) : Nat → List (Nat × Nat) → List (Word × Word) → Option Nat
  | _, _, [] => none
  | i, seen, w :: ws =>
    if w.1.toNat % 4 ≠ 0 then some (r + 16 * i)
    else if ruleBad w.2 ∨ seen.contains (ruleKinds w.2) then some (r + 16 * i + 8)
    else rulesBad r (i + 1) (ruleKinds w.2 :: seen) ws

/-- The node image as it lies in memory. -/
def kernelNodes (s : State) (x : Ctx) (k : Nat) : List Block :=
  let n := kfield s x k 56 8
  (List.range (kfield s x k 50 2)).map fun i => BitVec.ofNat 512 (vaNat s x (n + 64 * i) 64)

/-- Word i of an image record. -/
def imageWord (b : Block) (i : Nat) : Word := BitVec.ofNat 64 (lane 64 i b)

/-- The image port at a byte offset is one of a node, and is WIRE to the given offset. -/
def namesBack (img : List Block) (o me : Nat) : Bool :=
  match img[o / 64]? with
  | none => false
  | some b =>
    let i := (o % 64 - 24) / 8
    24 ≤ o % 64 && o % 8 == 0 && i ≤ hdrArity (imageWord b 0) && imageWord b (3 + i) == wireTo (BitVec.ofNat 64 me)

/-- The first offending word of an image record (R274). -/
def nodeFields (a tiles j : Nat) (img : List Block) (b : Block) : Option Nat :=
  let h := imageWord b 0
  let t := (imageWord b 1).toNat
  firstBadOf [
    badField [(a, !hdrBad h), (a + 8, hdrKind h != 4 || (t % 1024 == 0 && t / 1024 < tiles)),
      (a + 16, hdrKind h != 4 || imageWord b 2 == 0)],
    badField ((List.range 4).map fun i =>
      let w := imageWord b (3 + i)
      (a + 24 + 8 * i, !portBad w &&
        (portState w != 1 || namesBack img (portPartner w).toNat (64 * j + 24 + 8 * i))))]

/-- The node image's first offending field. -/
def nodesBad (a tiles : Nat) (img : List Block) : Option Nat :=
  firstBadOf (img.zipIdx.map fun p => nodeFields (a + 64 * p.2) tiles p.2 img p.1)

/-- The shadow pairs as they lie in memory: VA and word 1. -/
def kernelShadows (s : State) (x : Ctx) (k : Nat) : List (Nat × Nat) :=
  let a := kfield s x k 72 8
  (List.range (kfield s x k 38 2)).map fun i => (vaNat s x (a + 16 * i) 8, vaNat s x (a + 16 * i + 8) 8)

/-- The shadow table's first offending field: a reserved bit, or a scope code that R177 does not list. -/
def shadowsBad (a : Nat) (ps : List (Nat × Nat)) : Option Nat :=
  firstBadOf (ps.zipIdx.map fun p => badField [(a + 16 * p.2 + 8, p.1.2 / 2 ^ 36 == 0 && p.1.2 / 2 ^ 32 % 16 ≤ 9)])

/-- The DATATAGS entries as they lie in memory: their addresses, VAs and tag words. -/
def kernelTags (s : State) (x : Ctx) (k : Nat) : List (Nat × Nat × Nat) :=
  let a := kfield s x k 80 8
  if a = 0 then []
  else (List.range (kfield s x k 88 4)).map fun i => (a + 16 * i, vaNat s x (a + 16 * i) 8, vaNat s x (a + 16 * i + 8) 8)

/-- The descriptor that an address holds (R273). -/
def kernelAt (s : State) (x : Ctx) (k : Nat) : KDesc :=
  let f := kfield s x k
  { entry := BitVec.ofNat 64 (f 8 8)
    ns := f 16 1
    nv := f 17 1
    np := f 18 1
    nt := f 19 1
    tiles := f 20 2
    barriers := f 22 2
    spad := f 24 4
    futures := f 28 4
    arena := f 32 2
    level := f 34 1
    agents := f 35 1
    ext := f 36 1
    nodes := f 50 2
    nodeimg := kernelNodes s x k
    sliceimg := BitVec.ofNat 64 (f 64 8)
    shadows := (kernelShadows s x k).map fun p => (BitVec.ofNat 64 p.1, p.2 % 2 ^ 32, p.2 / 2 ^ 32 % 16)
    hrecs := f 92 4
    harena := BitVec.ofNat 64 (f 96 8)
    rules := kernelRules s x k }

/-- The slice layout breaks the size limit of R68: the system area begins at 0xA8000 in a kernel with rules (R260). -/
def layoutBad (k : KDesc) : Bool := (if k.rules.isEmpty then 2 ^ 20 else 0xA8000) < accEnd k

/-- The first offending field of a kernel (R274, R275). -/
def kernelBad (s : State) (x : Ctx) (k : Nat) : Option Nat :=
  let f := kfield s x k
  firstBadOf [
    unreadable s x k 128,
    kernelFields s x k,
    if layoutBad (kernelAt s x k) then some (k + 24) else none,
    unreadable s x (f 40 8) (16 * f 48 2),
    rulesBad (f 40 8) 0 [] (kernelRules s x k),
    unreadable s x (f 56 8) (64 * f 50 2),
    nodesBad (f 56 8) (f 20 2) (kernelNodes s x k),
    unreadable s x (f 72 8) (16 * f 38 2),
    shadowsBad (f 72 8) (kernelShadows s x k),
    if f 80 8 = 0 then none else unreadable s x (f 80 8) (16 * f 88 4),
    tagsBad s x (kernelTags s x k)]

/-! ## Launch plans (R277) -/

/-- Groups of a level in a partition of n packages (R282). -/
def maxGroups (n : Nat) : Nat → Nat
  | 0 => 3072 * n
  | 1 => 384 * n
  | 2 => 24 * n
  | 3 => 12 * n
  | _ => 1

/-- Address of step j of a plan. -/
def stepAddr (p j : Nat) : Nat := p + 256 + 64 * j

/-- PRED entries of a step. -/
def stepPreds (s : State) (x : Ctx) (a : Nat) : List Nat :=
  (List.range (vaNat s x (a + 14) 2)).map fun i => vaNat s x (a + 16 + 2 * i) 2

/-- The step that a record holds. -/
def stepAt (s : State) (x : Ctx) (a : Nat) : Step where
  kd := kernelAt s x (vaNat s x a 8)
  groups := vaNat s x (a + 8) 4
  device := vaNat s x (a + 12) 2 % 2 == 1
  preds := stepPreds s x a

/-- A step of a plan carries DEVICE. -/
def isDevice (s : State) (x : Ctx) (p j : Nat) : Bool := vaNat s x (stepAddr p j + 12) 2 % 2 == 1

/-- The first offending field of step j of the plan at p. -/
def stepBad (s : State) (x : Ctx) (p j : Nat) : Option Nat :=
  let a := stepAddr p j
  let k := vaNat s x a 8
  let n := vaNat s x (a + 14) 2
  firstBadOf [
    unreadable s x a 64,
    if k % 64 = 0 then kernelBad s x k else some a,
    badField [
      (a + 8, 1 ≤ vaNat s x (a + 8) 4 && vaNat s x (a + 8) 4 ≤ maxGroups (packages s) (kfield s x k 34 1)),
      (a + 12, vaNat s x (a + 12) 2 < 2),
      (a + 14, n ≤ 8)],
    badField ((List.range 8).map fun i =>
      let q := vaNat s x (a + 16 + 2 * i) 2
      (a + 16 + 2 * i, if i < n then q < j && !isDevice s x p q else q == 0)),
    badField [(a + 32, vaNat s x (a + 32) 32 == 0)]]

/-- The first offending field of the plan at p. -/
def planBad (s : State) (x : Ctx) (p : Nat) : Option Nat :=
  let n := vaNat s x (p + 8) 2
  firstBadOf [
    if p % 64 = 0 then unreadable s x p 256 else some p,
    badField [
      (p, vaNat s x p 4 == 0x4E414C50),
      (p + 4, vaNat s x (p + 4) 2 == 0),
      (p + 6, vaNat s x (p + 6) 2 == 1),
      (p + 8, 1 ≤ n && n ≤ 1024),
      (p + 10, vaNat s x (p + 10) 6 == 0),
      (p + 144, vaNat s x (p + 144) 112 == 0)],
    firstBadOf ((List.range (min n 1024)).map (stepBad s x p))]

/-- The steps of a checked plan. -/
def planSteps (s : State) (x : Ctx) (p : Nat) : List Step :=
  (List.range (vaNat s x (p + 8) 2)).map fun j => stepAt s x (stepAddr p j)

/-- Every tag that the kernels of a checked plan declare. -/
def planTags (s : State) (x : Ctx) (p : Nat) : List (Nat × Tag) :=
  ((List.range (vaNat s x (p + 8) 2)).map fun j =>
    tagWrites s x (kernelTags s x (vaNat s x (stepAddr p j) 8))).flatten

/-- What an upload reads of a kernel: its descriptor, its rules, its node image, its shadow pairs and its data tags (R273). -/
def kernelBytes (s : State) (x : Ctx) (k : Nat) : List Byte :=
  let f := kfield s x k
  vaBytes s x k 128 ++ vaBytes s x (f 40 8) (16 * f 48 2) ++ vaBytes s x (f 56 8) (64 * f 50 2) ++
    vaBytes s x (f 72 8) (16 * f 38 2) ++ if f 80 8 = 0 then [] else vaBytes s x (f 80 8) (16 * f 88 4)

/-- The measurement of a plan with its kernels (R421): its header and its steps, then what an upload reads of the kernel of each
step, in the order of the steps (DESIGN CHOICE, log 10). -/
def planMeasure (s : State) (x : Ctx) (p : Nat) : BitVec 384 :=
  let n := vaNat s x (p + 8) 2
  sha384 (vaBytes s x p (256 + 64 * n) ++
    ((List.range n).map fun j => kernelBytes s x (vaNat s x (stepAddr p j) 8)).flatten)

/-- A checked plan is installed (R274, R275, R277). -/
def installPlan (x : Ctx) (p : Nat) (s : State) : State :=
  writeTags (planTags s x p) (onCtx x.num (fun y => { y with
    plan := planSteps s x p
    planSlots := Vector.ofFn fun i => BitVec.ofNat 64 (vaNat s x (p + 16 + 8 * i.val) 8)
    measure := planMeasure s x p
    replayed := false }) s)

end Sys2Proof.Machine
end

