-- ==== Sys2Proof/Machine/Context.lean ====
section
/-! DEFINITION. The command mailbox (R417, R420) and the life of a context: creation, gang stop, resumption, switching,
evacuation and destruction (R243, R244, R247, R252 to R259). -/

namespace Sys2Proof.Machine

/-! ## The mailbox (R417, R420) -/

/-- Byte i of a command block. -/
def blkByte (b : Block) (i : Nat) : Nat := lane 8 i b

/-- The block with byte 0, OPCODE, and bytes 4 to 7, STATUS. -/
def withStatus (op n : Nat) (b : Block) : Block :=
  mkBlock 8 64 fun i =>
    if i = 0 then op else if 4 ≤ i ∧ i < 8 then n / 256 ^ (i - 4) % 256 else blkByte b i

/-- The block of a command whose arguments are its constructor's (log 14): VMINOR and VMAJOR. -/
def verBlock (v : CmdVer) : Block := mkBlock 8 64 fun i => if i = 1 then v.minor.toNat else if i = 2 then v.major.toNat else 0
/-- VMINOR and VMAJOR of a block. -/
def blkVer (b : Block) : CmdVer := ⟨BitVec.ofNat 8 (blkByte b 1), BitVec.ofNat 8 (blkByte b 2)⟩

/-- Version 1.0 (R420). -/
def verOk (v : CmdVer) : Bool := v.major == 1 && v.minor == 0

/-- STATUS is written last. -/
def answerCmdBox (op : Nat) (b : Block) (n : Nat) (s : State) : State := { s with mailbox := withStatus op n b }

/-- Bring-up has completed step 6 (R417). -/
def upAndRunning (s : State) : Bool := 7 ≤ s.boot.reached

/-- A command: busy until bring-up is complete, refused by version, else performed; none leaves STATUS for later. -/
def command (op : Nat) (b : Block) (s : State) (k : State → State × Option Nat) : Outc :=
  if !upAndRunning s then .next (answerCmdBox op b 4 s)
  else if !verOk (blkVer b) then .next (answerCmdBox op b 2 s)
  else
    let r := k { s with hostOut := [] }
    match r.2 with
    | some n => .next (answerCmdBox op b n r.1)
    | none => .next r.1

/-- Done. -/
def stDone (s : State) : State × Option Nat := (s, some 0)
/-- Refused. -/
def stRefused (s : State) : State × Option Nat := (s, some 3)

/-- A command on a context that is not FREE. -/
def onContext (n : Nat) (s : State) (k : Ctx → State × Option Nat) : State × Option Nat :=
  match findCtx s n with
  | none => stRefused s
  | some x => k x

/-! ## Creation (R243, R244, R307) -/

/-- A physical HBM range lies below the store reservation of one stack (R67, R244). -/
def hbmRange (s : State) (pa n : Nat) : Bool :=
  pa / 2 ^ 51 == 0 && paOk s pa && (n == 0 || (paOk s (pa + n - 1) && (pa + n - 1) / 2 ^ 36 == pa / 2 ^ 36))

/-- Clusters that no context has reserved, lowest first. -/
def openClusters (s : State) : List Nat := (List.range 24).filter fun k => !s.ctxs.any fun x => x.reserve.contains k

/-- Bytes that a save area needs for a context of n clusters (R244); it holds no more cores than its area has room for. -/
def saveNeed (n : Nat) : Nat := 16 * n * savePerCore

/-- A new context. -/
def newCtx (s : State) (ctx : BitVec 6) (asid : BitVec 16) (root : Word) (topx : Bool) (prio : BitVec 3) (n : Nat)
    (save saveLen : Word) : Ctx where
  num := ctx.toNat
  era := s.draws + 1
  state := .parked
  wasRunning := false
  asid := asid
  root := root
  topx := topx
  prio := prio
  reserve := (openClusters s).take n
  save := save
  saveLen := saveLen
  plan := []
  planSlots := Vector.replicate 16 0
  kparam := Vector.replicate 16 0
  replayed := false
  latch := []
  overrun := false
  lastseq := 0
  done := 0
  savedProg := 0
  curseq := 0
  replays := 0
  wrote := []
  created := 0
  switching := false
  stops := 0
  sentGone := 0
  rcvdGone := 0
  measure := 0
  harenas := []

/-- A limit of R244 is broken, or the number is not FREE. -/
def createBad (s : State) (ctx : BitVec 6) (asid : BitVec 16) (root : Word) (n : Nat) (save saveLen : Word) : Bool :=
  (findCtx s ctx.toNat).isSome || s.ctxs.any (fun x => x.asid == asid) ||
    root.toNat % 65536 != 0 || !hbmRange s root.toNat 8192 || 24 < n || (openClusters s).length < n ||
    save.toNat % 65536 != 0 || saveLen.toNat < saveNeed n || !hbmRange s save.toNat saveLen.toNat

/-- R243, R244, R307 -/
def execCreate (v : CmdVer) (ctx : BitVec 6) (asid : BitVec 16) (root : Word) (topx : Bool) (prio : BitVec 3)
    (clusters : BitVec 8) (save saveLen : Word) (s : State) : Outc :=
  command 0x10 (verBlock v) s fun s1 =>
    if createBad s1 ctx asid root clusters.toNat save saveLen then stRefused s1
    else
      let s2 := raiseGen asid s1
      stDone { s2 with
        ctxs := s2.ctxs ++ [newCtx s2 ctx asid root topx prio clusters.toNat save saveLen]
        patchv := s2.patchv.setIfInBounds ctx.toNat (Vector.replicate 16 0) }

/-! ## Gang stop and resumption (R243, R249, R253, R254) -/

/-- R243, R253: the stop of a running or parked context leaves the halt-tree root. -/
def execStop (v : CmdVer) (ctx : BitVec 6) (s : State) : Outc :=
  command 0x12 (verBlock v) s fun s1 => onContext ctx.toNat s1 fun x =>
    if x.state = .running ∨ x.state = .parked then stDone (gangStop x.num s1) else stRefused s1

/-- A gang stop has yet to reach a core. -/
def stopDue (s : State) (c : Core) : Bool :=
  !c.stopped && !c.out && match c.ctx with
    | none => false
    | some n => match findCtx s n with
      | none => false
      | some x => x.state == .stopped

/-- The stop reaches a core: STOPCNT rises, and migrations of its agents that have not begun are abandoned (R249). -/
def stopCore (c : Core) (s : State) : State :=
  let stays := fun (m : Move) => m.captured || match findAgent s m.aid with
    | some a => a.place != c.id
    | none => true
  onCore c.id (fun k => { k with stopped := true, stopcnt := k.stopcnt + 1 }) { s with moves := s.moves.filter stays }

/-- R253: the stop reaches a core. -/
def execGangStopArrival (core : CoreId) (s : State) : Outc :=
  let c := getCore s core
  if stopDue s c then .next (stopCore c s) else .next s

/-- Deliver the stop to several cores. -/
def stopCores : List Core → State → State
  | [], s => s
  | c :: cs, s => stopCores cs (if c.stopped then s else stopCore c s)

/-- The cores of a context issue again. -/
def unstop (n : Nat) (s : State) : State :=
  let f := fun (c : Core) => if c.ctx = some n then { c with stopped := false } else c
  { s with core := f s.core, cores := s.cores.map f }

/-- The context returns to the state before the stop; a parked one starts its latched kicks (R243, R246). -/
def resumeCtx (n : Nat) (s : State) : State :=
  let s1 := onCtx n (fun y => { y with state := if y.wasRunning then .running else .parked, switching := false }) s
  wakeCtx n (unstop n s1)

/-- R243: a stopped context resumes; the stop reaches every core before it. -/
def execResume (v : CmdVer) (ctx : BitVec 6) (s : State) : Outc :=
  command 0x13 (verBlock v) s fun s1 => onContext ctx.toNat s1 fun x =>
    if x.state = .stopped then stDone (resumeCtx x.num (stopCores (coresOf s1 x.num) s1)) else stRefused s1

/-- Sum of a count over cores. -/
def sumCounts (f : Core → Word) (cs : List Core) : Word := (cs.map f).foldl (· + ·) 0

/-- R254: every core shows the same STOPCNT, and what was sent has been received. -/
def consistent (s : State) (x : Ctx) : Bool :=
  let cs := coresOf s x.num
  cs.all (fun c => c.stopped && c.stopcnt == x.stops) &&
    sumCounts (·.sentcnt) cs + x.sentGone == sumCounts (·.rcvdcnt) cs + x.rcvdGone

/-! ## Switching out and in (R247, R252, R256) -/

/-- Every pending result of TMMA lands. -/
def landAll (a : Agent) : Agent := a.tmma.foldl (fun b _ => landTmma b) a

/-- Agents of a context, the results of their TMMAs in place, write their dirty tiles to their images (R156, R251). -/
def imageAgents (n : Nat) (s : State) : State :=
  let f := fun (a : Agent) => if a.ctx = n then saveTiles (landAll a) else a
  { s with ag := f s.ag, agents := s.agents.map f }

/-- Cores leave their physical cores for the save area. -/
def saveCores : List Core → State → State
  | [], s => s
  | c :: cs, s => saveCores cs (setCore { c with out := true, tlb := [], events := Vector.replicate 5 0 } (unseat c s))

/-- Perform what agents of a context have pending for their own slices. -/
def drainAgents : List Agent → State → State
  | [], s => s
  | a :: as, s => drainAgents as (drainOwn a.aid a.posted.length s)

/-- PROGRESS bits 47 to 0 (R245). -/
def progressLow (x : Ctx) : Word := BitVec.ofNat 64 (x.lastseq.toNat * 2 ^ 32 + x.done.toNat)

/-- A consistent stopped context leaves the package; its state is written to the save area (R247, R256). -/
def switchOut (n : Nat) (s : State) : State :=
  let s1 := drainAgents ((allAgents s).filter fun a => a.ctx == n) s
  let s2 := imageAgents n s1
  let s3 := writeSaveArea n (saveCores (coresOf s2 n) s2)
  onCtx n (fun y => { y with state := .out, savedProg := progressLow y, switching := false }) s3

/-- R256: at once where the context is consistent; else the command waits, and its STATUS with it. -/
def execSwitchOut (v : CmdVer) (ctx : BitVec 6) (s : State) : Outc :=
  command 0x14 (verBlock v) s fun s1 => onContext ctx.toNat s1 fun x =>
    if x.state ≠ .stopped then stRefused s1
    else if consistent s1 x then stDone (switchOut x.num s1)
    else ({ s1 with pendingOut := some x.num }, none)

/-- A switch-out of a context waits. -/
def outWaits (s : State) (x : Ctx) : Bool := x.state == .stopped && (s.pendingOut == some x.num || x.switching)

/-- R254, R256: a switch-out that waits proceeds when its context is consistent; the command's STATUS is then written. -/
def execSwitchOutProceed (ctx : BitVec 6) (s : State) : Outc :=
  match findCtx s ctx.toNat with
  | none => .next s
  | some x =>
    if !outWaits s x || !consistent s x then .next s
    else if s.pendingOut = some x.num then
      .next (answerCmdBox 0x14 (verBlock ⟨0, 1⟩) 0 (switchOut x.num { s with pendingOut := none }))
    else .next (switchOut x.num s)

/-- A core of a context may be seated on a physical core (R252, R256, R257): free, of its kind, no spare, on no evacuated die, and
not in the reservation of another context of the same or a lower priority. -/
def fitsOn (s : State) (n : Nat) (c : Core) (p : CoreId) : Bool :=
  physFree s p && !barred s p && isVectorCore p == isVectorCore c.id &&
    match findCtx s n with
    | some x => maySeat s x p
    | none => (ownerOf s n (clusterIdx p)).isNone

/-- A place for a core: its own name's, else another. -/
def placeFor (s : State) (ok : CoreId → Bool) (c : Core) : Option CoreId :=
  let own := BitVec.ofNat 17 (coreName c.id)
  if ok own then some own
  else
    let l := physCores.filter ok
    l[Config.choose s.draws % l.length]?

/-- Seat saved cores, each on a free core of its kind; none where they do not suffice. -/
def seatAll (n : Nat) : List Core → State → Option State
  | [], s => some s
  | c :: cs, s => match placeFor s (fitsOn s n c) c with
    | none => none
    | some p => seatAll n cs (seat c p s)

/-- Agents of a context restore their tiles when they name them (R323). -/
def restoreAgents (n : Nat) (s : State) : State :=
  let f := fun (a : Agent) => if a.ctx = n then pendTiles a else a
  { s with ag := f s.ag, agents := s.agents.map f }

/-- The physical cores that the cores of a context are to be seated on, those of lower priorities among them (R257): free ones, then
cores of its own reservation or of none that are lent; none where they do not suffice. -/
def seatsFor (s : State) (x : Ctx) : Option (List CoreId) :=
  let cs := coresOf s x.num
  let free := physCores.filter fun p => cs.any fun c => fitsOn s x.num c p
  let lent := physCores.filter fun p => mayTake s x p && !physFree s p
  let kind := fun (v : Bool) => ((free ++ lent).filter fun p => isVectorCore p == v).take
    (cs.filter fun c => isVectorCore c.id == v).length
  let ps := kind false ++ kind true
  if ps.length = cs.length then some ps else none

/-- A context returns to free cores; where those that lower priorities hold are needed too, they are taken back first, and the
command waits for them (R257). -/
def seatOrTake (x : Ctx) (s : State) : State × Option Nat :=
  match seatAll x.num (coresOf s x.num) s with
  | some s2 => stDone (resumeCtx x.num (restoreAgents x.num { s2 with pendingIn := none }))
  | none => match seatsFor s x with
    | none => stRefused { s with pendingIn := none }
    | some ps => ((ps.filterMap (coreOn s)).foldl (vacate ps) { s with pendingIn := some x.num }, none)

/-- R256: a switched-out context returns to free cores of the right kinds and to the state before its stop. -/
def execSwitchIn (v : CmdVer) (ctx : BitVec 6) (s : State) : Outc :=
  command 0x15 (verBlock v) s fun s1 => onContext ctx.toNat s1 fun x =>
    if x.state ≠ .out then stRefused s1 else seatOrTake x s1

/-- R257: a SWITCH_IN that waits for cores goes on; its STATUS is then written. -/
def seatPending (s : State) : State :=
  match s.pendingIn with
  | none => s
  | some n => match findCtx s n with
    | none => { s with pendingIn := none }
    | some x =>
      let r := seatOrTake x s
      match r.2 with
      | some k => answerCmdBox 0x15 (verBlock ⟨0, 1⟩) k r.1
      | none => r.1

/-! ## Evacuation (R258) -/

/-- The numbers of the contexts with a core on a die. -/
def ctxsOn (s : State) (die : Nat) : List Nat :=
  (s.ctxs.filter fun x => (coresOf s x.num).any fun c => !c.out && dieOf c.phys == die).map (·.num)

/-- Gang-stop contexts, the stop reaching every core. -/
def stopAll : List Nat → State → State
  | [], s => s
  | n :: ns, s =>
    let s1 := gangStop n s
    stopAll ns (stopCores (coresOf s1 n) s1)

/-- Resume contexts. -/
def resumeAll : List Nat → State → State
  | [], s => s
  | n :: ns, s => resumeAll ns (resumeCtx n s)

/-- Move cores to spare cores of their kinds off a die; none where they do not suffice. -/
def evacuateAll (die : Nat) : List Core → State → Option State
  | [], s => some s
  | c :: cs, s =>
    let ok := fun (p : CoreId) =>
      isSpare s p && physFree s p && dieOf p != die && !s.evacuated.contains (dieOf p) && isVectorCore p == isVectorCore c.id
    match physCores.find? ok with
    | none => none
    | some p => evacuateAll die cs (relocate c p s)

/-- R258: the contexts with cores on the die are stopped, those cores move to spare ones, and what ran runs on; the die takes no core
from then on, and is served by its culm ports alone (R13). Too few spare cores leave everything in place and the contexts STOPPED. -/
def execEvacuate (v : CmdVer) (die : BitVec 2) (s : State) : Outc :=
  command 0x16 (verBlock v) s fun s1 =>
    let ns := ctxsOn s1 die.toNat
    let live := ns.filter fun n => match findCtx s1 n with
      | some x => x.state != .stopped
      | none => false
    let s2 := stopAll ns s1
    let held := (allCores s2).filter fun c => c.ctx.isSome && !c.out && dieOf c.phys == die.toNat
    match evacuateAll die.toNat held s2 with
    | none => stRefused s2
    | some s3 => stDone (resumeAll live { s3 with evacuated := if s3.evacuated.contains die.toNat then s3.evacuated else die.toNat :: s3.evacuated })

/-! ## Destruction (R259) -/

/-- The context of a party that waits on a teff core. -/
def partyCtx (s : State) : Parked → Option Nat
  | .agent aid => (findAgent s aid).map (·.ctx)
  | .strip c _ => (getCore s c).ctx
  | .cpy c _ => (getCore s c).ctx
  | .chain c _ => (getCore s c).ctx
  | .gather c _ => (getCore s c).ctx
  | .prepare c => (getCore s c).ctx
  | .sequencer c => (getCore s c).ctx

/-- A teff core without the accesses of a context; a record whose waiters are gone is freed. -/
def purgeTeff (gone : Parked → Bool) (t : Teff) : Teff :=
  let t1 := { t with parked := t.parked.filter fun a => !gone a.who }
  (t.parked.filter fun a => gone a.who).foldl (fun u a => dropWaiter a.record u) t1

/-- A state store without the sequences of a context (R213). -/
def purgeStore (n : Nat) (st : StateStore) : StateStore :=
  let keep := fun (p : Nat × SeqSlot) => if p.2.isOpen ∧ p.2.ctx = n then closeSlot p.2 else p.2
  collect { st with slots := st.slots.foldl (fun l p => alSet SeqSlot.fresh l p.1 (keep p)) [] }

/-- A port without the flits of a context: what its groups hold of it is zero (R259, R402). -/
def purgePort (n : Nat) (p : Port) : Port :=
  { p with
    tosend := p.tosend.filter fun f => f.1 != n
    replay := p.replay.map fun g => (g.1, g.2.map fun f => if f.1 = n then (f.1, 0) else f) }

/-- R259: what the context holds is discarded, and a message of it that is under way at its arrival. The writes its agents have
issued to memory are performed. -/
def destroyCtx (n : Nat) (s : State) : State :=
  let s1 := settleAgents ((allAgents s).filter fun a => a.ctx == n) s
  let gone := fun (w : Parked) => partyCtx s1 w == some n
  let mine := fun (aid : Nat) => match findAgent s1 aid with
    | some a => a.ctx == n
    | none => true
  let s2 := { s1 with
    teffs := s1.teffs.map (purgeTeff gone)
    moves := s1.moves.filter fun m => !mine m.aid
    launches := s1.launches.filter fun r => r.ctx != n
    faultReports := s1.faultReports.filter fun r => r.1 != n
    insts := s1.insts.filter fun i => i.ctx != n
    stores := s1.stores.map (purgeStore n)
    net := s1.net.filter fun m => !(m.ctx == n && isHere m)
    farOut := s1.farOut.filter fun f => ctxOfName f.place != n
    farWait := s1.farWait.filter fun m => m.ctx != n
    patchv := s1.patchv.setIfInBounds n (Vector.replicate 16 0)
    fabric := { s1.fabric with ports := s1.fabric.ports.map (purgePort n) } }
  let s3 := releaseCores (coresOf s2 n) (dropAgents (fun a => a.ctx == n) s2)
  { s3 with ctxs := s3.ctxs.filter fun x => x.num != n }

/-- R243, R259 -/
def execDestroy (v : CmdVer) (ctx : BitVec 6) (s : State) : Outc :=
  command 0x11 (verBlock v) s fun s1 => onContext ctx.toNat s1 fun x => stDone (destroyCtx x.num s1)

end Sys2Proof.Machine
end

