-- ==== Sys2Proof/Machine/HostIf.lean ====
section
/-! DEFINITION. The other host commands, the launch ports and CXL.mem (R245, R246, R275, R277, R279, R304 to R306, R377 to
R380, R404, R405, R420, R421, R423, R424, R428). Layouts that the spec leaves open: log 14. -/

namespace Sys2Proof.Machine

/-- A little-endian word of a command block's argument. -/
def blkArg (b : Block) (off n : Nat) : Nat := b.toNat / 2 ^ (8 * off) % 2 ^ (8 * n)

/-- Bytes 8 to 63 are zero but for those named. -/
def argsZero (b : Block) (named : List Nat) : Bool :=
  (List.range 56).all fun i => named.contains (i + 8) || blkByte b (i + 8) == 0

/-- Bytes from a first number on. -/
def byteRange (a n : Nat) : List Nat := (List.range n).map (a + ·)

/-- The location of an 8-aligned host buffer of n bytes (R67). -/
def hostBuf (hpa n : Nat) : Option Nat := if hpa % 8 = 0 ∧ hpa + n ≤ 2 ^ 51 then some (2 ^ 51 + hpa) else none

/-! ## Version, plans, instances, tags -/

/-- GET_VERSION's data: command set, plan and kernel version, the step reached, and whether it failed. -/
def versionData (b : Boot) : List Byte :=
  [0, 1, 0, 1, 0, 1, BitVec.ofNat 8 (min b.reached 6), if b.failed.isSome then 1 else 0]

/-- R417, R420: works in every state of bring-up. -/
def execGetVersion (v : CmdVer) (s : State) : Outc :=
  if !verOk v then .next (answerCmdBox 0x01 (verBlock v) 2 s)
  else .next (answerCmdBox 0x01 (verBlock v) 0 { s with hostOut := versionData s.boot })

/-- A replay of a context is in progress (R277). -/
def inReplay (x : Ctx) : Bool := x.state == .running || ((x.state == .stopped || x.state == .out) && x.wasRunning)

/-- R274, R275, R277: a refusal returns the address of the first offending field. -/
def execUploadPlan (v : CmdVer) (ctx : BitVec 6) (plan : Word) (s : State) : Outc :=
  command 0x20 (verBlock v) s fun s1 => onContext ctx.toNat s1 fun x =>
    if inReplay x then stRefused s1
    else match planBad s1 x plan.toNat with
      | some a => stRefused { s1 with hostOut := natToBytes 8 a }
      | none => stDone (installPlan x plan.toNat s1)

/-- Number of an instance's state. -/
def stateCode : InstState → Nat
  | .pending => 0 | .ready => 1 | .early => 2 | .running => 3 | .done => 4 | .faulted => 5

/-- R279 -/
def execReadInstance (v : CmdVer) (ctx : BitVec 6) (inst : BitVec 32) (s : State) : Outc :=
  command 0x21 (verBlock v) s fun s1 =>
    match findInst s1 ctx.toNat inst with
    | none => stRefused s1
    | some i => stDone { s1 with hostOut := [BitVec.ofNat 8 (stateCode i.state)] }

/-- R275: bytes 8 to 15 list, 16 to 19 count, 20 context. -/
def execTagWrite (blk : Block) (s : State) : Outc :=
  command 0x22 blk s fun s1 => onContext (blkArg blk 20 1) s1 fun x =>
    let n := blkArg blk 16 4
    let l := 2 ^ 51 + blkArg blk 8 8
    let es := (List.range n).map fun i => (l + 16 * i, memNat s1.mem (l + 16 * i) 8, memNat s1.mem (l + 16 * i + 8) 8)
    if n = 0 ∨ 65536 < n ∨ 2 ^ 52 < l + 16 * n then stRefused s1
    else if (tagsBad s1 x es).isSome then stRefused s1
    else stDone (writeTags (tagWrites s1 x es) s1)

/-! ## Fault buffers and invalidation (R304 to R306, R428) -/

/-- The 32 bytes of a record (R304). -/
def recordBytes (t : Teff) (r : FRecord) : List Byte :=
  natToBytes 8 r.va.toNat ++ natToBytes 2 r.asid.toNat ++ [BitVec.ofNat 8 (kindCode r.kind), t.gen] ++
    natToBytes 2 r.waiters ++ natToBytes 2 0 ++ natToBytes 8 r.place.toNat ++ natToBytes 4 r.seq.toNat ++ natToBytes 4 0

/-- The 8,200 bytes of FAULT_READ (R428). -/
def bufferBytes (t : Teff) : List Byte :=
  [t.gen, if t.full then 1 else 0] ++ natToBytes 2 t.records.length ++ natToBytes 4 0 ++
    ((List.range 256).map fun i => match t.records.find? (fun r => r.idx == i) with
      | some r => recordBytes t r
      | none => natToBytes 32 0).flatten

/-- A service core sends a command to the party that performs it; its answer writes STATUS (R404, R420). -/
def commandTo (dst : CoreId) (op : Nat) (blk : Block) (s : State) : State × Option Nat :=
  (send (serviceId 0) dst hostCtx (.command op blk) s, none)

/-- R304, R428 -/
def execFaultRead (blk : Block) (s : State) : Outc :=
  command 0x30 blk s fun s1 =>
    if (hostBuf (blkArg blk 8 8) 8200).isNone ∨ !argsZero blk (byteRange 8 9) ∨ 23 < blkByte blk 16 then stRefused s1
    else commandTo (teffName (blkByte blk 16)) 0x30 blk s1

/-- A fault-buffer command names a cluster, and its other bytes are zero (R428). -/
def bufferCommand (op : Nat) (blk : Block) (named : List Nat) (s : State) : Outc :=
  command op blk s fun s1 =>
    if !argsZero blk named ∨ 23 < blkByte blk 16 then stRefused s1 else commandTo (teffName (blkByte blk 16)) op blk s1

/-- R305, R428 -/
def execMap (blk : Block) (s : State) : Outc := bufferCommand 0x31 blk (byteRange 16 4) s
/-- R305, R428 -/
def execRefuse (blk : Block) (s : State) : Outc := bufferCommand 0x32 blk (byteRange 16 4) s
/-- R305, R428 -/
def execReplay (blk : Block) (s : State) : Outc := bufferCommand 0x33 blk (byteRange 16 2) s
/-- R305, R428 -/
def execFlush (blk : Block) (s : State) : Outc := bufferCommand 0x34 blk (byteRange 16 2) s

/-- A range of INVALIDATE's block keeps its limits (R428). -/
def rangeOk (blk : Block) : Bool :=
  let va := blkArg blk 24 8
  let n := blkArg blk 32 8
  argsZero blk (byteRange 8 2 ++ byteRange 24 16) && va % 65536 == 0 && n != 0 && n % 65536 == 0 && va + n ≤ 0xF0 * 2 ^ 48

/-- Send a command to the teff cores of the first n clusters. -/
def commandTeffs (op : Nat) (blk : Block) : Nat → State → State
  | 0, s => s
  | n + 1, s => send (serviceId 0) (teffName n) hostCtx (.command op blk) (commandTeffs op blk n s)

/-- R306, R428: the command goes to every teff core. -/
def execInvalidate (blk : Block) (s : State) : Outc :=
  command 0x35 blk s fun s1 => if rangeOk blk then (commandTeffs 0x35 blk 24 s1, none) else stRefused s1

/-- A fault-buffer command of the current generation is performed (R305). -/
def onGeneration (t : Teff) (blk : Block) (s : State) (k : State) : State × Nat :=
  if blkByte blk 17 = t.gen.toNat then (k, 0) else (s, 3)

/-- MAP and REFUSE name a record in use. -/
def onRecord (t : Teff) (blk : Block) (s : State) (k : State) : State × Nat :=
  if t.records.any fun r => r.idx == blkArg blk 18 2 then onGeneration t blk s k else (s, 3)

/-- A teff core performs a command: the state after, and STATUS (R305, R306). -/
def teffCommand (cl op : Nat) (blk : Block) (s : State) : State × Nat :=
  let t := getTeff s cl
  let i := blkArg blk 18 2
  if op = 0x31 then onRecord t blk s (setTeff cl (walkRecord i t) s)
  else if op = 0x32 then onRecord t blk s (refuseRecord cl i s)
  else if op = 0x33 then onGeneration t blk s (setTeff cl (replayTeff t) s)
  else if op = 0x34 then onGeneration t blk s (setTeff cl (flushTeff t) s)
  else if op = 0x35 then
    (dropClusterTlb cl (inRange (BitVec.ofNat 16 (blkArg blk 8 2)) (blkArg blk 24 8) (blkArg blk 24 8 + blkArg blk 32 8)) s, 0)
  else (s, 0)

/-! ## Counters, telemetry, attestation (R405, R421, R423, R424) -/

/-- The core that a physical core's counters are read from. -/
def counterCore (s : State) (p : CoreId) : Core := (coreOn s p).getD (getCore s p)

/-- The stop of a core on its ring (R9). -/
def stopOf (s : State) (p : CoreId) : RingStop :=
  ((s.fabric.rings.toList.getD (clusterIdx p) (Vector.replicate 8 RingStop.empty)).toList).getD (coreNumOf p / 2) RingStop.empty

/-- READ_COUNTERS' data: the event words, the ring counts of the core's stop in both directions, the HBM counts. -/
def counterData (s : State) (p : CoreId) : List Byte :=
  let ws := (counterCore s p).events.toList ++ (stopOf s p).cw.counts.toList ++ (stopOf s p).acw.counts.toList ++
    (s.hbmErr.toList.map fun e => [e.1, e.2]).flatten
  (ws.map fun w => natToBytes 8 w.toNat).flatten

/-- R405, R423 -/
def execReadCounters (v : CmdVer) (core : CoreId) (s : State) : Outc :=
  command 0x40 (verBlock v) s fun s1 =>
    if 1024 ≤ core.toNat ∨ !isComputeCore core then stRefused s1
    else commandTo core 0x40 (verBlock v) s1

/-- The bytes that a command's answer brings, and the host buffer for which they are. -/
def commandData (s : State) (m : Msg) (op : Nat) (blk : Block) : Option Nat × List Byte :=
  if op = 0x30 then (hostBuf (blkArg blk 8 8) 8200, bufferBytes (getTeff s (clusterIdx m.dst)))
  else if op = 0x40 then (none, counterData s m.dst)
  else (none, [])

/-- A host command reaches the party that performs it, and its answer leaves (R404, R405, R423, R428). -/
def performCommand (m : Msg) (op : Nat) (blk : Block) (s : State) : State :=
  let d := commandData s m op blk
  let r := if coreNumOf m.dst = 16 then teffCommand (clusterIdx m.dst) op blk (performed m s) else (performed m s, 0)
  respond m (.commanded op blk r.2 d.1 d.2) r.1

/-- An answer of INVALIDATE: with the last one what has translated through the entries is performed, and the command is complete
(R306). -/
def invalidated (blk : Block) (s : State) : State :=
  if s.net.any fun m => ofCommand m.body then s
  else
    let va := blkArg blk 24 8
    answerCmdBox 0x35 blk 0 (invalidateRange (BitVec.ofNat 16 (blkArg blk 8 2)) va (va + blkArg blk 32 8) s)

/-- A command's answer reaches its service core: what it brings is written, and then STATUS (R420). -/
def takeCommanded (op : Nat) (blk : Block) (status : Nat) (buf : Option Nat) (data : List Byte) (s : State) : State :=
  if op = 0x35 then invalidated blk s
  else answerCmdBox op blk status (match buf with
    | some l => hostWrite (placed l data) s
    | none => { s with hostOut := data })

/-- A host command, or an answer of one, at its destination may be performed. -/
def commandDue (s : State) (m : Msg) : Bool := ofCommand m.body && isHere m && firstOf s m

/-- The message of a number, a host command or an answer of one, is performed. -/
def takeCommand (i : Nat) (s : State) : State :=
  match s.net.find? (fun m => m.id == i) with
  | none => s
  | some m =>
    if !commandDue s m then s
    else match m.body with
      | .command op blk => performCommand m op blk s
      | .commanded op blk status buf data => takeCommanded op blk status buf data (performed m s)
      | _ => s

/-- R424: power, junction temperatures, cycles withheld. -/
def execTelemetry (v : CmdVer) (s : State) : Outc :=
  command 0x41 (verBlock v) s fun s1 =>
    let data := natToBytes 8 s1.power.window ++ (s1.power.temps.toList.map fun t => natToBytes 2 t.toNat).flatten ++
      natToBytes 8 s1.power.withheld.toNat
    stDone { s1 with hostOut := data }

/-- Bytes 0 to 327 of a report (R421). -/
def reportBytes (s : State) (nonce : List Byte) (who : Nat) : List Byte :=
  let plan := match findCtx s who with
    | some x => x.measure
    | none => 0
  let ms := [Config.romMeasure] ++ s.boot.digests.toList ++ [plan]
  nonce ++ natToBytes 8 s.cfg.identity.toNat ++ [s.cfg.position, BitVec.ofNat 8 who] ++ natToBytes 6 0 ++
    (ms.map fun m => octets 48 m.toNat).flatten ++ (s.boot.seqs.toList.map fun q => natToBytes 8 q.toNat).flatten

/-- A whole report of 424 bytes, signed. -/
def report (s : State) (nonce : List Byte) (who : Nat) : List Byte :=
  let r := reportBytes s nonce who
  r ++ octets 96 (ecdsaSign s.draws s.boot.identityKey (sha384 r)).toNat

/-- ATTEST once step 2 has completed (R421). -/
def attestNow (blk : Block) (s : State) : State × Option Nat :=
  let who := blkByte blk 16
  match hostBuf (blkArg blk 8 8) 424 with
  | none => stRefused s
  | some l =>
    if !argsZero blk (byteRange 8 9) ∨ (who ≠ 0xFF ∧ (findCtx s who).isNone) then stRefused s
    else stDone (hostWrite (placed l (report s ((List.range 48).map fun i => memByte s.mem (l + i)) who)) s)

/-- A failure came at or before step 2 (R417). -/
def failedEarly (b : Boot) : Bool :=
  match b.failed with
  | some k => k ≤ 2
  | none => false

/-- R417, R421 -/
def execAttest (blk : Block) (s : State) : Outc :=
  if failedEarly s.boot then .next (answerCmdBox 0x02 blk 3 s)
  else if s.boot.reached < 3 then .next (answerCmdBox 0x02 blk 4 s)
  else if !verOk (blkVer blk) then .next (answerCmdBox 0x02 blk 2 s)
  else
    let r := attestNow blk s
    .next (answerCmdBox 0x02 blk (r.2.getD 0) r.1)

/-! ## Launch ports (R245 to R247) -/

/-- PROGRESS as the host reads it (R245, R247). -/
def progress (x : Ctx) : Word :=
  let away := x.state == .out
  (if away then x.savedProg else progressLow x) ||| BitVec.ofNat 64
    ((if away then 2 ^ 63 else 0) + (if x.overrun then 2 ^ 62 else 0) + x.latch.length * 2 ^ 48)

/-- The PATCHV registers of a launch port (R245). -/
def patchOf (s : State) (ctx : Nat) : Vector Word 16 := s.patchv.toList.getD ctx (Vector.replicate 16 0)

/-- The value of a register at an offset of the launch-port region (R245, R259): KICK, and any other size or offset, reads 0. -/
def portValue (s : State) (off n : Nat) : Word :=
  let r := off % 0x1000
  if n ≠ 8 ∨ off % 8 ≠ 0 then 0
  else if r = 8 then match findCtx s (off / 0x1000) with
    | some x => progress x
    | none => 0
  else if 0x80 ≤ r ∧ r < 0x100 then (patchOf s (off / 0x1000)).toList.getD ((r - 0x80) / 8) 0
  else 0

/-- What the host reads in n bytes at an offset of the launch-port region: all ones until bring-up is complete (R417). -/
def portRead (s : State) (off n : Nat) : Word := if upAndRunning s then portValue s off n else BitVec.ofNat 64 (2 ^ (8 * n) - 1)

/-- The capture of a KICK with the values of PATCHV (R246). -/
def captureKick (val : Word) (patch : Vector Word 16) (x : Ctx) : Ctx :=
  if val.toNat / 2 ^ 32 ≠ 0 ∨ 8 ≤ x.latch.length then { x with overrun := true }
  else { x with latch := x.latch ++ [⟨BitVec.ofNat 16 val.toNat, BitVec.ofNat 16 (val.toNat / 2 ^ 16), patch⟩] }

/-- R245, R246: a parked context starts at once. -/
def execKick (ctx : BitVec 6) (val : Word) (s : State) : Outc :=
  if !upAndRunning s then .next s
  else .next (wakeCtx ctx.toNat (onCtx ctx.toNat (captureKick val (patchOf s ctx.toNat)) s))

/-- R245 -/
def execProgressWrite (ctx : BitVec 6) (val : Word) (s : State) : Outc :=
  if !upAndRunning s ∨ !val.getLsbD 62 then .next s
  else .next (onCtx ctx.toNat (fun x => { x with overrun := false }) s)

/-- A block written to the mailbox with an OPCODE that the command set does not list: STATUS 4 until bring-up is complete, and then
STATUS 1 (R417, R420). -/
def unknownCommand (data : List Byte) (s : State) : State :=
  let b := BitVec.ofNat 512 (bytesToNat data)
  answerCmdBox (blkByte b 0) b (if upAndRunning s then 1 else 4) s

/-- The OPCODEs of the command set (R420). -/
def opcodes : List Nat := [0x01, 0x02] ++ byteRange 0x10 7 ++ [0x20, 0x21, 0x22] ++ byteRange 0x30 6 ++ [0x40, 0x41]

/-- A write by CXL.io that is no KICK, no PROGRESS and no command of the set. The mailbox takes a block with another OPCODE (R420), and
the launch ports bytes to a register that only keeps its value, PATCHV (R245). A write of another size or anywhere else is
discarded, and so is a block with an OPCODE of the set, whose commands come as their own events (log 14). -/
def execHostRegisterWrite (off : Word) (data : List Byte) (s : State) : Outc :=
  let o := off.toNat - 0x100000
  let r := o % 0x1000
  if off = 0 ∧ data.length = 64 then
    .next (if opcodes.contains (bytesToNat data % 256) then s else unknownCommand data s)
  else if !upAndRunning s ∨ off.toNat < 0x100000 ∨ 64 * 0x1000 ≤ o ∨ r < 0x80 ∨ 0x100 ≤ r ∨ r % 8 ≠ 0 ∨ data.length ≠ 8 then .next s
  else
    let k := o / 0x1000
    .next { s with patchv := s.patchv.setIfInBounds k ((patchOf s k).setIfInBounds ((r - 0x80) / 8) (BitVec.ofNat 64 (bytesToNat data))) }

/-! ## CXL.mem (R377 to R380, R404) -/

/-- The host service core that handles a CXL.mem access (R377). -/
def serviceOf (pa : Nat) : Nat := pa / 2 ^ 36 / 3

/-- The packets of a service core for an access, one for each block: the message for the part of the access that lies in a block, its
place in the access and its length (R394, R404). There is no HBM above the twelve stacks (R67). -/
def servicePackets (pa n : Nat) (body : Nat → Nat → Nat → Body) (s : State) : State :=
  ((blocksOf ((List.range n).map (pa + ·))).filter (· < 12 * 2 ^ 36)).foldr (fun b x =>
    let lo := max pa b
    send (serviceId (serviceOf b)) (homeName b) hostCtx (body lo (lo - pa) (min (pa + n) (b + 64) - lo)) x) s

/-- R380: a host write to HBM goes to its home, which performs it; tags stay. A write at a location of host memory is the host's own
there, which comes from outside the package as this one does (log 14). -/
def execCxlMemWrite (pa : Word) (data : List Byte) (s : State) : Outc :=
  if isHostLoc pa.toNat then .next (hostWrite ((placed pa.toNat data).filter fun p => isHostLoc p.1) s)
  else .next (servicePackets pa.toNat data.length (fun l off n => .hostWrite l ((data.drop off).take n)) s)

/-- R379: a host read of HBM goes to its home, which answers with the bytes; where it does not reach them they are all ones (log 14). -/
def execCxlMemRead (pa : Word) (n : Nat) (s : State) : Outc :=
  let s1 := { s with hostOut := List.replicate n 0xFF }
  if isHostLoc pa.toNat then .next s1 else .next (servicePackets pa.toNat n (fun l off k => .hostRead l k off) s1)

end Sys2Proof.Machine
end

