-- ==== Sys2Proof/Machine/Boot.lean ====
section
/-! DEFINITION. Bring-up, blobs, the partition configuration, and power (R403, R417 to R419, R424). What the bodies of blobs
hold where: log 10 and log 11. -/

namespace Sys2Proof.Machine

/-! ## Blobs (R418) -/

/-- n bytes of a blob at an offset, little-endian. -/
def blobNat (bs : List Byte) (off n : Nat) : Nat := bytesToNat ((bs.drop off).take n)

/-- A public key of 96 octets at an offset: its two coordinates, each big-endian (R2). -/
def blobKey (bs : List Byte) (off : Nat) : BitVec 768 := BitVec.ofNat 768 (octetsNat ((bs.drop off).take 96))

/-- The Horonabor root public key held in ROM (R418). -/
def rootKey : BitVec 768 := blobKey ((List.range 96).map Config.rootOctet) 0

/-- SEQ of a blob. -/
def blobSeq (bs : List Byte) : Word := BitVec.ofNat 64 (blobNat bs 16 8)

/-- The body of a blob. -/
def blobBody (bs : List Byte) : List Byte := (bs.drop 24).take (bs.length - 120)

/-- The signature of a blob verifies under a key. -/
def blobSigned (key : BitVec 768) (bs : List Byte) : Bool :=
  ecdsaOk key (sha384 (bs.take (bs.length - 96))) (BitVec.ofNat 768 (octetsNat (bs.drop (bs.length - 96))))

/-- A blob of a kind is accepted under a key and a recorded SEQ. -/
def blobOk (kind : Nat) (key : BitVec 768) (recorded : Word) (bs : List Byte) : Bool :=
  256 ≤ bs.length && bs.length ≤ 2 ^ 24 && blobNat bs 12 4 == bs.length && blobNat bs 0 4 == 0x424C4F42 &&
    blobNat bs 6 2 == 1 && blobNat bs 8 2 == kind && blobNat bs 10 2 == 0 && recorded.toNat ≤ (blobSeq bs).toNat &&
    blobSigned key bs

/-- The blob of a kind in the configuration flash. -/
def flashBlob (b : Boot) (kind : Nat) : Option (List Byte) := (b.flash.find? fun x => x.kind == kind).map (·.bytes)

/-- A verified blob is applied: measured, its SEQ kept, and the recorded SEQ raised where it is higher. -/
def noteBlob (kind : Nat) (bs : List Byte) (b : Boot) : Boot :=
  let i := kind - 1
  let q := blobSeq bs
  let old := b.recorded.toList.getD i 0
  { b with
    recorded := b.recorded.setIfInBounds i (if old.toNat < q.toNat then q else old)
    seqs := b.seqs.setIfInBounds i q
    digests := b.digests.setIfInBounds i (sha384 bs) }

/-- Verify the blob of a kind and go on, or fail at a step (R417). -/
def withBlob (step kind : Nat) (key : BitVec 768) (s : State) (k : List Byte → State → State) : State :=
  let fail := { s with boot := { s.boot with failed := some step } }
  match flashBlob s.boot kind with
  | none => fail
  | some bs =>
    if blobOk kind key (s.boot.recorded.toList.getD (kind - 1) 0) bs then k bs { s with boot := noteBlob kind bs s.boot }
    else fail

/-- A step has completed. -/
def stepDone (n : Nat) (s : State) : State := { s with boot := { s.boot with reached := n + 1 } }

/-! ## The partition configuration (R419) -/

/-- The configuration that a body fixes: multi-byte items are little-endian (R2); where
each lies and how wide the last two are is the model's choice (log 11). -/
def cfgOf (body : List Byte) : PartCfg where
  identity := BitVec.ofNat 64 (blobNat body Config.identityAt 8)
  position := BitVec.ofNat 8 (blobNat body Config.positionAt 1)
  routing := Vector.ofFn fun i => BitVec.ofNat 8 (blobNat body (Config.routingAt + i.val) 1)
  store := Vector.ofFn fun i => blobNat body (Config.storeAt + i.val) 1
  spare := BitVec.ofNat 384 (blobNat body Config.spareAt 48)
  powerLimit := blobNat body Config.powerAt 2

/-- A configuration keeps the limits of R419. -/
def cfgFits (c : PartCfg) : Bool :=
  c.routing.all (fun r => r.toNat < 8 || r == 0xFF) && c.store.all (· ≤ 16) && 600 ≤ c.powerLimit && c.powerLimit ≤ 2000

/-! ## Bring-up (R417) -/

/-- What this end of a Svailaet link sends at training: version 1.0, its partition and its position (R403). -/
def ownHello (s : State) : Hello := ⟨1, 0, s.cfg.identity, s.cfg.position⟩

/-- A peer with which the link runs: it offers major version 1 and names the same partition (R403). -/
def helloOk (s : State) (h : Hello) : Bool := h.major == 1 && h.partition == s.cfg.identity

/-- A port as training leaves it, with the peer that it has found. -/
def trained (s : State) (peer : Option Hello) : Port :=
  match peer with
  | none => Port.idle
  | some h => { Port.idle with up := helloOk s h, sentHello := some (ownHello s), peerHello := some h }

/-- The peer that a port finds at a training. -/
def foundPeer (n i : Nat) : Option Hello :=
  if Config.peerTrains n i then
    some ⟨Config.peerMajor n i, Config.peerMinor n i, Config.peerPartition n i, Config.peerPosition n i⟩
  else none

/-- Step 5: the Svailaet ports are trained. -/
def trainPorts (s : State) : State :=
  { s with fabric := { s.fabric with ports := Vector.ofFn fun (i : Fin 8) => trained s (foundPeer s.draws i.val) } }

/-- What a reset leaves of the state: the flash, memory, the key SRAM with its start-up pattern, and the model's own counters. -/
def restarted (s : State) : State :=
  { State.reset with
    mem := s.mem
    draws := s.draws
    inputs := s.inputs
    softErrors := s.softErrors
    msgs := s.msgs
    mailbox := s.mailbox
    boot := { State.reset.boot with
      flash := s.boot.flash
      recorded := s.boot.recorded
      keySram := Config.startPattern s.draws } }

/-- Step 0: the derivation register takes the start-up pattern. -/
def captureKey (s : State) : State := { s with boot := { s.boot with derivation := s.boot.keySram } }

/-- Step 1: SRAM, the key SRAM included, and HBM are cleared; host memory stays. -/
def clearAll (s : State) : State :=
  { s with
    mem := ⟨s.mem.bytes.filter fun p => isHostLoc p.1, []⟩
    struck := []
    boot := { s.boot with keySram := 0 } }

/-- Step 2: the identity blob. -/
def takeIdentity (bs : List Byte) (s : State) : State :=
  { s with boot := { s.boot with
      identityKey := Config.unwrapKey s.boot.derivation (blobBody bs)
      ownerKey := blobKey (blobBody bs) Config.ownerAt
      derivation := 0 } }

/-- Step 4: the configuration is applied, or the blob fails. -/
def takeConfig (old : Boot) (bs : List Byte) (s : State) (k : State → State) : State :=
  if cfgFits (cfgOf (blobBody bs)) then k { s with cfg := cfgOf (blobBody bs) }
  else { s with boot := { old with failed := some 4 } }

/-- The security core performs the next step (R417): nothing after step 6 or a failure. -/
def bootStep (s : State) : State :=
  if s.boot.failed.isSome then s
  else match s.boot.reached with
    | 0 => stepDone 0 (captureKey s)
    | 1 => stepDone 1 (clearAll s)
    | 2 => withBlob 2 1 rootKey s fun bs s1 => stepDone 2 (takeIdentity bs s1)
    | 3 => withBlob 3 2 rootKey s fun _ s1 => stepDone 3 s1
    | 4 => withBlob 4 3 s.boot.ownerKey s fun bs s1 => takeConfig s.boot bs s1 (stepDone 4)
    | 5 => stepDone 5 (trainPorts s)
    | 6 => stepDone 6 s
    | _ => s

/-- Bring-up has a step to perform. -/
def bootDue (s : State) : Bool := s.boot.failed.isNone && s.boot.reached < 7

/-- R417: the steps of bring-up follow one by one. -/
def execPackageReset (s : State) : Outc := .next (restarted s)

/-! ## Power (R424) -/

/-- R424: a junction at 110 °C resets the package, and every context is lost. -/
def execThermalReset (s : State) : Outc := .next (restarted s)

/-- A temperature of 110 °C, in the unit of R424. -/
def tooHot (t : BitVec 16) : Bool := 1100 ≤ t.toNat

/-- R424: a window of 1 ms ends. What exceeds the limit is withheld; the power is at or below the limit. A junction that has reached
110 °C resets the package. -/
def execPowerWindow (s : State) : Outc :=
  let demand := ((List.range 17).map (Config.windowEnergy s.draws)).sum
  let limit := 1000 * s.cfg.powerLimit
  let temps := Vector.ofFn fun (i : Fin 17) => Config.temperature s.draws i.val
  if temps.any tooHot then .next (restarted s)
  else .next { s with power := {
    window := min demand limit
    withheld := if limit < demand then s.power.withheld + BitVec.ofNat 64 (Config.windowEnergy s.draws 17) else s.power.withheld
    temps := temps } }

end Sys2Proof.Machine
end

