-- ==== Sys2Proof/Machine/Fabric.lean ====
section
/-! DEFINITION. The fabrics (R9, R394 to R403, R405, R407, R422): ring, mesh, die-to-die and Svailaet links. A packet of a
message goes from one to the next as Route says; one event is one fabric clock of one link. -/

namespace Sys2Proof.Machine

/-- A message's packet is at a site, which it reaches now. -/
def setSite (i : Nat) (x : Site) (s : State) : State := onMsg i (fun m => { m with site := x, order := s.draws }) s

/-- The message of a flit. -/
def msgOf (s : State) (i : Nat) : Option Msg := s.net.find? fun m => m.id == i

/-- The party that a flit's message goes to. -/
def goalOf (s : State) (i : Nat) : Party :=
  match msgOf s i with
  | some m => partyOf s m.dst
  | none => .culm

/-- The last flit of a packet has left a fabric: the packet goes on. -/
def moveOn (f : Flit) (next : Party → Site) (s : State) : State :=
  if f.last then setSite f.pkt (next (goalOf s f.pkt)) s else s

/-! ## The ring (R396 to R398, R405, R407) -/

/-- The ring of a cluster. -/
def getRing (s : State) (cl : Nat) : Vector RingStop 8 :=
  s.fabric.rings.toList.getD cl (Vector.replicate 8 RingStop.empty)

/-- The input of a stop for a direction. -/
def getIn (s : State) (cl stop : Nat) (d : Dir) : RingIn :=
  let x := (getRing s cl).toList.getD stop RingStop.empty
  match d with
  | .cw => x.cw
  | .acw => x.acw

/-- Change the input of a stop for a direction. -/
def onIn (cl stop : Nat) (d : Dir) (f : RingIn → RingIn) (s : State) : State :=
  let x := (getRing s cl).toList.getD stop RingStop.empty
  let y : RingStop := match d with
    | .cw => { x with cw := f x.cw }
    | .acw => { x with acw := f x.acw }
  { s with fabric := { s.fabric with
      rings := s.fabric.rings.setIfInBounds cl ((getRing s cl).setIfInBounds stop y) } }

/-- The next stop in a direction. -/
def nextStop (stop : Nat) : Dir → Nat
  | .cw => (stop + 1) % 8
  | .acw => (stop + 7) % 8

/-- Hops from a stop to another in a direction. -/
def hopsTo (a b : Nat) : Dir → Nat
  | .cw => (b + 8 - a) % 8
  | .acw => (a + 8 - b) % 8

/-- The direction of a route: the shorter, on a tie clockwise (R9). -/
def ringDir (a b : Nat) : Dir := if hopsTo a b .cw ≤ 4 then .cw else .acw

/-- The link that leaves a stop in a direction is the dateline. -/
def crosses (stop : Nat) : Dir → Bool
  | .cw => stop == 7
  | .acw => stop == 0

/-- A route from a stop to another crosses the dateline. -/
def routeCrosses (a b : Nat) (d : Dir) : Bool := (List.range (hopsTo a b d)).any fun i =>
  crosses (match d with | .cw => (a + i) % 8 | .acw => (a + 8 - i) % 8) d

/-- Free counts of an input buffer as it stands: a flit holds its slot from its send until it leaves the stop or is ejected (R397). -/
def freeNow (x : RingIn) : FreeCounts :=
  let n := fun (c : Nat) => (x.buf.filter fun f => !f.shared && f.chan == c).length
  ⟨16 - (x.buf.filter (·.shared)).length, 2 - n 0, 2 - n 1, 2 - n 2⟩

/-- Reserved slots of a channel that counts show free. -/
def reservedOf (c : FreeCounts) : Nat → Nat
  | 0 => c.vc0
  | 1 => c.vc1
  | _ => c.esc

/-- Counts with one slot fewer. -/
def takeSlot (chan : Nat) (shared : Bool) (c : FreeCounts) : FreeCounts :=
  if shared then { c with shared := c.shared - 1 }
  else match chan with
    | 0 => { c with vc0 := c.vc0 - 1 }
    | 1 => { c with vc1 := c.vc1 - 1 }
    | _ => { c with esc := c.esc - 1 }

/-- The channel and kind of slot that the counts show free for a head flit at a stop, or none: case 4 of R397. -/
def headSlot (seen : FreeCounts) (stop : Nat) (d : Dir) (f : Flit) : Option (Nat × Bool) :=
  let c := if crosses stop d then 1 else f.chan
  if f.chan = 2 then (if 0 < seen.esc then some (2, false) else none)
  else if 0 < seen.shared then some (c, true)
  else if 0 < seen.esc && !routeCrosses stop f.dst d then some (2, false)
  else if 0 < reservedOf seen c then some (c, false)
  else none

/-- The channel and kind of slot that a flit takes on the output link of a stop, or none where it waits (R397). A packet
uses a channel of a link alone (R398). -/
def slotFor (x : RingIn) (seen : FreeCounts) (stop : Nat) (d : Dir) (f : Flit) : Option (Nat × Bool) :=
  match x.chans.find? (fun p => p.1 == f.pkt) with
  | some (_, c) =>
    if c = 2 then (if 0 < seen.esc then some (2, false) else none)
    else if 0 < seen.shared then some (c, true)
    else if 0 < reservedOf seen c then some (c, false) else none
  | none =>
    if f.idx ≠ 0 then none
    else (headSlot seen stop d f).filter fun p => !x.chans.any fun q => q.2 == p.1

/-- Flits that have reached a stop and go on from it: a hop takes two fabric clocks (R396). -/
def passing (stop : Nat) (x : RingIn) : List Flit := x.buf.filter fun f => 2 ≤ f.age && f.dst != stop

/-- The first flit of each packet of a list. -/
def frontFlits (l : List Flit) : List Flit := l.filter fun f => (l.find? fun g => g.pkt == f.pkt) == some f

/-- A flit travels on ESC over the link: its packet has started so, or it has come so. -/
def onEsc (x : RingIn) (f : Flit) : Bool :=
  match x.chans.find? (fun p => p.1 == f.pkt) with
  | some p => p.2 == 2
  | none => f.chan == 2

/-- The source of injection of a message at a stop: 0 and 1 its cores, 2 the local port (R9, R398). -/
def injSource (s : State) (cl stop : Nat) (m : Msg) : Option Nat :=
  match siteOf s m with
  | .start => match partyOf s m.src with
    | .core p =>
      if clusterIdx p = cl ∧ stopNo p = stop ∧ m.src ≠ m.dst then some (if coreNumOf p < 16 then coreNumOf p % 2 else 2) else none
    | .stack _ => none
    | .die _ => none
    | .culm => none
  | .toRing c => if c = cl ∧ stop = 4 then some 2 else none
  | _ => none

/-- The message that a source of a stop injects next in a direction. -/
def injFrom (s : State) (cl stop : Nat) (d : Dir) (src : Nat) : Option Msg :=
  s.net.find? fun m => injSource s cl stop m == some src && ringDir stop (ringGoal cl (partyOf s m.dst)) == d

/-- The message whose injection turn it is, and its source. -/
def nextInject (s : State) (cl stop : Nat) (d : Dir) : Option (Msg × Nat) :=
  [0, 1, 2].findSome? fun i =>
    let src := ((getIn s cl stop d).rot + i) % 3
    (injFrom s cl stop d src).map fun m => (m, src)

/-- What an output link sends. -/
inductive Send
  | passing (f : Flit)
  | injecting (f : Flit)
  | fresh (m : Msg) (src : Nat) (f : Flit)
  deriving DecidableEq, Repr

/-- The flit of a choice. -/
def Send.flit : Send → Flit
  | .passing f => f
  | .injecting f => f
  | .fresh _ _ f => f

/-- A packet's head among the flits passing through a stop that can go: the one that arrived first. -/
def passHead (x : RingIn) (fs : List Flit) (can : Flit → Bool) : Option Send :=
  match (frontFlits fs).find? (fun f => f.idx == 0 && !onEsc x f) with
  | some f => if can f then some (.passing f) else none
  | none => none

/-- The choice of an output link (R398, R407): ESC flits, then the packet whose turn it is, then a new packet. No packet of an ordinary
channel starts while another that has started here has flits to send. -/
def ringChoice (s : State) (cl stop : Nat) (d : Dir) : Option Send :=
  let x := getIn s cl stop d
  let seen := (getIn s cl (nextStop stop d) d).seen
  let can := fun (f : Flit) => (slotFor x seen stop d f).isSome
  let fs := passing stop x
  let fronts := (frontFlits fs).map Send.passing ++ (frontFlits x.inj).map Send.injecting
  let injHead := match nextInject s cl stop d with
    | none => none
    | some (m, src) => match flitsOf m (ringGoal cl (partyOf s m.dst)) with
      | [] => none
      | f :: _ => if can f then some (Send.fresh m src f) else none
  (fronts.find? fun c => onEsc x c.flit && can c.flit).or
    (match x.chans with
      | [] => if x.lastInjected then (passHead x fs can).or injHead else injHead.or (passHead x fs can)
      | _ => fronts.find? fun c => x.chans.any (fun p => p.1 == c.flit.pkt) && can c.flit)

/-- A count of an input rises by 1. -/
def addCount (i : Nat) (x : RingIn) : RingIn := { x with counts := x.counts.setIfInBounds i (x.counts.toList.getD i 0 + 1) }

/-- The stop after a flit has left it on a channel. -/
def leaveStop (c : Send) (f : Flit) (chan : Nat) (x : RingIn) : RingIn :=
  let x1 := match c with
    | .passing _ => { x with buf := x.buf.erase f }
    | .injecting _ => { x with inj := x.inj.erase f }
    | .fresh m src _ => { x with inj := x.inj ++ (flitsOf m f.dst).drop 1, rot := (src + 1) % 3 }
  let started := match c with
    | .passing _ => false
    | .injecting _ => false
    | .fresh .. => true
  let x2 := if f.idx = 0 ∧ !onEsc x f then { x1 with lastInjected := started } else x1
  let x3 := { x2 with chans :=
    if f.last then x2.chans.filter (fun p => p.1 != f.pkt) else if f.idx = 0 then x2.chans ++ [(f.pkt, chan)] else x2.chans }
  if f.idx = 0 ∧ chan = 2 ∧ f.chan ≠ 2 then addCount 4 x3 else x3

/-- The next stop's input after a flit has been sent to it: its slot is held until it leaves the stop or is ejected. -/
def enterStop (dateline : Bool) (f : Flit) (x : RingIn) : RingIn :=
  let x1 := addCount (min f.chan 2) { x with seen := takeSlot f.chan f.shared x.seen, buf := x.buf ++ [{ f with age := 0 }] }
  if dateline && f.idx == 0 then addCount 3 x1 else x1

/-- A fabric clock in which a head that passes through a stop waits counts a STALL: no slot is free for it (R397 case 4, R405). -/
def stallStop (seen : FreeCounts) (stop : Nat) (d : Dir) (x : RingIn) : RingIn :=
  if (passing stop x).any fun f => f.idx == 0 && (headSlot seen stop d f).isNone then addCount 5 x else x

/-- A fabric clock of a stop's input ends: its counts go to its upstream neighbour, and what is under way comes nearer. -/
def clockStop (x : RingIn) : RingIn := { x with seen := freeNow x, buf := x.buf.map fun f => { f with age := f.age + 1 } }

/-- Flits that have reached the stop for which they are. -/
def landed (stop : Nat) (x : RingIn) : List Flit := x.buf.filter fun f => 2 ≤ f.age && f.dst == stop

/-- Change the counters of a physical core. -/
def onPhys (p : CoreId) (f : Core → Core) (s : State) : State := onCore (counterCore s p).id f s

/-- One more of the errors of an event word of a physical core (R423). -/
def countError (n : Nat) (p : CoreId) (s : State) : State :=
  onPhys p (fun c => { c with events := c.events.setIfInBounds n (c.events.toList.getD n 0 + 1) }) s

/-- One more ring parity error at a core's stop (R423). -/
def countParity (p : CoreId) (s : State) : State := countError 4 p s

/-- Change the first element of a list that has a property. -/
def mapFirst {α : Type} (p : α → Bool) (f : α → α) : List α → List α
  | [] => []
  | x :: xs => if p x then f x :: xs else x :: mapFirst p f xs

/-- A parity error in the reorder buffer lies in the oldest block that the buffer holds (R347). -/
def strikeReorder (c : EngCmd) : EngCmd :=
  { c with inflight := mapFirst (·.here) (fun x => { x with bad := true }) c.inflight }

/-- An uncorrectable error poisons a row of an operand slot. -/
def strikeRow (row : Nat) (x : OSlot) : OSlot := { x with tags := x.tags.setIfInBounds row (x.tags.toList.getD row 0x7FC0 ||| 0xFF00) }

/-- An error in SRAM of a physical core is counted, and does its harm where it cannot be corrected (R422, R423). -/
def sramError (p : CoreId) (uncorrectable : Bool) (harm : Core → State → State) (s : State) : State :=
  let c := counterCore s p
  if 1024 ≤ p.toNat ∨ !isComputeCore p ∨ c.phys ≠ p ∨ c.out then s
  else if uncorrectable then harm c (countError 2 p s)
  else countError 1 p s

/-- R422, R423: an error in SRAM is counted, and poisons its block where it cannot be corrected; on a register-file parity
error the agent stops as on a double trap (R240), with no cause of its own in the trap registers; one in a reorder buffer poisons its block. -/
def softError (e : SoftError) (s : State) : State :=
  match e with
  | .sram p off uncorrectable =>
    sramError p uncorrectable (fun c => poisonBlock (sliceBase c.id + off.toNat / 64 * 64)) s
  | .operand p slot row uncorrectable =>
    sramError p uncorrectable (fun c => onCore c.id fun x =>
      { x with oslots := x.oslots.setIfInBounds slot (strikeRow row (x.oslots.toList.getD slot OSlot.initial)) }) s
  | .accumulator p slot uncorrectable =>
    sramError p uncorrectable (fun c => onCore c.id fun x =>
      setA slot { x.aslots.toList.getD slot ASlot.zero with bad := true } x) s
  | .reorder core hdr =>
    match findChain (getCore s core) hdr with
    | some ch => onChain core hdr (fun x => if ch.kind = 2 then { x with cmd := x.cmd.map strikeReorder } else x) s
    | none => s
  | .registerFile aid =>
    match findAgent s aid with
    | none => s
    | some a =>
      if a.run = .running then
        reportFault a.ctx a.inst (onAgent aid (fun x => { x with run := .dead }) (countError 3 (getCore s a.place).phys s))
      else s

/-- Flits of a packet are gone from a ring input. -/
def dropPkt (i : Nat) (x : RingIn) : RingIn :=
  { x with
    buf := x.buf.filter fun f => f.pkt != i
    inj := x.inj.filter fun f => f.pkt != i
    chans := x.chans.filter fun p => p.1 != i }

/-- A fabric without the flits of a packet. -/
def dropFabric (i : Nat) (f : Fabric) : Fabric :=
  { f with
    rings := f.rings.map fun r => r.map fun x => ⟨dropPkt i x.cw, dropPkt i x.acw⟩
    meshes := f.meshes.map fun m => m.map fun r => ⟨r.req.filter fun p => p.2.pkt != i, r.rep.filter fun p => p.2.pkt != i⟩ }

/-- A packet that carries a block of data behind its header (R394). -/
def isBlockPacket (b : Body) : Bool :=
  bodyFlits b == 3 && match b with
    | .stream _ => false
    | _ => true

/-- R399, R422: a parity error in the data of a block packet poisons the block; one in a header or a push discards the packet, marks
its instance FAULTED and gang-stops its context. -/
def parityFault (f : Flit) (s : State) : State :=
  match msgOf s f.pkt with
  | none => s
  | some m =>
    if 0 < f.idx ∧ isBlockPacket m.body then onMsg m.id (fun x => { x with bad := true }) s
    else
      let c := getCore s (if isComputeCore m.src then m.src else m.dst)
      gangStop m.ctx (reportFault m.ctx c.inst
        { s with net := s.net.filter (fun x => x.id != m.id), fabric := dropFabric m.id s.fabric })

/-- The site of a packet that has been ejected at a stop of a cluster. -/
def ejected (cl stop : Nat) (d : Party) : Site :=
  match fromStop (coreId (cl / 6) (cl % 6) (2 * stop)) stop d with
  | .start => .there
  | x => x

/-- One flit goes over a link of a ring. -/
def ringMove (cl stop : Nat) (d : Dir) (c : Send) (s : State) : State :=
  let x := getIn s cl stop d
  let t := nextStop stop d
  match slotFor x (getIn s cl t d).seen stop d c.flit with
  | none => s
  | some (chan, shared) =>
    let f := c.flit
    let g := { f with chan := chan, shared := shared }
    let s1 := onIn cl t d (enterStop (crosses stop d) g) (onIn cl stop d (leaveStop c f chan) s)
    match c with
    | .passing _ => s1
    | .injecting _ => s1
    | .fresh m _ _ => setSite m.id .ring s1

/-- Flits are ejected at a stop; a packet whose last flit is among them goes on. -/
def ejectFlits (cl stop : Nat) (d : Dir) : List Flit → State → State
  | [], s => s
  | f :: fs, s =>
    ejectFlits cl stop d fs (moveOn f (ejected cl stop) (onIn cl stop d (fun x => { x with buf := x.buf.erase f }) s))

/-- R396 to R398, R405: a fabric clock of the output link of a stop. A parity error is found at the next stop (R422). -/
def execRingHop (cluster : BitVec 5) (stop : BitVec 3) (dir : Dir) (parityOk : Bool) (s : State) : Outc :=
  let cl := cluster.toNat
  if 24 ≤ cl then .next s
  else
    let s0 := onIn cl stop.toNat dir (stallStop (getIn s cl (nextStop stop.toNat dir) dir).seen stop.toNat dir) s
    match ringChoice s0 cl stop.toNat dir with
    | none => .next s0
    | some c =>
      let s1 := ringMove cl stop.toNat dir c s0
      let p := coreId (cl / 6) (cl % 6) (2 * nextStop stop.toNat dir)
      .next (if parityOk then s1 else parityFault c.flit (countParity p (countParity (p + 1) s1)))

/-- R396, R397: a fabric clock of a stop's input: flits that have reached their stop are ejected, and then its counts go to its upstream
neighbour, which has them in the next clock. -/
def execRingFreeCounts (cluster : BitVec 5) (stop : BitVec 3) (dir : Dir) (s : State) : Outc :=
  let cl := cluster.toNat
  let n := stop.toNat
  .next (onIn cl n dir clockStop (ejectFlits cl n dir (landed n (getIn s cl n dir)) s))

/-! ## The mesh (R8, R399) -/

/-- The next router on the way to another: the column first, then the row. -/
def meshNext (r g : Nat) : Nat :=
  if r % 3 < g % 3 then r + 1 else if g % 3 < r % 3 then r - 1 else if r < g then r + 3 else r - 3

/-- The router of a die. -/
def getRouter (s : State) (die r : Nat) : Router :=
  (s.fabric.meshes.toList.getD die (Vector.replicate 6 ⟨[], []⟩)).toList.getD r ⟨[], []⟩

/-- Change a router of a die. -/
def onRouter (die r : Nat) (f : Router → Router) (s : State) : State :=
  let m := s.fabric.meshes.toList.getD die (Vector.replicate 6 ⟨[], []⟩)
  { s with fabric := { s.fabric with
      meshes := s.fabric.meshes.setIfInBounds die (m.setIfInBounds r (f (getRouter s die r))) } }

/-- Flits of a channel of a router. -/
def routerQ (reply : Bool) (x : Router) : List (Nat × Flit) := if reply then x.rep else x.req
/-- Set the flits of a channel. -/
def setRouterQ (reply : Bool) (l : List (Nat × Flit)) (x : Router) : Router := if reply then { x with rep := l } else { x with req := l }

/-- The packet of a channel that enters the mesh at a router. -/
def meshEntry (s : State) (die r : Nat) (reply : Bool) : Option Msg :=
  s.net.find? fun m => siteOf s m == .toMesh die r && isReply m.body == reply

/-- A packet that waits at a router enters its channel. -/
def enterMesh (die r : Nat) (reply : Bool) (s : State) : State :=
  match meshEntry s die r reply with
  | none => s
  | some m =>
    let fs := (flitsOf m 0).map fun f => (routerGoal die (partyOf s m.dst), f)
    setSite m.id .mesh (onRouter die r (fun x => setRouterQ reply (routerQ reply x ++ fs) x) s)

/-- The first flit of a channel moves one hop, and leaves the mesh at the router it goes to. -/
def meshMove (die r : Nat) (reply : Bool) (s : State) : State × Option Flit :=
  match routerQ reply (getRouter s die r) with
  | [] => (s, none)
  | (g, f) :: rest =>
    let s1 := onRouter die r (setRouterQ reply rest) s
    if g = r then (moveOn f (fromRouter die r) s1, some f)
    else
      let n := meshNext r g
      if n = g then (moveOn f (fromRouter die n) s1, some f)
      else (onRouter die n (fun x => setRouterQ reply (routerQ reply x ++ [(g, f)]) x) s1, some f)

/-- R399: a fabric clock of a channel of a router. -/
def execMeshHop (die : BitVec 2) (router : BitVec 3) (reply parityOk : Bool) (s : State) : Outc :=
  if 6 ≤ router.toNat then .next s
  else
    let r := meshMove die.toNat router.toNat reply (enterMesh die.toNat router.toNat reply s)
    match r.2 with
    | none => .next r.1
    | some f => .next (if parityOk then r.1 else parityFault f r.1)

/-! ## Die-to-die links (R400) -/

/-- A direction of a die's link. -/
def getLink (s : State) (die : Nat) (up : Bool) : D2dLink :=
  (if up then s.fabric.d2dUp else s.fabric.d2dDown).toList.getD die ⟨[], [], false⟩

/-- Set a direction of a die's link. -/
def setLink (die : Nat) (up : Bool) (x : D2dLink) (s : State) : State :=
  { s with fabric :=
      if up then { s.fabric with d2dUp := s.fabric.d2dUp.setIfInBounds die x }
      else { s.fabric with d2dDown := s.fabric.d2dDown.setIfInBounds die x } }

/-- The packet that enters a link next: the crossbar's reply channel goes before its request channel (R400; DESIGN CHOICE, log 25). -/
def linkEntry (s : State) (die : Nat) (up : Bool) : Option Msg :=
  let l := s.net.filter fun m => siteOf s m == .toLink die up
  (l.find? fun m => isReply m.body).or l.head?

/-- One bit more in a remainder by the polynomial 0x1021 (R400). -/
def crc16Bit (c : BitVec 16) (b : Bool) : BitVec 16 := if c.getLsbD 15 != b then c <<< 1 ^^^ 0x1021 else c <<< 1

/-- The CRC-16 of a flit (R400), taken over what the model has of it. -/
def crc16 (f : Flit) : BitVec 16 :=
  let bytes := natToBytes 8 f.pkt ++ natToBytes 2 f.idx ++ natToBytes 2 f.dst ++
    natToBytes 1 (f.chan * 4 + (if f.last then 2 else 0) + (if f.shared then 1 else 0))
  bytes.foldl (fun c x => (List.range 8).foldl (fun r i => crc16Bit r (x.getLsbD (7 - i))) c) Config.crc16Start

/-- A flit as the wire carries it. -/
def onWire (f : Flit) : Flit × BitVec 16 := (f, crc16 f)

/-- A sender puts the next packet on the wire where its replay buffer of 64 flits has room. -/
def enterLink (die : Nat) (up : Bool) (s : State) : State :=
  let x := getLink s die up
  match linkEntry s die up with
  | none => s
  | some m =>
    let fs := flitsOf m 0
    if x.discarding ∨ 64 < x.replay.length + fs.length then s
    else setSite m.id .link (setLink die up { x with replay := x.replay ++ fs, wire := x.wire ++ fs.map onWire } s)

/-- The next site of a packet that has crossed a die-to-die link. -/
def fromLink (die : Nat) (up : Bool) (d : Party) : Site := if up then .xbar else fromRouter die 1 d

/-- The CRC-16 of a flit as it arrives: an error on the wire has changed it. -/
def wireCrc (crcOk : Bool) (c : BitVec 16) : BitVec 16 := if crcOk then c else ~~~c

/-- R400: a flit arrives. One whose CRC does not hold, and all after it, are discarded until the sender sends them again. -/
def execD2dFlitReceive (die : BitVec 2) (up crcOk : Bool) (s : State) : Outc :=
  let s1 := enterLink die.toNat up s
  let x := getLink s1 die.toNat up
  match x.wire with
  | [] =>
    .next (setLink die.toNat up { x with wire := if x.discarding then x.replay.map onWire else [], discarding := false } s1)
  | (f, c) :: rest =>
    if x.discarding then .next (setLink die.toNat up { x with wire := rest } s1)
    else if crc16 f = wireCrc crcOk c then
      .next (moveOn f (fromLink die.toNat up) (setLink die.toNat up { x with wire := rest, replay := x.replay.drop 1 } s1))
    else .next (setLink die.toNat up { x with wire := rest, discarding := true } s1)

/-! ## The crossbar of the culm die (R400) -/

/-- The packet of a channel of the crossbar that goes on next: the one that came first. -/
def crossbarFirst (s : State) (reply : Bool) : Option Msg :=
  (sortBy (fun a b => a.order ≤ b.order) (s.net.filter fun m => siteOf s m == .xbar && isReply m.body == reply)).head?

/-- The first packet of a channel passes through the crossbar. -/
def crossbarMove (reply : Bool) (s : State) : State :=
  match crossbarFirst s reply with
  | none => s
  | some m => setSite m.id (fromCulm (partyOf s m.dst)) s

/-! ## Svailaet ports (R401 to R403) -/

/-- One bit more in a remainder by the polynomial 0x04C1_1DB7 (R401). -/
def crcBit (c : BitVec 32) (b : Bool) : BitVec 32 := if c.getLsbD 31 != b then c <<< 1 ^^^ 0x04C11DB7 else c <<< 1
/-- One byte more. -/
def crcByte (c : BitVec 32) (x : Byte) : BitVec 32 :=
  (List.range 8).foldl (fun r i => crcBit r (x.getLsbD (if Config.crcLowFirst then i else 7 - i))) c
/-- The CRC-32 of bytes (R401). -/
def crc32 (bs : List Byte) : BitVec 32 :=
  let r := bs.foldl crcByte Config.crcStart
  (if Config.crcReversed then r.reverse else r) ^^^ Config.crcEnd

/-- The 256 bytes of a group of 8 flits (R401). -/
def groupBytes (flits : List (BitVec 256)) : List Byte := (flits.map fun f => natToBytes 32 f.toNat).flatten

/-- Eight flits: a group that has fewer is filled up with zero flits, which begin no packet (DESIGN CHOICE, log 17). -/
def fillGroup (fs : List (Nat × BitVec 256)) : List (Nat × BitVec 256) := (fs ++ List.replicate 8 (64, 0)).take 8

/-- The trailer of a group of 8 flits, or of an IDLE group, whose flit bytes are zero (R401). -/
def trailer (gseq ackseq : BitVec 12) (nak idle : Bool) (flits : List (BitVec 256)) : Word :=
  let low := gseq.toNat * 2 ^ 20 + ackseq.toNat * 2 ^ 8 + (if nak then 128 else 0) + (if idle then 64 else 0)
  BitVec.ofNat 64 ((crc32 (groupBytes flits ++ natToBytes 4 low)).toNat * 2 ^ 32 + low)

/-- A port sends a group, with NAK while it discards: one of the replay buffer again, else the next of its flits, else an IDLE
group, which takes no place in the buffer (DEDUCED, log 17). -/
def sendGroup (x : Port) : Port :=
  let put := fun (q : BitVec 12) (idle : Bool) (fs : List (Nat × BitVec 256)) =>
    let l := (fillGroup fs).map (·.2)
    some (trailer q x.ackseq x.discarding idle l, l)
  if 0 < x.resend then
    match x.replay[x.replay.length - x.resend]? with
    | some g => { x with resend := x.resend - 1, line := put g.1 false g.2 }
    | none => { x with resend := 0 }
  else if x.tosend.isEmpty ∨ 128 ≤ x.replay.length then { x with line := put x.gseq true [] }
  else
    let fs := fillGroup (x.tosend.take 8)
    { x with
      tosend := x.tosend.drop 8
      replay := x.replay ++ [(x.gseq, fs)]
      gseq := x.gseq + 1
      line := put x.gseq false fs }

/-- R401: a port that is up and not retraining sends its next group. -/
def execSvailaetGroupSend (port : BitVec 3) (s : State) : Outc :=
  let x := getPort s port
  if !x.up ∨ x.retraining then .next s else .next (setPort port (sendGroup x) s)

/-- Groups up to the acknowledged one leave the replay buffer. -/
def acked (a : BitVec 12) (l : List (BitVec 12 × List (Nat × BitVec 256))) : List (BitVec 12 × List (Nat × BitVec 256)) :=
  if l.any fun g => g.1 == a then (l.dropWhile fun g => g.1 != a).drop 1 else l

/-- The sender's side of a group whose CRC holds. -/
def takeAck (a : BitVec 12) (nak : Bool) (x : Port) : Port :=
  let r := acked a x.replay
  { x with replay := r, resend := if nak then r.length else min x.resend r.length }

/-- A failed reception: NAK, and the eighth of one group makes the port retrain (R402). -/
def failGroup (x : Port) : Port :=
  let n := x.failures + 1
  { x with
    discarding := true
    retraining := n == 8
    failures := if n = 8 then 0 else n }

/-- The receiver's side: the group expected is taken, or an error discards it and those after it. While the receiver
discards, only the expected group counts as failed again. -/
def takeGroup (gseq : BitVec 12) (crcOk : Bool) (flits : List (BitVec 256)) (x : Port) : Port :=
  let due := gseq == x.ackseq + 1
  if crcOk && due then
    if flits.isEmpty then x
    else { x with ackseq := gseq, received := x.received ++ flits, discarding := false, failures := 0 }
  else if x.discarding && !due then x
  else failGroup x

/-- R402: a group arrives at a port; the packets that are then whole go on into the package (R400, R403). -/
def execSvailaetGroupReceive (port : BitVec 3) (gseq ackseq : BitVec 12) (crcOk nak : Bool) (flits : List (BitVec 256))
    (s : State) : Outc :=
  let x := getPort s port
  if !x.up ∨ x.retraining then .next s
  else
    .next (takeReceived port (setPort port (takeGroup gseq crcOk flits (if crcOk then takeAck ackseq nak x else x)) s))

/-- Every context is gang-stopped. -/
def stopEvery (s : State) : State := (s.ctxs.map (·.num)).foldl (fun x n => gangStop n x) s

/-- A port that goes up sends what it holds again. -/
def portUp (x : Port) : Port :=
  { x with
    up := true, retraining := false, failedTrains := 0, resend := x.replay.length, discarding := false, failures := 0,
    reported := false }

/-- A port goes down: the contexts are gang-stopped, and system software is told (R402). -/
def portDown (port : BitVec 3) (x : Port) (s : State) : State :=
  stopEvery (setPort port { x with up := false, retraining := false, failedTrains := 3, reported := true } s)

/-- R402, R403: retraining ends. After three failures in a row the port is down, and so it is where the peer offers no
common major version or names another partition. -/
def execSvailaetRetrainDone (port : BitVec 3) (ok : Bool) (peerMajor peerMinor : BitVec 8) (peer : PeerId) (s : State) : Outc :=
  let x := getPort s port
  let h : Hello := ⟨peerMajor, peerMinor, peer.partition, peer.position⟩
  let y := if ok then { x with sentHello := some (ownHello s), peerHello := some h } else x
  let n := x.failedTrains + 1
  if !x.retraining then .next s
  else if ok && helloOk s h then .next (setPort port (portUp y) s)
  else if ok ∨ 3 ≤ n then .next (portDown port y s)
  else .next (setPort port { x with failedTrains := n } s)

/-- The last peer of a port is none with which the link may run (R403). -/
def peerBad (s : State) (x : Port) : Bool :=
  match x.peerHello with
  | some h => !helloOk s h
  | none => false

/-- R402: a port that went down returns, and its held groups are sent; one whose peer does not fit stays down (R403). -/
def execSvailaetPortReturns (port : BitVec 3) (s : State) : Outc :=
  let x := getPort s port
  if x.up ∨ x.failedTrains ≠ 3 ∨ peerBad s x then .next s else .next (setPort port (portUp x) s)

end Sys2Proof.Machine
end

