-- ==== Sys2Proof/Machine/Long.lean ====
section
/-! DEFINITION. Class 0b11: long forms of the scalar, control and lane instructions (R223 to R225, R228, R233). -/

namespace Sys2Proof.Machine

/-- The immediate of ANDL, ORL and XORL: zext32 with Z, else sext32 (R225). -/
def longImm (z : Bool) (imm : BitVec 32) : Word := if z then imm.setWidth 64 else imm.signExtend 64

/-- A long form of one source and a constant (R225). -/
def logicLong (f : Word → Word) (d a : Reg) (s : State) : Outc :=
  checked [.s d, .s a] s <| .next (writeS d (f (getS s a), 0) 8 s)

/-- The value of MOVI (R225). -/
def moviOf (f : MoviForm) (imm : BitVec 32) (old : Word) : Word :=
  match f with
  | .sext => imm.signExtend 64
  | .zext => imm.setWidth 64
  | .hi => (imm.setWidth 64 <<< 32) ||| (old &&& 0xFFFFFFFF)

/-- A lane of VBCASTI as a bit pattern, and NV for a NaN widened to f64 (R233). -/
def bcastLane (t : VTy) (imm : BitVec 32) : Nat × Sticky :=
  match t with
  | .i64 => ((imm.signExtend 64).toNat, 0)
  | .f64 =>
    let v := fvDecode fmtF32 imm.toNat
    ((roundTo fmtF64 .rne v).1, stickyIf (fvIsNan v) stNV)
  | .b8 => (imm.toNat % 2 ^ 8, 0)
  | .i16 => (imm.toNat % 2 ^ 16, 0)
  | .bf16 => (imm.toNat % 2 ^ 16, 0)
  | .f16 => (imm.toNat % 2 ^ 16, 0)
  | .i32 => (imm.toNat, 0)
  | .f32 => (imm.toNat, 0)

/-- R225 -/
def execMovi (d : Reg) (f : MoviForm) (imm : BitVec 32) (s : State) : Outc :=
  checked [.s d] s <| .next (writeS d (moviOf f imm (getS s d), 0) 8 s)
/-- R225, R113 -/
def execAddl (d a : Reg) (m : IMode) (imm : BitVec 32) (s : State) : Outc :=
  checked [.s d, .s a] s <|
    .next (writeS d (arithOf .add false (satBy s m) (getS s a) (imm.signExtend 64)) 8 s)
/-- R225 -/
def execAndl (d a : Reg) (z : Bool) (imm : BitVec 32) (s : State) : Outc := logicLong (fun x => x &&& longImm z imm) d a s
/-- R225 -/
def execOrl (d a : Reg) (z : Bool) (imm : BitVec 32) (s : State) : Outc := logicLong (fun x => x ||| longImm z imm) d a s
/-- R225 -/
def execXorl (d a : Reg) (z : Bool) (imm : BitVec 32) (s : State) : Outc := logicLong (fun x => x ^^^ longImm z imm) d a s
/-- R225, R117 -/
def execCmpl (d a : Reg) (u : Bool) (c : ICond) (imm : BitVec 32) (s : State) : Outc :=
  checked [.p d.toNat, .s a] s <|
    .next (writeP d (icond c (val64 u (getS s a)) (val64 u (imm.signExtend 64)), 0) 8 s)
/-- R228 -/
def execBrl (k : PReg) (off : BitVec 32) (s : State) : Outc :=
  checked [.p k.toNat] s <|
    .next (if predTrue s k.toNat then jumpTo (target s (off.signExtend 64)) s else advance 8 s)
/-- R228 -/
def execCalll (off : BitVec 32) (s : State) : Outc :=
  checked [.s 31] s <| .next (jumpTo (target s (off.signExtend 64)) (setS 31 (s.ag.pc + 8) s))
/-- R228 -/
def execJmpl (d : Reg) (r : Option Reg) (off : BitVec 32) (s : State) : Outc :=
  let go := fun (base : Word) =>
    let t := base + 4 * off.signExtend 64
    if t.toNat % 4 = 0 then .next (jumpTo t (setS d (s.ag.pc + 8) s)) else trap cMisaligned t s
  match r with
  | some a => checked [.s d, .s a] s <| go (getS s a)
  | none => checked [.s d] s <| go s.ag.pc
/-- R233 -/
def execVbcasti (d : Reg) (t : VTy) (imm : BitVec 32) (s : State) : Outc :=
  checked [.v d] s <|
    let x := bcastLane t imm
    .next (writeV d (mkBlock (laneBits t) t.lanes fun _ => x.1, x.2) 8 s)

end Sys2Proof.Machine
end

