-- ==== Sys2Proof/Machine/Sequencer.lean ====
section
/-! DEFINITION. The rewrite sequencer of a core (R24, R29, R314, R427): the built-in rules. -/

namespace Sys2Proof.Machine

/-- The name under which a sequencer publishes; no agent has it. -/
def seqName (core : CoreId) : Nat := 2 ^ 64 + core.toNat

/-- The sequencer publishes bytes at the kernel's group scope (R29 step 4). -/
def seqPublish (core : CoreId) (keys : List Nat) (s : State) : State :=
  let sc := levelScope (getCore s core).kd
  let take := fun (a : Agent) =>
    addIncoming keys (.agent (seqName core) core (if scopeHolds sc (agentLevel core a) then .package else sc)) a
  noteNews keys (some (sc, core)) { s with ag := take s.ag, agents := s.agents.map take }

/-- Words of the net written and published by the sequencer. -/
def seqPut (core : CoreId) (a x : Word) (s : State) : State :=
  match netLoc s core a with
  | some l => seqPublish core ((List.range 8).map (l + ·)) (netWord l x s)
  | none => s

/-- A fresh node of the core's arena with a header and two payload words. -/
def seqNew (core : CoreId) (h p0 p1 : Word) (s : State) : Option (Word × State) :=
  match newNode core h s with
  | none => none
  | some (a, s1) =>
    let l := sliceBase core + a.toNat % 2 ^ 20
    let s2 := netWord (l + 16) p1 (netWord (l + 8) p0 s1)
    some (a, seqPublish core ((List.range 64).map (l + ·)) s2)

/-- Several fresh nodes; none where the arena has too few free records. -/
def seqNews (core : CoreId) (p0 p1 : Word) : List Word → State → Option (List Word × State)
  | [], s => some ([], s)
  | h :: hs, s =>
    match seqNew core h p0 p1 s with
    | none => none
    | some (a, s1) => match seqNews core p0 p1 hs s1 with
      | none => none
      | some (as, s2) => some (a :: as, s2)

/-- What a rewrite has done so far: the state, the active pairs that it has created, and whether it has met a net that is
not well formed (R427). -/
structure SeqWork where
  st : State
  pairs : List (Word × Word)
  fault : Bool

/-- A connection by the sequencer, with the pair it may create. -/
def seqConnect (core : CoreId) (u v : NetEnd) (w : SeqWork) : SeqWork :=
  let s1 := connect core u v w.st
  if u.live && v.live && isPrincipal u.port && isPrincipal v.port then
    { w with st := s1, pairs := w.pairs ++ [(nodeOf u.port, nodeOf v.port)] }
  else { w with st := s1 }

/-- The end that a dying port p of the pair leads to. -/
def endFrom (s : State) (core : CoreId) (p : Word) : Option NetEnd :=
  let w := netGet s core p
  if portState w = 1 then endOf s core (portPartner w) p else none

/-- A message of the sequencer of a core to a party and the answer; both only travel. -/
def seqMsgs (core h : CoreId) (s : State) : State :=
  let n := (getCore s core).ctx.getD 0
  oneWay h core n (oneWay core h n s)

/-- The sequencer's request to the link unit of a wire's home, and its answer (R309, R253). -/
def seqTrip (core : CoreId) (p : Word) (s : State) : State :=
  let h := (homeCore s core (lockOf s core p (portPartner (netGet s core p)))).getD core
  seqMsgs core h s

/-- x ↦ p: the relink of dying port x to fresh port p, by the protocol of LINK (R24, R195). DESIGN CHOICE (log 16): an end that
the table of R427 does not have reports the fault and marks the instance FAULTED; R427 states this for splices only. -/
def relink (core : CoreId) (x p : Word) (w : SeqWork) : SeqWork :=
  match endFrom w.st core x with
  | none => { w with fault := true }
  | some en => seqConnect core ⟨true, p, false, []⟩ en { w with st := seqTrip core x w.st }

/-- Relinks in order. -/
def relinks (core : CoreId) : List (Word × Word) → SeqWork → SeqWork
  | [], w => w
  | p :: ps, w => relinks core ps (relink core p.1 p.2 w)

/-- WIRE of two fresh ports. -/
def seqWire (core : CoreId) (a b : Word) (w : SeqWork) : SeqWork :=
  { w with st := netPuts core [(a, wireTo b), (b, wireTo a)] w.st }

/-- The sequencer frees a node (R314). -/
def seqFree (core : CoreId) (n : Word) (w : SeqWork) : SeqWork :=
  { w with st := (freeNode core n w.st).getD w.st }

/-! ## Splices (R427) -/

/-- The counterpart of auxiliary port p of the pair A, B. -/
def counterpart (a b p : Word) : Word := if nodeOf p = a then b + (p - a) else a + (p - b)

/-- The partner of a dying port lies outside the pair. -/
def outward (s : State) (core : CoreId) (a b p : Word) : Bool :=
  let x := portPartner (netGet s core p)
  nodeOf x != a && nodeOf x != b

/-- The far end of the path that reaches port p of the pair (R427, step 1). -/
def pathEnd (s : State) (core : CoreId) (a b : Word) : Nat → Word → Word
  | 0, p => p
  | n + 1, p =>
    if outward s core a b p then p
    else pathEnd s core a b n (counterpart a b (portPartner (netGet s core p)))

/-- A path starts at a port of the pair that is wired to a port outside it; a FREE port starts none. -/
def startsPath (s : State) (core : CoreId) (a b p : Word) : Bool :=
  portState (netGet s core p) == 1 && outward s core a b p

/-- The paths of a splice: pairs of ports, each path once, from its first port in the order a1, a2, b1, b2. -/
def splicePaths (s : State) (core : CoreId) (a b : Word) (ports : List Word) : List (Word × Word) :=
  let l := (ports.filter (startsPath s core a b)).map fun p => (p, pathEnd s core a b 4 (counterpart a b p))
  l.filter fun q => !startsPath s core a b q.2 || ports.idxOf q.1 < ports.idxOf q.2

/-- Connect the two ends of one path (R427, steps 2 and 3). -/
def splicePath (core : CoreId) (p q : Word) (w : SeqWork) : SeqWork :=
  match endFrom w.st core p, endFrom w.st core q with
  | some u, some v => seqConnect core u v { w with st := seqTrip core q (seqTrip core p w.st) }
  | _, _ => { w with fault := true }

/-- Connect every path. -/
def splicePathsAll (core : CoreId) : List (Word × Word) → SeqWork → SeqWork
  | [], w => w
  | p :: ps, w => splicePathsAll core ps (splicePath core p.1 p.2 w)

/-- The splice of an annihilation: ports that no path ends at become FREE (R427). -/
def splice (core : CoreId) (a b : Word) (w : SeqWork) : SeqWork :=
  let ports := [portAt a 1, portAt a 2, portAt b 1, portAt b 2]
  let paths := splicePaths w.st core a b ports
  let inner := ports.filter fun p => !paths.any fun q => q.1 == p || q.2 == p
  splicePathsAll core paths { w with st := netPuts core (inner.map fun p => (p, 0)) w.st }

/-! ## Rules (R24) -/

/-- The ROOT rule: the result word is filled with X's address, and X's principal port is HELD by it. -/
def rewriteRoot (core : CoreId) (root x : Word) (w : SeqWork) : SeqWork :=
  let f := portPartner (netGet w.st core (portAt root 1))
  match netLoc w.st core f with
  | none => { w with fault := true }
  | some l =>
    let h := coreOf core l
    let s1 := seqPut core f x w.st
    let s2 := if isSliceLoc l then seqMsgs core h (fillState h l x s1) else s1
    let s3 := netPut core (portAt x 0) (heldBy f) (netPut core x (netGet s2 core x &&& ~~~deadBit) s2)
    seqFree core root { w with st := s3 }

/-- Drop a TIL's reference to its buffer as ERA × TIL does (R24, R320). -/
def dropTile (core : CoreId) (n : Word) (s : State) : State :=
  let h := netGet s core (n + 8)
  let c := getCore s (coreNear core (h.toNat / 2 ^ 22))
  let b := h.toNat % 2 ^ 20 / 1024
  let t := bufOf c b
  if t.state = .free then s
  else if t.share > 0 then setCore (setBuf b { t with share := t.share - 1 } c) s
  else if t.waiter then s
  else setCore (setBuf b ⟨.free, 0, false⟩ c) s

/-- ERA × X (R24). -/
def rewriteEra (core : CoreId) (era x : Word) (w : SeqWork) : Option SeqWork :=
  let h := netGet w.st core x
  match seqNews core 0 0 (List.replicate (hdrArity h) 0) w.st with
  | none => none
  | some (es, s1) =>
    let w1 := relinks core (es.zipIdx.map fun p => (portAt x (p.2 + 1), portAt p.1 0)) { w with st := s1 }
    let w2 := if hdrKind h = 4 then { w1 with st := dropTile core x w1.st } else w1
    some (seqFree core era (seqFree core x w2))

/-- DUP × VAL and DUP × TIL: two copies of v with its payload. -/
def rewriteCopy (core : CoreId) (dup v : Word) (w : SeqWork) : Option SeqWork :=
  let h := netGet w.st core v &&& ~~~deadBit
  match seqNews core (netGet w.st core (v + 8)) (netGet w.st core (v + 16)) [h, h] w.st with
  | some ([x, y], s1) =>
    let w1 := relinks core [(portAt dup 1, portAt x 0), (portAt dup 2, portAt y 0)] { w with st := s1 }
    some (seqFree core dup (seqFree core v w1))
  | _ => none

/-- The commutation of R24. -/
def rewriteCommute (core : CoreId) (a b : Word) (w : SeqWork) : Option SeqWork :=
  let ha := netGet w.st core a &&& ~~~deadBit
  let hb := netGet w.st core b &&& ~~~deadBit
  match seqNews core 0 0 [hb, hb, ha, ha] w.st with
  | some ([b1, b2, a1, a2], s1) =>
    let w1 := seqWire core (portAt b2 2) (portAt a2 2) (seqWire core (portAt b2 1) (portAt a1 2)
      (seqWire core (portAt b1 2) (portAt a2 1) (seqWire core (portAt b1 1) (portAt a1 1) { w with st := s1 })))
    let w2 := relinks core [(portAt a 1, portAt b1 0), (portAt a 2, portAt b2 0), (portAt b 1, portAt a1 0),
      (portAt b 2, portAt a2 0)] w1
    some (seqFree core a (seqFree core b w2))
  | _ => none

/-- The tile buffer that a TIL names, for the share count of DUP × TIL. -/
def tilBuf (s : State) (core : CoreId) (n : Word) : Core × Nat :=
  let h := netGet s core (n + 8)
  (getCore s (coreNear core (h.toNat / 2 ^ 22)), h.toNat % 2 ^ 20 / 1024)

/-- How a rewrite goes. -/
inductive SeqRes
  /-- It is made. -/
  | done (w : SeqWork)
  /-- The arena has too few free records: the rewrite waits (log 16). -/
  | waits
  /-- DUP × TIL at share count 255: the sequencer stops (R24). -/
  | stuck

/-- A rewrite or a wait. -/
def seqRes : Option SeqWork → SeqRes
  | some w => .done w
  | none => .waits

/-- DUP × TIL (R24). -/
def rewriteTil (core : CoreId) (dup t : Word) (w : SeqWork) : SeqRes :=
  let p := tilBuf w.st core t
  let x := bufOf p.1 p.2
  if x.state = .free then seqRes (rewriteCopy core dup t w)
  else if 255 ≤ x.share then .stuck
  else match rewriteCopy core dup t w with
    | none => .waits
    | some w1 =>
      .done { w1 with st := onCore p.1.id (setBuf p.2 { x with share := x.share + 1 }) w1.st }

/-- The first matching row of R24 for nodes a and b, a the lower-addressed. -/
def rewritePair (core : CoreId) (a b : Word) (w : SeqWork) : SeqRes :=
  let ha := netGet w.st core a
  let hb := netGet w.st core b
  let ka := hdrKind ha
  let kb := hdrKind hb
  if ka = 5 then .done (rewriteRoot core a b w)
  else if kb = 5 then .done (rewriteRoot core b a w)
  else if ka = 0 then seqRes (rewriteEra core a b w)
  else if kb = 0 then seqRes (rewriteEra core b a w)
  else if (ka = 2 ∧ kb = 2) ∨ (ka = 1 ∧ kb = 1 ∧ hdrLabel ha = hdrLabel hb) then
    .done (seqFree core a (seqFree core b (splice core a b w)))
  else if ka = 1 ∧ kb = 3 then seqRes (rewriteCopy core a b w)
  else if ka = 3 ∧ kb = 1 then seqRes (rewriteCopy core b a w)
  else if ka = 1 ∧ kb = 4 then rewriteTil core a b w
  else if ka = 4 ∧ kb = 1 then rewriteTil core b a w
  else seqRes (rewriteCommute core a b w)

/-- A pair that the sequencer has created is pushed (R22, R23, R268): at once at its own core, else by a packet. It is eligible when the
rewrite ends, unless it names a young node (R316). DESIGN CHOICE (log 16): where the placement core hosts no group of the kernel, the
instance is reported faulted, which R193 settles for LINK and WIRE only; and a pair whose key its queue holds under another operator is
refused, which the refusals count, and no party is told, since R199 tells an agent only. -/
def seqPush (core : CoreId) (p : Word × Word) (s : State) : State :=
  match pairCore s core p.1 p.2 with
  | none => reportFault ((getCore s core).ctx.getD 0) (getCore s core).inst s
  | some t =>
    let r := pairRecord p.1 p.2 (getCore s core).topx none true 0
    let e := { entryOf s t r with holder := none, retired := true }
    if t ≠ core then send core t ((getCore s core).ctx.getD 0) (.push r) s
    else if opConflict (getCore s core) e.key e.op then
      unreserveSeq core (onCore core (fun c => { c with refusals := c.refusals + 1 }) s)
    else unreserveSeq core (admitStaged core true e s)

/-- Push the pairs in order. -/
def seqPushes (core : CoreId) : List (Word × Word) → State → State
  | [], s => s
  | p :: ps, s => seqPushes core ps (seqPush core p s)

/-- The end of a rewrite: the pushes are made. -/
def seqFinish (core : CoreId) (q : SeqRec) (w : SeqWork) : State :=
  let s1 := if w.fault then reportFault ((getCore w.st core).ctx.getD 0) (getCore w.st core).inst w.st else w.st
  seqPushes core w.pairs (onCore core (fun c => { c with seq := some { q with ending := true } }) s1)

/-- A push of the sequencer of a core has not reached its place (R268). -/
def seqPushing (s : State) (core : CoreId) : Bool :=
  s.net.any fun m => m.src == core && match m.body with
    | .push r => r.pusher.isNone && r.origin.isNone
    | _ => false

/-- The lease and the unused places are released (R29 step 4). -/
def seqRelease (core : CoreId) (place : Nat) (s : State) : State :=
  onCore core (fun c => { dropPlace place c with seq := none }) s

/-- The ports that a rewrite reaches from an auxiliary port of the pair: its partner, and the port that a FWD partner names (R427). -/
def reachedFrom (s : State) (core : CoreId) (p : Word) : List Word :=
  let x := portPartner (netGet s core p)
  if portState (netGet s core p) = 0 then []
  else x :: (if portState (netGet s core x) = 2 then [portPartner (netGet s core x)] else [])

/-- The first address that a rewrite needs and whose page the core's TLB does not hold for a read and write (R193, R301, R303). -/
def rewriteMiss (s : State) (core : CoreId) (q : SeqRec) : Option Word :=
  let aux := fun (n : Word) => (List.range (hdrArity (netGet s core n))).map fun i => portAt n (i + 1)
  let all := [q.n1, q.n2] ++ ([q.n1, q.n2].flatMap fun n => (aux n).flatMap (reachedFrom s core))
  all.find? fun n => (pairMiss s core (some (n, n))).isSome

/-- R24, R29: the sequencer performs the rewrite in hand, or waits for the page of a node that it needs. -/
def execSequencerRewrite (core : CoreId) (s : State) : Outc :=
  let c := getCore s core
  match c.seq with
  | none => .next s
  | some q =>
    if q.ending then .next (if seqPushing s core then s else reportAll (seqRelease core q.place s))
    else if c.seqstuck || c.seqpark then .next s
    else match rewriteMiss s core q with
    | some n => .next (parkSeq core n s)
    | none =>
    match rewritePair core q.n1 q.n2 ⟨s, [], false⟩ with
      | .waits => .next s
      | .stuck => .next (reportFault (c.ctx.getD 0) c.inst (onCore core (fun x => { x with seqstuck := true }) s))
      | .done w => .next (reportAll (seqFinish core q w))

end Sys2Proof.Machine
end

