-- ==== Sys2Proof/Machine/Dispatch.lean ====
section
/-! DEFINITION. The meaning of every instruction and event: one arm per constructor. -/

namespace Sys2Proof.Machine

def exec (i : Instr) (s : State) : Host.Outcome State Fault Refusal :=
  match i with
  | .add d a b m u => Sys2Proof.Machine.execAdd d a b m u s
  | .sub d a b m u => Sys2Proof.Machine.execSub d a b m u s
  | .mul d a b m u => Sys2Proof.Machine.execMul d a b m u s
  | .mulh d a b u => Sys2Proof.Machine.execMulh d a b u s
  | .div d a b m u => Sys2Proof.Machine.execDiv d a b m u s
  | .rem d a b u => Sys2Proof.Machine.execRem d a b u s
  | .and d a b => Sys2Proof.Machine.execAnd d a b s
  | .or d a b => Sys2Proof.Machine.execOr d a b s
  | .xor d a b => Sys2Proof.Machine.execXor d a b s
  | .andn d a b => Sys2Proof.Machine.execAndn d a b s
  | .shl d a b => Sys2Proof.Machine.execShl d a b s
  | .shr d a b => Sys2Proof.Machine.execShr d a b s
  | .sar d a b => Sys2Proof.Machine.execSar d a b s
  | .rot d a b => Sys2Proof.Machine.execRot d a b s
  | .min d a b u => Sys2Proof.Machine.execMin d a b u s
  | .max d a b u => Sys2Proof.Machine.execMax d a b u s
  | .clz d a => Sys2Proof.Machine.execClz d a s
  | .popc d a => Sys2Proof.Machine.execPopc d a s
  | .sel d a b k => Sys2Proof.Machine.execSel d a b k s
  | .cmp d a b u c => Sys2Proof.Machine.execCmp d a b u c s
  | .addi d a imm => Sys2Proof.Machine.execAddi d a imm s
  | .andi d a imm => Sys2Proof.Machine.execAndi d a imm s
  | .ori d a imm => Sys2Proof.Machine.execOri d a imm s
  | .xori d a imm => Sys2Proof.Machine.execXori d a imm s
  | .shli d a n => Sys2Proof.Machine.execShli d a n s
  | .shri d a n => Sys2Proof.Machine.execShri d a n s
  | .sari d a n => Sys2Proof.Machine.execSari d a n s
  | .cmpi d a c u imm => Sys2Proof.Machine.execCmpi d a c u imm s
  | .fadd d a b r p => Sys2Proof.Machine.execFadd d a b r p s
  | .fsub d a b r p => Sys2Proof.Machine.execFsub d a b r p s
  | .fmul d a b r p => Sys2Proof.Machine.execFmul d a b r p s
  | .fdiv d a b r p => Sys2Proof.Machine.execFdiv d a b r p s
  | .fsqrt d a r p => Sys2Proof.Machine.execFsqrt d a r p s
  | .fma d a b r p => Sys2Proof.Machine.execFma d a b r p s
  | .fcmp d a b c p => Sys2Proof.Machine.execFcmp d a b c p s
  | .fcvt d a r dst src => Sys2Proof.Machine.execFcvt d a r dst src s
  | .fmin d a b p => Sys2Proof.Machine.execFmin d a b p s
  | .fmax d a b p => Sys2Proof.Machine.execFmax d a b p s
  | .fclass d a p => Sys2Proof.Machine.execFclass d a p s
  | .br k off => Sys2Proof.Machine.execBr k off s
  | .jmp a => Sys2Proof.Machine.execJmp a s
  | .call off => Sys2Proof.Machine.execCall off s
  | .loop d off => Sys2Proof.Machine.execLoop d off s
  | .crd d n => Sys2Proof.Machine.execCrd d n s
  | .cwr n a => Sys2Proof.Machine.execCwr n a s
  | .trap code => Sys2Proof.Machine.execTrap code s
  | .vadd d a b t p m => Sys2Proof.Machine.execVadd d a b t p m s
  | .vsub d a b t p m => Sys2Proof.Machine.execVsub d a b t p m s
  | .vmul d a b t p m => Sys2Proof.Machine.execVmul d a b t p m s
  | .vfma d a b t p m => Sys2Proof.Machine.execVfma d a b t p m s
  | .vmin d a b t p => Sys2Proof.Machine.execVmin d a b t p s
  | .vmax d a b t p => Sys2Proof.Machine.execVmax d a b t p s
  | .vand d a b t p => Sys2Proof.Machine.execVand d a b t p s
  | .vor d a b t p => Sys2Proof.Machine.execVor d a b t p s
  | .vxor d a b t p => Sys2Proof.Machine.execVxor d a b t p s
  | .vshl d a b t p => Sys2Proof.Machine.execVshl d a b t p s
  | .vshr d a b t p => Sys2Proof.Machine.execVshr d a b t p s
  | .vsar d a b t p => Sys2Proof.Machine.execVsar d a b t p s
  | .vcmp k a b t p c => Sys2Proof.Machine.execVcmp k a b t p c s
  | .vsel d a b t p => Sys2Proof.Machine.execVsel d a b t p s
  | .vcvt d a b t p m => Sys2Proof.Machine.execVcvt d a b t p m s
  | .vred d a op t p m => Sys2Proof.Machine.execVred d a op t p m s
  | .vscan d a op t p m => Sys2Proof.Machine.execVscan d a op t p m s
  | .vperm d a b t p => Sys2Proof.Machine.execVperm d a b t p s
  | .vbcast d src t p => Sys2Proof.Machine.execVbcast d src t p s
  | .vexp2 d a p => Sys2Proof.Machine.execVexp2 d a p s
  | .vlog2 d a p => Sys2Proof.Machine.execVlog2 d a p s
  | .vrcp d a p => Sys2Proof.Machine.execVrcp d a p s
  | .vrsqrt d a p => Sys2Proof.Machine.execVrsqrt d a p s
  | .vabs d a t p m => Sys2Proof.Machine.execVabs d a t p m s
  | .vneg d a t p m => Sys2Proof.Machine.execVneg d a t p m s
  | .vmov d a t p => Sys2Proof.Machine.execVmov d a t p s
  | .vext d a ix t => Sys2Proof.Machine.execVext d a ix t s
  | .vins d a ix t => Sys2Proof.Machine.execVins d a ix t s
  | .vld d a t off => Sys2Proof.Machine.execVld d a t off s
  | .vst d a t off => Sys2Proof.Machine.execVst d a t off s
  | .vlds d a b t p => Sys2Proof.Machine.execVlds d a b t p s
  | .vsts d a b t p => Sys2Proof.Machine.execVsts d a b t p s
  | .vgath d a b t p => Sys2Proof.Machine.execVgath d a b t p s
  | .vscat d a b t p => Sys2Proof.Machine.execVscat d a b t p s
  | .vtopk d a b p fresh => Sys2Proof.Machine.execVtopk d a b p fresh s
  | .vpopc d a t p => Sys2Proof.Machine.execVpopc d a t p s
  | .tcfg n a => Sys2Proof.Machine.execTcfg n a s
  | .tld n a off => Sys2Proof.Machine.execTld n a off s
  | .tst n a off => Sys2Proof.Machine.execTst n a off s
  | .trow d a b w => Sys2Proof.Machine.execTrow d a b w s
  | .tcol d a b w => Sys2Proof.Machine.execTcol d a b w s
  | .tzero n => Sys2Proof.Machine.execTzero n s
  | .tmma c a b => Sys2Proof.Machine.execTmma c a b s
  | .tclean n => Sys2Proof.Machine.execTclean n s
  | .oclaim d a acc => Sys2Proof.Machine.execOclaim d a acc s
  | .orel a acc => Sys2Proof.Machine.execOrel a acc s
  | .oload d a o => Sys2Proof.Machine.execOload d a o s
  | .mma n oa ob z => Sys2Proof.Machine.execMma n oa ob z s
  | .azero n => Sys2Proof.Machine.execAzero n s
  | .ard n a b m z t => Sys2Proof.Machine.execArd n a b m z t s
  | .awr n a b t => Sys2Proof.Machine.execAwr n a b t s
  | .vsmpl d a b => Sys2Proof.Machine.execVsmpl d a b s
  | .vaccept d a b p => Sys2Proof.Machine.execVaccept d a b p s
  | .vrng d b p => Sys2Proof.Machine.execVrng d b p s
  | .vcnt d k t lead => Sys2Proof.Machine.execVcnt d k t lead s
  | .vidx d b t p => Sys2Proof.Machine.execVidx d b t p s
  | .ld d a sz off => Sys2Proof.Machine.execLd d a sz off s
  | .st d a sz off => Sys2Proof.Machine.execSt d a sz off s
  | .ldt d a off => Sys2Proof.Machine.execLdt d a off s
  | .stt d a off => Sys2Proof.Machine.execStt d a off s
  | .pref a off => Sys2Proof.Machine.execPref a off s
  | .amo d a b w u op => Sys2Proof.Machine.execAmo d a b w u op s
  | .cas d a b w u => Sys2Proof.Machine.execCas d a b w u s
  | .fence sc => Sys2Proof.Machine.execFence sc s
  | .phase sc => Sys2Proof.Machine.execPhase sc s
  | .bari a b => Sys2Proof.Machine.execBari a b s
  | .bara d a b sc => Sys2Proof.Machine.execBara d a b sc s
  | .barw a b sc => Sys2Proof.Machine.execBarw a b sc s
  | .waitf d a e sc => Sys2Proof.Machine.execWaitf d a e sc s
  | .fill d a b sc => Sys2Proof.Machine.execFill d a b sc s
  | .qput q a => Sys2Proof.Machine.execQput q a s
  | .qget d q => Sys2Proof.Machine.execQget d q s
  | .qstream q b => Sys2Proof.Machine.execQstream q b s
  | .qflush q => Sys2Proof.Machine.execQflush q s
  | .new d a h => Sys2Proof.Machine.execNew d a h s
  | .free a => Sys2Proof.Machine.execFree a s
  | .link d a b => Sys2Proof.Machine.execLink d a b s
  | .wire d a b => Sys2Proof.Machine.execWire d a b s
  | .pushx d a b => Sys2Proof.Machine.execPushx d a b s
  | .tshare d a => Sys2Proof.Machine.execTshare d a s
  | .tdrop d a => Sys2Proof.Machine.execTdrop d a s
  | .enq d a b => Sys2Proof.Machine.execEnq d a b s
  | .enwait a b => Sys2Proof.Machine.execEnwait a b s
  | .gather d a b => Sys2Proof.Machine.execGather d a b s
  | .scatter d a b => Sys2Proof.Machine.execScatter d a b s
  | .publish d a => Sys2Proof.Machine.execPublish d a s
  | .ssopen d a b => Sys2Proof.Machine.execSsopen d a b s
  | .ssld d a b => Sys2Proof.Machine.execSsld d a b s
  | .ssst d a b => Sys2Proof.Machine.execSsst d a b s
  | .sssnap d a b c => Sys2Proof.Machine.execSssnap d a b c s
  | .ssroll d a b t => Sys2Proof.Machine.execSsroll d a b t s
  | .ssfork d a b => Sys2Proof.Machine.execSsfork d a b s
  | .ssclose a => Sys2Proof.Machine.execSsclose a s
  | .launch d a b => Sys2Proof.Machine.execLaunch d a b s
  | .hintsucc a => Sys2Proof.Machine.execHintsucc a s
  | .sleep d a => Sys2Proof.Machine.execSleep d a s
  | .wake d a => Sys2Proof.Machine.execWake d a s
  | .migrate d a => Sys2Proof.Machine.execMigrate d a s
  | .take d a n => Sys2Proof.Machine.execTake d a n s
  | .extq d a => Sys2Proof.Machine.execExtq d a s
  | .movi d f imm => Sys2Proof.Machine.execMovi d f imm s
  | .addl d a m imm => Sys2Proof.Machine.execAddl d a m imm s
  | .ldl d a sz off => Sys2Proof.Machine.execLdl d a sz off s
  | .stl d a sz off => Sys2Proof.Machine.execStl d a sz off s
  | .brl k off => Sys2Proof.Machine.execBrl k off s
  | .calll off => Sys2Proof.Machine.execCalll off s
  | .vldl d a t off => Sys2Proof.Machine.execVldl d a t off s
  | .vstl d a t off => Sys2Proof.Machine.execVstl d a t off s
  | .cpy d a b len => Sys2Proof.Machine.execCpy d a b len s
  | .enqi d a imm => Sys2Proof.Machine.execEnqi d a imm s
  | .pushk d a w1 => Sys2Proof.Machine.execPushk d a w1 s
  | .andl d a z imm => Sys2Proof.Machine.execAndl d a z imm s
  | .cmpl d a u c imm => Sys2Proof.Machine.execCmpl d a u c imm s
  | .orl d a z imm => Sys2Proof.Machine.execOrl d a z imm s
  | .xorl d a z imm => Sys2Proof.Machine.execXorl d a z imm s
  | .mmal n oa ob ovb ova z w1 => Sys2Proof.Machine.execMmal n oa ob ovb ova z w1 s
  | .vbcasti d t imm => Sys2Proof.Machine.execVbcasti d t imm s
  | .tcfgi n w1 => Sys2Proof.Machine.execTcfgi n w1 s
  | .sssnapi d a c pos => Sys2Proof.Machine.execSssnapi d a c pos s
  | .jmpl d r off => Sys2Proof.Machine.execJmpl d r off s
  | .amol d a b w u op off => Sys2Proof.Machine.execAmol d a b w u op off s
  | .casl d a b w u off => Sys2Proof.Machine.execCasl d a b w u off s
  | .ldpair d a b off => Sys2Proof.Machine.execLdpair d a b off s
  | .stpair d a b off => Sys2Proof.Machine.execStpair d a b off s
  | .getVersion v => Sys2Proof.Machine.execGetVersion v s
  | .create v ctx asid root topx prio clusters save saveLen => Sys2Proof.Machine.execCreate v ctx asid root topx prio clusters save saveLen s
  | .destroy v ctx => Sys2Proof.Machine.execDestroy v ctx s
  | .stop v ctx => Sys2Proof.Machine.execStop v ctx s
  | .resume v ctx => Sys2Proof.Machine.execResume v ctx s
  | .switchOut v ctx => Sys2Proof.Machine.execSwitchOut v ctx s
  | .switchOutProceed ctx => Sys2Proof.Machine.execSwitchOutProceed ctx s
  | .switchIn v ctx => Sys2Proof.Machine.execSwitchIn v ctx s
  | .evacuate v die => Sys2Proof.Machine.execEvacuate v die s
  | .uploadPlan v ctx plan => Sys2Proof.Machine.execUploadPlan v ctx plan s
  | .readInstance v ctx inst => Sys2Proof.Machine.execReadInstance v ctx inst s
  | .tagWrite blk => Sys2Proof.Machine.execTagWrite blk s
  | .faultRead blk => Sys2Proof.Machine.execFaultRead blk s
  | .map blk => Sys2Proof.Machine.execMap blk s
  | .refuse blk => Sys2Proof.Machine.execRefuse blk s
  | .replay blk => Sys2Proof.Machine.execReplay blk s
  | .flush blk => Sys2Proof.Machine.execFlush blk s
  | .invalidate blk => Sys2Proof.Machine.execInvalidate blk s
  | .readCounters v core => Sys2Proof.Machine.execReadCounters v core s
  | .telemetry v => Sys2Proof.Machine.execTelemetry v s
  | .kick ctx val => Sys2Proof.Machine.execKick ctx val s
  | .progressWrite ctx val => Sys2Proof.Machine.execProgressWrite ctx val s
  | .hostRegisterWrite off data => Sys2Proof.Machine.execHostRegisterWrite off data s
  | .cxlMemWrite pa data => Sys2Proof.Machine.execCxlMemWrite pa data s
  | .cxlMemRead pa n => Sys2Proof.Machine.execCxlMemRead pa n s
  | .gangStopArrival core => Sys2Proof.Machine.execGangStopArrival core s
  | .remoteImmediateOp core => Sys2Proof.Machine.execRemoteImmediateOp core s
  | .stackRequest stack culm => Sys2Proof.Machine.execStackRequest stack culm s
  | .replyArrival aid => Sys2Proof.Machine.execReplyArrival aid s
  | .refusalArrival aid => Sys2Proof.Machine.execRefusalArrival aid s
  | .lateTrapDelivery aid => Sys2Proof.Machine.execLateTrapDelivery aid s
  | .waitTableRetry core => Sys2Proof.Machine.execWaitTableRetry core s
  | .waiterWake core => Sys2Proof.Machine.execWaiterWake core s
  | .wakeArrival aid => Sys2Proof.Machine.execWakeArrival aid s
  | .sleepTimeout aid => Sys2Proof.Machine.execSleepTimeout aid s
  | .pushAdmit core => Sys2Proof.Machine.execPushAdmit core s
  | .spillDrain core => Sys2Proof.Machine.execSpillDrain core s
  | .queueDispatch core => Sys2Proof.Machine.execQueueDispatch core s
  | .transitReoffer core => Sys2Proof.Machine.execTransitReoffer core s
  | .sequencerRewrite core => Sys2Proof.Machine.execSequencerRewrite core s
  | .linkUnitRequest core => Sys2Proof.Machine.execLinkUnitRequest core s
  | .terminationWave ctx inst => Sys2Proof.Machine.execTerminationWave ctx inst s
  | .freeCountReport die => Sys2Proof.Machine.execFreeCountReport die s
  | .instancePrepare ctx inst => Sys2Proof.Machine.execInstancePrepare ctx inst s
  | .instanceDone ctx inst => Sys2Proof.Machine.execInstanceDone ctx inst s
  | .instanceFault ctx inst => Sys2Proof.Machine.execInstanceFault ctx inst s
  | .migrationCapture aid => Sys2Proof.Machine.execMigrationCapture aid s
  | .migrationResume aid => Sys2Proof.Machine.execMigrationResume aid s
  | .extensionTargetFree aid => Sys2Proof.Machine.execExtensionTargetFree aid s
  | .forwardingExpiry core => Sys2Proof.Machine.execForwardingExpiry core s
  | .messageReturn msg => Sys2Proof.Machine.execMessageReturn msg s
  | .tileRestoreDone aid n => Sys2Proof.Machine.execTileRestoreDone aid n s
  | .faultMessage cluster => Sys2Proof.Machine.execFaultMessage cluster s
  | .pageWalkResult cluster => Sys2Proof.Machine.execPageWalkResult cluster s
  | .translationAnswer cluster => Sys2Proof.Machine.execTranslationAnswer cluster s
  | .coprocEntry core => Sys2Proof.Machine.execCoprocEntry core s
  | .tmmaResult aid => Sys2Proof.Machine.execTmmaResult aid s
  | .stripFetch core q => Sys2Proof.Machine.execStripFetch core q s
  | .cpyBlock core => Sys2Proof.Machine.execCpyBlock core s
  | .engineNop core hdr => Sys2Proof.Machine.execEngineNop core hdr s
  | .copyCmd core hdr => Sys2Proof.Machine.execCopyCmd core hdr s
  | .gatherCmd core hdr => Sys2Proof.Machine.execGatherCmd core hdr s
  | .ssHeadToMemory core hdr => Sys2Proof.Machine.execSsHeadToMemory core hdr s
  | .ssMemoryToHead core hdr => Sys2Proof.Machine.execSsMemoryToHead core hdr s
  | .countersCmd core hdr => Sys2Proof.Machine.execCountersCmd core hdr s
  | .engineReadReply core hdr => Sys2Proof.Machine.execEngineReadReply core hdr s
  | .enginePost core num n => Sys2Proof.Machine.execEnginePost core num n s
  | .gatherReply core => Sys2Proof.Machine.execGatherReply core s
  | .d2dFlitReceive die up crcOk => Sys2Proof.Machine.execD2dFlitReceive die up crcOk s
  | .ringHop cluster stop dir parityOk => Sys2Proof.Machine.execRingHop cluster stop dir parityOk s
  | .meshHop die router reply parityOk => Sys2Proof.Machine.execMeshHop die router reply parityOk s
  | .packetDelivery msg => Sys2Proof.Machine.execPacketDelivery msg s
  | .ringFreeCounts cluster stop dir => Sys2Proof.Machine.execRingFreeCounts cluster stop dir s
  | .svailaetGroupSend port => Sys2Proof.Machine.execSvailaetGroupSend port s
  | .attest blk => Sys2Proof.Machine.execAttest blk s
  | .patrolScrub stack pa uncorrectable => Sys2Proof.Machine.execPatrolScrub stack pa uncorrectable s
  | .svailaetGroupReceive port gseq ackseq crcOk nak flits => Sys2Proof.Machine.execSvailaetGroupReceive port gseq ackseq crcOk nak flits s
  | .svailaetRetrainDone port ok peerMajor peerMinor peer => Sys2Proof.Machine.execSvailaetRetrainDone port ok peerMajor peerMinor peer s
  | .svailaetPortReturns port => Sys2Proof.Machine.execSvailaetPortReturns port s
  | .nop => Sys2Proof.Machine.execNop s
  | .ret => Sys2Proof.Machine.execRet s
  | .retire => Sys2Proof.Machine.execRetire s
  | .waitpred => Sys2Proof.Machine.execWaitpred s
  | .rte => Sys2Proof.Machine.execRte s
  | .halt => Sys2Proof.Machine.execHalt s
  | .packageReset => Sys2Proof.Machine.execPackageReset s
  | .thermalReset => Sys2Proof.Machine.execThermalReset s
  | .powerWindow => Sys2Proof.Machine.execPowerWindow s
  | .instancePlacement => Sys2Proof.Machine.execInstancePlacement s
  | .placementAgeLimit => Sys2Proof.Machine.execPlacementAgeLimit s
  | .launchAccept => Sys2Proof.Machine.execLaunchAccept s

end Sys2Proof.Machine
end

