-- ==== Sys2Proof/Machine/Issue.lean ====
section
/-! DEFINITION. What happens next: fetching an instruction (R85, R95, R97), which agents may issue (R290), which events may
come, and the order of the host's requests (R377, R378). Which of several happens is free (log 2). -/

namespace Sys2Proof.Machine

/-! ## Fetch and decode (R85, R95, R97) -/

/-- What a fetch of one word gives. -/
inductive Fetched
  | word (w : Nat)
  | miss
  /-- R97 traps FETCH. -/
  | bad
  deriving DecidableEq, Repr

/-- Fetch the word at an address for the current agent: it reads only translated, executable HBM pages. -/
def fetchWord (s : State) (va : Word) : Fetched :=
  if 0xF0 * 2 ^ 48 ≤ va.toNat then .bad
  else match xlate s s.core s.ag.ctx va .fetch [] with
    | .ok x => if isHostLoc x.loc || isFarLoc x.loc then .bad else .word (memNat s.mem x.loc 4)
    | .error .miss => .miss
    | .error .bounds => .bad

/-- Go on with a fetched word, wait for its translation, or trap FETCH. -/
def withWord (va : Word) (s : State) (k : Nat → Outc) : Outc :=
  match fetchWord s va with
  | .word w => k w
  | .miss => .next (missOn va va .fetch s)
  | .bad => .next (deliver cFetch (va != s.ag.pc) va 0 s.ag.pc s)

/-- The scoreboard holds the agent's instruction back: it has not issued (R202, R290). -/
def held : Run → Bool
  | .blocked (.scoreboard _ _) => true
  | _ => false

/-- The instruction that an agent is blocked in: it goes on with that one, and fetches it no second time (R97). -/
def inHand (a : Agent) : Option Instr :=
  match a.run with
  | .blocked (.scoreboard _ _) => none
  | .blocked _ => a.inhand
  | _ => none

/-- The current agent's instruction issues: this is its last issue, and at its first one its snapshot is fixed (R290, R412). -/
def issued (s : State) : State := begins { s with ag := { s.ag with lastIssue := s.draws } }

/-- The current agent issues an instruction that it has fetched. -/
def takeUp (i : Instr) (s : State) : Outc :=
  let s1 := issued s
  exec i { s1 with ag := { s1.ag with inhand := some i } }

/-- The current agent fetches, decodes and performs its instruction (R95), or goes on with the one it is blocked in: word 1 of a long
form is fetched once word 0 has been accepted. -/
def runAgent (s : State) : Outc :=
  match inHand s.ag with
  | some i => exec i s
  | none =>
    withWord s.ag.pc s fun w0 =>
      match decodeWords w0 0 with
      | .error _ => trap cIllegalOp (BitVec.ofNat 64 w0) (issued s)
      | .ok i =>
        if !longWord w0 then takeUp i s
        else withWord (s.ag.pc + 4) s fun w1 =>
          match decodeWords w0 (BitVec.ofNat 32 w1) with
          | .error _ => trap cIllegalOp (BitVec.ofNat 64 w0) (issued s)
          | .ok j => takeUp j s

/-! ## Issue (R290, R361) -/

/-- Some of what the agents of a core have pending for their own slice is performed (R361). -/
def drainSome : List Agent → State → State
  | [], s => s
  | a :: as, s =>
    drainSome as (if a.posted.isEmpty then s else drainOwn a.aid (Config.sliceWrites s.draws a.aid) s)

/-- The agents of a core. -/
def agentsOfCore (s : State) (c : CoreId) : List Agent := (allAgents s).filter fun a => a.place == c

/-- The instruction of an agent has not issued: it is to issue, or the scoreboard stalls it (R290). -/
def unissued (a : Agent) : Bool := a.run == .running || held a.run

/-- An agent becomes the current one. -/
def atIssue (aid : Nat) (s : State) : State :=
  let s1 := checkout aid s
  let s2 := drainSome (agentsOfCore s1 s1.ag.place) s1
  { s2 with draws := s2.draws + 1 }

/-- An agent issues and performs its instruction, or goes on with the one it is blocked in. -/
def issue (aid : Nat) (s : State) : Outc := runAgent (atIssue aid s)

/-- A blocked instruction is tried again when it may succeed; what ends the other waits is an event. -/
def retries (s : State) (aid : Nat) : Wait → Bool
  | .translation _ => false
  | .waitTable => false
  | .op _ none => false
  | .woken _ none => false
  | .retire _ => false
  | .nodePage _ _ => false
  | .sleep _ => false
  | .extension => false
  | .op _ (some _) => true
  | .woken _ (some _) => true
  | .reads _ n _ _ => n == 0
  | .migration => (moveOf s aid).isNone
  | .quiet => true
  | .quietTokens => true
  | .engines => true
  | .scoreboard _ _ => true
  | .coproc => true
  | .order => true
  | .coprocRoom => true
  | .queueEntry _ _ => true
  | .queueRoom _ _ => true
  | .ending => true
  | .slept _ => true
  | .take => true
  | .tileRestore _ _ _ => true
  | .engineRoom => true
  | .sequence => true
  | .predecessors => true

/-- The agent's run after it has tried. -/
def runAfter (s : State) (a : Agent) : Option Run :=
  match issue a.aid s with
  | .next t => (findAgent t a.aid).map (·.run)
  | .fault _ => none
  | .refused _ => none

/-- An agent would stay in its wait if it tried again. -/
def staysBlocked (s : State) (a : Agent) : Bool := runAfter s a == some a.run

/-- The scoreboard stalls the agent's next instruction (R202, R290). -/
def stalls (s : State) (a : Agent) : Bool :=
  match runAfter s a with
  | some r => held r
  | none => false

/-- The agent may act: its core runs, it is not in transit, it has no late trap to take, and no push of its waits for room. -/
def mayAct (s : State) (a : Agent) : Bool :=
  let c := getCore s a.place
  !c.stopped && !c.out && !inTransit s a.aid && !lateDue s a && !pushWaits s a.aid

/-- R290: the agent's next instruction can issue. -/
def ready (s : State) (a : Agent) : Bool := mayAct s a && unissued a && !stalls s a

/-- A blocked instruction of the agent can go on. -/
def goesOn (s : State) (a : Agent) : Bool :=
  mayAct s a && !unissued a && match a.run with
    | .blocked w => retries s a.aid w && !staysBlocked s a
    | _ => false

/-- The agent whose last issue is oldest, the lower number on a tie. -/
def oldest : List Agent → Option Agent
  | [] => none
  | a :: as => match oldest as with
    | none => some a
    | some b => some (if b.lastIssue < a.lastIssue || (b.lastIssue == a.lastIssue && b.num.toNat < a.num.toNat) then b else a)

/-- Agents that may act: on each core the one that its arbiter picks, and those whose blocked instruction can go on. -/
def issuers (s : State) : List Nat :=
  (allCores s).filterMap (fun c => (oldest ((agentsOfCore s c.id).filter (ready s))).map (·.aid)) ++
    ((allAgents s).filter (goesOn s)).map (·.aid)

/-! ## Events -/

/-- An event when its condition holds. -/
def when (b : Bool) (i : Instr) : List Instr := if b then [i] else []

/-- A stream can fetch its next strip (R79). -/
def fetchesStrip (x : QReg) : Bool :=
  match x.stream with
  | none => false
  | some st => !st.parked && st.next < streamTotal st && x.entries.length < 4

/-- The event of an engine command by its OP (R346 to R349). -/
def engineEvent (core : CoreId) (hdr : Word) : Nat → Instr
  | 1 => .copyCmd core hdr
  | 2 => .gatherCmd core hdr
  | 3 => .ssHeadToMemory core hdr
  | 4 => .ssMemoryToHead core hdr
  | 5 => .countersCmd core hdr
  | _ => .engineNop core hdr

/-- A block that an engine waits to write has reached it; one whose write has left waits for its acknowledgement. -/
def writable (x : Inflight) : Bool := x.here && (!x.out || x.acked)

/-- The first block that a command waits to write can be written, or has been. -/
def blockHere : List Inflight → Bool
  | x :: _ => writable x
  | [] => false

/-- A GATHER or SCATTER can end, or write its next lane (R205). -/
def gatherGoes (g : GatherOp) : Bool :=
  match g.lanes[g.next]? with
  | none => true
  | some p => g.inflight.any fun x => x.ix == p.1 && writable x

/-- The rewrite sequencer can go on: with the rewrite in hand, or to its end (R29). -/
def seqGoes (s : State) (c : Core) : Bool :=
  match c.seq with
  | none => false
  | some q => if q.ending then !seqPushing s c.id else !c.seqstuck && !c.seqpark

/-- Events of a chain: its engine's turn, and the write of a block that has been read. -/
def chainEvents (s : State) (c : Core) (ch : Chain) : List Instr :=
  let hdr := BitVec.ofNat 64 (winBase c.id + ch.hdr)
  (match chainOp s c.id ch with
    | some op => when (chainWorks s c.id ch && isTurn s c.id ch) (engineEvent c.id hdr op)
    | none => []) ++
  (match ch.cmd with
    | some k => when (!k.parked && blockHere k.inflight) (.engineReadReply c.id hdr)
    | none => [])

/-- The copy unit can go on with its oldest CPY (R229). -/
def cpyGoes (s : State) (c : Core) : Bool :=
  match c.cpys with
  | y :: _ => !y.parked && (blockHere y.inflight || (cpyWorks c && isCpyTurn s c.id))
  | [] => false

/-- Events of a core that hosts an instance. -/
def coreEvents (s : State) (c : Core) : List Instr :=
  if c.ctx.isNone || c.out then []
  else
    when (stopDue s c) (.gangStopArrival c.id) ++
    when (!(retrying s c.id).isEmpty && !c.stopped) (.waitTableRetry c.id) ++
    when (waiterAt s c.id).isSome (.waiterWake c.id) ++
    when (!(pushesAt s c.id).isEmpty) (.pushAdmit c.id) ++
    when (drainDue c) (.spillDrain c.id) ++
    when (!c.kq.isEmpty && mayDispatch s c.id && (nextDispatch s c.id).isSome) (.queueDispatch c.id) ++
    when (!(transits c).isEmpty && !c.stopped) (.transitReoffer c.id) ++
    when (seqGoes s c) (.sequencerRewrite c.id) ++
    when (!c.linkq.isEmpty && !c.stopped) (.linkUnitRequest c.id) ++
    when (!c.fwd.isEmpty) (.forwardingExpiry c.id) ++
    when (!c.coq.isEmpty && !c.stopped) (.coprocEntry c.id) ++
    (List.range 8).flatMap (fun q =>
      when (!c.stopped && fetchesStrip (getQ c q)) (.stripFetch c.id (BitVec.ofNat 3 q))) ++
    when (cpyGoes s c) (.cpyBlock c.id) ++
    c.chains.flatMap (chainEvents s c) ++
    when (c.gathers.any gatherGoes) (.gatherReply c.id)

/-- The tile whose image has reached the agent that waits for it (R251, R323). -/
def restoring (a : Agent) : List Instr :=
  match a.run with
  | .blocked (.tileRestore n _ _) => when (n < 8 && imageCame a (BitVec.ofNat 3 n)) (.tileRestoreDone a.aid (BitVec.ofNat 3 n))
  | _ => []

/-- Events of an agent. -/
def agentEvents (s : State) (a : Agent) : List Instr :=
  let c := getCore s a.place
  if c.out then []
  else
    when (replyFor s a).isSome (.replyArrival a.aid) ++
    when (refusalFor s a).isSome (.refusalArrival a.aid) ++
    when (lateDue s a) (.lateTrapDelivery a.aid) ++
    when (wakeFor s a).isSome (.wakeArrival a.aid) ++
    when (match a.run with | .blocked (.sleep (some _)) => true | _ => false) (.sleepTimeout a.aid) ++
    when (match moveOf s a.aid with | some m => !m.captured && mayCapture s a && !c.stopped | none => false)
      (.migrationCapture a.aid) ++
    when (inTransit s a.aid && (streamFor s a.aid).isSome) (.migrationResume a.aid) ++
    when (a.run == .blocked .extension && (moveOf s a.aid).isNone && !c.stopped &&
      ((extTarget s a).isSome || (joinCore s a.place).isSome)) (.extensionTargetFree a.aid) ++
    restoring a ++
    when (!a.tmma.isEmpty) (.tmmaResult a.aid)

/-- A request that has reached a compute core may be performed there (R174). -/
def requestDue (s : State) (m : Msg) : Bool :=
  isComputeCore m.dst && isHere m && homeMay s m && firstOf s m && !(getCore s m.dst).out

/-- Events of a message. -/
def msgEvents (s : State) (m : Msg) : List Instr :=
  when (deliverable s m) (.packetDelivery m.id) ++
  when (isStray s m) (.messageReturn m.id) ++
  when (requestDue s m) (.remoteImmediateOp m.dst) ++
  (match m.body with
    | .post k n _ => when (isHere m && firstOf s m) (.enginePost m.dst k n)
    | _ => [])

/-- Events of a stack: requests at its tiller and culm port (R12). -/
def stackEvents (s : State) (k : Nat) : List Instr :=
  [false, true].flatMap fun culm =>
    when (!(homeDue s (stackId k) fun m => atCulmPort s k m.src == culm).isEmpty) (.stackRequest (BitVec.ofNat 4 k) culm)

/-- Events of a teff core. -/
def teffEvents (s : State) (t : Teff) (cl : Nat) : List Instr :=
  let c := BitVec.ofNat 5 cl
  when (faultFor s cl).isSome (.faultMessage c) ++
  when (t.parked.any fun a => a.stage == 1) (.pageWalkResult c) ++
  when (answerFrom s cl).isSome (.translationAnswer c)

/-- An instance waits in the ready pool. -/
def poolWaits (s : State) (i : Inst) : Bool := (i.state == .ready || i.state == .early) && ctxRuns s i.ctx

/-- An agent of the instance waits in RETIRE for a record (R28). -/
def retiring (s : State) (i : Inst) : Bool := (agentsOf s i).any fun a => match a.run with
  | .blocked (.retire _) => true
  | .blocked _ => false
  | .running => false
  | .halted => false
  | .dead => false
  | .free => false

/-- Events of an instance. Waves run for a kernel with rules, and where an agent of any kernel waits in RETIRE (R34, R200). -/
def instEvents (s : State) (i : Inst) : List Instr :=
  let c := BitVec.ofNat 6 i.ctx
  when (mayPrepare s i) (.instancePrepare c i.num) ++
  when (instEnded s i) (.instanceDone c i.num) ++
  when (i.state == .running && i.started && ctxRuns s i.ctx && !i.terminated &&
    match instStep s i with | some (_, st) => !st.kd.rules.isEmpty || retiring s i | none => false) (.terminationWave c i.num)

/-- Events of the master distributor and of contexts. The distributor uses a die's report only while an instance or a SWITCH_IN waits
for cores, and has it then (R286). -/
def distEvents (s : State) : List Instr :=
  let waits := s.insts.any (poolWaits s)
  (if waits || s.pendingIn.isSome then
    (List.range 4).flatMap (fun d => when (reportDue s d) (.freeCountReport (BitVec.ofNat 2 d)))
  else []) ++
  when waits .instancePlacement ++
  when (s.insts.any fun i => poolWaits s i && !i.overdue) .placementAgeLimit ++
  when (s.launches.any fun r => ctxRuns s r.ctx) .launchAccept ++
  s.faultReports.map (fun r => Instr.instanceFault (BitVec.ofNat 6 r.1) r.2) ++
  s.insts.flatMap (instEvents s) ++
  s.ctxs.flatMap (fun x => when (outWaits s x && consistent s x) (.switchOutProceed (BitVec.ofNat 6 x.num)))

/-- Flits are under way in the input of a stop, or its neighbour does not know its counts. -/
def countsDue (x : RingIn) : Bool := !x.buf.isEmpty || freeNow x != x.seen

/-- Events of one input of a ring. -/
def ringEvents (s : State) (cl stop : Nat) (d : Dir) : List Instr :=
  let c := BitVec.ofNat 5 cl
  let n := BitVec.ofNat 3 stop
  when ((ringChoice s cl stop d).isSome || !(getIn s cl stop d).buf.isEmpty) (.ringHop c n d true) ++
  when (countsDue (getIn s cl stop d)) (.ringFreeCounts c n d)

/-- Events of the fabrics; nothing moves where no message is under way. -/
def fabricEvents (s : State) : List Instr :=
  (if s.net.all isHere then []
  else
    (List.range 24).flatMap (fun cl => (List.range 8).flatMap fun stop =>
      ringEvents s cl stop .cw ++ ringEvents s cl stop .acw) ++
    (List.range 4).flatMap (fun die =>
      (List.range 6).flatMap (fun r => [false, true].flatMap fun reply =>
        when (!(routerQ reply (getRouter s die r)).isEmpty || (meshEntry s die r reply).isSome)
          (.meshHop (BitVec.ofNat 2 die) (BitVec.ofNat 3 r) reply true)) ++
      [false, true].flatMap fun up =>
        when (!(getLink s die up).wire.isEmpty || (getLink s die up).discarding || (linkEntry s die up).isSome)
          (.d2dFlitReceive (BitVec.ofNat 2 die) up true))) ++
  (List.range 8).flatMap fun p =>
    let x := getPort s (BitVec.ofNat 3 p)
    when (x.up && !x.retraining) (.svailaetGroupSend (BitVec.ofNat 3 p))

/-- The events that the package itself brings about. -/
def events (s : State) : List Instr :=
  (allCores s).flatMap (coreEvents s) ++ (allAgents s).flatMap (agentEvents s) ++ s.net.flatMap (msgEvents s) ++
    (List.range 12).flatMap (stackEvents s) ++ (s.teffs.toList.zipIdx.flatMap fun p => teffEvents s p.1 p.2) ++
    distEvents s ++ fabricEvents s

/-! ## The host's requests (R377, R378) -/

/-- The host service core that handles an input; 4 stands for what no service core handles, 5 for the host's writes to its own
memory, which it orders itself (R380). -/
def serviceLane : Instr → Nat
  | .kick ctx _ => ctx.toNat % 4
  | .progressWrite ctx _ => ctx.toNat % 4
  | .hostRegisterWrite off _ => (off.toNat - 0x100000) / 0x1000 % 4
  | .cxlMemWrite pa _ => if isHostLoc pa.toNat then 5 else serviceOf pa.toNat
  | .cxlMemRead pa _ => serviceOf pa.toNat
  | .getVersion .. | .attest .. | .create .. | .destroy .. | .stop .. | .resume .. | .switchOut .. | .switchIn ..
  | .evacuate .. | .uploadPlan .. | .readInstance .. | .tagWrite .. | .faultRead .. | .map .. | .refuse .. | .replay ..
  | .flush .. | .invalidate .. | .readCounters .. | .telemetry .. => 0
  | _ => 4

/-- A host service core has a request in hand: a packet of it is under way, or a SWITCH_OUT or a SWITCH_IN waits (R256, R257, R378). -/
def laneBusy (s : State) (l : Nat) : Bool :=
  (l == 0 && (s.pendingOut.isSome || s.pendingIn.isSome)) || (l < 4 && s.net.any fun m => m.src == serviceId l || m.dst == serviceId l)

/-- The inputs that may be performed: the first of each lane that is not busy. -/
def inputHeads (busy : Nat → Bool) : Nat → List Nat → List Instr → List Nat
  | _, _, [] => []
  | k, seen, i :: is =>
    let l := serviceLane i
    if seen.contains l then inputHeads busy (k + 1) seen is
    else if busy l then inputHeads busy (k + 1) (l :: seen) is
    else k :: inputHeads busy (k + 1) (l :: seen) is

/-! ## One step -/

/-- What may happen next. -/
inductive Cand
  | agent (aid : Nat)
  | event (i : Instr)
  | input (k : Nat)
  | soft (k : Nat)
  /-- The next step of bring-up. -/
  | boot
  /-- A SWITCH_IN that waits for cores goes on. -/
  | seat
  /-- A packet passes through a channel of the crossbar. -/
  | crossbar (reply : Bool)
  /-- A host command or its answer is performed at its destination: the number of the message. -/
  | command (i : Nat)
  deriving DecidableEq, Repr

/-- What happens inside the package without an event of the opcode table. -/
def inner (s : State) : List Cand :=
  (if bootDue s then [.boot] else []) ++ (if s.pendingIn.isSome then [.seat] else []) ++
    [false, true].flatMap (fun r => if (crossbarFirst s r).isSome then [.crossbar r] else []) ++
    (s.net.filter (commandDue s)).map fun m => .command m.id

/-- Everything that may happen next. -/
def candidates (s : State) : List Cand :=
  (inputHeads (laneBusy s) 0 [] s.inputs).map .input ++ (events s).map .event ++ (issuers s).map .agent ++
    (List.range s.softErrors.length).map .soft ++ inner s

/-- One of several by a free value; the only one where there is only one. -/
def pickOne (n : Nat) : List Cand → Option Cand
  | [] => none
  | [c] => some c
  | c :: cs => (c :: cs)[Config.pick n % (cs.length + 1)]?

/-- The model's step counter advances. -/
def tick (s : State) : State := { s with draws := s.draws + 1 }

/-- What was chosen happens. -/
def perform (s : State) : Cand → Outc
  | .agent aid => issue aid s
  | .event i => exec i (tick s)
  | .input k => match s.inputs[k]? with
    | some i => exec i { tick s with inputs := s.inputs.eraseIdx k }
    | none => .next s
  | .boot => .next (bootStep (tick s))
  | .seat => .next (seatPending (tick s))
  | .crossbar reply => .next (crossbarMove reply (tick s))
  | .command i => .next (takeCommand i (tick s))
  | .soft k => match s.softErrors[k]? with
    | some e => .next (softError e { tick s with softErrors := s.softErrors.eraseIdx k })
    | none => .next s

end Sys2Proof.Machine
end

