-- ==== Sys2Proof/Machine/Step.lean ====
section
/-! DEFINITION. One step of the package, and placing an instruction where the next step fetches it (log 9). -/

namespace Sys2Proof.Machine

/-- One step: an agent issues, an event comes, or a request of the host is performed; nothing where nothing can happen. -/
def step (s : State) : Host.Outcome State Fault Refusal :=
  match pickOne s.draws (candidates s) with
  | some c => perform s c
  | none => .next s

/-- Context 0 as withFetchWord sets it. -/
def fetchCtx (s : State) : Ctx := { newCtx s 0 0 0 false 0 0 0 0 with state := .running }

/-- The core of context 0 that withFetchWord sets, which hosts instance 0: its TLB maps the first 64 KiB of HBM for
execution at address 0. -/
def fetchCore : Core := { Core.fresh (ctxCore 0 0) with
  ctx := some 0
  tlb := [⟨0, 0, 0, 16, 0, true, false, true, false⟩]
  prepared := true }

/-- The agent that withFetchWord sets: running at address 0 with every register declared. -/
def fetchAgent : Agent := { Agent.fresh (ctxCore 0 0) 0 with
  run := .running
  ns := 32
  nv := 32
  np := 8
  nt := 8 }

/-- The instruction w of nbits bits lies where the next step fetches: what bring-up, and the loading and starting of a kernel, would
leave. -/
def State.withFetchWord (s : State) (nbits w : Nat) : State :=
  { s with
    ag := fetchAgent
    core := fetchCore
    ctxs := fetchCtx s :: s.ctxs
    boot := { s.boot with reached := 7, failed := none }
    mem := memSetBytes s.mem ((tableBytes nbits w).zipIdx.map fun p => (p.2, p.1)) }

end Sys2Proof.Machine
end

