-- ==== Sys2Proof/Safety.lean ====
section
/-! DEFINITION. What the statements about the machine speak of: when an instruction meets none of its checks, what a run
must keep, and the frames of an instruction (what it writes, everything else as it was). -/

namespace Sys2Proof.Machine

/-! ## What a run must keep -/

/-- Memory, the snapshot of every agent, and the memory with which the agents of a launched instance will start are in canonical
form. -/
def Canonical (s : State) : Prop :=
  Memory.wf s.mem = true ∧ Memory.wf s.ag.view = true ∧ (∀ a ∈ s.agents, Memory.wf a.view = true) ∧
    ∀ i ∈ s.insts, ∀ m, i.base = some m → Memory.wf m = true

/-- A step that goes on. -/
def Completes (o : Outc) : Prop := ∃ t, o = .next t

/-! ## When an instruction meets none of its checks -/

/-- Every register named lies within its declared count (R75, R87, R95), and no pending token, TMMA result or tile restore
holds one of them back (R202, R156, R251). -/
def Free (us : List RegUse) (s : State) : Prop :=
  ∀ u ∈ us, regBad s.ag u = none ∧ usePending s.ag u = none ∧ useTmma s.ag u = none ∧ useRestoring s.ag u = none

/-- The core has the extension that the instruction needs (R11, R94). -/
def Has (e : Ext) (s : State) : Prop := lacksExt s e = false

/-- No write of the agent to a party has still to leave, so that the request of an operation may follow it there (R367, R395). -/
def Near (s : State) (c : CoreId) : Prop := heldBack s c = false

/-- The instruction is not going on with the answer to an operation of its own. -/
def Fresh (s : State) : Prop := ∀ k d, s.ag.run ≠ .blocked (.op k (some d))

/-- The answer to the instruction's operation has come (R167, R174). -/
def Answered (s : State) (d : OpData) : Prop := ∃ k, s.ag.run = .blocked (.op k (some d))

/-- None of the vector registers is poisoned (R50). -/
def Clean (rs : List Reg) (s : State) : Prop := ∀ r ∈ rs, poisoned (getVT s r) = false

/-- Every lane passes the region and translation checks of R168 and lies at these locations, and no queued ARD of the agent
writes one of its bytes (R158). -/
def Reaches (s : State) (hostOk : Bool) (k : FKind) (ovf : List Nat) (lanes : List Lane) (ls : List (List XOk)) : Prop :=
  lanes.mapM (xlateLane s hostOk k ovf) = .ok ls ∧ overlapsArd s ls = false

/-- Every lane of a read passes those checks and lies at these locations, in the own slice; or the replies to the requests that have
left for them have come (R306, R394). -/
def Reads (s : State) (hostOk : Bool) (ovf : List Nat) (lanes : List Lane) (ls : List (List XOk)) : Prop :=
  gotReads s = some ls ∨ (gotReads s = none ∧ Reaches s hostOk .read ovf lanes ls ∧ remoteBlocks s ls = [])

/-- None of the locations lies in a shared tile buffer whose first write must be copied (R322). -/
def Unguarded (s : State) (ls : List (List XOk)) : Prop :=
  ((ls.flatten.map (·.loc)).map (aliasLoc s.ag)).findSome? (guardedBuf s) = none

/-- The locations that an access by the current agent reaches (R322). -/
def locsOf (s : State) (ls : List (List XOk)) : List (List Nat) := ls.map fun xs => xs.map fun x => aliasLoc s.ag x.loc

/-- The address is a multiple of n. -/
def Aligned (n : Nat) (a : Word) : Prop := a.toNat % n = 0

/-! ## Frames -/

/-- Only the scalar registers, the PC and the sticky bits of STATUS have changed, and the agent runs on. -/
def OnlyScalars (s t : State) : Prop :=
  t = { s with ag := { s.ag with s := t.ag.s, pc := t.ag.pc, status := t.ag.status, run := .running, inhand := none } }

/-- The instruction wrote x to scalar register d (nothing if d is s0), added the sticky bits f to STATUS and went on n bytes
further; nothing else has changed. -/
def WritesScalar (d : Reg) (x : Word) (f : Sticky) (n : Nat) (s t : State) : Prop :=
  OnlyScalars s t ∧ getS t d = (if d = 0 then 0 else x) ∧ (∀ r, r ≠ d → getS t r = getS s r) ∧
    t.ag.status = s.ag.status ||| (f &&& 0xFF00).setWidth 64 ∧ t.ag.pc = s.ag.pc + BitVec.ofNat 64 n

/-- The instruction jumped to x after writing y to scalar register d; nothing else has changed. -/
def JumpsTo (x : Word) (d : Reg) (y : Word) (s t : State) : Prop :=
  OnlyScalars s t ∧ getS t d = (if d = 0 then 0 else y) ∧ (∀ r, r ≠ d → getS t r = getS s r) ∧
    t.ag.status = s.ag.status ∧ t.ag.pc = x

/-- The instruction wrote x to predicate register k (nothing if k is p0), added the sticky bits f to STATUS and went on n
bytes further; nothing else has changed. -/
def WritesPred (k : Nat) (x : Word) (f : Sticky) (n : Nat) (s t : State) : Prop :=
  t = { s with ag := { s.ag with p := t.ag.p, pc := s.ag.pc + BitVec.ofNat 64 n, run := .running, inhand := none,
                                 status := s.ag.status ||| (f &&& 0xFF00).setWidth 64 } } ∧
    getP t k = (if k = 0 then BitVec.allOnes 64 else x) ∧ ∀ j, j ≠ k → getP t j = getP s j

/-- The instruction wrote block x with a tag to vector register d, added the sticky bits f to STATUS and went on n bytes
further; nothing else has changed. -/
def WritesVector (d : Reg) (x : Block) (tag : Tag) (f : Sticky) (n : Nat) (s t : State) : Prop :=
  t = { s with ag := { s.ag with v := t.ag.v, vtag := t.ag.vtag, pc := s.ag.pc + BitVec.ofNat 64 n, run := .running,
                                 inhand := none,
                                 status := s.ag.status ||| (f &&& 0xFF00).setWidth 64 } } ∧
    getV t d = x ∧ getVT t d = tag ∧ ∀ r, r ≠ d → getV t r = getV s r ∧ getVT t r = getVT s r

/-- A trap of cause c with address a was taken precisely, and its handler goes on: TRAPPC holds the instruction's own PC,
TRAPSEQ is 0, and nothing else has changed (R235, R237). -/
def Traps (c : BitVec 8) (a : Word) (s t : State) : Prop :=
  t = { s with ag := { s.ag with trapc := c.setWidth 64, trappc := s.ag.pc, trapa := a, trapseq := 0, handler := true,
                                 pc := s.ag.trapvec &&& ~~~3, run := .running, inhand := none } }

/-- A trap can be taken: the agent is in no handler, and it has a trap vector (R235, R240). -/
def Handles (s : State) : Prop := s.ag.handler = false ∧ s.ag.trapvec.toNat / 4 ≠ 0

/-- Every byte and tag that the current agent reads outside the locations listed reads as before (R353). -/
def ReadsSame (except : List Nat) (s t : State) : Prop :=
  (∀ l, l ∉ except → agByte t l = agByte s l) ∧ t.ag.place = s.ag.place

/-- Lane by lane, the instruction wrote to vector register d the values of g where the predicate p is active, and kept the
others; the flags of the active lanes were added to STATUS, the tag is 0x7FC0, and the PC went on n bytes (R130). -/
def WritesLanes (d : Reg) (t : VTy) (p : Word) (g : Nat → Nat × Sticky) (n : Nat) (s u : State) : Prop :=
  ∃ x f, WritesVector d x 0x7FC0 f n s u ∧
    (∀ i < t.lanes, lane (8 * t.bytes) i x =
      if p.getLsbD (i * t.bytes) then (g i).1 % 2 ^ (8 * t.bytes) else lane (8 * t.bytes) i (getV s d)) ∧
    ∀ b, f.getLsbD b = true ↔ ∃ i < t.lanes, p.getLsbD (i * t.bytes) = true ∧ (g i).2.getLsbD b = true

/-- Messages were sent and counted, and nothing else has changed (R253, R394). -/
def Sends (s t : State) : Prop :=
  t = { s with net := t.net, msgs := t.msgs, core := { s.core with sentcnt := t.core.sentcnt }, cores := t.cores,
               ctxs := t.ctxs } ∧
    (∃ ms, t.net = s.net ++ ms) ∧ (∀ c, getCore t c = { getCore s c with sentcnt := (getCore t c).sentcnt }) ∧
    ∀ n x, findCtx s n = some x → ∃ k, findCtx t n = some { x with sentGone := k }

/-- The request of the agent's operation left for a party with its number, it counts in OUTREQ where it is to be answered by that
count, and the agent waits; nothing else has changed (R167, R190, R238, R394). -/
def Asks (dst : CoreId) (o : HomeOp) (s t : State) : Prop :=
  Sends { s with ag := { s.ag with reqseq := s.ag.reqseq + 1, run := .blocked (.op s.draws none),
                                   outreq := if countsOut o then s.ag.outreq + 1 else s.ag.outreq } } t ∧
    ∃ m, t.net = s.net ++ [m] ∧ m.src = s.ag.place ∧ m.dst = dst ∧ m.seq = s.ag.reqseq ∧ m.body = .op s.ag.aid s.draws o

/-- A block's tag as the current agent reads it at a location (R354). -/
def tagAt (s : State) (l : Nat) : Tag :=
  if inSlice s.ag.place l then (pendingTag (blockOf l) s.ag.posted).getD (memTag s.mem l) else memTag s.ag.view l

/-- What a list of pairs, the later ones prevailing, holds at a key; d where it holds nothing. -/
def lastOf {α : Type} (l : List (Nat × α)) (k : Nat) (d : α) : α := ((l.reverse.find? fun p => p.1 == k).map (·.2)).getD d

/-- The instruction stored these bytes and these tags by ordinary stores and went on n bytes: the agent reads them from now
on, and every other byte and tag as before (R353, R354); a tag is not kept in host memory (R169). Its requests were numbered,
counted and sent; nothing else has changed. -/
def Stores (bs : List (Nat × Byte)) (ts : List (Nat × Tag)) (n : Nat) (s t : State) : Prop :=
  Sends { s with ag := { s.ag with posted := t.ag.posted, view := t.ag.view, written := t.ag.written,
                                   farSeen := t.ag.farSeen, farDirty := t.ag.farDirty, outreq := t.ag.outreq,
                                   reqseq := t.ag.reqseq, pc := s.ag.pc + BitVec.ofNat 64 n, run := .running,
                                   inhand := none } } t ∧
    (∀ l, agByte t l = lastOf bs l (agByte s l)) ∧
    ∀ l, tagAt t l = if isHostLoc l then tagAt s l else lastOf ts (blockOf l) (tagAt s l)

/-- The instruction wrote tile x to tile register n, with its dirty bit set or cleared, and went on 4 bytes; nothing else has
changed (R151, R155). -/
def WritesTile (n : Reg) (x : Tile) (dirty : Bool) (len : Nat) (s t : State) : Prop :=
  t = { s with ag := { s.ag with t := s.ag.t.setIfInBounds n.toNat x, tdirty := t.ag.tdirty,
                                 pc := s.ag.pc + BitVec.ofNat 64 len, run := .running, inhand := none } } ∧
    ∀ k < 8, t.ag.tdirty.getLsbD k = if k = n.toNat then dirty else s.ag.tdirty.getLsbD k

/-! ## Results, as the spec states them -/

/-- R37: an exact integer fitted to n64 or i64: it wraps, or it saturates and sets ISAT. -/
def fitted (u sat : Bool) (z : Int) : Word × Sticky :=
  let lo : Int := if u then 0 else -(2 ^ 63)
  let hi : Int := if u then 2 ^ 64 - 1 else 2 ^ 63 - 1
  if sat && (z < lo || hi < z) then (BitVec.ofInt 64 (max lo (min hi z)), stISAT) else (BitVec.ofInt 64 z, 0)

/-- R36, R109: an integer instruction saturates by its mode field, or by SATMODE. -/
def saturates (s : State) (m : IMode) : Bool :=
  match m with
  | .byStatus => s.ag.status.getLsbD 4
  | .wrap => false
  | .sat => true

/-- R36, R110: the rounding direction of an RM field; STATUS codes 101 to 111 round as RNE. -/
def rounding (s : State) (r : RMode) : Rnd :=
  match r with
  | .byStatus =>
    if s.ag.status.extractLsb' 1 3 = 1 then .rtz else if s.ag.status.extractLsb' 1 3 = 2 then .rup
    else if s.ag.status.extractLsb' 1 3 = 3 then .rdn else if s.ag.status.extractLsb' 1 3 = 4 then .rto else .rne
  | .rne => .rne
  | .rtz => .rtz
  | .rup => .rup
  | .rdn => .rdn
  | .rto => .rto

/-- R111: the value of a predicate that a true or a false result writes. -/
def truth (b : Bool) : Word := if b then BitVec.allOnes 64 else 0

end Sys2Proof.Machine
end

