-- ==== Sys2Proof/Certificates/Slice0/Obligations.lean ====
section
/-! DEFINITION. The statements about the machine. -/

open Sys2Proof Sys2Proof.Machine

/-! ## Encoding, steps, reset, invariants -/

/-- Decoding the words of a well-formed instruction word gives it back, for every operand. -/
def Obligations.EncodeThenDecode : Prop :=
  ∀ i : Instr, i.isEvent = false → i.wf = true → decodeWords (encode0 i) (encode1 i) = .ok i

/-- Every word that decodes is the word of what it decodes to: no bit of it is dropped, and two words never name one
instruction (R87, R95). -/
def Obligations.DecodeThenEncode : Prop :=
  ∀ (w0 : Nat) (w1 : BitVec 32) (i : Instr), w0 < 2 ^ 32 → decodeWords w0 w1 = .ok i →
    i.wf = true ∧ i.isEvent = false ∧ encode0 i = w0 ∧ i.isLong = longWord w0 ∧ (longWord w0 = true → encode1 i = w1)

/-- Words that the spec prints beside its examples decode to the instructions that it prints. -/
def Obligations.SpecWordsDecode : Prop :=
  decodeWords 0x62004DC1 0 = .ok (.vtopk 0 1 6 0 true) ∧
  decodeWords 0x5D38B080 0 = .ok (.vst 7 2 .f32 128) ∧
  decodeWords 0x4E0887C0 0 = .ok (.vcvt 1 2 3 .f32 0 .byStatus) ∧
  decodeWords 0x68304600 0 = .ok (.tcol 6 1 3 false) ∧
  decodeWords 0x65188040 0 = .ok (.tld 3 2 64) ∧
  decodeWords 0x6E188A00 0 = .ok (.oload 3 2 5) ∧
  decodeWords 0x6F115010 0 = .ok (.mma 2 5 40 false)

/-- An agent that issues runs the instruction that the bytes at its PC decode to, and keeps it in hand until it ends; word 1 of a long
form is read at PC + 4 (R85, R95). One that is blocked in an instruction goes on with that one and fetches it no second time. An event
and a request of the host run as they stand, and an error that comes from outside strikes. -/
def Obligations.StepRunsTheDecodedInstruction : Prop :=
  let runs := fun (s : State) (i : Instr) => exec i { issued s with ag := { (issued s).ag with inhand := some i } }
  (∀ (s : State) (aid w0 : Nat) (i : Instr),
    pickOne s.draws (candidates s) = some (.agent aid) → inHand (atIssue aid s).ag = none →
    fetchWord (atIssue aid s) (atIssue aid s).ag.pc = .word w0 → longWord w0 = false → decodeWords w0 0 = .ok i →
    step s = runs (atIssue aid s) i) ∧
  (∀ (s : State) (aid w0 w1 : Nat) (i j : Instr),
    pickOne s.draws (candidates s) = some (.agent aid) → inHand (atIssue aid s).ag = none →
    fetchWord (atIssue aid s) (atIssue aid s).ag.pc = .word w0 → longWord w0 = true → decodeWords w0 0 = .ok i →
    fetchWord (atIssue aid s) ((atIssue aid s).ag.pc + 4) = .word w1 →
    decodeWords w0 (BitVec.ofNat 32 w1) = .ok j → step s = runs (atIssue aid s) j) ∧
  (∀ (s : State) (aid : Nat) (i : Instr), pickOne s.draws (candidates s) = some (.agent aid) →
    inHand (atIssue aid s).ag = some i → step s = exec i (atIssue aid s)) ∧
  (∀ (s : State) (i : Instr), pickOne s.draws (candidates s) = some (.event i) → step s = exec i (tick s)) ∧
  (∀ (s : State) (k : Nat) (i : Instr), pickOne s.draws (candidates s) = some (.input k) → s.inputs[k]? = some i →
    step s = exec i { tick s with inputs := s.inputs.eraseIdx k }) ∧
  (∀ (s : State) (k : Nat) (e : SoftError), pickOne s.draws (candidates s) = some (.soft k) → s.softErrors[k]? = some e →
    step s = .next (softError e { tick s with softErrors := s.softErrors.eraseIdx k }))

/-- A word that names no instruction traps ILLEGAL_OP with the word in TRAPA; the agent has issued, and the trap changes nothing else
(R95, R236). -/
def Obligations.UndecodableWordsTrap : Prop :=
  ∀ (s : State) (aid w0 : Nat) (e : DecodeError),
    pickOne s.draws (candidates s) = some (.agent aid) → inHand (atIssue aid s).ag = none →
    fetchWord (atIssue aid s) (atIssue aid s).ag.pc = .word w0 → decodeWords w0 0 = .error e → Handles (issued (atIssue aid s)) →
    ∃ t, step s = .next t ∧ Traps cIllegalOp (BitVec.ofNat 64 w0) (issued (atIssue aid s)) t

/-- No step of any state stops: every step answers a next state. -/
def Obligations.NoStepStops : Prop := ∀ s : State, ∃ t, step s = .next t

/-- Every step keeps memory and every agent's snapshot in canonical form. -/
def Obligations.StepsKeepMemoryCanonical : Prop :=
  ∀ s t : State, Canonical s → step s = .next t → Canonical t

/-- Memory is in canonical form after reset. -/
def Obligations.ResetIsCanonical : Prop := Canonical State.reset

/-- What reset leaves where the spec gives a value: no bring-up step has completed, storage reads zero with tag 0x7FC0, no
context exists, and an agent that starts has zero tiles, TSHAPE all ones and TDIRTY 0 (R45, R82, R151, R417). That host memory
reads zero is the model's choice (log 5). -/
def Obligations.ResetState : Prop :=
  State.reset.boot.reached = 0 ∧ State.reset.ctxs = [] ∧ State.reset.insts = [] ∧
    (∀ l, memByte State.reset.mem l = 0) ∧ (∀ l, memTag State.reset.mem l = 0x7FC0) ∧
    ∀ (c : CoreId) (n : BitVec 3), (Agent.fresh c n).tshape = 0xFFFFFFFFFFFFFFFF ∧ (Agent.fresh c n).tdirty = 0 ∧
      (Agent.fresh c n).t = Vector.replicate 8 Tile.zero ∧ (Agent.fresh c n).trapvec = 0 ∧
      (Agent.fresh c n).status = 0 ∧ (Agent.fresh c n).rngkey = 0

/-- A byte just written is what is read there, and every other byte and every tag stays; the canonical form is kept. -/
def Obligations.MemoryReadAfterWrite : Prop :=
  ∀ (m : Mem) (l : Nat) (b : Byte),
    memByte (memSetByte m l b) l = b ∧ (∀ k, k ≠ l → memByte (memSetByte m l b) k = memByte m k) ∧
      (∀ k, memTag (memSetByte m l b) k = memTag m k) ∧ (Memory.wf m = true → Memory.wf (memSetByte m l b) = true)

/-! ## Class 0b00 and its long forms -/

/-- The integer operations: each source is read as n64 or i64 by U, the exact result wraps, or it saturates and sets ISAT;
a division by zero gives all ones, a remainder by zero the dividend. -/
def Obligations.IntegerArithmetic : Prop :=
  ∀ (s : State) (d a b : Reg) (m : IMode) (u : Bool),
    let x := val64 u (getS s a)
    let y := val64 u (getS s b)
    let gives := fun (i : Instr) (r : Word × Sticky) => ∃ t, exec i s = .next t ∧ WritesScalar d r.1 r.2 4 s t
    Free [.s d, .s a, .s b] s →
      gives (.add d a b m u) (fitted u (saturates s m) (x + y)) ∧
      gives (.sub d a b m u) (fitted u (saturates s m) (x - y)) ∧
      gives (.mul d a b m u) (fitted u (saturates s m) (x * y)) ∧
      gives (.mulh d a b u) (BitVec.ofInt 64 ((x * y) / 2 ^ 64), 0) ∧
      gives (.div d a b m u) (if getS s b = 0 then (BitVec.allOnes 64, 0) else fitted u (saturates s m) (x.tdiv y)) ∧
      gives (.rem d a b u) (if getS s b = 0 then (getS s a, 0) else (BitVec.ofInt 64 (x.tmod y), 0)) ∧
      gives (.min d a b u) (if y < x then getS s b else getS s a, 0) ∧
      gives (.max d a b u) (if x < y then getS s b else getS s a, 0)

/-- The logic and shift operations; a shift count is taken modulo 64. CLZ counts the zero bits above the highest set bit, and
POPC the set bits. -/
def Obligations.LogicAndShifts : Prop :=
  ∀ (s : State) (d a b : Reg),
    let x := getS s a
    let y := getS s b
    let gives := fun (i : Instr) (r : Word) => ∃ t, exec i s = .next t ∧ WritesScalar d r 0 4 s t
    (Free [.s d, .s a] s → gives (.popc d a) (BitVec.ofNat 64 ((List.range 64).countP fun i => x.getLsbD i)) ∧
      ∃ n ≤ 64, (∀ i, 64 - n ≤ i → i < 64 → x.getLsbD i = false) ∧ (n < 64 → x.getLsbD (63 - n) = true) ∧
        gives (.clz d a) (BitVec.ofNat 64 n)) ∧
    (Free [.s d, .s a, .s b] s →
      gives (.and d a b) (x &&& y) ∧ gives (.or d a b) (x ||| y) ∧ gives (.xor d a b) (x ^^^ y) ∧
      gives (.andn d a b) (x &&& ~~~y) ∧
      gives (.shl d a b) (x <<< (y.toNat % 64)) ∧ gives (.shr d a b) (x >>> (y.toNat % 64)) ∧
      gives (.sar d a b) (x.sshiftRight (y.toNat % 64)) ∧
      gives (.rot d a b) ((x <<< (y.toNat % 64)) ||| (x >>> (64 - y.toNat % 64))))

/-- The constant forms, short and long: ADDI and ADDL add a sign-extended constant and fit the result; the logic forms take
it sign-extended, or zero-extended with Z; MOVI writes a constant, or bits 63 to 32 alone; SEL picks by bit 0 of its
predicate. -/
def Obligations.ConstantForms : Prop :=
  ∀ (s : State) (d a b : Reg) (k : PReg) (imm : BitVec 14) (n : BitVec 6) (w : BitVec 32) (m : IMode) (z : Bool),
    let x := getS s a
    let gives := fun (i : Instr) (r : Word × Sticky) (len : Nat) => ∃ t, exec i s = .next t ∧ WritesScalar d r.1 r.2 len s t
    let c := if z then w.setWidth 64 else w.signExtend 64
    Free [.s d, .s a, .s b, .p k.toNat] s →
      gives (.addi d a imm) (fitted false (saturates s .byStatus) (x.toInt + imm.toInt)) 4 ∧
      gives (.addl d a m w) (fitted false (saturates s m) (x.toInt + w.toInt)) 8 ∧
      gives (.andi d a imm) (x &&& imm.signExtend 64, 0) 4 ∧ gives (.ori d a imm) (x ||| imm.signExtend 64, 0) 4 ∧
      gives (.xori d a imm) (x ^^^ imm.signExtend 64, 0) 4 ∧
      gives (.shli d a n) (x <<< n.toNat, 0) 4 ∧ gives (.shri d a n) (x >>> n.toNat, 0) 4 ∧
      gives (.sari d a n) (x.sshiftRight n.toNat, 0) 4 ∧
      gives (.andl d a z w) (x &&& c, 0) 8 ∧ gives (.orl d a z w) (x ||| c, 0) 8 ∧ gives (.xorl d a z w) (x ^^^ c, 0) 8 ∧
      gives (.movi d .sext w) (w.signExtend 64, 0) 8 ∧ gives (.movi d .zext w) (w.setWidth 64, 0) 8 ∧
      gives (.movi d .hi w) (w ++ (getS s d).extractLsb' 0 32, 0) 8 ∧
      gives (.sel d a b k) (if (getP s k.toNat).getLsbD 0 then x else getS s b, 0) 4

/-- The integer comparisons write all ones or zero to a predicate register and set no flag; the constant of CMPI and CMPL is
sign-extended. -/
def Obligations.IntegerCompare : Prop :=
  ∀ (s : State) (d a b : Reg) (u : Bool) (c : ICond) (imm : BitVec 10) (w : BitVec 32),
    let holds := fun (x y : Int) => match c with
      | .eq => decide (x = y) | .ne => decide (x ≠ y) | .lt => decide (x < y)
      | .ge => decide (x ≥ y) | .le => decide (x ≤ y) | .gt => decide (x > y)
    let gives := fun (i : Instr) (y : Word) (len : Nat) => ∃ t, exec i s = .next t ∧
      WritesPred d.toNat (truth (holds (val64 u (getS s a)) (val64 u y))) 0 len s t
    d.toNat < 8 → Free [.p d.toNat, .s a, .s b] s →
      gives (.cmp d a b u c) (getS s b) 4 ∧ gives (.cmpi d a c u imm) (imm.signExtend 64) 4 ∧
      gives (.cmpl d a u c w) (w.signExtend 64) 8

/-- The floating operations read f64, or f32 with P, and write one rounded result with its sticky bits; the bits above the
format are zero. FMIN and FMAX return an operand unchanged; FCLASS sets no flag. -/
def Obligations.FloatArithmetic : Prop :=
  ∀ (s : State) (d a b : Reg) (r : RMode) (p : Bool),
    let f : Fmt := if p then fmtF32 else fmtF64
    let src := fun (x : Reg) => if p then (getS s x).toNat % 2 ^ 32 else (getS s x).toNat
    let x := fvDecode f (src a)
    let y := fvDecode f (src b)
    let rounded := fun (q : FVal × Sticky) =>
      (BitVec.ofNat 64 (roundTo f (rounding s r) q.1).1, q.2 ||| (roundTo f (rounding s r) q.1).2)
    let gives := fun (i : Instr) (q : Word × Sticky) => ∃ t, exec i s = .next t ∧ WritesScalar d q.1 q.2 4 s t
    Free [.s d, .s a, .s b] s →
      gives (.fadd d a b r p) (rounded (fvAdd (rounding s r) x y)) ∧
      gives (.fsub d a b r p) (rounded (fvAdd (rounding s r) x (fvNeg y))) ∧
      gives (.fmul d a b r p) (rounded (fvMul x y)) ∧
      gives (.fdiv d a b r p) (rounded (fvDiv x y)) ∧
      gives (.fsqrt d a r p) (rounded (fvSqrt x)) ∧
      gives (.fma d a b r p) (rounded (fvFma (rounding s r) x y (fvDecode f (src d)))) ∧
      gives (.fmin d a b p) (BitVec.ofNat 64 (fminmax f false (src a) (src b)).1, (fminmax f false (src a) (src b)).2) ∧
      gives (.fmax d a b p) (BitVec.ofNat 64 (fminmax f true (src a) (src b)).1, (fminmax f true (src a) (src b)).2) ∧
      gives (.fclass d a p) (fclassOf f (src a), 0)

/-- FCVT between two floating types, from an integer type, and to an integer type, which saturates and never wraps. -/
def Obligations.FloatConversion : Prop :=
  ∀ (s : State) (d a : Reg) (r : RMode), Free [.s d, .s a] s →
    let gives := fun (i : Instr) (q : Word × Sticky) => ∃ t, exec i s = .next t ∧ WritesScalar d q.1 q.2 4 s t
    let x := getS s a
    let flt := fun (f : Fmt) (v : FVal) => (BitVec.ofNat 64 (roundTo f (rounding s r) v).1, (roundTo f (rounding s r) v).2)
    let int := fun (lo hi : Int) (v : FVal) =>
      (BitVec.ofInt 64 (fvToRange (rounding s r) lo hi true v).1, (fvToRange (rounding s r) lo hi true v).2)
    gives (.fcvt d a r .f32 .f64) (flt fmtF32 (fvDecode fmtF64 x.toNat)) ∧
    gives (.fcvt d a r .f64 .f32) (flt fmtF64 (fvDecode fmtF32 (x.toNat % 2 ^ 32))) ∧
    gives (.fcvt d a r .f16 .f32) (flt fmtF16 (fvDecode fmtF32 (x.toNat % 2 ^ 32))) ∧
    gives (.fcvt d a r .bf16 .f32) (flt fmtBF16 (fvDecode fmtF32 (x.toNat % 2 ^ 32))) ∧
    gives (.fcvt d a r .f64 .i64) (flt fmtF64 (fvInt x.toInt)) ∧
    gives (.fcvt d a r .f64 .n64) (flt fmtF64 (fvInt x.toNat)) ∧
    gives (.fcvt d a r .f32 .i32) (flt fmtF32 (fvInt (x.setWidth 32).toInt)) ∧
    gives (.fcvt d a r .f32 .i16) (flt fmtF32 (fvInt (x.setWidth 16).toInt)) ∧
    gives (.fcvt d a r .i64 .f64) (int (-(2 ^ 63)) (2 ^ 63 - 1) (fvDecode fmtF64 x.toNat)) ∧
    gives (.fcvt d a r .n64 .f64) (int 0 (2 ^ 64 - 1) (fvDecode fmtF64 x.toNat)) ∧
    gives (.fcvt d a r .i32 .f16) (int (-(2 ^ 31)) (2 ^ 31 - 1) (fvDecode fmtF16 (x.toNat % 2 ^ 16))) ∧
    gives (.fcvt d a r .i16 .bf16) (int (-(2 ^ 15)) (2 ^ 15 - 1) (fvDecode fmtBF16 (x.toNat % 2 ^ 16)))

/-- FCMP writes a predicate; a NaN is unordered: un and ne hold of it, and lt and le set NV for it. -/
def Obligations.FloatCompare : Prop :=
  ∀ (s : State) (d a b : Reg) (p : Bool) (c : FCond),
    let f : Fmt := if p then fmtF32 else fmtF64
    let src := fun (x : Reg) => fvDecode f (if p then (getS s x).toNat % 2 ^ 32 else (getS s x).toNat)
    let nan := fvIsNan (src a) || fvIsNan (src b)
    let sig := src a == .nan true || src b == .nan true
    let k := fvCmp (src a) (src b)
    let res := match c with
      | .eq => !nan && k == 0
      | .lt => !nan && decide (k < 0)
      | .le => !nan && decide (k ≤ 0)
      | .un => nan
      | .ne => nan || k != 0
    let ordered := c == .lt || c == .le
    d.toNat < 8 → Free [.p d.toNat, .s a, .s b] s →
      ∃ t, exec (.fcmp d a b c p) s = .next t ∧
        WritesPred d.toNat (truth res) (if sig || (nan && ordered) then stNV else 0) 4 s t

/-- Rounding. A code that is no NaN has an exact value, and rounding that value in any direction gives the code back with no
flag: in f64, f32, f16, bf16 and float A48. On a magnitude of which sh low bits are lost, RTZ keeps the quotient, RNE is
nearest with ties to even, RUP and RDN go up and down by the sign, RTO makes an inexact result odd; the second part says
whether it is inexact. -/
def Obligations.Rounding : Prop :=
  (∀ f ∈ [fmtF64, fmtF32, fmtF16, fmtBF16, fmtA48], ∀ (rm : Rnd) (x : Nat), x < 2 ^ fmtWidth f →
    fvIsNan (fvDecode f x) = false → roundTo f rm (fvDecode f x) = (x, 0)) ∧
  ∀ (neg : Bool) (man sh : Nat),
    let r := fun (m : Rnd) => (roundShift m neg man sh).1
    let down := man / 2 ^ sh
    let up := (man + (2 ^ sh - 1)) / 2 ^ sh
    r .rtz = down ∧ r .rup = (if neg then down else up) ∧ r .rdn = (if neg then up else down) ∧
      2 * (r .rne * 2 ^ sh - man) ≤ 2 ^ sh ∧ 2 * (man - r .rne * 2 ^ sh) ≤ 2 ^ sh ∧
      (2 * (man % 2 ^ sh) = 2 ^ sh → r .rne % 2 = 0) ∧
      (r .rto = down ∨ r .rto = up) ∧ (man % 2 ^ sh ≠ 0 → r .rto % 2 = 1) ∧
      ∀ m, (roundShift m neg man sh).2 = decide (man % 2 ^ sh ≠ 0)

/-- NOP only goes on. Branches and calls go to PC + 4 × offset when taken; a jump to a register value must be a multiple of
4, or it traps MISALIGNED with that value; the calls leave the return address; LOOP counts down. -/
def Obligations.ControlFlow : Prop :=
  ∀ (s : State) (d a : Reg) (k : PReg) (o21 : BitVec 21) (o14 : BitVec 14) (w : BitVec 32),
    let goes := fun (i : Instr) (x : Word) (r : Reg) (y : Word) => ∃ t, exec i s = .next t ∧ JumpsTo x r y s t
    let falls := fun (i : Instr) (r : Reg) (y : Word) (n : Nat) => ∃ t, exec i s = .next t ∧ WritesScalar r y 0 n s t
    let pc := s.ag.pc
    let taken := (getP s k.toNat).getLsbD 0
    falls .nop 0 0 4 ∧
    (Free [.p k.toNat] s →
      (taken = true → goes (.br k o21) (pc + 4 * o21.signExtend 64) 0 0 ∧ goes (.brl k w) (pc + 4 * w.signExtend 64) 0 0) ∧
      (taken = false → falls (.br k o21) 0 0 4 ∧ falls (.brl k w) 0 0 8)) ∧
    (Free [.s 31] s →
      goes (.call o21) (pc + 4 * o21.signExtend 64) 31 (pc + 4) ∧ goes (.calll w) (pc + 4 * w.signExtend 64) 31 (pc + 8) ∧
      (Aligned 4 (getS s 31) → goes .ret (getS s 31) 0 0)) ∧
    (Free [.s a] s → Aligned 4 (getS s a) → goes (.jmp a) (getS s a) 0 0) ∧
    (Free [.s d] s →
      ((getS s d).toNat ≤ 1 → falls (.loop d o14) d 0 4) ∧
      (1 < (getS s d).toNat → goes (.loop d o14) (pc + 4 * o14.signExtend 64) d (getS s d - 1)) ∧
      (Aligned 4 (pc + 4 * w.signExtend 64) → goes (.jmpl d none w) (pc + 4 * w.signExtend 64) d (pc + 8))) ∧
    (Free [.s d, .s a] s → Aligned 4 (getS s a + 4 * w.signExtend 64) →
      goes (.jmpl d (some a) w) (getS s a + 4 * w.signExtend 64) d (pc + 8)) ∧
    (Handles s →
      let traps := fun (i : Instr) (x : Word) => ∃ t, exec i s = .next t ∧ Traps cMisaligned x s t
      (Free [.s a] s → ¬ Aligned 4 (getS s a) → traps (.jmp a) (getS s a)) ∧
      (Free [.s 31] s → ¬ Aligned 4 (getS s 31) → traps .ret (getS s 31)) ∧
      (Free [.s d, .s a] s → ¬ Aligned 4 (getS s a + 4 * w.signExtend 64) →
        traps (.jmpl d (some a) w) (getS s a + 4 * w.signExtend 64)) ∧
      (Free [.s d] s → ¬ Aligned 4 (s.ag.pc + 4 * w.signExtend 64) →
        traps (.jmpl d none w) (s.ag.pc + 4 * w.signExtend 64)))

/-- A register field at or beyond its declared count traps ILLEGAL_REG with the field's value (an accumulator's with 0x40 added), and the
trap changes nothing but the trap registers, the handler state and the PC: scalar, vector, predicate, tile, queue and accumulator
fields. Of several, the first in the order d, a, b and then p gives TRAPA, which is the model's choice (log 29). -/
def Obligations.RegistersBeyondTheirCountTrap : Prop :=
  ∀ (s : State) (d a b q : Reg) (p k : PReg) (m : IMode) (u : Bool) (t : VTy) (x : VSrc) (w : BitVec 11)
    (oa ob : Slot) (ty : AwrTy), Handles s →
    let xb : RegUse := match x with
      | .v r => .v r
      | .s r => .s r
    let abc := [RegUse.s d, .s a, .s b]
    let scalar := [Instr.add d a b m u, .sub d a b m u, .mul d a b m u, .mulh d a b u, .div d a b m u, .rem d a b u, .and d a b,
      .or d a b, .xor d a b, .andn d a b, .shl d a b, .shr d a b, .sar d a b, .rot d a b, .min d a b u, .max d a b u]
    let cases : List (Instr × List RegUse) := (scalar.map fun i => (i, abc)) ++
      [(.vmin d a x t p, [.v d, .v a, xb, .p p.toNat]), (.vand d a x t p, [.v d, .v a, xb, .p p.toNat]),
        (.vcmp k a x t p .eq, [.p k.toNat, .v a, xb, .p p.toNat]), (.vmov d a t p, [.v d, .v a, .p p.toNat]),
        (.vcnt d a t u, [.s d, .p a.toNat]), (.br k 0, [.p k.toNat]), (.vld d a t w, [.v d, .s a]),
        (.tld d a w, [.t d, .s a]), (.tzero d, [.t d]), (.qput q a, [.q q, .v a]), (.qget d q, [.v d, .q q]), (.qflush q, [.q q])]
    let matrix : List (Instr × List RegUse) :=
      [(.mma q oa ob u, [.acc q]), (.azero q, [.acc q]), (.awr q a b ty, [.acc q, .s a, .s b])]
    let beyond := fun (r : RegUse) => match r with
      | .s r => s.ag.ns ≤ r.toNat
      | .v r => s.ag.nv ≤ r.toNat
      | .p k => s.ag.np ≤ k
      | .t r => s.ag.nt ≤ r.toNat
      | .q r => 8 ≤ r.toNat
      | .acc r => 16 ≤ r.toNat
    let value : RegUse → Word := fun r => match r with
      | .s r => r.setWidth 64
      | .v r => r.setWidth 64
      | .p k => BitVec.ofNat 64 k
      | .t r => r.setWidth 64
      | .q r => r.setWidth 64
      | .acc r => 0x40 + r.setWidth 64
    let traps : Instr → List RegUse → Prop := fun i us => ∀ (j : Nat) (r : RegUse), us[j]? = some r → beyond r →
      (∀ i < j, ∀ r, us[i]? = some r → ¬ beyond r) → ∃ t, exec i s = .next t ∧ Traps cIllegalReg (value r) s t
    (∀ c ∈ cases, traps c.1 c.2) ∧ (isVectorCore s.ag.place = false → ∀ c ∈ matrix, traps c.1 c.2)

/-- CRD reads the control registers of R81: STATUS with TOPX in bit 0, TSHAPE, TDIRTY, EXTS by the kind of core, WHERE,
GROUPID, KPARAM0 to 15, the trap registers, OUTREQ, PHASEN, CYCLE, the counters of the core, RNGKEY and CTX. CWR writes the RW fields of
a control register and nothing else: the sticky bits, SATMODE and RMODE of STATUS; TRAPPC, TRAPVEC and RNGKEY whole; the others ignore
it. Both wait for the engines at STATUS, TSHAPE, TDIRTY and 0x020 to 0x025 (R127). Every number that R81 does not list traps
ILLEGAL_OP. -/
def Obligations.ControlRegisters : Prop :=
  let listed := fun (n : BitVec 12) => n.toNat ≤ 5 ∨ (0x10 ≤ n.toNat ∧ n.toNat ≤ 0x1F) ∨ (0x20 ≤ n.toNat ∧ n.toNat ≤ 0x26) ∨
    (0x30 ≤ n.toNat ∧ n.toNat ≤ 0x33) ∨ n = 0x040 ∨ n = 0x041
  (∀ (s : State) (d : Reg), Free [.s d] s → enginesBusy s = false →
    let reads := fun (n : BitVec 12) (x : Word) => ∃ t, exec (.crd d n) s = .next t ∧ WritesScalar d x 0 4 s t
    reads 0x000 (s.ag.status ||| (if s.core.topx then 1 else 0)) ∧ reads 0x001 s.ag.tshape ∧
      reads 0x002 (s.ag.tdirty.setWidth 64) ∧ reads 0x003 (if coreNumOf s.ag.place % 4 = 3 then 0x40E else 0x20D) ∧
      reads 0x004 (BitVec.ofNat 64 (0xFE * 2 ^ 48 + s.ag.place.toNat % 1024 * 2 ^ 22 + s.ag.num.toNat)) ∧
      reads 0x005 s.ag.groupid ∧
      (∀ k : Fin 16, reads (0x010 + BitVec.ofNat 12 k.val) s.core.kparam[k]) ∧
      reads 0x020 s.ag.trapc ∧ reads 0x021 s.ag.trappc ∧ reads 0x022 s.ag.trapa ∧ reads 0x023 s.ag.trapseq ∧
      reads 0x024 s.ag.trapvec ∧ reads 0x025 (s.ag.outreq.setWidth 64) ∧ reads 0x026 (s.ag.phasen.setWidth 64) ∧
      (∃ x t, s.cycle.toNat ≤ x.toNat ∧ exec (.crd d 0x030) s = .next t ∧ WritesScalar d x 0 4 { s with cycle := x } t) ∧
      reads 0x031 s.core.stopcnt ∧ reads 0x032 s.core.sentcnt ∧ reads 0x033 s.core.rcvdcnt ∧ reads 0x040 s.ag.rngkey ∧
      reads 0x041 (BitVec.ofNat 64 (s.cfg.position.toNat * 256 + s.ag.ctx % 64))) ∧
  (∀ (s : State) (a : Reg), Free [.s a] s → enginesBusy s = false →
    let x := getS s a
    let next := s.ag.pc + 4
    exec (.cwr 0x000 a) s = .next { s with ag := { s.ag with status := (s.ag.status &&& ~~~0xFF1E) ||| (x &&& 0xFF1E),
                                                             pc := next, run := .running, inhand := none } } ∧
    exec (.cwr 0x021 a) s = .next { s with ag := { s.ag with trappc := x, pc := next, run := .running, inhand := none } } ∧
    exec (.cwr 0x024 a) s = .next { s with ag := { s.ag with trapvec := x, pc := next, run := .running, inhand := none } } ∧
    exec (.cwr 0x040 a) s = .next { s with ag := { s.ag with rngkey := x, pc := next, run := .running, inhand := none } } ∧
    ∀ n, listed n → n ∉ [0x000, 0x021, 0x024, 0x040] →
      exec (.cwr n a) s = .next { s with ag := { s.ag with pc := next, run := .running, inhand := none } }) ∧
  (∀ (s : State) (a : Reg) (n : BitVec 12), Free [.s a] s → enginesBusy s = true → n.toNat < 3 ∨ (0x20 ≤ n.toNat ∧ n.toNat ≤ 0x25) →
    exec (.crd a n) s = .next (blockOn .engines s) ∧ exec (.cwr n a) s = .next (blockOn .engines s)) ∧
  ∀ (s : State) (a : Reg) (n : BitVec 12), Handles s → ¬ listed n →
    (∃ t, exec (.crd a n) s = .next t ∧ Traps cIllegalOp (word0 (.crd a n)) s t) ∧
      ∃ t, exec (.cwr n a) s = .next t ∧ Traps cIllegalOp (word0 (.cwr n a)) s t

/-- TRAP takes the trap TRAP_INSN with its code in TRAPA: TRAPC, TRAPPC, TRAPA and TRAPSEQ are written, handler state is
set, and the PC is TRAPVEC with its low two bits clear. With no vector, or inside a handler, the agent stops with the
registers written, and its instance is reported faulted. -/
def Obligations.TakingATrap : Prop :=
  ∀ (s : State) (code : BitVec 14),
    (Handles s → ∃ t, exec (.trap code) s = .next t ∧ Traps cTrapInsn (code.setWidth 64) s t) ∧
    (¬ Handles s → ∃ t, exec (.trap code) s = .next t ∧ t.ag.run = .dead ∧ t.ag.trapc = 0x13 ∧ t.ag.trappc = s.ag.pc ∧
      t.ag.trapa = code.setWidth 64 ∧ t.ag.trapseq = 0 ∧ t.ag.pc = s.ag.pc ∧
      t.faultReports = s.faultReports ++ [(s.ag.ctx, s.ag.inst)] ∧ t.mem = s.mem)

/-! ## Class 0b01, vectors -/

/-- Lane arithmetic: each active lane is computed from the lanes of va, of vb or sb, and of vd for VFMA; va's tag says how
lanes of type 000 are read; the other lanes keep their bits, and the flags of active lanes alone are set. -/
def Obligations.LaneArithmetic : Prop :=
  ∀ (s : State) (d a : Reg) (b : VSrc) (t : VTy) (p : PReg) (m : IMode) (k : LaneKind),
    let x := fun i => lane (8 * t.bytes) i (getV s a)
    let y := fun i => match b with
      | .v r => lane (8 * t.bytes) i (getV s r)
      | .s r => (getS s r).toNat % 2 ^ (8 * t.bytes)
    let z := fun i => lane (8 * t.bytes) i (getV s d)
    let op := fun (o : LaneOp) (sat : Bool) (i : Nat) => laneOp k (8 * t.bytes) sat (rounding s .byStatus) o (x i) (y i) (z i)
    let gives := fun (i : Instr) (o : LaneOp) (sat : Bool) =>
      ∃ u, exec i s = .next u ∧ WritesLanes d t (getP s p.toNat) (op o sat) 4 s u
    Free [.v d, .v a, srcUse b, .p p.toNat] s → Clean (a :: srcVecs b) s → laneKind t (tagFormat (getVT s a)) = some k →
      (t.modeOk m = true →
        gives (.vadd d a b t p m) .add (saturates s m) ∧ gives (.vsub d a b t p m) .sub (saturates s m) ∧
        gives (.vmul d a b t p m) .mul (saturates s m) ∧
        (Clean [d] s → gives (.vfma d a b t p m) .fma (saturates s m)) ∧
        gives (.vabs d a t p m) .abs (saturates s m) ∧ gives (.vneg d a t p m) .neg (saturates s m)) ∧
      gives (.vmin d a b t p) .min false ∧ gives (.vmax d a b t p) .max false

/-- What lane arithmetic computes on integer lanes: the exact result fitted to the lane, wrapping, or saturating with ISAT; a
lane is read with its sign or without (R37, R133); and a comparison of two integer lanes, and of two floating ones, where a
NaN is unordered: ne and un hold of it (R135). -/
def Obligations.LaneResults : Prop :=
  (∀ (sg : Bool) (w : Nat) (rm : Rnd) (a b d : Nat), 0 < w → a < 2 ^ w → b < 2 ^ w → d < 2 ^ w →
    let lo : Int := if sg then -(2 ^ (w - 1)) else 0
    let hi : Int := if sg then 2 ^ (w - 1) - 1 else 2 ^ w - 1
    let val := fun (x : Nat) => if sg && decide (2 ^ (w - 1) ≤ x) then (x : Int) - 2 ^ w else (x : Int)
    let exact := fun (o : LaneOp) => match o with
      | .add => val a + val b
      | .sub => val a - val b
      | .mul => val a * val b
      | .fma => val a * val b + val d
      | .min => min (val a) (val b)
      | .max => max (val a) (val b)
      | .abs => ((val a).natAbs : Int)
      | .neg => -val a
    ∀ o : LaneOp,
      (laneOp (.int sg) w false rm o a b d).1 < 2 ^ w ∧
      (2 ^ w : Int) ∣ val (laneOp (.int sg) w false rm o a b d).1 - exact o ∧ (laneOp (.int sg) w false rm o a b d).2 = 0 ∧
      val (laneOp (.int sg) w true rm o a b d).1 = max lo (min hi (exact o)) ∧
      (laneOp (.int sg) w true rm o a b d).2 = if lo ≤ exact o ∧ exact o ≤ hi then 0 else stISAT) ∧
  (∀ (sg : Bool) (w : Nat) (c : VCond) (a b : Nat), 0 < w → a < 2 ^ w → b < 2 ^ w → c ≠ .un →
    let val := fun (x : Nat) => if sg && decide (2 ^ (w - 1) ≤ x) then (x : Int) - 2 ^ w else (x : Int)
    laneCmp (.int sg) w c a b = (match c with
      | .eq => decide (a = b) | .ne => decide (a ≠ b) | .lt => decide (val a < val b) | .ge => decide (val a ≥ val b)
      | .le => decide (val a ≤ val b) | .gt => decide (val a > val b) | .un => false, 0)) ∧
  ∀ (f : Fmt) (w : Nat) (a b : Nat), fvIsNan (fvDecode f a) = true ∨ fvIsNan (fvDecode f b) = true →
    (laneCmp (.flt f) w .un a b).1 = true ∧ (laneCmp (.flt f) w .ne a b).1 = true ∧
      ∀ c ∈ [VCond.eq, .lt, .ge, .le, .gt], (laneCmp (.flt f) w c a b).1 = false

/-- Lane bit operations, on the bits of each active lane: shift counts are taken modulo the lane width. -/
def Obligations.LaneBits : Prop :=
  ∀ (s : State) (d a : Reg) (b : VSrc) (t : VTy) (p : PReg),
    let w := 8 * t.bytes
    let x := fun i => lane w i (getV s a)
    let y := fun i => match b with
      | .v r => lane w i (getV s r)
      | .s r => (getS s r).toNat % 2 ^ w
    let gives := fun (i : Instr) (f : Nat → Nat) =>
      ∃ u, exec i s = .next u ∧ WritesLanes d t (getP s p.toNat) (fun j => (f j, 0)) 4 s u
    Free [.v d, .v a, srcUse b, .p p.toNat] s → Clean (a :: srcVecs b) s →
      gives (.vand d a b t p) (fun i => x i &&& y i) ∧ gives (.vor d a b t p) (fun i => x i ||| y i) ∧
      gives (.vxor d a b t p) (fun i => x i ^^^ y i) ∧
      (t.isFloat = false →
        gives (.vshl d a b t p) (fun i => x i <<< (y i % w)) ∧ gives (.vshr d a b t p) (fun i => x i >>> (y i % w)) ∧
        gives (.vsar d a b t p) (fun i => ((BitVec.ofNat w (x i)).sshiftRight (y i % w)).toNat) ∧
        gives (.vpopc d a t p) (fun i => (List.range w).countP fun j => (x i).testBit j))

/-- Lane moves: select by predicate, permute by index modulo the lane count, broadcast a lane, a scalar or a constant, copy,
insert, and number the lanes; VEXT takes a lane out, extended by its type. -/
def Obligations.LaneMoves : Prop :=
  ∀ (s : State) (d a r : Reg) (b : VSrc) (t : VTy) (p : PReg) (k : Reg) (c : BitVec 32),
    let w := 8 * t.bytes
    let x := fun i => lane w i (getV s a)
    let y := fun i => match b with
      | .v q => lane w i (getV s q)
      | .s q => (getS s q).toNat % 2 ^ w
    let gives := fun (i : Instr) (q : Word) (f : Nat → Nat) =>
      ∃ u, exec i s = .next u ∧ WritesLanes d t q (fun j => (f j, 0)) 4 s u
    let all : Word := BitVec.allOnes 64
    let pr := getP s p.toNat
    (Free [.v d, .v a, srcUse b, .p p.toNat] s → Clean (a :: srcVecs b) s →
      gives (.vsel d a b t p) all (fun i => if pr.getLsbD (i * t.bytes) then x i else y i) ∧
      gives (.vperm d a b t p) pr (fun i => x (y i % t.lanes)) ∧ gives (.vmov d a t p) pr x ∧
      (k.toNat < t.lanes → gives (.vbcast d (.lane a k) t p) pr (fun _ => x k.toNat))) ∧
    (Free [.v d, .s r, .p p.toNat] s →
      gives (.vbcast d (.s r) t p) pr (fun _ => (getS s r).toNat) ∧
      (t.isFloat = false → gives (.vidx d r t p) pr (fun i => (getS s r).toNat + i))) ∧
    (Free [.v d] s → ∃ u, exec (.vbcasti d t c) s = .next u ∧ WritesLanes d t all (fun _ =>
      if t = .i64 then ((c.signExtend 64).toNat, 0)
      else if t = .f64 then ((roundTo fmtF64 .rne (fvDecode fmtF32 c.toNat)).1,
        if fvIsNan (fvDecode fmtF32 c.toNat) then stNV else 0)
      else (c.toNat, 0)) 8 s u) ∧
    (Free [.v d, .s a, .s r] s →
      (k.toNat < t.lanes → gives (.vins d a (.k k) t) all (fun i => if i = k.toNat then (getS s a).toNat else
        lane w i (getV s d))) ∧
      gives (.vins d a (.s r) t) all (fun i => if i = (getS s r).toNat % t.lanes then (getS s a).toNat else
        lane w i (getV s d))) ∧
    (Free [.s d, .v a, .s r] s → Clean [a] s →
      let ext := fun (i : Nat) => if t = .i16 ∨ t = .i32 ∨ (t = .b8 ∧ laneKind .b8 (tagFormat (getVT s a)) = some (.int true))
        then ((BitVec.ofNat w (x i)).signExtend 64) else BitVec.ofNat 64 (x i)
      (k.toNat < t.lanes → ∃ u, exec (.vext d a (.k k) t) s = .next u ∧ WritesScalar d (ext k.toNat) 0 4 s u) ∧
      ∃ u, exec (.vext d a (.s r) t) s = .next u ∧ WritesScalar d (ext ((getS s r).toNat % t.lanes)) 0 4 s u)

/-- VCMP writes every bit of an active lane alike and keeps the bits of the others; VCNT counts active lanes, or those before
the first inactive one. -/
def Obligations.VectorCompare : Prop :=
  ∀ (s : State) (k p : PReg) (d a e : Reg) (b : VSrc) (t : VTy) (c : VCond) (kd : LaneKind),
    let y := fun i => match b with
      | .v r => lane (8 * t.bytes) i (getV s r)
      | .s r => (getS s r).toNat % 2 ^ (8 * t.bytes)
    let q := fun i => laneCmp kd (8 * t.bytes) c (lane (8 * t.bytes) i (getV s a)) (y i)
    let act := fun (i : Nat) => (getP s p.toNat).getLsbD (i * t.bytes)
    (Free [.p k.toNat, .v a, srcUse b, .p p.toNat] s → Clean (a :: srcVecs b) s →
      laneKind t (tagFormat (getVT s a)) = some kd → (c = .un → t.isFloat = true) →
      ∃ u x f, exec (.vcmp k a b t p c) s = .next u ∧ WritesPred k.toNat x f 4 s u ∧
        (∀ j < 64, x.getLsbD j = if act (j / t.bytes) then (q (j / t.bytes)).1 else (getP s k.toNat).getLsbD j) ∧
        ∀ n, f.getLsbD n = true ↔ ∃ i < t.lanes, act i = true ∧ (q i).2.getLsbD n = true) ∧
    (Free [.s d, .p e.toNat] s →
      let has := fun (i : Nat) => (getP s e.toNat).getLsbD (i * t.bytes)
      (∃ u, exec (.vcnt d e t false) s = .next u ∧
        WritesScalar d (BitVec.ofNat 64 ((List.range t.lanes).countP has)) 0 4 s u) ∧
      ∃ n ≤ t.lanes, (∀ i < n, has i = true) ∧ (n < t.lanes → has n = false) ∧
        ∃ u, exec (.vcnt d e t true) s = .next u ∧ WritesScalar d (BitVec.ofNat 64 n) 0 4 s u)

/-- VRED and VSCAN write one block with tag 0x7FC0 and the flags of their steps, by the fixed tree and by the running order
of the active lanes; VRED leaves zero above lane 0. -/
def Obligations.Reductions : Prop :=
  ∀ (s : State) (d a : Reg) (o : RedOp) (t : VTy) (p : PReg) (m : IMode) (k : LaneKind),
    Free [.v d, .v a, .p p.toNat] s → Clean [a] s → laneKind t (tagFormat (getVT s a)) = some k →
    t.modeOk m = true → (o.isBitwise = true → t.isFloat = false) →
    let r := vredOf k t (saturates s m) (rounding s .byStatus) o (getP s p.toNat) (getV s a)
    let q := vscanOf k t (saturates s m) (rounding s .byStatus) o (getP s p.toNat) (getV s a)
    (∃ u x, exec (.vred d a o t p m) s = .next u ∧ WritesVector d x 0x7FC0 r.2 4 s u ∧ x.toNat = r.1 % 2 ^ (8 * t.bytes)) ∧
    ∃ u, exec (.vscan d a o t p m) s = .next u ∧ WritesVector d q.1 0x7FC0 q.2 4 s u

/-- The tree of an integer reduction that wraps gives the sum of the active lanes modulo the lane width, for every type; with
no active lane, the identity of the operation. -/
def Obligations.WrappingReduction : Prop :=
  ∀ (t : VTy) (sg : Bool) (rm : Rnd) (p : Word) (x : Block),
    let act := (List.range t.lanes).filter fun i => p.getLsbD (i * t.bytes)
    (vredOf (.int sg) t false rm .sum p x).1 % 2 ^ (8 * t.bytes) =
      (act.map fun i => lane (8 * t.bytes) i x).sum % 2 ^ (8 * t.bytes) ∧
    (act = [] → ∀ o, (vredOf (.int sg) t false rm o p x).1 = match o with
      | .sum => 0
      | .or => 0
      | .xor => 0
      | .and => 2 ^ (8 * t.bytes) - 1
      | .min => if sg then 2 ^ (8 * t.bytes - 1) - 1 else 2 ^ (8 * t.bytes) - 1
      | .max => if sg then 2 ^ (8 * t.bytes - 1) else 0)

/-- The transcendental lanes: VEXP2, VLOG2, VRCP and VRSQRT compute each active f32 lane by R59 and round it by RMODE. -/
def Obligations.TranscendentalLanes : Prop :=
  ∀ (s : State) (d a : Reg) (p : PReg), Free [.v d, .v a, .p p.toNat] s → Clean [a] s →
    let x := fun i => fvDecode fmtF32 (lane 32 i (getV s a))
    let gives := fun (i : Instr) (g : FVal → FVal × Sticky) => ∃ u, exec i s = .next u ∧
      WritesLanes d .f32 (getP s p.toNat) (fun j =>
        ((roundTo fmtF32 (rounding s .byStatus) (g (x j)).1).1,
          (g (x j)).2 ||| (roundTo fmtF32 (rounding s .byStatus) (g (x j)).1).2)) 4 s u
    gives (.vexp2 d a p) fvExp2 ∧ gives (.vlog2 d a p) fvLog2 ∧ gives (.vrcp d a p) fvRcp ∧ gives (.vrsqrt d a p) fvRsqrt

/-- VCVT between types of one lane count, without narrow formats: each active lane is read exactly and rounded, or fitted to
the integer type. In general, the descriptor gives the source type, the first element and the destination's tag, and each
active element is converted; a bad descriptor traps FORMAT_BAD, before the elements of its source are looked at (log 19, the model's
reading) and with an open TRAPA (log 15). -/
def Obligations.VectorConversion : Prop :=
  ∀ (s : State) (d a b : Reg) (t src : VTy) (p : PReg) (m : IMode), t.modeOk m = true →
    Free [.v d, .v a, .s b, .p p.toNat] s → Clean [a] s →
    let x := fun i => lane (8 * t.bytes) i (getV s a)
    let f : VTy → Fmt := fun q => match q with
      | .bf16 => fmtBF16
      | .f16 => fmtF16
      | .f32 => fmtF32
      | _ => fmtF64
    let val := fun i => if src.isFloat then fvDecode (f src) (x i) else fvInt (BitVec.ofNat (8 * t.bytes) (x i)).toInt
    let int := fun (v : FVal) =>
      fvToRange (rounding s .byStatus) (-(2 ^ (8 * t.bytes - 1))) (2 ^ (8 * t.bytes - 1) - 1) true v
    let desc := (getS s b).toNat
    let dtag : Tag := BitVec.ofNat 16 desc
    let e0 := desc / 2 ^ 24
    (t ≠ .b8 → src ≠ .b8 → t.bytes = src.bytes → getS s b = BitVec.ofNat 64 (src.code * 2 ^ 16) →
      ∃ u, exec (.vcvt d a b t p m) s = .next u ∧ WritesLanes d t (getP s p.toNat) (fun i =>
        if t.isFloat then roundTo (f t) (rounding s .byStatus) (val i)
        else if src.isFloat then ((BitVec.ofInt (8 * t.bytes) (int (val i)).1).toNat, (int (val i)).2)
        else (x i, 0)) 4 s u) ∧
    (∀ (el : Elems) (g : Option NFmt), desc < 2 ^ 32 → desc / 2 ^ 16 % 256 = src.code →
      (if src = .b8 then elemsOf s.core.topx (getVT s a) (getV s a) = .ok el else el = typedElems src (getV s a)) →
      (if t = .b8 then g = narrowOf (tagFormat dtag) ∧ g ≠ none ∧ poisoned dtag = false else g = none ∧ dtag = 0) →
      let sb := if src = .b8 then srcBits (tagFormat (getVT s a)) else 8 * src.bytes
      let db := (g.map (·.w)).getD (8 * t.bytes)
      let dc := (g.map narrowCount).getD t.lanes
      let r := cvtLoop el sb db dc e0 (getP s p.toNat) (getV s d)
        (cvtElem t g (tagScale dtag) s.core.topx el.floating (saturates s m) (rounding s .byStatus))
      e0 + min el.count dc ≤ max el.count dc → (el.count = dc → e0 = 0) →
      ∃ u, exec (.vcvt d a b t p m) s = .next u ∧ WritesVector d r.1 (if t = .b8 then dtag else 0x7FC0) r.2 4 s u) ∧
    (Handles s → desc / 2 ^ 32 ≠ 0 ∨ desc / 2 ^ 19 % 32 ≠ 0 ∨ (t ≠ .b8 ∧ dtag ≠ 0) →
      ∃ x u, exec (.vcvt d a b t p m) s = .next u ∧ Traps cFormatBad x s u)

/-- Top-k, sampling, acceptance and random words: VTOPK leaves the eight best of the candidates; VSMPL leaves the id of a
valid slot and the slot, or traps GEN_OPERAND; VACCEPT checks V; VRNG mixes the key, the counter and the lane. -/
def Obligations.GenerationInstructions : Prop :=
  ∀ (s : State) (d a b : Reg) (p : PReg) (fresh : Bool),
    let slot := fun (x : Block) (i : Nat) => (⟨lane 32 i x, lane 32 (8 + i) x⟩ : TopSlot)
    let cands := ((List.range 16).filter fun i => (getP s p.toNat).getLsbD (4 * i)).map fun i =>
      (⟨lane 32 i (getV s a), ((getS s b).toNat + i) % 2 ^ 32⟩ : TopSlot)
    let v := (getS s b).toNat % 2 ^ 32
    let chosen := vsmplChoose s.ag.rngkey (getV s a) (getS s b)
    (Free [.v d, .v a, .s b, .p p.toNat] s → Clean (if fresh then [a] else [a, d]) s →
      ∃ u, exec (.vtopk d a b p fresh) s = .next u ∧
        WritesVector d (topBlock ((if fresh then [] else (List.range 8).map (slot (getV s d))) ++ cands)) 0x7FC0 0 4 s u) ∧
    (Free [.v d, .v a, .s b] s → Clean [a] s →
      (∀ k, chosen = some k → ∃ u x, exec (.vsmpl d a b) s = .next u ∧ WritesVector d x 0x7FC0 0 4 s u ∧
        lane 32 0 x = lane 32 (8 + k) (getV s a) ∧ lane 32 1 x = k ∧ x.toNat < 2 ^ 64) ∧
      (Handles s → chosen = none → ∃ u, exec (.vsmpl d a b) s = .next u ∧ Traps cGenOperand 0 s u)) ∧
    (Free [.p d.toNat, .v a, .s b, .p p.toNat] s → Clean [a] s → d.toNat < 8 →
      (1 ≤ v → v ≤ 2 ^ 31 → ∃ u x n, exec (.vaccept d a b p) s = .next u ∧
        WritesPred d.toNat x 0 4 { s with core := { s.core with events := n } } u ∧
        x = (vacceptOf (getP s p.toNat) (getV s a) v).1 ∧
        n = if (vacceptOf (getP s p.toNat) (getV s a) v).2 then s.core.events.set 0 (s.core.events[0] + 1)
          else s.core.events) ∧
      (Handles s → v = 0 ∨ 2 ^ 31 < v → ∃ u, exec (.vaccept d a b p) s = .next u ∧ Traps cGenOperand 0 s u)) ∧
    (Free [.v d, .s b, .p p.toNat] s → ∃ u, exec (.vrng d b p) s = .next u ∧
      WritesLanes d .i64 (getP s p.toNat) (fun j => ((mix s.ag.rngkey (getS s b) (BitVec.ofNat 64 j)).toNat, 0)) 4 s u)

/-- A poisoned source traps before any effect: POISON, or FORMAT_BAD under TOPX 0, with the register number, or 0x20 and the tile's
number, in TRAPA. It is so for va, for vb, for the addend of VFMA and the old best of VTOPK, for indices and data of vector stores,
for the lists of GATHER, SCATTER and ENQ, and for the rows of TCOL and TMMA. That the check comes before the other operands' own
ones, and for stores after alignment, region and translation, is the order of log 19, the model's reading. -/
def Obligations.PoisonedSourcesTrap : Prop :=
  ∀ (s : State) (d a r : Reg) (b : VSrc) (t : VTy) (p : PReg), Handles s →
    let c := if s.core.topx then cPoison else cFormatBad
    let traps := fun (i : Instr) (x : Word) => ∃ u, exec i s = .next u ∧ Traps c x s u
    let bad := fun (q : Reg) => poisoned (getVT s q) = true
    (Free [.v d, .v a, .v r, .s d, .s r, srcUse b, .p p.toNat] s → bad a →
      ∀ i ∈ [Instr.vadd d a b t p .byStatus, .vsub d a b t p .byStatus, .vmul d a b t p .byStatus, .vfma d a b t p .byStatus,
        .vmin d a b t p, .vmax d a b t p, .vand d a b t p, .vor d a b t p, .vxor d a b t p, .vcmp p a b t p .eq,
        .vsel d a b t p, .vperm d a b t p, .vmov d a t p, .vabs d a t p .byStatus, .vneg d a t p .byStatus,
        .vred d a .sum t p .byStatus, .vscan d a .sum t p .byStatus, .vexp2 d a p, .vlog2 d a p, .vrcp d a p, .vrsqrt d a p,
        .vcvt d a r t p .byStatus, .vbcast d (.lane a 0) t p, .vext d a (.k 0) t, .vtopk d a r p true, .vsmpl d a r],
      traps i (a.setWidth 64)) ∧
    (Free [.v d, .v a, .v r, .p p.toNat] s → Clean [a] s → bad r →
      ∀ i ∈ [Instr.vadd d a (.v r) t p .byStatus, .vsub d a (.v r) t p .byStatus, .vmul d a (.v r) t p .byStatus,
        .vfma d a (.v r) t p .byStatus, .vmin d a (.v r) t p, .vmax d a (.v r) t p, .vand d a (.v r) t p, .vor d a (.v r) t p,
        .vxor d a (.v r) t p, .vcmp p a (.v r) t p .eq, .vsel d a (.v r) t p, .vperm d a (.v r) t p],
      traps i (r.setWidth 64)) ∧
    (Free [.v d, .v a, .s r, srcUse b, .p p.toNat] s → Clean (a :: srcVecs b) s → bad d →
      traps (.vfma d a b t p .byStatus) (d.setWidth 64) ∧ traps (.vtopk d a r p false) (d.setWidth 64)) ∧
    (Free [.s d, .v d, .s a, .v r, .p p.toNat] s → bad r → ∀ i ∈ [Instr.vgath d a r t p, .vscat d a r t p, .gather d a r,
      .scatter d a r], traps i (r.setWidth 64)) ∧
    (Free [.s d, .s a, .v r] s → bad r → Fresh s → traps (.enq d a r) (r.setWidth 64)) ∧
    (∀ off ls, Free [.v d, .s a] s → bad d → Aligned t.bytes (getS s a + off.signExtend 64) →
      Reaches s true .write [] (blockLanes (getS s a + off.signExtend 64)) ls → traps (.vst d a t off) (d.setWidth 64)) ∧
    (∀ off ls, Free [.v d, .s a] s → bad d → Aligned t.bytes (getS s a + off.signExtend 64) →
      Reaches s true .write [] (blockLanes (getS s a + off.signExtend 64)) ls → traps (.vstl d a t off) (d.setWidth 64)) ∧
    (Free [.v d, .s a, .s r, .p p.toNat] s → bad d → ∀ ls,
      let lanes := ((List.range t.lanes).filter fun i => (getP s p.toNat).getLsbD (i * t.bytes)).map fun i =>
        (getS s a + BitVec.ofNat 64 i * getS s r, t.bytes)
      (∀ l ∈ lanes, Aligned t.bytes l.1) → Reaches s true .write [] lanes ls → traps (.vsts d a r t p) (d.setWidth 64)) ∧
    (Free [.v d, .s a, .v r, .p p.toNat] s → bad d → Clean [r] s → ∀ ls,
      let lanes := ((List.range t.lanes).filter fun i => (getP s p.toNat).getLsbD (i * t.bytes)).map fun i =>
        (getS s a + BitVec.ofNat 64 (lane (8 * t.bytes) i (getV s r) * t.bytes), t.bytes)
      (∀ l ∈ lanes, Aligned t.bytes l.1 ∧ l.1.toNat / 2 ^ 48 = 0xFE ∧ coreNear s.ag.place (l.1.toNat / 2 ^ 22) = s.ag.place) →
      Reaches s false .write [] lanes ls → traps (.vscat d a r t p) (d.setWidth 64)) ∧
    (Free [.t d, .v a, .s r] s → tileType s d ≠ 15 → bad a → traps (.tcol d a r true) (a.setWidth 64)) ∧
    (Free [.v d, .t a, .s r] s → tileType s a ≠ 15 →
      let h := (getS s r).toNat / 64 % 2
      (∃ i, i < colLanes (tileTy s a) ∧ colRow (tileTy s a) h i ≤ tileRows s a ∧
        poisoned (tileTag (getT s a) (colRow (tileTy s a) h i)) = true) →
      traps (.tcol d a r false) (0x20 + a.setWidth 64)) ∧
    (Has .xd s → Free [.t d, .t a, .t r] s →
      let q := tileType s d
      (q = 6 ∨ q = 7) → tileType s a = q → tileType s r = q → tileRows s r + 1 = (if q = 6 then 16 else 8) →
      tileRows s d = tileRows s a →
      let ill := fun (n : Reg) => (List.range (tileRows s n + 1)).any fun i => poisoned (tileTag (getT s n) i)
      (ill d = true → traps (.tmma d a r) (0x20 + d.setWidth 64)) ∧
      (ill d = false → ill a = true → traps (.tmma d a r) (0x20 + a.setWidth 64)) ∧
      (ill d = false → ill a = false → ill r = true → traps (.tmma d a r) (0x20 + r.setWidth 64)))

/-! ## Memory (R168 to R175, R226, R227) -/

/-- Scalar loads: the bytes at the effective address, extended by the form, or the block's tag; a poisoned block read sets
PSN, and nothing else changes. LDPAIR names two registers, or one that is s0. A load that names blocks beyond its core first sends
one read request for each, each counts in OUTREQ, and waits for the replies (R167, R394); it then goes on with what its addresses
led to (R306). -/
def Obligations.ScalarLoads : Prop :=
  ∀ (s : State) (d a b : Reg) (sz : LdSz) (o : BitVec 11) (w : BitVec 32) (ls : List (List XOk)),
    let bytes : Nat := match sz with
      | .d64 => 8 | .i32 => 4 | .n32 => 4 | .i16 => 2 | .n16 => 2 | .i8 => 1 | .n8 => 1
    let ext := fun (x : Nat) => match sz with
      | .i32 => (BitVec.ofNat 32 x).signExtend 64
      | .i16 => (BitVec.ofNat 16 x).signExtend 64
      | .i8 => (BitVec.ofNat 8 x).signExtend 64
      | _ => BitVec.ofNat 64 x
    let xs := ls.headD []
    let x := bytesToNat (xs.map fun x => agByte s (aliasLoc s.ag x.loc))
    let psn := if xs.any fun x => poisoned (agTag s x) then stPSN else 0
    let short := getS s a + o.signExtend 64
    let long := getS s a + w.signExtend 64
    let own := leasedOverflow s
    let does := fun (i : Instr) (hostOk : Bool) (ea : Word) (n : Nat) (ovf : List Nat) (P : State → Prop) => Aligned n ea →
      (Reads s hostOk ovf [(ea, n)] ls → ∃ t, exec i s = .next t ∧ P t) ∧
      (Reaches s hostOk .read ovf [(ea, n)] ls → remoteBlocks s ls ≠ [] → gotReads s = none →
        ∃ t ms, exec i s = .next t ∧ t.net = s.net ++ ms ∧ ms.length = (remoteBlocks s ls).length ∧
          (∀ m ∈ ms, m.src = s.ag.place ∧ (m.body = .request (.agent s.ag.aid s.draws) false true ∨
            ∃ l, isFarLoc l = true ∧ m.body = .readFar (.agent s.ag.aid s.draws) l)) ∧
          t.ag = { s.ag with reqseq := s.ag.reqseq + BitVec.ofNat 24 ms.length, outreq := s.ag.outreq + BitVec.ofNat 16 ms.length,
                             run := .blocked (.reads s.draws ms.length false ls) } ∧ t.mem = s.mem)
    (Free [.s d, .s a] s →
      does (.ld d a sz o) true short bytes own (WritesScalar d (ext x) psn 4 s) ∧
      does (.ldl d a sz w) true long bytes own (WritesScalar d (ext x) psn 8 s) ∧
      does (.ldt d a o) true short 64 [] (WritesScalar d ((agTagOf s xs).setWidth 64) 0 4 s)) ∧
    (Free [.s d, .s a, .s b] s →
      (d ≠ b ∨ d = 0 → does (.ldpair d a b w) false long 16 own fun t =>
        ∃ u, WritesScalar d (BitVec.ofNat 64 x) psn 0 s u ∧ WritesScalar b (BitVec.ofNat 64 (x / 2 ^ 64)) 0 8 u t) ∧
      (Handles s → d = b → d ≠ 0 → Aligned 16 long → Reaches s false .read own [(long, 16)] ls → gotReads s = none →
        ∃ t, exec (.ldpair d a b w) s = .next t ∧ Traps cIllegalOp (word0 (.ldpair d a b w)) s t))

/-- Scalar stores: the low bytes of the register, or of two, in ascending order of address; or the tag of a block. Only these
bytes, or that tag, read otherwise afterwards. -/
def Obligations.ScalarStores : Prop :=
  ∀ (s : State) (d a b : Reg) (sz : StSz) (o : BitVec 11) (w : BitVec 32) (ls : List (List XOk)),
    let bytes : Nat := match sz with
      | .d64 => 8 | .w32 => 4 | .h16 => 2 | .b8 => 1
    let here := (locsOf s ls).headD []
    let put := fun (x : Nat) => here.zip (natToBytes here.length x)
    let short := getS s a + o.signExtend 64
    let long := getS s a + w.signExtend 64
    let reach := fun (hostOk : Bool) (ea : Word) (n : Nat) =>
      Aligned n ea ∧ Reaches s hostOk .write [] [(ea, n)] ls ∧ Unguarded s ls
    (Free [.s d, .s a] s →
      (reach true short bytes → ∃ t, exec (.st d a sz o) s = .next t ∧ Stores (put (getS s d).toNat) [] 4 s t) ∧
      (reach true long bytes → ∃ t, exec (.stl d a sz w) s = .next t ∧ Stores (put (getS s d).toNat) [] 8 s t) ∧
      (reach false short 64 → ∃ t, exec (.stt d a o) s = .next t ∧
        Stores [] [(blockOf (here.headD 0), (getS s d).setWidth 16)] 4 s t)) ∧
    (Free [.s d, .s a, .s b] s → reach false long 16 →
      ∃ t, exec (.stpair d a b w) s = .next t ∧ Stores (put ((getS s b ++ getS s d : BitVec 128)).toNat) [] 8 s t)

/-- What an agent has just stored, it reads: a load of 64 bits after a store of 64 bits to the same locations gives the
register's value. A store beyond the own slice counts one request outstanding and leaves as one packet for its home where no
other store of the agent is pending; a store to the own slice sends none (R167, R353, R394). -/
def Obligations.LoadAfterStore : Prop :=
  ∀ (s t : State) (d a : Reg) (o : BitVec 11) (ls : List (List XOk)),
    let ea := getS s a + o.signExtend 64
    let here := (locsOf s ls).headD []
    Free [.s d, .s a] s → Aligned 8 ea → Reaches s true .write [] [(ea, 8)] ls → Unguarded s ls → here.Nodup →
    exec (.st d a .d64 o) s = .next t →
      bytesToNat (here.map (agByte t)) = (getS s d).toNat ∧
      (inSlice s.ag.place (here.headD 0) = true →
        t.ag.outreq = s.ag.outreq ∧ t.ag.reqseq = s.ag.reqseq ∧ (s.ag.posted = [] → t.net = s.net)) ∧
      (inSlice s.ag.place (here.headD 0) = false → isComputeCore s.ag.place = true →
        t.ag.outreq = s.ag.outreq + 1 ∧ t.ag.reqseq = s.ag.reqseq + 1 ∧
        (s.ag.posted = [] → ∃ m, t.net = s.net ++ [m] ∧ m.src = s.ag.place ∧ m.dst = homeName (here.headD 0) ∧
          m.seq = s.ag.reqseq ∧ ∃ k, m.body = .write s.ag.aid k))

/-- Vector loads: 64 bytes, with the block's tag where the address is a multiple of 64, else 0x7FC0; strided and indexed
lanes, and the rows of a tile. -/
def Obligations.VectorLoads : Prop :=
  ∀ (s : State) (d a b : Reg) (t : VTy) (p : PReg) (o : BitVec 11) (w : BitVec 32) (ls : List (List XOk)),
    let num := fun (xs : List XOk) => bytesToNat (xs.map fun x => agByte s (aliasLoc s.ag x.loc))
    let bad := fun (xs : List XOk) => xs.any fun x => poisoned (agTag s x)
    let parts := fun (ea : Word) => if ea.toNat % 64 = 0 then [(ea, 64)]
      else [(ea, 64 - ea.toNat % 64), (ea + BitVec.ofNat 64 (64 - ea.toNat % 64), ea.toNat % 64)]
    let block := fun (i : Instr) (ea : Word) (n : Nat) =>
      Aligned t.bytes ea → Reads s true (leasedOverflow s) (parts ea) ls →
        ∃ v, exec i s = .next v ∧ WritesVector d (BitVec.ofNat 512 (num ls.flatten))
          (if ea.toNat % 64 = 0 then agTagOf s ls.flatten else 0x7FC0)
          (if ea.toNat % 64 ≠ 0 ∧ bad ls.flatten then stPSN else 0) n s v
    let acts := (List.range t.lanes).filter fun i => (getP s p.toNat).getLsbD (i * t.bytes)
    let gathers := fun (i : Instr) (lanes : List Lane) (hostOk : Bool) =>
      (∀ l ∈ lanes, Aligned t.bytes l.1) → Reads s hostOk [] lanes ls →
        ∃ v x, exec i s = .next v ∧ WritesVector d x 0x7FC0 (if ls.any bad then stPSN else 0) 4 s v ∧
          (∀ (k i : Nat) (xs : List XOk), acts[k]? = some i → ls[k]? = some xs →
            lane (8 * t.bytes) i x = num xs % 2 ^ (8 * t.bytes)) ∧
          ∀ i < t.lanes, i ∉ acts → lane (8 * t.bytes) i x = lane (8 * t.bytes) i (getV s d)
    let strided := acts.map fun i => (getS s a + BitVec.ofNat 64 i * getS s b, t.bytes)
    let indexed := acts.map fun i => (getS s a + BitVec.ofNat 64 (lane (8 * t.bytes) i (getV s b) * t.bytes), t.bytes)
    (Free [.v d, .s a] s →
      block (.vld d a t o) (getS s a + o.signExtend 64) 4 ∧ block (.vldl d a t w) (getS s a + w.signExtend 64) 8) ∧
    (Free [.v d, .s a, .s b, .p p.toNat] s → gathers (.vlds d a b t p) strided true) ∧
    (Free [.v d, .s a, .v b, .p p.toNat] s → Clean [b] s →
      (∀ l ∈ indexed, l.1.toNat / 2 ^ 48 = 0xFE ∧ coreNear s.ag.place (l.1.toNat / 2 ^ 22) = s.ag.place) →
      gathers (.vgath d a b t p) indexed false) ∧
    (Free [.t d, .s a] s → tileType s d ≠ 15 → Aligned 64 (getS s a + o.signExtend 64) →
      Reads s true [] ((List.range (tileRows s d + 1)).map fun i =>
        (getS s a + o.signExtend 64 + BitVec.ofNat 64 (64 * i), 64)) ls →
      ∃ v x, exec (.tld d a o) s = .next v ∧ WritesTile d x true 4 s v ∧
        ∀ i < 16, tileRow x i = (match ls[i]? with | some xs => BitVec.ofNat 512 (num xs) | none => tileRow (getT s d) i) ∧
          tileTag x i = (match ls[i]? with | some xs => agTagOf s xs | none => tileTag (getT s d) i))

/-- Vector stores: 64 bytes that leave block tags alone, strided and indexed lanes in ascending order, and the rows of a tile
with their tags. -/
def Obligations.VectorStores : Prop :=
  ∀ (s : State) (d a b : Reg) (t : VTy) (p : PReg) (o : BitVec 11) (w : BitVec 32) (ls : List (List XOk)),
    let put := fun (l : List Nat) (x : Nat) => l.zip (natToBytes l.length x)
    let here := locsOf s ls
    let parts := fun (ea : Word) => if ea.toNat % 64 = 0 then [(ea, 64)]
      else [(ea, 64 - ea.toNat % 64), (ea + BitVec.ofNat 64 (64 - ea.toNat % 64), ea.toNat % 64)]
    let block := fun (i : Instr) (ea : Word) (n : Nat) =>
      Aligned t.bytes ea → Reaches s true .write [] (parts ea) ls → Unguarded s ls →
        ∃ v, exec i s = .next v ∧ Stores (put here.flatten (getV s d).toNat) [] n s v
    let acts := (List.range t.lanes).filter fun i => (getP s p.toNat).getLsbD (i * t.bytes)
    let scatters := fun (i : Instr) (lanes : List Lane) (hostOk : Bool) =>
      (∀ l ∈ lanes, Aligned t.bytes l.1) → Reaches s hostOk .write [] lanes ls → Unguarded s ls →
        ∃ v, exec i s = .next v ∧
          Stores ((acts.zip here).flatMap fun q => put q.2 (lane (8 * t.bytes) q.1 (getV s d))) [] 4 s v
    let strided := acts.map fun i => (getS s a + BitVec.ofNat 64 i * getS s b, t.bytes)
    let indexed := acts.map fun i => (getS s a + BitVec.ofNat 64 (lane (8 * t.bytes) i (getV s b) * t.bytes), t.bytes)
    (Free [.v d, .s a] s → Clean [d] s →
      block (.vst d a t o) (getS s a + o.signExtend 64) 4 ∧ block (.vstl d a t w) (getS s a + w.signExtend 64) 8) ∧
    (Free [.v d, .s a, .s b, .p p.toNat] s → Clean [d] s → scatters (.vsts d a b t p) strided true) ∧
    (Free [.v d, .s a, .v b, .p p.toNat] s → Clean [b, d] s →
      (∀ l ∈ indexed, l.1.toNat / 2 ^ 48 = 0xFE ∧ coreNear s.ag.place (l.1.toNat / 2 ^ 22) = s.ag.place) →
      scatters (.vscat d a b t p) indexed false) ∧
    (Free [.t d, .s a] s → tileType s d ≠ 15 → Aligned 64 (getS s a + o.signExtend 64) →
      Reaches s true .write [] ((List.range (tileRows s d + 1)).map fun i =>
        (getS s a + o.signExtend 64 + BitVec.ofNat 64 (64 * i), 64)) ls → Unguarded s ls →
      ∃ v, exec (.tst d a o) s = .next v ∧
        Stores (here.zipIdx.flatMap fun q => put q.1 (tileRow (getT s d) q.2).toNat)
          (here.zipIdx.map fun q => (blockOf (q.1.headD 0), tileTag (getT s d) q.2)) 4 s v)

/-- The checks of an access, in order: an address that is no multiple of the width traps MISALIGNED; one that breaks a region
rule traps BOUNDS; one that misses in the TLB sends a fault message to the core's teff core and waits (R168, R303). -/
def Obligations.AccessChecks : Prop :=
  ∀ (s : State) (d a b : Reg) (o : BitVec 11) (w : BitVec 32), Handles s →
    let short := getS s a + o.signExtend 64
    let long := getS s a + w.signExtend 64
    let own := leasedOverflow s
    let fails := fun (i : Instr) (ea : Word) (n : Nat) (hostOk : Bool) (k : FKind) (ovf : List Nat) =>
      (¬ Aligned n ea → ∃ u, exec i s = .next u ∧ Traps cMisaligned ea s u) ∧
      (Aligned n ea → laneBounds s hostOk k ovf (ea, n) = true → ∃ u, exec i s = .next u ∧ Traps cBounds ea s u) ∧
      (Aligned n ea → laneBounds s hostOk k ovf (ea, n) = false → ∀ va, laneMiss s hostOk k ovf (ea, n) = some va →
        ∃ u, exec i s = .next u ∧ u.ag.run = .blocked (.translation s.ag.reqseq) ∧ u.ag.outreq = s.ag.outreq + 1 ∧ u.ag.pc = s.ag.pc ∧
          u.mem = s.mem ∧ u.ag.s = s.ag.s ∧ ∃ m, u.net = s.net ++ [m] ∧ m.dst = teffName (teffOf s s.ag.place) ∧
            m.body = .fault (agentAccess s va ea k))
    Free [.s d, .s a, .s b] s → gotReads s = none → Fresh s →
      fails (.ld d a .d64 o) short 8 true .read own ∧ fails (.ld d a .n16 o) short 2 true .read own ∧
      fails (.st d a .d64 o) short 8 true .write [] ∧ fails (.ldl d a .i32 w) long 4 true .read own ∧
      fails (.stl d a .w32 w) long 4 true .write [] ∧ fails (.ldt d a o) short 64 true .read [] ∧
      fails (.stt d a o) short 64 false .write [] ∧ fails (.ldpair d a b w) long 16 false .read own ∧
      fails (.stpair d a b w) long 16 false .write [] ∧
      fails (.amo d a b false true .add) (getS s a) 8 false .readWrite [] ∧
      fails (.cas d a b true true) (getS s a) 4 false .readWrite [] ∧
      fails (.amol d a b false true .add w) long 8 false .readWrite [] ∧
      fails (.casl d a b true true w) long 4 false .readWrite []

/-- The memory map: the regions that no address reaches, host memory, the populated HBM below each stack's reservation, and the
window, where reserved bits must be zero and the core must host the context; bit 21 selects the skewed view. That a page beyond those
ranges may lead to another package's memory is log 30, the model's choice. -/
def Obligations.MemoryMap : Prop :=
  (∀ (s : State) (c : Core) (ctx : Nat) (va : Word) (k : FKind), shadowOf s c va.toNat = none →
    0xF0 ≤ va.toNat / 2 ^ 48 → va.toNat / 2 ^ 48 ≠ 0xFE → xlate s c ctx va k [] = .error .bounds) ∧
  (∀ (s : State) (pa : Nat), pa < 2 ^ 52 → paOk s pa =
    if 2 ^ 51 ≤ pa then true else decide (pa / 2 ^ 36 < 12 ∧ pa % 2 ^ 36 < (48 - s.cfg.store.toList.getD (pa / 2 ^ 36) 0) * 2 ^ 30)) ∧
  (∀ (s : State) (pa : Nat), paOk s pa = true → paLoc s pa = some pa) ∧
  (∀ (s : State) (ctx va : Nat), va / 2 ^ 48 = 0xFE →
    va / 2 ^ 32 % 2 ^ 16 ≠ 0 ∨ va / 2 ^ 20 % 2 ≠ 0 ∨ (getCore s (ctxCore ctx (va / 2 ^ 22))).ctx ≠ some ctx →
    windowLoc s ctx va [] = .error .bounds) ∧
  ∀ (s : State) (ctx va : Nat), va / 2 ^ 32 % 2 ^ 16 = 0 → va / 2 ^ 20 % 2 = 0 →
    let c := getCore s (ctxCore ctx (va / 2 ^ 22))
    let off := if va / 2 ^ 21 % 2 = 1 then skewOff (va % 2 ^ 20) else va % 2 ^ 20
    isComputeCore (ctxCore ctx (va / 2 ^ 22)) = true → c.ctx = some ctx →
      (off < accEnd c.kd → windowLoc s ctx va [] = .ok (sliceBase (ctxCore ctx (va / 2 ^ 22)) + off)) ∧
      (accEnd c.kd ≤ off → windowLoc s ctx va [] = .error .bounds)

/-- The skewed view is a permutation of each kilobyte of a slice (R69). -/
def Obligations.SkewedViewIsAPermutation : Prop :=
  (∀ o, skewOff o / 1024 = o / 1024 ∧ skewOff o % 4 = o % 4) ∧ (∀ o p, skewOff o = skewOff p → o = p) ∧
    ∀ i j, i < 16 → j < 16 → skewOff (64 * i + 4 * j) = 64 * i + 4 * ((i + j) % 16)

/-- Atomic operations. AMO answers the old value, extended by U for 32 bits, and writes the result of its operation; CAS writes sb
where the old value equals sd's; every other byte of memory is as it was. At the agent's own core they act at once, when its earlier
stores to the bytes have been performed, and sd receives the answer. For another home a request leaves, and the home performs it when
it arrives; the answer ends the instruction. That it follows the agent's own earlier packets for that home, and waits before it leaves
where one of these has still to leave, is log 25, the model's choice. -/
def Obligations.AtomicOperations : Prop :=
  ∀ (s s0 : State) (d a b : Reg) (w u : Bool) (o : AmoOp) (off : BitVec 32) (ls : List (List XOk)),
    let n := if w then 4 else 8
    let raw := (ls.headD []).map (·.loc)
    let locs := (locsOf s ls).headD []
    let psn := (ls.headD []).any (·.poison)
    let old := fun (s : State) => bytesToNat (locs.map (memByte s.mem))
    let y := (getS s b).toNat % 2 ^ (8 * n)
    let val := fun (x : Nat) => if u then (x : Int) else (BitVec.ofNat (8 * n) x).toInt
    let new : Nat → Nat := fun old => match o with
      | .swap => y
      | .add => (old + y) % 2 ^ (8 * n)
      | .and => old &&& y
      | .or => old ||| y
      | .xor => old ^^^ y
      | .min => if val y < val old then y else old
      | .max => if val old < val y then y else old
    let res : Nat → Word := fun old => if w && !u then (BitVec.ofNat 32 old).signExtend 64 else BitVec.ofNat 64 old
    let swaps := fun (s : State) => old s = (getS s d).toNat % 2 ^ (8 * n)
    let put := fun (x : Nat) => locs.zip (natToBytes locs.length x)
    let at_ := fun (bs : List (Nat × Byte)) (s t : State) => ∀ l, memByte t.mem l = lastOf bs l (memByte s.mem l)
    let ends := fun (i : Instr) (len : Nat) (x : Word) (bad : Bool) (t : State) => exec i s = .next t ∧
      getS t d = (if d = 0 then 0 else x) ∧ (∀ r, r ≠ d → getS t r = getS s r) ∧
      t.ag.pc = s.ag.pc + BitVec.ofNat 64 len ∧ t.ag.v = s.ag.v ∧ t.ag.p = s.ag.p ∧ t.ag.t = s.ag.t ∧
      t.ag.status = (if bad then s.ag.status ||| stPSN.setWidth 64 else s.ag.status)
    let does := fun (i : Instr) (len : Nat) (bs : List (Nat × Byte)) => ∃ t,
      ends i len (res (old s0)) (psn || poisoned (memTag s0.mem (locs.headD 0))) t ∧ at_ bs s0 t
    let both := fun (i j : Instr) (len : Nat) =>
      does i len (put (new (old s0))) ∧ (swaps s0 → does j len (put y)) ∧ (¬ swaps s0 → does j len [])
    let reach := fun (ea : Word) => Aligned n ea ∧ Reaches s false .readWrite [] [(ea, n)] ls ∧ Unguarded s ls
    let waits := fun (i : Instr) => exec i s = .next { s with ag := { s.ag with run := .blocked .order } }
    let amo := HomeOp.amo o w u raw (getS s b) psn
    let cas := HomeOp.cas w u raw (getS s d) (getS s b) psn
    let home := homeName (raw.headD 0)
    let asks := fun (i : Instr) (o : HomeOp) => ∃ t, exec i s = .next t ∧ Asks home o s t
    let short := getS s a
    let long := getS s a + off.signExtend 64
    Free [.s d, .s a, .s b] s →
      (Fresh s → settled locs s = some s0 → Unguarded s0 ls → home = s.ag.place →
        (reach short → both (.amo d a b w u o) (.cas d a b w u) 4) ∧
        (reach long → both (.amol d a b w u o off) (.casl d a b w u off) 8)) ∧
      (Fresh s → settled locs s = some s → home ≠ s.ag.place → Near s home →
        (reach short → asks (.amo d a b w u o) amo ∧ asks (.cas d a b w u) cas) ∧
        (reach long → asks (.amol d a b w u o off) amo ∧ asks (.casl d a b w u off) cas)) ∧
      (Fresh s → settled locs s = none →
        (reach short → waits (.amo d a b w u o) ∧ waits (.cas d a b w u)) ∧
        (reach long → waits (.amol d a b w u o off) ∧ waits (.casl d a b w u off))) ∧
      (∀ key seq, Unguarded s ls → ∃ t1 t2 q, actAt home key seq amo s = (t1, some (.done ⟨res (old s), 0, 0, q, false⟩)) ∧
        actAt home key seq cas s = (t2, some (.done ⟨res (old s), 0, 0, q, false⟩)) ∧
        q = (psn || poisoned (memTag s.mem (locs.headD 0))) ∧ at_ (put (new (old s))) s t1 ∧
        at_ (if swaps s then put y else []) s t2) ∧
      ∀ x, Answered s x → ∀ i ∈ [Instr.amo d a b w u o, .cas d a b w u], ∀ j ∈ [Instr.amol d a b w u o off, .casl d a b w u off],
        (∃ t, ends i 4 x.value x.psn t ∧ t.mem = s.mem) ∧ ∃ t, ends j 8 x.value x.psn t ∧ t.mem = s.mem

/-- PREF only goes on. FENCE waits until the agent's requests and its coprocessor entries have ended, then performs its writes
to its own slice; at core scope it waits only while one of these cannot be performed yet, and at agent scope it only goes on.
PHASE does the same, publishes, refreshes, and counts itself; where its scope reaches another package whose memory the agent has
written, one message tells it, and PHASE waits for the acknowledgement (log 30, the model's choice). -/
def Obligations.Fences : Prop :=
  ∀ (s : State) (a : Reg) (o : BitVec 11) (sc : Scope),
    let next := fun (t : State) => { t with ag := { t.ag with pc := t.ag.pc + 4, run := .running, inhand := none } }
    let waits := fun (i : Instr) (w : Wait) => exec i s = .next { s with ag := { s.ag with run := .blocked w } }
    let isQuiet := s.ag.outreq = 0 ∧ ∀ e ∈ s.core.coq, e.aid ≠ s.ag.aid
    (Free [.s a] s → exec (.pref a o) s = .next (next s)) ∧
    exec (.fence .agent) s = .next (next s) ∧
    ((∀ w ∈ (drainAll s).ag.posted, inSlice s.ag.place (writeLoc w) = false) →
      exec (.fence .core) s = .next (next (drainAll s))) ∧
    ((∃ w ∈ (drainAll s).ag.posted, inSlice s.ag.place (writeLoc w) = true) → waits (.fence .core) .order) ∧
    (isQuiet → sc ≠ .agent → sc ≠ .core → exec (.fence sc) s = .next (next (drainAll s))) ∧
    (isQuiet → sc ≠ .agent → farDue sc s = [] → ∃ t, exec (.phase sc) s = .next t ∧ t.ag.phasen = s.ag.phasen + 1 ∧
      t.ag.pc = s.ag.pc + 4 ∧ t.ag.s = s.ag.s ∧ t.ag.v = s.ag.v ∧ t.mem = (drainAll s).mem ∧
      t.ag.posted = (drainAll s).ag.posted ∧ t.agents = (publishKeys sc (drainAll s).ag.written (drainAll s)).agents) ∧
    (isQuiet → sc ≠ .agent → farDue sc s ≠ [] → ∃ t ms, exec (.phase sc) s = .next t ∧ t.net = s.net ++ ms ∧
      ms.length = (farDue sc s).length ∧ (∀ m ∈ ms, m.src = s.ag.place ∧ m.body = .tellFar s.ag.aid) ∧
      t.ag.run = .blocked .quiet ∧ t.ag.outreq = s.ag.outreq + BitVec.ofNat 16 ms.length ∧ t.ag.pc = s.ag.pc ∧ t.mem = s.mem) ∧
    (¬ isQuiet → sc ≠ .agent → sc ≠ .core → waits (.fence sc) .quiet ∧ waits (.phase sc) .quiet) ∧
    (Handles s → ∃ t, exec (.phase .agent) s = .next t ∧ Traps cIllegalOp (word0 (.phase .agent)) s t)

/-! ## Barriers, futures, queue registers -/

/-- Barriers and future words. BARI sets a barrier of the own core; BARA publishes, adds to the count and, when it reaches
EXPECT, starts the next phase and wakes the waiters, or traps BARRIER_BAD; BARW goes on when the phase has passed or its wake
has come, else it enters the wait table; WAITF takes a full word, and empties it with E; FILL publishes, writes the word, sets
its bit unless a waiter empties it, and wakes the waiters. At the agent's own core each acts at once; for another one its request
leaves, that core performs it in the same way when it arrives, and the answer ends the instruction. That a request follows the
agent's own earlier packets there is log 25, the model's choice. -/
def Obligations.BarriersAndFutures : Prop :=
  ∀ (s : State) (d a b : Reg) (sc : Scope) (e : Bool), sc ≠ .agent →
    let x := getS s a
    let y := getS s b
    let p := publishNow sc s
    let may := quiet s = true ∧ farDue sc s = [] ∧ Fresh s
    let asks := fun (i : Instr) (c : CoreId) (o : HomeOp) (u : State) => ∃ t, exec i s = .next t ∧ Asks c o u t
    let arrives := fun (c : CoreId) (n k : Nat) (u t : State) =>
      let w := getBar (getCore u c) n
      getBar (getCore t c) n = (if w.count.toNat + k = w.expect.toNat then ⟨w.phase + 1, w.expect, 0⟩
        else ⟨w.phase, w.expect, BitVec.ofNat 24 (w.count.toNat + k)⟩) ∧
      (w.count.toNat + k = w.expect.toNat → ∀ q ∈ (getCore t c).waiters, q.isBar = true → q.at_ ≠ n) ∧ t.mem = u.mem
    let fits := fun (c : CoreId) (n k : Nat) (u : State) =>
      let w := getBar (getCore u c) n
      w.expect ≠ 0 ∧ w.count.toNat + k ≤ w.expect.toNat
    let table := fun (c : CoreId) (g : Waiter) (u : State) =>
      let q := getCore u c
      if q.waiters.length < 64 then blockOn (.woken g.counts none) (setCore { q with waiters := q.waiters ++ [g] } u)
      else blockOn .waitTable (setCore { q with refused := q.refused ++ [g] } u)
    let fills := fun (l : Nat) (v : Word) (u t : State) =>
      let c := coreOfLoc l
      (sliceOff l ∈ (getCore t c).full ↔ ∀ q ∈ (getCore u c).waiters, isWordWaiter (sliceOff l) true q = false) ∧
      (∀ q ∈ (getCore t c).waiters, isWordWaiter (sliceOff l) false q = false) ∧
      t.mem = memSetBytes u.mem (((List.range 8).map (l + ·)).zip (natToBytes 8 v.toNat))
    let wasFull := fun (l : Nat) (u : State) => if sliceOff l ∈ (getCore u (coreOfLoc l)).full then (1 : Word) else 0
    (∀ (c : Core) (n : Nat), barrierOf s x = .ok (c, n) →
      (Free [.s a, .s b] s → c.id = s.ag.place → y.toNat < 2 ^ 24 → (∀ q ∈ c.waiters, q.isBar = true → q.at_ ≠ n) →
        exec (.bari a b) s = .next (advance 4 (setCore (setBar n ⟨(getBar c n).phase, y.setWidth 24, 0⟩ c) s))) ∧
      (Free [.s d, .s a, .s b] s → may → 1 ≤ y.toNat → y.toNat < 2 ^ 24 →
        (c.id = s.ag.place → fits c.id n y.toNat p → ∃ t, exec (.bara d a b sc) s = .next t ∧ arrives c.id n y.toNat p t ∧
          getS t d = (if d = 0 then 0 else (getBar (getCore p c.id) n).phase.setWidth 64) ∧
          t.ag.pc = s.ag.pc + 4 ∧ ∀ r, r ≠ d → getS t r = getS s r) ∧
        (c.id = s.ag.place → ¬ fits c.id n y.toNat p → Handles s →
          ∃ t, exec (.bara d a b sc) s = .next t ∧ Traps cBarrierBad x p t) ∧
        (c.id ≠ s.ag.place → Near p c.id → asks (.bara d a b sc) c.id (.bara c.id n y.toNat x) p)) ∧
      (Free [.s a, .s b] s → Fresh s → wokenValue s = none →
        (c.id = s.ag.place →
          ((getBar (getCore s c.id) n).phase ≠ y.setWidth 16 → exec (.barw a b sc) s = .next (advance 4 (acquired sc s))) ∧
          ((getBar (getCore s c.id) n).phase = y.setWidth 16 →
            exec (.barw a b sc) s = .next (table c.id ⟨s.ag.aid, n, true, false, false⟩ s))) ∧
        (c.id ≠ s.ag.place → Near s c.id → asks (.barw a b sc) c.id (.barw c.id n (y.setWidth 16)) s))) ∧
    (∀ (c : Core) (l : Nat), Aligned 8 x → futureOf s x = some (c, l) →
      (∀ s1, Free [.s d, .s a] s → Fresh s → wokenValue s = none → settled ((List.range 8).map (l + ·)) s = some s1 →
        (c.id = s.ag.place → coreOfLoc l = c.id →
          (sliceOff l ∈ (getCore s1 c.id).full → exec (.waitf d a e sc) s = .next (advance 4 (acquired sc
            (setS d (memWord s1.mem l) (if e then onCore c.id (setFull (sliceOff l) false) s1 else s1))))) ∧
          (sliceOff l ∉ (getCore s1 c.id).full →
            exec (.waitf d a e sc) s = .next (table c.id ⟨s.ag.aid, sliceOff l, false, e, false⟩ s1))) ∧
        (c.id ≠ s.ag.place → s1 = s → Near s c.id → asks (.waitf d a e sc) c.id (.waitf l e) s)) ∧
      (Free [.s d, .s a, .s b] s → may → coreOfLoc l = c.id →
        (c.id = s.ag.place → ∃ t, exec (.fill d a b sc) s = .next t ∧ fills l y p t ∧
          getS t d = (if d = 0 then 0 else wasFull l p) ∧ t.ag.pc = s.ag.pc + 4 ∧ ∀ r, r ≠ d → getS t r = getS s r) ∧
        (c.id ≠ s.ag.place → Near p c.id → asks (.fill d a b sc) c.id (.fill l y) p))) ∧
    (∀ counts v, s.ag.run = .blocked (.woken counts (some v)) →
      (Free [.s a, .s b] s → exec (.barw a b sc) s = .next (advance 4 (acquired sc s))) ∧
      (Free [.s d, .s a] s → exec (.waitf d a e sc) s = .next (advance 4 (acquired sc (setS d v s))))) ∧
    (∀ z, Answered s z →
      (Free [.s d, .s a, .s b] s → exec (.bara d a b sc) s = .next (advance 4 (setS d z.value s)) ∧
        exec (.fill d a b sc) s = .next (advance 4 (setS d z.value s))) ∧
      (Free [.s a, .s b] s → exec (.barw a b sc) s = .next (advance 4 (acquired sc s))) ∧
      (Free [.s d, .s a] s → exec (.waitf d a e sc) s = .next (advance 4 (acquired sc (setS d z.value s))))) ∧
    (∀ (c : CoreId) (key n k l : Nat) (seq : BitVec 24) (h v : Word) (ph : BitVec 16), k < 2 ^ 24 →
      (fits c n k s → ∃ t, actAt c key seq (.bara c n k h) s =
        (t, some (.done ⟨(getBar (getCore s c) n).phase.setWidth 64, 0, 0, false, false⟩)) ∧ arrives c n k s t) ∧
      (¬ fits c n k s → actAt c key seq (.bara c n k h) s = (s, some (.trapped cBarrierBad h))) ∧
      ((getBar (getCore s c) n).phase = ph → (getCore s c).waiters.length < 64 → c ≠ s.ag.place →
        actAt c key seq (.barw c n ph) s = (table c ⟨s.ag.aid, n, true, false, true⟩ s, none)) ∧
      (sliceOff l ∉ (getCore s (coreOfLoc l)).full → (getCore s (coreOfLoc l)).waiters.length < 64 → coreOfLoc l ≠ s.ag.place →
        actAt c key seq (.waitf l e) s = (table (coreOfLoc l) ⟨s.ag.aid, sliceOff l, false, e, true⟩ s, none)) ∧
      (sliceOff l ∈ (getCore s (coreOfLoc l)).full → actAt c key seq (.waitf l e) s =
        (if e then onCore (coreOfLoc l) (setFull (sliceOff l) false) s else s,
          some (.done ⟨memWord s.mem l, 0, 0, false, false⟩))) ∧
      ∃ t, actAt c key seq (.fill l v) s = (t, some (.done ⟨wasFull l s, 0, 0, false, false⟩)) ∧ fills l v s t) ∧
    ∀ (core : CoreId),
      (∀ m g v, waiterAt s core = some (m, g, v) → exec (.waiterWake core) s = .next (onAgent g.aid (fun q =>
        match q.run with
        | .blocked (.woken counts none) =>
          { q with run := .blocked (.woken counts (some v)), outreq := if counts then q.outreq - 1 else q.outreq }
        | _ => q) (received m g s))) ∧
      (∀ q, retrying s core = [q] → exec (.waitTableRetry core) s = .next (onAgent q.aid
        (fun g => { g with run := .running }) (setCore
          { getCore s core with refused := (getCore s core).refused.filter fun w => w.aid != q.aid } s)))

/-- Queue registers are first in, first out, and hold four entries: QPUT appends, or waits; QGET takes the oldest with its
tag, or waits, or traps for a strip that failed; QSTREAM starts a stream on an empty register; QFLUSH empties it, forgets its fetch
and releases the writers that are blocked there; the copy unit appends the strips in order, the first index counting fastest, and asks
for those beyond its core. That QSTREAM itself waits until the agent's stores are performed is log 24, the model's reading of R79 and
R356, which order the strip reads after them. -/
def Obligations.QueueRegisters : Prop :=
  ∀ (s : State) (q d a : Reg),
    let x := getQ s.core q.toNat
    (Free [.q q, .v a] s →
      (x.stream = none → x.entries.length < 4 → servedLater s false q.toNat = false →
        exec (.qput q a) s = .next (advance 4 (putQ q.toNat
          { x with entries := x.entries ++ [.data (getV s a) (getVT s a)] } s))) ∧
      (x.stream = none → 4 ≤ x.entries.length → ∃ n, exec (.qput q a) s = .next (blockOn (.queueRoom q.toNat n) s)) ∧
      (Handles s → x.stream ≠ none → ∃ t, exec (.qput q a) s = .next t ∧ Traps cQueueBad (q.setWidth 64) s t)) ∧
    (Free [.v d, .q q] s →
      (servedLater s true q.toNat = false →
        (∀ b tag es, x.entries = .data b tag :: es → ∃ t, exec (.qget d q) s = .next t ∧
          WritesVector d b tag 0 4 (putQ q.toNat (popped es x) s) t) ∧
        (∀ c addr es, Handles s → x.entries = .failed c addr :: es → ∃ t, exec (.qget d q) s = .next t ∧
          Traps c addr (putQ q.toNat ⟨[], none⟩ s) t)) ∧
      ((x.entries = [] ∨ ∃ w es, x.entries = .coming w :: es) →
        ∃ n, exec (.qget d q) s = .next (blockOn (.queueEntry q.toNat n) s))) ∧
    (Free [.q q, .v a] s →
      let w := fun (i : Nat) => (BitVec.ofNat 64 (lane 64 i (getV s a)) : Word)
      let st : Stream := ⟨w 0, (w 1).toNat, (w 2).toNat, (w 3).toNat, w 4, w 5, w 6, 0, false⟩
      (∀ i ∈ [0, 4, 5, 6], Aligned 64 (w i)) → (∀ i ∈ [1, 2, 3], (w i).toNat ≤ 65536) → w 7 = 0 →
      x.entries = [] → x.stream = none →
        ((drainAll s).ag.posted = [] → exec (.qstream q a) s = .next (advance 4 (putQ q.toNat
          ⟨[], if (w 1).toNat * (w 2).toNat * (w 3).toNat = 0 then none else some st⟩ (drainAll s)))) ∧
        ((drainAll s).ag.posted ≠ [] → exec (.qstream q a) s = .next (blockOn .order s))) ∧
    (Free [.q q] s → ∃ t, exec (.qflush q) s = .next t ∧ t.core = setQ q.toNat ⟨[], none⟩ s.core ∧
      t.ag = { s.ag with pc := s.ag.pc + 4, run := .running, inhand := none } ∧ t.mem = s.mem ∧
      t.teffs = (dropFetch s.ag.place q.toNat s).teffs ∧ t.net = (dropFetch s.ag.place q.toNat s).net ∧
      t.agents = s.agents.map fun g => match g.run with
        | .blocked (.queueRoom k _) =>
          if k = q.toNat ∧ g.place = s.ag.place ∧ (s.moves.any fun m => m.aid == g.aid && m.captured) = false
          then { g with run := .running, inhand := none, pc := g.pc + 4 } else g
        | _ => g) ∧
    (∀ (st : Stream) (i j k : Nat), i < st.count1 → j < st.count2 → stripAddr st (i + st.count1 * (j + st.count2 * k)) =
      st.base + BitVec.ofNat 64 i * st.stride1 + BitVec.ofNat 64 j * st.stride2 + BitVec.ofNat 64 k * st.stride3) ∧
    ∀ (core : CoreId) (n : BitVec 3) (st : Stream) (xs : List XOk),
      let c := getCore s core
      let y := getQ c n.toNat
      let locs := xs.map (·.loc)
      let home := homeName (locs.headD 0)
      y.stream = some st → st.parked = false → st.next < st.count1 * st.count2 * st.count3 → y.entries.length < 4 →
      (∀ b a, .failed b a ∉ y.entries) → c.stopped = false →
      engLocs s core true (stripAddr st st.next) .engRead = .ok xs →
        (home = core → exec (.stripFetch core n) s = .next (addStrip core n.toNat st
          (.data (engBlock s locs (xs.any (·.poison))).1 (engBlock s locs (xs.any (·.poison))).2) { s with msgs := s.msgs + 1 })) ∧
        (home ≠ core → isFarLoc (locs.headD 0) = false → ∃ w, w.id = s.msgs ∧ w.here = false ∧
          exec (.stripFetch core n) s = .next (addStrip core n.toNat st (.coming w)
            (send core home (ctxOf s core) (.request (.engine core s.msgs) false true) { s with msgs := s.msgs + 1 })))

/-! ## Tiles and the matrix engine -/

/-- Tile registers: TCFG and TCFGI write one byte of TSHAPE and clear the tile; TZERO clears the rows in use; TCLEAN clears the
tile, its image and its dirty bit; TROW and TCOL move a row with its tag, or a column; an unconfigured tile traps TILE_UNCFG. -/
def Obligations.TileRegisters : Prop :=
  ∀ (s : State) (n a b : Reg) (w1 : BitVec 32), n.toNat < 8 →
    let old := getT s n
    let rows := tileRows s n
    let t := tileTy s n
    let w := 8 * t.bytes
    let config := fun (i : Instr) (x len : Nat) => ∃ u, exec i s = .next u ∧
      u = { s with ag := { s.ag with tshape := u.ag.tshape, trest := u.ag.trest, tdirty := u.ag.tdirty,
                                     t := s.ag.t.setIfInBounds n.toNat Tile.zero,
                                     pc := s.ag.pc + BitVec.ofNat 64 len, run := .running, inhand := none } } ∧
      ∀ k < 8, u.ag.tshape.toNat / 2 ^ (8 * k) % 256 = (if k = n.toNat then x else s.ag.tshape.toNat / 2 ^ (8 * k) % 256) ∧
        u.ag.tdirty.getLsbD k = (if k = n.toNat then x % 16 != 15 else s.ag.tdirty.getLsbD k) ∧
        u.ag.trest.getLsbD k = (k != n.toNat && s.ag.trest.getLsbD k)
    let okShape := fun (x : Nat) => x < 256 ∧ (x % 16 < 8 ∨ x % 16 = 15)
    let put := fun (i : Instr) (f : Nat → Block) (g : Nat → Tag) => ∃ u x, exec i s = .next u ∧ WritesTile n x true 4 s u ∧
      ∀ r < 16, tileRow x r = f r ∧ tileTag x r = g r
    (Free [.t n, .s a] s → (okShape (getS s a).toNat → config (.tcfg n a) (getS s a).toNat 4) ∧
      (Handles s → ¬ okShape (getS s a).toNat → ∃ u, exec (.tcfg n a) s = .next u ∧ Traps cFormatBad 0 s u)) ∧
    (Free [.t n] s → (okShape w1.toNat → config (.tcfgi n w1) w1.toNat 8) ∧
      (tileType s n ≠ 15 → put (.tzero n) (fun r => if r ≤ rows then 0 else tileRow old r)
        (fun r => if r ≤ rows then 0x7FC0 else tileTag old r)) ∧
      (Handles s → tileType s n = 15 → ∃ u, exec (.tzero n) s = .next u ∧ Traps cTileUncfg (n.setWidth 64) s u) ∧
      ∃ u, exec (.tclean n) s = .next u ∧
        WritesTile n Tile.zero false 4 { s with ag := { s.ag with timg := s.ag.timg.setIfInBounds n.toNat Tile.zero,
                                                                  trest := u.ag.trest } } u ∧
        ∀ k < 8, u.ag.trest.getLsbD k = (k != n.toNat && s.ag.trest.getLsbD k)) ∧
    (tileType s n ≠ 15 → Free [.t n, .v a, .s b] s →
      ((getS s b).toNat ≤ rows → put (.trow n a b true)
        (fun r => if r = (getS s b).toNat then getV s a else tileRow old r)
        (fun r => if r = (getS s b).toNat then getVT s a else tileTag old r)) ∧
      (∀ j h, getS s b = BitVec.ofNat 64 (j + 64 * h) → j < t.lanes → h < (if t.bytes = 8 then 2 else 1) → Clean [a] s →
        ∃ u x, exec (.tcol n a b true) s = .next u ∧ WritesTile n x true 4 s u ∧ ∀ r < 16, tileTag x r = tileTag old r ∧
          ∀ k < t.lanes, lane w k (tileRow x r) =
            if k = j ∧ r ≤ rows ∧ (t.bytes = 8 → r / 8 = h) then lane w (if t.bytes = 8 then r % 8 else r) (getV s a)
            else lane w k (tileRow old r)) ∧
      (Handles s → rows < (getS s b).toNat → ∃ u, exec (.trow n a b true) s = .next u ∧ Traps cBounds (getS s b) s u)) ∧
    (tileType s n ≠ 15 → Free [.v a, .t n, .s b] s →
      ((getS s b).toNat ≤ rows → ∃ u, exec (.trow a n b false) s = .next u ∧
        WritesVector a (tileRow old (getS s b).toNat) (tileTag old (getS s b).toNat) 0 4 s u) ∧
      (∀ j h, getS s b = BitVec.ofNat 64 (j + 64 * h) → j < t.lanes → h < (if t.bytes = 8 then 2 else 1) →
        (∀ r ≤ rows, poisoned (tileTag old r) = false) →
        ∃ u x, exec (.tcol a n b false) s = .next u ∧ WritesVector a x 0x7FC0 0 4 s u ∧
          ∀ i < (if t.bytes = 8 then 8 else 16), lane w i x =
            if (if t.bytes = 8 then 8 * h + i else i) ≤ rows then lane w j (tileRow old (if t.bytes = 8 then 8 * h + i else i))
            else 0))

/-- TMMA queues the product of tiles on a vector core, row by row with one rounding for each step of a sum, and its result is
written to the tile later; an agent that waits for a tile restore has the tile once the last of the 16 blocks has come. -/
def Obligations.TileProducts : Prop :=
  (∀ (s : State) (c a b : Reg), Has .xd s → Free [.t c, .t a, .t b] s →
    let ty := tileType s c
    let k := if ty = 6 then 16 else 8
    let w := if ty = 6 then 32 else 64
    let f := if ty = 6 then fmtF32 else fmtF64
    let fma := fun (x y z : Nat) =>
      (roundTo f (rounding s .byStatus) (fvFma (rounding s .byStatus) (fvDecode f x) (fvDecode f y) (fvDecode f z)).1).1
    ty = 6 ∨ ty = 7 → tileType s a = ty → tileType s b = ty → tileRows s b + 1 = k → tileRows s c = tileRows s a →
    (∀ n ∈ [c, a, b], ∀ r ≤ tileRows s n, poisoned (tileTag (getT s n) r) = false) →
    ∃ u out, exec (.tmma c a b) s = .next u ∧
      u = { s with ag := { s.ag with tdirty := u.ag.tdirty, tmma := s.ag.tmma ++ [⟨c.toNat, out⟩],
                                     pc := s.ag.pc + 4, run := .running, inhand := none } } ∧
      (c.toNat < 8 → u.ag.tdirty.getLsbD c.toNat = true) ∧ out.length = tileRows s a + 1 ∧
      ∀ i row, out[i]? = some row → ∀ j < k, lane w j row =
        (List.range k).foldl (fun z q => fma (lane w q (tileRow (getT s a) i)) (lane w j (tileRow (getT s b) q)) z)
          (lane w j (tileRow (getT s c) i)) % 2 ^ w) ∧
  (∀ (s : State) (r : TmmaResult) (rs : List TmmaResult), s.ag.run ≠ .free → s.ag.tmma = r :: rs → r.rows.length ≤ 16 →
    ∃ x, exec (.tmmaResult s.ag.aid) s =
        .next { s with ag := { s.ag with tmma := rs, t := s.ag.t.setIfInBounds r.tile x } } ∧
      ∀ i < 16, tileRow x i = (r.rows[i]?).getD (tileRow (s.ag.t.toList.getD r.tile Tile.zero) i) ∧
        tileTag x i = if i < r.rows.length then 0x7FC0 else tileTag (s.ag.t.toList.getD r.tile Tile.zero) i) ∧
  ∀ (s : State) (n : BitVec 3) (key : Nat), s.ag.run = .blocked (.tileRestore n.toNat key 0) → s.ag.trest.getLsbD n.toNat = true →
    ∃ t, exec (.tileRestoreDone s.ag.aid n) s = .next t ∧
      t = { s with ag := { s.ag with trest := t.ag.trest, t := s.ag.t.set n.toNat s.ag.timg[n.toNat] n.isLt } } ∧
      ∀ k < 8, t.ag.trest.getLsbD k = (k != n.toNat && s.ag.trest.getLsbD k)

/-- The matrix engine: claims are all or nothing, and take no slot that a migration is to bring (log 23, the model's reading); a slot
that is claimed again is none that the agent's own queued ORELs will free (log 20, the model's reading). Each of the other instructions
checks its claim and enters the coprocessor queue, an ARD with its stores pending and their data to come; the entries are
performed in order, each with its own effect, but for the status and the claims of an agent that a double trap has stopped. -/
def Obligations.MatrixEngine : Prop :=
  (∀ (s : State) (d a : Reg), Has .xm s → Free [.s d, .s a] s →
    let x := getS s a
    let free := fun (o : Option (BitVec 3)) => o = none ∨ o = some s.ag.num
    let claims := fun (i : Instr) (acc : Bool) (n : Nat) (old : List (Option (BitVec 3)))
        (new : State → List (Option (BitVec 3))) =>
      let may := fun (k : Nat) => free (old.getD k none) ∧ slotsComing acc s k = false
      ((∀ k < n, x.getLsbD k = true → may k) → ∃ t, exec i s = .next t ∧ getS t d = (if d = 0 then 0 else 1) ∧
        t.ag.pc = s.ag.pc + 4 ∧ t.core.coq = s.core.coq.map (keepClaimed s.ag.aid acc x) ∧ ∀ k < n, (new t).getD k none = if x.getLsbD k then some s.ag.num else old.getD k none) ∧
      ((∃ k < n, x.getLsbD k = true ∧ ¬ may k) → ∃ t, exec i s = .next t ∧ WritesScalar d 0 0 4 s t)
    claims (.oclaim d a false) false 64 s.core.oclaim.toList (·.core.oclaim.toList) ∧
      (x.toNat < 2 ^ 16 → claims (.oclaim d a true) true 16 s.core.aclaim.toList (·.core.aclaim.toList)) ∧
      (Handles s → 2 ^ 16 ≤ x.toNat → ∃ t, exec (.oclaim d a true) s = .next t ∧ Traps cBounds x s t)) ∧
  (∀ (s : State) (n d a b : Reg) (o oa ob : Slot) (acc z : Bool) (m : IMode) (ls : List (List XOk)),
    Has .xm s → s.core.coq.length < 8 →
    let queued := fun (op : CoOp) => { s with core := { s.core with coq := s.core.coq ++ [⟨s.ag.aid, op⟩] } }
    let enters := fun (i : Instr) (op : CoOp) (len : Nat) => exec i s = .next (advance len (queued op))
    let stores := fun (i : Instr) (op : CoOp) => ∃ t ws, exec i s = .next t ∧
      t = advance 4 { queued op with msgs := t.msgs, ag := { s.ag with posted := s.ag.posted ++ ws, outreq := t.ag.outreq,
                                                                       reqseq := t.ag.reqseq } } ∧
      (∀ w ∈ ws, w.ready = false ∧ w.ins = s.draws) ∧ ws.map (fun w => w.bytes.map (·.1)) = locsOf s ls
    let owned := ownsA s n.toNat = true
    let x := getS s b
    let stride := ((x.setWidth 32).signExtend 64 : Word)
    let sat := s.ag.status.getLsbD 4
    let va := oslotAhead s.core oa
    let vb := oslotAhead s.core ob
    let mode := fun (q : Bool) => if q then AccKind.float else AccKind.int
    let pairs := fun (ova ovb : Option Tag) (ka kb : Nat × Bool) =>
      mmaOperand va none ≠ none ∧ mmaOperand vb none ≠ none ∧ mmaOperand va (ova.map (·.setWidth 8)) = some ka ∧
        mmaOperand vb (ovb.map (·.setWidth 8)) = some kb ∧ ka.1 = kb.1 ∧
        (z = false → kindAhead s.core n.toNat = .open_ ∨ kindAhead s.core n.toNat = mode (ka.2 || kb.2)) ∧
        (ka.2 = false → kb.2 = false → scalesBad va vb ova ovb = false)
    (Free [.s a] s → acc = false ∨ (getS s a).toNat < 2 ^ 16 → enters (.orel a acc) (.orel acc (getS s a)) 4) ∧
    (Free [.acc n] s → owned → enters (.azero n) (.azero n.toNat) 4) ∧
    (Free [.s d, .s a] s → ownsO s o.toNat = true → Aligned 64 (getS s a) → Aligned 64 (getS s d) →
      Reads s false [] ((List.range 32).map fun i => (getS s a + BitVec.ofNat 64 i * getS s d, 64)) ls → ls.length = 32 →
      (∃ f, ∀ xs ∈ ls, tagFormat (agTagOf s xs) = f ∧
        rowBad s f (agTagOf s xs) (BitVec.ofNat 512 (agNat s xs)) = none) →
      enters (.oload d a o) (.oload o.toNat (oslotOf s ls)) 4) ∧
    (Free [.acc n] s → owned → ownsO s oa.toNat = true → ownsO s ob.toNat = true →
      (∀ ka kb, pairs none none ka kb → enters (.mma n oa ob z) (.mma n.toNat oa.toNat ob.toNat z sat none none) 4) ∧
      ∀ ka kb (va vb : Bool) (ta tb : Tag),
        let w : BitVec 32 := tb.extractLsb' 8 8 ++ ta.extractLsb' 8 8 ++ tb.setWidth 8 ++ ta.setWidth 8
        let ova := if va then some ta else none
        let ovb := if vb then some tb else none
        (if va then overrideBad s ta = none else ta = 0) → (if vb then overrideBad s tb = none else tb = 0) →
        pairs ova ovb ka kb →
        enters (.mmal n oa ob vb va z w) (.mma n.toNat oa.toNat ob.toNat z sat ova ovb) 8) ∧
    (Free [.acc n, .s a, .s b] s → owned → Aligned 64 (getS s a) → x.toNat / 2 ^ 32 = 0 → Aligned 64 stride →
      (∀ t : AwrTy, Reads s false [] (rowLanes (getS s a) stride (awrBlocks t)) ls →
        enters (.awr n a b t) (.awr n.toNat (awrElems s t ls)) 4) ∧
      ∀ t : ArdTy, t ≠ .b8 → m = .byStatus ∨ t = .i32 → Reaches s false .write [] (rowLanes (getS s a) stride (ardBlocks t)) ls →
        Unguarded s ls → stores (.ard n a b m z t)
          (.ard n.toNat t (saturates s m) z (s.ag.status.extractLsb' 1 3) 0 (locsOf s ls).flatten s.draws)) ∧
    (Free [.acc n, .s a, .s b] s → owned → Aligned 64 (getS s a) → x.toNat / 2 ^ 32 % 2 ^ 16 = 0 → Aligned 64 stride →
      narrowDest (ardTag x) ≠ none → Reaches s false .write [] (rowLanes (getS s a) stride 1) ls → Unguarded s ls →
        stores (.ard n a b m z .b8)
          (.ard n.toNat .b8 (saturates s m) z (s.ag.status.extractLsb' 1 3) (ardTag x) (locsOf s ls).flatten s.draws))) ∧
  ∀ (s : State) (q : CoEntry) (es : List CoEntry), s.core.coq = q :: es → s.core.id = s.ag.place → s.core.stopped = false →
    s.ag.run ≠ .free → s.ag.aid = q.aid →
    ∃ t, exec (.coprocEntry s.core.id) s = .next t ∧ t.core.coq = es ∧ t.ag.s = s.ag.s ∧ t.ag.v = s.ag.v ∧
      t.ag.pc = s.ag.pc ∧
      (∀ n, q.op = .azero n → ∀ k < 16, t.core.aslots.toList.getD k ASlot.zero =
        if k = n then ⟨List.replicate 1024 0, .open_, false⟩ else s.core.aslots.toList.getD k ASlot.zero) ∧
      (∀ n xs, q.op = .awr n xs → ∀ k < 16, t.core.aslots.toList.getD k ASlot.zero =
        if k = n then ⟨xs, .open_, false⟩ else s.core.aslots.toList.getD k ASlot.zero) ∧
      (∀ n ty sat z rm tag locs ins, q.op = .ard n ty sat z rm tag locs ins → ∀ k < 16,
        t.core.aslots.toList.getD k ASlot.zero =
          if k = n ∧ z = true then ASlot.zero else s.core.aslots.toList.getD k ASlot.zero) ∧
      (∀ n y, q.op = .oload n y → ∀ k < 64, t.core.oslots.toList.getD k OSlot.initial =
        if k = n then y else s.core.oslots.toList.getD k OSlot.initial) ∧
      (∀ mask, q.op = .orel false mask → ∀ k < 64, t.core.oclaim.toList.getD k none =
        if s.ag.run ≠ .dead ∧ mask.getLsbD k ∧ s.core.oclaim.toList.getD k none = some s.ag.num then none
        else s.core.oclaim.toList.getD k none) ∧
      (∀ n oa ob z sat, q.op = .mma n oa ob z sat none none → n < 16 →
        let va := s.core.oslots.toList.getD oa OSlot.initial
        let vb := s.core.oslots.toList.getD ob OSlot.initial
        let ka := (mmaOperand va none).getD (0, false)
        let kb := (mmaOperand vb none).getD (0, false)
        let old := if z then ASlot.zero else s.core.aslots.toList.getD n ASlot.zero
        let r := mmaAcc s.core.topx (ka.2 || kb.2) sat va vb none none ka.1 old.elems
        t.core.aslots.toList.getD n ASlot.zero = ⟨r.1, if ka.2 || kb.2 then .float else .int, old.bad⟩ ∧
          t.ag.status = s.ag.status ||| (if r.2 ∧ s.ag.run ≠ .dead then 0x100 else 0))

/-- An integer accumulator that wraps holds, after the groups of one dot product, the old value plus the exact dot product
shifted by the scales, modulo 2^48; one that saturates says so when a partial sum leaves the range (R56). -/
def Obligations.IntegerAccumulation : Prop :=
  ∀ (sh acc : Nat) (sums : List FVal), acc < 2 ^ 48 →
    let total := (sums.map fun v => fvToExact v * 2 ^ sh).sum
    let signed := fun (x : Nat) => if 2 ^ 47 ≤ x then (x : Int) - 2 ^ 48 else (x : Int)
    (accInt false sh acc sums).1 < 2 ^ 48 ∧ (accInt false sh acc sums).2 = false ∧
      ((2 : Int) ^ 48 ∣ signed (accInt false sh acc sums).1 - (signed acc + total)) ∧
      ((accInt true sh acc sums).2 = false → signed (accInt true sh acc sums).1 = signed acc + total)

/-! ## Nodes, tile buffers, pushes, the keyed queue -/

/-- Nodes and tile buffers. NEW allocates a free record and writes the header, zero words and the next generation; FREE sends
its request; WIRE connects two free ports and pushes a new active pair; LINK sends its request to the link unit, which answers;
TSHARE and TDROP count references; PUBLISH flips a shadow pair. The agent's own stores to the nodes come first. What lies at the
agent's own core is done at once; for another party a request leaves, that party does the same when it arrives, and the answer ends
the instruction. -/
def Obligations.NodesAndSharing : Prop :=
  (∀ (s : State) (d a : Reg) (h : Bool), Free [.s d, .s a] s → Fresh s →
    let x := getS s a
    hdrBad x = false → hdrDead x = false →
    let makes := fun (r : ArenaRec) (l : Nat) => ∀ u, settled ((List.range 64).map (l + ·)) s = some u →
      (homeName l = s.ag.place → ∃ t, exec (.new d a h) s = .next t ∧
        getS t d = (if d = 0 then 0 else recordAddr s s.ag.place r) ∧ t.ag.pc = s.ag.pc + 4 ∧
        (∀ q, q ≠ d → getS t q = getS s q) ∧ isAllocated t s.ag.place r = true ∧
        t.mem = memSetBytes u.mem (withBytes ((List.range 64).map (l + ·))
          (x.toNat + (memWord u.mem (l + 56) + 1).toNat * 2 ^ 448)) ∧
        t.ag.young = (recordAddr s s.ag.place r).toNat :: s.ag.young) ∧
      (homeName l ≠ s.ag.place → Near (allocate s.ag.place r u) (homeName l) → ∃ t, exec (.new d a h) s = .next t ∧
        Asks (homeName l) (.new (recordAddr s s.ag.place r) l x) (allocate s.ag.place r u) t)
    (∀ i, h = false → s.core.id = s.ag.place → freeRecords s.core = [i] → makes (.slice s.core.id i)
      (sliceBase s.core.id + arenaBase s.core.kd + 64 * i)) ∧
    (∀ i ls, h = true → s.core.kd.hrecs ≠ 0 → hbmRecord s = some i →
      Reaches s false .readWrite [] [(recordAddr s s.ag.place (.hbm i), 64)] ls →
      (∃ c, findCtx s s.ag.ctx = some c) → (getCore s s.ag.place).ctx = some s.ag.ctx →
      makes (.hbm i) (((ls.headD []).map (·.loc)).headD 0)) ∧
    (Handles s → h = false → freeRecords s.core = [] → ∃ t, exec (.new d a h) s = .next t ∧ Traps cBounds 0 s t)) ∧
  (∀ (s : State) (d a b : Reg) (h : Bool) (z : OpData), Answered s z → Free [.s d, .s a, .s b] s →
    (∃ t, exec (.new d a h) s = .next t ∧ getS t d = (if d = 0 then 0 else z.value) ∧ t.ag.pc = s.ag.pc + 4 ∧
      t.ag.young = z.value.toNat :: s.ag.young ∧ t.mem = s.mem) ∧
    ∀ i ∈ [Instr.link d a b, .wire d a b, .tshare d a, .tdrop d a, .publish d a],
      exec i s = .next (advance 4 (setS d z.value s))) ∧
  (∀ (s : State) (a : Reg) (ls : List (List XOk)), Free [.s a] s → Reaches s false .readWrite [] [(getS s a, 1)] ls →
    (∃ u w, settled (nodeLocs (getS s a) s) s = some u ∧ settled (nodeLocs (getS s a) u) u = some w) →
    ∃ t m, exec (.free a) s = .next t ∧ t.ag.pc = s.ag.pc + 4 ∧ t.ag.outreq = s.ag.outreq + 1 ∧ t.ag.s = s.ag.s ∧
      t.net = s.net ++ [m] ∧ m.dst = homeName (((ls.headD []).map (·.loc)).headD 0) ∧
      m.body = .free (getS s a) s.ag.aid s.ag.reqseq) ∧
  (∀ (s u s1 : State) (d a b : Reg) (ls : List (List XOk)), Free [.s d, .s a, .s b] s → Fresh s →
    let x := getS s a
    let y := getS s b
    let e := s1.ag.place
    let hw := (homeCore s1 e (lower x y)).getD e
    let hl := (homeCore s1 e (lockOf s1 e y (portPartner (netGet s1 e y)))).getD e
    Aligned 8 x → Aligned 8 y → Reaches s false .readWrite [] [(x, 8), (y, 8)] ls →
    settled (nodeLocs x s) s = some u → settled (nodeLocs y u) u = some s1 →
    (wireBad s1 e x y = none → hw = e → isPrincipal x = false ∨ isPrincipal y = false →
      exec (.wire d a b) s = .next (advance 4 (setS d 0 (netPuts e [(x, wireTo y), (y, wireTo x)] s1)))) ∧
    (wireBad s1 e x y = none → hw = e → isPrincipal x = true → isPrincipal y = true → fanoutFull s1 = false →
      ∀ dst, pairCore s1 e x y = some dst → ∃ t m, exec (.wire d a b) s = .next t ∧
        getS t d = (if d = 0 then 0 else 4) ∧ t.ag.outreq = s1.ag.outreq + 1 ∧ t.net = s1.net ++ [m] ∧ m.dst = dst ∧
        ∃ r, m.body = .push r ∧ r.key = lower (nodeOf x) (nodeOf y) ∧
          r.nodes = some (lower (nodeOf x) (nodeOf y), higher (nodeOf x) (nodeOf y))) ∧
    (Handles s1 → hw = e → ∀ p, wireBad s1 e x y = some p → ∃ t, exec (.wire d a b) s = .next t ∧ Traps cLinkBad p s1 t) ∧
    (hw ≠ e → Near s1 hw → ∃ t, exec (.wire d a b) s = .next t ∧ Asks hw (.wire x y) s1 t) ∧
    (linkBad s1 e x y = none → portMiss s1 (farPorts s1 e y) = none →
      (hl = e → ∃ t, exec (.link d a b) s = .next t ∧ t.ag.run = .blocked (.op s1.draws none) ∧
        t.ag.outreq = s1.ag.outreq + 1 ∧ t.ag.pc = s1.ag.pc ∧
        (getCore t e).linkq = (getCore s1 e).linkq ++ [⟨s1.ag.aid, s1.draws, 0, x, y⟩]) ∧
      (hl ≠ e → Near s1 hl → ∃ t, exec (.link d a b) s = .next t ∧ Asks hl (.link x y) s1 t)) ∧
    (Handles s → ∀ p, linkBad s1 e x y = some p → ∃ t, exec (.link d a b) s = .next t ∧ Traps cLinkBad p s t)) ∧
  (∀ (s : State) (r : LinkReq) (rs : List LinkReq) (en : NetEnd), s.core.linkq = r :: rs → s.core.id = s.ag.place →
    s.core.stopped = false → s.ag.run = .blocked (.op r.key none) → s.ag.aid = r.aid →
    let s1 := { s with core := { s.core with linkq := rs } }
    let e := s.ag.place
    let w := netGet s1 e r.sa
    portMiss s1 (farPorts s1 e r.sa) = none → portState w = 1 → (homeCore s1 e (lockOf s1 e r.sa (portPartner w))).getD e = e →
    endOf s1 e (portPartner w) r.sa = some en → en.live = false ∨ isPrincipal r.sn = false ∨ isPrincipal en.port = false →
    ∃ t, exec (.linkUnitRequest e) s = .next t ∧ t.ag.pc = s.ag.pc ∧ t.ag.outreq = s.ag.outreq - 1 ∧
      t.ag.run = .blocked (.op r.key (some ⟨if en.live then (if en.via then 1 else 0) else 2, 0, 0, false, false⟩))) ∧
  (∀ (s : State) (d a : Reg) (c : CoreId) (b : Nat), Free [.s d, .s a] s → Fresh s → Aligned 1024 (getS s a) →
    namedBuf s (getS s a) = some (c, b) →
    let t := bufOf (getCore s c) b
    let h := getS s a
    let put := fun (x : TileBuf) => setCore (setBuf b x (getCore s c)) s
    let up := put { t with share := t.share + 1 }
    let down := put { t with share := t.share - 1 }
    let gone := put ⟨.free, 0, false⟩
    (c = s.ag.place → t.state ≠ .free →
      (t.share < 255 → exec (.tshare d a) s = .next (advance 4 (setS d (BitVec.ofNat 64 (t.share + 2)) up))) ∧
      (0 < t.share → exec (.tdrop d a) s = .next (advance 4 (setS d (BitVec.ofNat 64 t.share) down))) ∧
      (t.share = 0 → t.waiter = false → exec (.tdrop d a) s = .next (advance 4 (setS d 0 gone)))) ∧
    (c = s.ag.place → t.state = .free → Handles s → ∀ i ∈ [Instr.tshare d a, .tdrop d a],
      ∃ u, exec i s = .next u ∧ Traps cBounds h s u) ∧
    (c ≠ s.ag.place → Near s c → (∃ u, exec (.tshare d a) s = .next u ∧ Asks c (.tshare c b h) s u) ∧
      ∃ u, exec (.tdrop d a) s = .next u ∧ Asks c (.tdrop c b h) s u) ∧
    ∀ key seq, t.state ≠ .free →
      (t.share < 255 → actAt c key seq (.tshare c b h) s = (up, some (answer (BitVec.ofNat 64 (t.share + 2))))) ∧
      (0 < t.share → actAt c key seq (.tdrop c b h) s = (down, some (answer (BitVec.ofNat 64 t.share)))) ∧
      (t.share = 0 → t.waiter = false → actAt c key seq (.tdrop c b h) s = (gone, some (answer 0)))) ∧
  ∀ (s : State) (d a : Reg) (p : Shadow), Free [.s d, .s a] s → Fresh s → labelledPair s (getS s a) = some p →
    s.ag.tokens = [] → quiet s = true →
    (p.home = s.ag.place → ∃ t, exec (.publish d a) s = .next t ∧ getS t d = (if d = 0 then 0 else p.count + 1) ∧
      t.ag.pc = s.ag.pc + 4 ∧ t.mem = (drainAll s).mem ∧ (∀ q, q ≠ d → getS t q = getS s q) ∧
      ∀ i, findInst s s.ag.ctx s.ag.inst = some i → ∃ j, findInst t s.ag.ctx s.ag.inst = some j ∧
        j.shadows = i.shadows.map fun x => if x.va = p.va then { p with flipped := !p.flipped, count := p.count + 1 } else x) ∧
    (p.home ≠ s.ag.place → Near (drainAll s) p.home → ∃ t, exec (.publish d a) s = .next t ∧
      Asks p.home (.publish (getS s a)) (drainAll s) t)

/-- The keyed queue. Pushes from program code leave as records for the core that their word or address names, of this package
or of another one; a record that
arrives waits in its queue, is folded, or drains from the spill ring into an entry; an entry is eligible when nothing older
holds its key; RETIRE ends a handler and waits for a record, which a dispatch leases and hands over; TAKE takes one out; EXTQ reads the
counters; the sequencer rewrites built-in pairs. The model's choices among these are: what leaves for another package and the answers
it gives (log 1); that TAKE leaves a record of another TOPX where it is, that such a record traps before a missing rule and leaves the
registers as they were, and that the agent to which a record is offered asks for a node's page (log 16); and the TRAPA of an unlisted
selector (log 15). -/
def Obligations.KeyedQueue : Prop :=
  (∀ (s : State) (i : Instr) (key : Word) (b : Block) (tag : Tag) (dst : CoreId) (rule len : Nat),
    let carries := fun (r : PushRec) => r.key = key ∧ r.payload = b ∧ r.tag = tag ∧ r.rule = rule ∧
      r.op = ruleOp s.core.kd rule ∧ r.topx = s.core.topx ∧ r.nodes = none ∧ r.staged = s.ag.hrec.isSome
    let leaves := fun (party : CoreId) (body : PushRec → Body) =>
      rule < s.core.kd.rules.length → fanoutFull s = false → ∃ t m r, exec i s = .next t ∧
        t.ag.pc = s.ag.pc + BitVec.ofNat 64 len ∧ t.ag.outreq = s.ag.outreq + 1 ∧ t.ag.s = s.ag.s ∧ t.ag.v = s.ag.v ∧
        t.mem = s.mem ∧ t.net = s.net ++ [m] ∧ m.dst = party ∧ m.body = body r ∧ carries r
    let sends := leaves dst .push
    let refuses := fun (w : Word) => Handles s → s.core.kd.rules.length ≤ rule ∨ fanoutFull s = true →
      ∃ t, exec i s = .next t ∧ Traps cQueueBad w s t
    let word := fun (w : Word) => (queueTarget s w = some (.here dst rule) → sends ∧ refuses w) ∧
      (∀ pkg, queueTarget s w = some (.away pkg dst rule) → transitFar s pkg dst = false →
        leaves (portOf s pkg) (.farPush pkg dst ⟨pkg, s.ag.place, s.ag.num, s.ag.reqseq⟩) ∧ refuses w) ∧
      (∀ pkg, queueTarget s w = some (.away pkg dst rule) → transitFar s pkg dst = true → rule < s.core.kd.rules.length →
        fanoutFull s = false → exec i s = .next (blockOn .order s)) ∧
      (Handles s → queueTarget s w = none → ∃ t, exec i s = .next t ∧ Traps cBounds w s t)
    (∀ d a c, i = .pushx d a c → Free [.s d, .v a, .s c] s → key = getS s d → b = getV s a → tag = getVT s a → len = 4 →
      word (getS s c)) ∧
    (∀ d a imm, i = .enqi d a imm → Free [.s d, .s a] s → key = getS s d → b = BitVec.ofNat 512 (imm.signExtend 64).toNat →
      tag = 0x7FC0 → len = 8 → word (getS s a)) ∧
    (∀ d a w1 l ls, i = .pushk d a w1 → Free [.s d, .v a] s → rule = w1.toNat → rule < 2 ^ 12 →
      Reaches s false .read [] [(getS s d, 1)] ls → ls.head?.bind (·.head?) = some l → sameKernel s dst s.ag.place = true →
      key = getS s d → b = getV s a → tag = getVT s a → len = 8 → dst = coreOf s.ag.place l.loc → sends) ∧
    (∀ d a w1, i = .pushk d a w1 → Handles s → Free [.s d, .v a] s → 2 ^ 12 ≤ w1.toNat →
      ∃ t, exec i s = .next t ∧ Traps cIllegalOp (word0 i) s t)) ∧
  (∀ (s : State) (n rule : Nat), n < 1024 → rule < 2 ^ 12 → isComputeCore (coreNear s.ag.place n) = true →
    sameKernel s (coreNear s.ag.place n) s.ag.place = true →
    queueTarget s (BitVec.ofNat 64 (0xFE * 2 ^ 48 + n * 2 ^ 22 + rule)) = some (.here (coreNear s.ag.place n) rule)) ∧
  (∀ (s : State), s.ag.run = .running →
    (∀ u ∈ [RegUse.s 1, .s 2, .s 3, .s 4, .s 5], usePending s.ag u = none) → quiet s = true →
    farDue (levelScope s.core.kd) s = [] → s.core.id = s.ag.place →
    (∀ c ∈ s.core :: s.cores, ∀ e ∈ c.kq, e.state ≠ .staged) →
    ∃ t n, exec .retire s = .next t ∧ t.ag.run = .blocked (.retire n) ∧ t.ag.hrec = none ∧ t.ag.redirects = [] ∧
      t.ag.young = [] ∧ t.ag.phasen = s.ag.phasen + 1 ∧ t.ag.s = s.ag.s ∧ t.ag.v = s.ag.v ∧ t.ag.pc = s.ag.pc ∧
      ∀ r, s.ag.hrec = some r → r.core = s.core.id →
        t.core.kq = (s.core.kq.filter fun e => e.place != r.place).map (markRetired s.ag.aid)) ∧
  (∀ (s : State) (d a : Reg) (n : Bool), Free [.s d, .s a, .s 3, .s 4, .s 5] s →
    let hit := (eligible s.core).find? fun e => e.key == getS s a
    (hit = none → ∃ t, exec (.take d a true) s = .next t ∧ WritesScalar d 0 0 4 s t) ∧
    (hit = none → exec (.take d a false) s = .next (blockOn .take s)) ∧
    (Handles s → ∀ e, hit = some e → topxMismatch s.core e = true →
      ∃ t, exec (.take d a n) s = .next t ∧ Traps cTopx e.key s t) ∧
    ∀ e, hit = some e → topxMismatch s.core e = false →
      ∃ t, exec (.take d a n) s = .next t ∧ t.ag.pc = s.ag.pc + 4 ∧
        t.core.kq = s.core.kq.filter (fun x => x.place != e.place) ∧ t.mem = s.mem ∧
        (∀ q, q = d ∨ q ≠ 3 ∧ q ≠ 4 ∧ q ≠ 5 → getS t q = if q = 0 then 0 else if q = d then 1 else getS s q) ∧
        (d ≠ 3 → getS t 3 = e.key) ∧ (d ≠ 4 → getS t 4 = BitVec.ofNat 64 e.rule) ∧
        (d ≠ 5 → getS t 5 = if e.rwr then 0 else if e.overflow then 2 else 1) ∧
        (∀ q, q ≠ 0 → getV t q = getV s q ∧ getVT t q = getVT s q) ∧
        (e.nodes = none → e.op ≠ 10 → getV t 0 = e.payload ∧ getVT t 0 = e.tag)) ∧
  (∀ (s : State) (d a : Reg), Free [.s d, .s a] s →
    let c := s.core
    let reads := fun (n : Nat) (x : Word) =>
      (getS s a).toNat = n → ∃ t, exec (.extq d a) s = .next t ∧ WritesScalar d x 0 4 s t
    let count := fun (f : KEntry → Bool) => BitVec.ofNat 64 (c.kq.filter f).length
    reads 0 (count fun e => e.state == .waiting && e.place < 512) ∧ reads 1 (count fun e => e.state == .leased) ∧
      reads 2 (count fun e => e.state == .waiting && 512 ≤ e.place) ∧ reads 3 c.folds ∧ reads 4 c.dispatches ∧
      reads 5 c.ovdispatches ∧ reads 6 (if c.sumovf then 1 else 0) ∧ reads 7 c.refusals ∧
      (∀ b < c.kd.tiles, reads (0x10000 + b) (BitVec.ofNat 64
        ((match (bufOf c b).state with | .free => 0 | .empty => 1 | .full => 2) + (if (bufOf c b).waiter then 4 else 0) +
          (bufOf c b).share * 256))) ∧
      (Handles s → 8 ≤ (getS s a).toNat → (getS s a).toNat < 0x10000 ∨ 0x10000 + c.kd.tiles ≤ (getS s a).toNat →
        ∃ t, exec (.extq d a) s = .next t ∧ Traps cQueueBad (getS s a) s t)) ∧
  (∀ (c : Core) (e : KEntry), e ∈ eligible c ↔ ∃ l r, c.kq = l ++ e :: r ∧ e.state = .waiting ∧ e.place < 512 ∧
    ∀ o ∈ l, o.key = e.key → o.state ≠ .waiting ∧ o.state ≠ .leased) ∧
  (∀ (s : State) (c : CoreId) (m : Msg) (r : PushRec) (ps : List (Msg × PushRec)), pushesAt s c = (m, r) :: ps →
    opConflict (getCore s c) r.key r.op = false → r.staged = false → r.nodes = none →
    transitBefore s c r.pusher = false →
    (r.op = 0 → roomFor s c = true → ∃ t e, exec (.pushAdmit c) s = .next t ∧ (getCore t c).kq = (getCore s c).kq ++ [e] ∧
      e.state = .waiting ∧ e.key = r.key ∧ e.payload = r.payload ∧ e.tag = r.tag ∧ e.rule = r.rule ∧ e.topx = r.topx) ∧
    ∀ o, foldTarget (getCore s c) r.key r.op = some o → isList r.op = false → ∃ t, exec (.pushAdmit c) s = .next t ∧
      (getCore t c).folds = (getCore s c).folds + 1 ∧ (getCore t c).kq.length = (getCore s c).kq.length ∧
      ∀ x ∈ (getCore t c).kq, x.place = o.place → x.payload = (foldPayload o.op o.payload r.payload).1) ∧
  (∀ (x y : Block) (i : Nat), i < 8 → lane 64 i (foldPayload 1 x y).1 = (lane 64 i x + lane 64 i y) % 2 ^ 64) ∧
  (∀ (s : State) (c : CoreId) (e : KEntry), oldestSpilled (getCore s c) = some e → entryFree (getCore s c) = true →
    foldTarget (getCore s c) e.key e.op = none → ∃ t p, exec (.spillDrain c) s = .next t ∧ p < 512 ∧
      (∀ y ∈ (getCore s c).kq, y.place ≠ p) ∧ (getCore t c).kq = (getCore s c).kq.map fun y =>
        if y.place = e.place then { y with place := p, payload := startPayload y.op y.payload } else y) ∧
  (∀ (s : State) (c : CoreId) (e : KEntry), mayDispatch s c = true →
    (∀ a, nextDispatch s c = some (e, .agent a) → pairMiss s c e.nodes = none → ∃ t h, exec (.queueDispatch c) s = .next t ∧
      t.ag.aid = a.aid ∧ t.ag.hrec = some h ∧ h.key = e.key ∧ h.rule = e.rule ∧ h.pushes = 0 ∧ h.reserved = 4 ∧ h.core = c ∧
      h.place = e.place ∧ h.nodes = e.nodes ∧
      (topxMismatch (getCore s c) e = false → (e.nodes = none → getS t 1 = 0 ∧ getS t 2 = 0) ∧
        getS t 3 = e.key ∧ getS t 4 = BitVec.ofNat 64 e.rule ∧
        (e.missing = false → t.ag.run = .running ∧ t.ag.pc = ruleEntry (getCore s c).kd e.rule) ∧
        (e.missing = true → t.ag.trapc.toNat % 256 = 0x0D ∧ t.ag.trapa = (badNode s c e).getD e.key)) ∧
      (topxMismatch (getCore s c) e = true → t.ag.trapc.toNat % 256 = 0x08 ∧ t.ag.trapa = e.key)) ∧
    (∀ a n q, nextDispatch s c = some (e, .agent a) → pairMiss s c e.nodes = some n → a.run = .blocked (.retire q) →
      exec (.queueDispatch c) s = .next (askNodePage q a.aid n s)) ∧
    (nextDispatch s c = some (e, .sequencer) →
      (pairMiss s c e.nodes = none → ∃ t q, exec (.queueDispatch c) s = .next t ∧ (getCore t c).seq = some q ∧
        q.place = e.place ∧ q.reserved = 4 ∧ (getCore t c).dispatches = (getCore s c).dispatches + 1) ∧
      ∀ n x, pairMiss s c e.nodes = some n → (getCore s c).ctx.bind (findCtx s) = some x → ∃ t m,
        exec (.queueDispatch c) s = .next t ∧ (getCore t c).seqpark = true ∧ t.net = s.net ++ [m] ∧
        m.body = .fault (seqAccess s c x n))) ∧
  (∀ (s : State) (c : CoreId) (e : KEntry) (es : List KEntry), transits (getCore s c) = e :: es →
    (getCore s c).stopped = false →
    (∀ pkg id, e.far = some pkg → e.asking = false → e.origin = some id → ∃ t m, exec (.transitReoffer c) s = .next t ∧
      t.net = s.net ++ [m] ∧ m.dst = portOf s pkg ∧ m.body = .farPush pkg e.target id (transitRec e) ∧
      ∀ y ∈ (getCore t c).kq, y.place = e.place → y.asking = true) ∧
    (e.far = none → e.target ≠ c → e.retired = false → roomFor (onCore c (dropPlace e.place) s) e.target = true →
    ∃ t x, exec (.transitReoffer c) s = .next t ∧
      (getCore t c).kq = (getCore s c).kq.filter (fun y => y.place != e.place) ∧
      (getCore t e.target).kq = (getCore s e.target).kq ++ [x] ∧ x.state = .staged ∧ x.key = e.key ∧
      x.payload = e.payload ∧ x.waited = true)) ∧
  ∀ (s : State) (c : CoreId) (q : SeqRec) (i j : Nat), (getCore s c).seq = some q →
    (q.ending = false → (getCore s c).seqstuck = false → (getCore s c).seqpark = false → rewriteMiss s c q = none → i ≠ j →
      (∀ p ∈ [(q.n1, i), (q.n2, j)], hdrKind (netGet s c p.1) = 0 ∧ hdrArity (netGet s c p.1) = 0 ∧
        hdrDead (netGet s c p.1) = true ∧ recordOf s c p.1 = some (.slice c p.2) ∧ p.2 ∈ (getCore s c).arena ∧
        p.2 ∉ (getCore s c).relpend ∧ somePort s c p.1 1 = false ∧ somePort s c p.1 2 = false) →
      ∃ t, exec (.sequencerRewrite c) s = .next t ∧ (getCore t c).seq = some { q with ending := true } ∧
        (getCore t c).arena = ((getCore s c).arena.filter (· != j)).filter (· != i) ∧ t.mem = s.mem) ∧
    (q.ending = true → seqPushing s c = false → ∃ t, exec (.sequencerRewrite c) s = .next t ∧ (getCore t c).seq = none ∧
      (getCore t c).kq = (getCore s c).kq.filter (fun y => y.place != q.place) ∧ t.mem = s.mem)

/-! ## Engines and the state store -/

/-- What commands the engines. ENQ writes its command into the chain's ring and publishes TAIL, at the home of the chain: at once at
the own core, elsewhere when its request arrives; it waits while the ring is full. ENWAIT waits for COMPLETION; CPY, GATHER and SCATTER
give their work to the core's units, the reads of GATHER and SCATTER leave at issue, and a token is pending. The agent's earlier stores
are performed first: that ENQ waits for them is log 24, the model's reading of R356 and R385. That a poisoned command traps before a
misaligned handle is the order of log 19, the model's choice. -/
def Obligations.EngineInstructions : Prop :=
  let entered := fun (u t : State) (x : Block × Reg) (l : Nat) (ch : Chain) =>
    let core := coreOfLoc l
    let n := ch.tail + 1
    ∃ k, t.ag.tokens = u.ag.tokens ++ [⟨x.2.toNat, k, false⟩] ∧
      findChain (getCore t core) (blockOf (sliceOff l)) = some { ch with tail := n, toks := ch.toks ++ [(n, u.ag.aid, k)] } ∧
      t.mem = memSetBytes (memSetBytes u.mem (withBytes (viewLocs ch.ringSkew (sliceBase core) (ringOff ch n) 0 64)
        (ringBlock x.1 n u.core.topx).toNat)) (withBytes (headerBytes core ch 16 8) n)
  (∀ (s : State) (d a b : Reg), Free [.s d, .s a, .v b] s → Fresh s →
    let h := getS s a
    Handles s → (Clean [b] s → ¬ Aligned 64 h → ∃ t, exec (.enq d a b) s = .next t ∧ Traps cMisaligned h s t) ∧
      (Clean [b] s → Aligned 64 h → headerLoc s h = none → ∃ t, exec (.enq d a b) s = .next t ∧ Traps cBounds h s t) ∧
      (¬ Clean [b] s → ∃ t, exec (.enq d a b) s = .next t ∧ Traps (poisonCause s) (b.setWidth 64) s t)) ∧
  (∀ (s : State) (d a b : Reg) (l : Nat), Free [.s d, .s a, .v b] s → Fresh s → Clean [b] s → Aligned 64 (getS s a) →
    headerLoc s (getS s a) = some l →
    let core := coreOfLoc l
    let hdr := blockOf (sliceOff l)
    let skew := isSkewed (getS s a)
    let s1 := drainAll s
    (s1.ag.posted ≠ [] → exec (.enq d a b) s = .next (blockOn .order s)) ∧
    (s1.ag.posted = [] →
      (∀ ch, findChain (getCore s1 core) hdr = some ch → ch.tail - ch.comp = 2 ^ ch.ringlog →
        exec (.enq d a b) s = .next (blockOn .engineRoom s1)) ∧
      (core = s.ag.place → ∀ ch, findChain (getCore s1 core) hdr = some ch → ch.tail - ch.comp ≠ 2 ^ ch.ringlog →
        ∃ t, exec (.enq d a b) s = .next t ∧ entered s1 t (getV s b, d) l ch ∧ t.ag.pc = s.ag.pc + 4 ∧
          t.ag.s = s.ag.s) ∧
      (core = s.ag.place → findChain (getCore s1 core) hdr = none → chainOf s1 core hdr skew = none → Handles s →
        ∃ t, exec (.enq d a b) s = .next t ∧ Traps cQueueBad (openA s1) s1 t) ∧
      (core ≠ s.ag.place → ringFull s1 l = false → Near s1 core →
        ∃ t, exec (.enq d a b) s = .next t ∧ Asks core (.enq d l skew (getV s b)) s1 t))) ∧
  (∀ (s : State) (d a b : Reg) (z : OpData), Answered s z → exec (.enq d a b) s = .next (advance 4 s)) ∧
  (∀ (s : State) (c : CoreId) (key l : Nat) (seq : BitVec 24) (d : Reg) (skew : Bool) (b : Block) (ch : Chain),
    findChain (getCore s (coreOfLoc l)) (blockOf (sliceOff l)) = some ch →
    (ch.tail - ch.comp = 2 ^ ch.ringlog → actAt c key seq (.enq d l skew b) s = (s, some .ringFull)) ∧
    (ch.tail - ch.comp ≠ 2 ^ ch.ringlog → ∃ t, actAt c key seq (.enq d l skew b) s =
      (t, some (.done ⟨0, 0, 0, false, false⟩)) ∧ entered s t (b, d) l ch)) ∧
  (∀ (s : State) (a b : Reg), Free [.s a, .s b] s →
    let h := getS s a
    (Handles s → Fresh s → h.toNat % 64 ≠ 24 → ∃ t, exec (.enwait a b) s = .next t ∧ Traps cMisaligned h s t) ∧
    (Handles s → h.toNat % 64 = 24 → headerLoc s h = none → ∃ t, exec (.enwait a b) s = .next t ∧ Traps cBounds h s t) ∧
    ∀ l, h.toNat % 64 = 24 → headerLoc s h = some l →
      let core := coreOfLoc l
      let hdr := blockOf (sliceOff l)
      let reached := (getS s b).toNat ≤ ((findChain (getCore s core) hdr).map (·.comp)).getD 0
      let done := ∃ t, exec (.enwait a b) s = .next t ∧ t.ag.pc = s.ag.pc + 4 ∧ t.ag.s = s.ag.s ∧ t.mem = s.mem ∧
        t.ag.posted = s.ag.posted ∧ t = advance 4 (takeChainWrites (chainName core hdr) (getS s b).toNat s)
      (Fresh s → reached → core = s.ag.place → done) ∧
      (Fresh s → reached → core ≠ s.ag.place → Near s core →
        ∃ t, exec (.enwait a b) s = .next t ∧ Asks core (.enwait core hdr (getS s b)) s t) ∧
      (Fresh s → ¬ reached → exec (.enwait a b) s = .next (blockOn .sequence s)) ∧
      ∀ z, Answered s z → done) ∧
  (∀ (s : State) (d a b : Reg) (len : BitVec 32), Free [.s d, .s a, .s b] s →
    let n := s.core.cpyCount + 1
    (Aligned 64 (getS s a) → Aligned 64 (getS s b) → len = 0 → exec (.cpy d a b len) s =
      .next (advance 8 (setS d (n.setWidth 64) { s with core := { s.core with cpyCount := n } }))) ∧
    (Aligned 64 (getS s a) → Aligned 64 (getS s b) → len.toNat % 64 = 0 → len ≠ 0 →
      (drainAll s).ag.posted = [] → ∃ t k c,
      exec (.cpy d a b len) s = .next t ∧ t.ag.pc = s.ag.pc + 8 ∧ t.ag.s = s.ag.s ∧
      t.ag.tokens = s.ag.tokens ++ [⟨d.toNat, k, false⟩] ∧ t.core.cpys = s.core.cpys ++ [c] ∧ t.core.cpyCount = n ∧
      c.aid = s.ag.aid ∧ c.key = k ∧ c.seq = n.toNat ∧ c.dst = getS s a ∧ c.src = getS s b ∧ c.blocks = len.toNat / 64 ∧
      c.done = 0) ∧
    (Handles s → Aligned 64 (getS s a) → Aligned 64 (getS s b) → len.toNat % 64 ≠ 0 →
      ∃ t, exec (.cpy d a b len) s = .next t ∧ Traps cMisaligned (len.setWidth 64) s t)) ∧
  ∀ (s : State) (scatter : Bool) (d a b : Reg), Free [.s d, .s a, .v b] s → Clean [b] s →
    let i := if scatter then Instr.scatter d a b else .gather d a b
    let lanes := ((List.range 8).map fun i => (i, BitVec.ofNat 64 (lane 64 i (getV s b)))).filter fun p => p.2 != 0
    Aligned 64 (getS s a) → (∀ p ∈ lanes, Aligned 64 p.2) →
    (∀ x ∈ [getS s a, getS s a + 448], (headerLoc s x).any (inSlice s.ag.place) = true) →
    (∀ p ∈ lanes, (headerLoc s p.2).isSome = true) → (drainAll s).ag.posted = [] →
    let s1 := { drainAll s with msgs := (drainAll s).msgs + 1 }
    let asked := readLanes s.ag.place (fun i => getS s a + BitVec.ofNat 64 (64 * i)) scatter lanes s1
    ∃ t k g, exec i s = .next t ∧ t.ag.pc = s.ag.pc + 4 ∧ t.ag.s = s.ag.s ∧ t.ag.outreq = s.ag.outreq + 1 ∧
      t.ag.reqseq = s.ag.reqseq + 1 ∧
      t.ag.tokens = s.ag.tokens ++ [⟨d.toNat, k, true⟩] ∧ t.core.gathers = s.core.gathers ++ [g] ∧ g.aid = s.ag.aid ∧
      g.key = k ∧ g.scatter = scatter ∧ g.base = getS s a ∧ g.lanes = lanes ∧ g.next = 0 ∧ g.inflight = asked.1 ∧
      t.net = asked.2.net

/-- What the engines do, each in its turn. A chain that is not stopped starts the command after COMPLETION once it passes its
checks; each command reads a block, at its own party at once and elsewhere by a request, and once it has come writes it, at its own
party at once and elsewhere by a packet that the home acknowledges; one with an uncorrectable error ends a COPY and a CPY; a command
with nothing left writes COMPLETION; a post reaches its barrier and is answered, and the copy and gather units of a core move their
blocks. -/
def Obligations.EngineEvents : Prop :=
  (∀ (s : State) (c : CoreId) (hdr : Word) (ch : Chain) (ev : CoreId → Word → Instr) (op : Nat),
    (op, ev) ∈ [(0, Instr.engineNop), (1, .copyCmd), (2, .gatherCmd), (3, .ssHeadToMemory), (4, .ssMemoryToHead),
      (5, .countersCmd)] → findChain (getCore s c) (sliceOff hdr.toNat) = some ch → ch.cmd = none → ch.comp < ch.tail →
    (getCore s c).stopped = false → isTurn s c ch = true →
    let b := ringCmd s c ch (ch.comp + 1)
    cmdOp b = op → cmdCheck s c ch b = 0 → ∃ t x, exec (ev c hdr) s = .next t ∧
      findChain (getCore t c) (sliceOff hdr.toNat) = some { ch with cmd := some x } ∧ x.seq = ch.comp + 1 ∧ x.cmd = b ∧
      x.topx = b.getLsbD 496 ∧ x.next = 0 ∧ x.done = 0 ∧ t.mem = s.mem) ∧
  (∀ (s : State) (c : CoreId) (hdr : Word) (ch : Chain) (w : EngCmd), findChain (getCore s c) (sliceOff hdr.toNat) = some ch →
    ch.cmd = some w → w.fail = none → chainWorks s c ch = true → isTurn s c ch = true →
    let b := w.cmd
    let asked := fun (party : CoreId) (xs : List XOk) => (askBlock party c w.next xs s).1
    let reads := fun (i : Instr) (x : Inflight) => ∃ t v, exec i s = .next t ∧
      findChain (getCore t c) (sliceOff hdr.toNat) = some { ch with cmd := some v } ∧ v.next = w.next + 1 ∧
      v.inflight = w.inflight ++ [x] ∧ v.done = w.done ∧ t.mem = s.mem
    (cmdOp b = 0 → w.fill = none → ∃ t, exec (.engineNop c hdr) s = .next t ∧
      t.mem = memSetBytes s.mem (withBytes (headerBytes c ch 24 8) w.seq) ∧
      ∃ z, findChain (getCore t c) (sliceOff hdr.toNat) = some z ∧ z.comp = w.seq ∧ z.cmd = none) ∧
    (cmdOp b = 1 → w.inflight = [] → cmdPost b = false ∨ w.next / copyPer b ≤ w.posted → w.next < copyTotal b →
      beginsFill b w.next = false ∨ w.fill ≠ none →
      (∀ va xs, copySrc b w.next = some va → engLocs s c true va .engRead = .ok xs → reads (.copyCmd c hdr) (asked c xs)) ∧
      (copySrc b w.next = none → reads (.copyCmd c hdr) (madeBlock w.next (copyFill b).1 (copyFill b).2 s))) ∧
    (cmdOp b = 2 → 0 < w.next → w.next < blkNat b 24 4 → w.inflight.length < 64 → ∀ va xs, va ≠ 0 →
      gatherEntry s c b w.next = .ok va → engLocs s c false va .engRead = .ok xs →
      reads (.gatherCmd c hdr) (asked c xs)) ∧
    (cmdOp b = 3 → w.inflight = [] → w.next < blkNat b 28 4 / 64 → (getCore s c).stopped = false → ∀ x,
      handleSlot s ((getCore s c).ctx.getD 0) (blkWord b 8) = some x →
      let r := headGet (getStore s ch.stack) x (blkNat b 24 4 + 64 * w.next)
      reads (.ssHeadToMemory c hdr) (madeBlock w.next r.1 r.2 s)) ∧
    (cmdOp b = 4 → w.inflight = [] → w.next < blkNat b 28 4 / 64 → (getCore s c).stopped = false → ∀ x xs,
      handleSlot s ((getCore s c).ctx.getD 0) (blkWord b 8) = some x →
      engLocs s c true (blkWord b 16 + BitVec.ofNat 64 (64 * w.next)) .engRead = .ok xs →
      reads (.ssMemoryToHead c hdr) (asked (stackId ch.stack) xs)) ∧
    (cmdOp b = 5 → ∃ t v, exec (.countersCmd c hdr) s = .next t ∧
      findChain (getCore t c) (sliceOff hdr.toNat) = some { ch with cmd := some v } ∧ t.mem = s.mem ∧
      v.inflight = [madeBlock 0 (mkBlock 64 8 fun i => ((getCore s c).engines.toList.getD i 0).toNat) 0x7FC0 s])) ∧
  (∀ (s : State) (c : CoreId) (hdr : Word) (ch : Chain) (w : EngCmd) (x : Inflight) (xs : List Inflight) (ys : List XOk),
    findChain (getCore s c) (sliceOff hdr.toNat) = some ch → ch.cmd = some w → w.parked = false → w.inflight = x :: xs → x.here = true →
    let op := cmdOp w.cmd
    let party := if op = 3 then stackId ch.stack else c
    let va := if op = 1 then copyDst w.cmd x.ix else if op = 5 then blkWord w.cmd 8
      else blkWord w.cmd 16 + BitVec.ofNat 64 (64 * x.ix)
    let locs := ys.map (·.loc)
    let tag := if op = 2 then x.outTag else x.tag
    let wrote := fun (t : State) => (op ≠ 5 → ∃ v, findChain (getCore t c) (sliceOff hdr.toNat) = some { ch with cmd := some v } ∧
        v.done = w.done + 1 ∧ v.inflight = if op = 2 then xs else []) ∧
      (op = 5 → ∃ z, findChain (getCore t c) (sliceOff hdr.toNat) = some z ∧ z.comp = w.seq ∧ z.cmd = none)
    let blockSet := memSetTags (memSetBytes s.mem (withBytes locs x.data.toNat)) [(blockOf (locs.headD 0), tag)]
    (op = 1 → x.bad = true → ∃ t z, exec (.engineReadReply c hdr) s = .next t ∧
      findChain (getCore t c) (sliceOff hdr.toNat) = some z ∧ z.comp = w.seq ∧ z.cmd = none) ∧
    (op = 1 ∧ x.bad = false ∨ op = 2 ∨ op = 3 ∨ op = 5 →
      (x.out = false → engLocs s c (op != 2 && op != 5) va .engWrite = .ok ys →
        (homeName (locs.headD 0) = party → ∃ t, exec (.engineReadReply c hdr) s = .next t ∧ wrote t ∧
          (op ≠ 5 → t.mem = blockSet) ∧
          (op = 5 → w.fill = none → t.mem = memSetBytes blockSet (withBytes (headerBytes c ch 24 8) w.seq))) ∧
        (homeName (locs.headD 0) ≠ party → ∃ t v m, exec (.engineReadReply c hdr) s = .next t ∧ t.mem = s.mem ∧
          findChain (getCore t c) (sliceOff hdr.toNat) = some { ch with cmd := some v } ∧
          v.inflight = { x with out := true, locs := locs } :: (if op = 2 then xs else []) ∧ v.done = w.done ∧
          t.net = s.net ++ [m] ∧ m.src = party ∧ m.dst = homeName (locs.headD 0) ∧
          m.body = .store c x.id (chainName c ch.hdr) w.seq (withBytes locs x.data.toNat) [(blockOf (locs.headD 0), tag)])) ∧
      (x.out = true → x.acked = false → exec (.engineReadReply c hdr) s = .next s) ∧
      (x.out = true → x.acked = true → ∃ t, exec (.engineReadReply c hdr) s = .next t ∧ wrote t)) ∧
    (op = 4 → ∀ y st, handleSlot s ((getCore s c).ctx.getD 0) (blkWord w.cmd 8) = some y →
      headSet (granuleCap s ch.stack) (seqNum (blkWord w.cmd 8)) (blkNat w.cmd 24 4 + 64 * x.ix) (x.data, x.outTag)
        (getStore s ch.stack) = some st →
      ∃ t, exec (.engineReadReply c hdr) s = .next t ∧ wrote t ∧ t.mem = s.mem ∧ t.stores = (setStore ch.stack st s).stores)) ∧
  (∀ (s : State) (c : CoreId) (num : BitVec 8) (n : BitVec 40) (m : Msg) (h : Nat) (ch : Chain) (w : EngCmd),
    postAt s c num n = some (m, h) → findChain (getCore s m.sndr) h = some ch → ch.cmd = some w →
    let bar := getBar (getCore s c) num.toNat
    let answered := fun (ok : Bool) (t : State) =>
      if m.src = m.dst then findChain (getCore t m.sndr) h = some { ch with cmd := some (postAnswered ok w) }
      else ∃ q ∈ t.net, q.src = m.dst ∧ q.dst = m.src ∧ q.body = .posted m.sndr h ok
    let good := num.toNat < (getCore s c).kd.barriers ∧ bar.expect ≠ 0 ∧ bar.count.toNat + n.toNat ≤ bar.expect.toNat
    (¬ good → ∃ t, exec (.enginePost c num n) s = .next t ∧ answered false t ∧ getBar (getCore t c) num.toNat = bar) ∧
    (good → ∃ t, exec (.enginePost c num n) s = .next t ∧ answered true t ∧ getBar (getCore t c) num.toNat =
      if bar.count.toNat + n.toNat = bar.expect.toNat then { bar with phase := bar.phase + 1, count := 0 }
      else { bar with count := BitVec.ofNat 24 (bar.count.toNat + n.toNat) })) ∧
  (∀ (s : State) (c : CoreId) (y : CpyCmd) (ys : List CpyCmd), (getCore s c).cpys = y :: ys → y.parked = false →
    (∀ xs, y.inflight = [] → 0 < y.done → isCpyTurn s c = true →
      engLocs s c true (y.src + BitVec.ofNat 64 (64 * y.done)) .engRead = .ok xs →
      ∃ t v, exec (.cpyBlock c) s = .next t ∧ (getCore t c).cpys.head? = some v ∧ t.mem = s.mem ∧ v.done = y.done ∧
        v.inflight = [(askBlock c c y.done xs s).1]) ∧
    ∀ x zs, y.inflight = x :: zs → x.here = true →
      (x.bad = true → ∃ t, exec (.cpyBlock c) s = .next t ∧ y.key ∉ (getCore t c).cpys.map (·.key)) ∧
      ∀ xs, x.bad = false → x.out = false → engLocs s c true (y.dst + BitVec.ofNat 64 (64 * y.done)) .engWrite = .ok xs →
        let locs := xs.map (·.loc)
        (homeName (locs.headD 0) = c → ∃ t, exec (.cpyBlock c) s = .next t ∧
          t.mem = memSetTags (memSetBytes s.mem (withBytes locs x.data.toNat)) [(blockOf (locs.headD 0), x.tag)]) ∧
        (homeName (locs.headD 0) ≠ c → ∃ t m, exec (.cpyBlock c) s = .next t ∧ t.mem = s.mem ∧ t.net = s.net ++ [m] ∧
          m.dst = homeName (locs.headD 0) ∧ ∃ v, (getCore t c).cpys.head? = some v ∧ v.done = y.done ∧
          v.inflight = [{ x with out := true, locs := locs }])) ∧
  (∀ (s : State) (party c : CoreId) (ix : Nat) (xs : List XOk),
    let r := askBlock party c ix xs s
    let locs := xs.map (·.loc)
    let b := engBlock s locs (xs.any (·.poison))
    r.1.ix = ix ∧ r.1.out = false ∧ r.2.mem = s.mem ∧
    (homeName (locs.headD 0) = party → r.1.here = true ∧ r.1.data = b.1 ∧ r.1.tag = b.2 ∧ r.2 = { s with msgs := s.msgs + 1 }) ∧
    (homeName (locs.headD 0) ≠ party → r.1.here = false ∧ ∃ m, r.2.net = s.net ++ [m] ∧ m.src = party ∧
      m.dst = homeName (locs.headD 0) ∧ m.body = if isFarLoc (locs.headD 0) then .readFar (.engine c r.1.id) (locs.headD 0)
        else .request (.engine c r.1.id) false true)) ∧
  ∀ (s : State) (c : CoreId) (g : GatherOp), (getCore s c).gathers = [g] →
    (g.lanes.length ≤ g.next → s.ag.run ≠ .free → s.ag.aid = g.aid →
      ∃ t, exec (.gatherReply c) s = .next t ∧ (getCore t c).gathers = [] ∧
        (s.ag.place ≠ c → ∃ m, t.net = s.net ++ [m] ∧ m.dst = s.ag.place ∧
          m.body = .token g.aid g.key (BitVec.ofNat 64 (g.lanes.length % 2 ^ 48)) g.keys) ∧
        (s.ag.place = c → ∀ k, s.ag.tokens.find? (fun x => x.key == g.key) = some k → t.ag.outreq =
            (if k.counts then s.ag.outreq - 1 else s.ag.outreq) ∧
          t.ag.s = (if k.reg = 0 ∨ s.ag.run = .dead then s.ag.s else s.ag.s.setIfInBounds k.reg (BitVec.ofNat 64 (g.lanes.length % 2 ^ 48))))) ∧
    ∀ p x xs, g.lanes[g.next]? = some p → g.inflight.find? (fun x => x.ix == p.1 && x.here) = some x → x.out = false →
      engLocs s c false (if g.scatter then p.2 else g.base + BitVec.ofNat 64 (64 * p.1)) .engWrite = .ok xs →
      homeName ((xs.map (·.loc)).headD 0) = c → ∃ t v, exec (.gatherReply c) s = .next t ∧ (getCore t c).gathers = [v] ∧
        v.next = g.next + 1 ∧
        t.mem = memSetTags (memSetBytes s.mem (withBytes (xs.map (·.loc)) x.data.toNat))
          [(blockOf ((xs.map (·.loc)).headD 0), x.outTag)]

/-- The recurrent state store. The request of an operation leaves for the stack that its handle or number names, and the agent waits;
the stack performs it when it arrives, and the answer ends the instruction. SSOPEN takes the lowest CLOSED slot with its next
generation; SSLD and SSST read and write the head; SSSNAP records the head; SSROLL returns to a snapshot; SSFORK copies one into a new
slot; SSCLOSE keeps the generation. A handle that breaks R208 traps: at once where it can name no stack, else with the answer of the
stack, which alone knows. That the operations travel so, and which checks only the stack makes, are logs 25 and 16, the model's
choices. -/
def Obligations.StateStoreOperations : Prop :=
  (∀ (s : State) (d a b : Reg), Fresh s →
    let h := getS s a
    let y := getS s b
    let traps := fun (i : Instr) (x : Word) => Handles s → ∃ t, exec i s = .next t ∧ Traps cSeqBad x s t
    let asks := fun (i : Instr) (k : Nat) (o : SeqOp) => Near s (stackId k) →
      ∃ t, exec i s = .next t ∧ Asks (stackId k) (.seq o) s t
    let does := fun (i : Instr) (o : SeqOp) =>
      if h.toNat / 2 ^ 28 = 0 ∧ seqStack h ≤ 11 then asks i (seqStack h) o else traps i h
    (Free [.s d, .s a, .s b] s →
      (if 11 < h.toNat then traps (.ssopen d a b) h
        else if y.toNat % 4096 = 0 ∧ 4096 ≤ y.toNat ∧ y.toNat ≤ 1048576 then asks (.ssopen d a b) h.toNat (.open_ h y.toNat)
        else traps (.ssopen d a b) y) ∧
      does (.ssfork d a b) (.fork h y) ∧ ∀ tr c, does (.ssroll d a b tr) (.roll h y tr) ∧ does (.sssnap d a b c) (.snap h c y)) ∧
    (Free [.s d, .s a] s → ∀ c w, does (.sssnapi d a c w) (.snap h c (w.setWidth 64))) ∧
    (Free [.s a] s → does (.ssclose a) (.close h)) ∧
    (Free [.v d, .s a, .s b] s → Aligned 64 y →
      does (.ssld d a b) (.load h y) ∧ does (.ssst d a b) (.store h y (getV s d) (getVT s d))) ∧
    (Free [.v d, .s a, .s b] s → ¬ Aligned 64 y → Handles s → ∀ i ∈ [Instr.ssld d a b, .ssst d a b],
      ∃ t, exec i s = .next t ∧ Traps cMisaligned y s t)) ∧
  (∀ (s : State) (d a b : Reg) (z : OpData), Answered s z →
    (Free [.s d, .s a, .s b] s → ∀ tr c, ∀ i ∈ [Instr.ssopen d a b, .ssfork d a b, .ssroll d a b tr, .sssnap d a b c],
      exec i s = .next (advance 4 (setS d z.value s))) ∧
    (Free [.s d, .s a] s → ∀ c w, exec (.sssnapi d a c w) s = .next (advance 8 (setS d z.value s))) ∧
    (Free [.s a] s → exec (.ssclose a) s = .next (advance 4 s)) ∧
    (Free [.v d, .s a, .s b] s → exec (.ssld d a b) s = .next (advance 4 (setV d z.block z.tag s)) ∧
      exec (.ssst d a b) s = .next (advance 4 s))) ∧
  ∀ (s : State) (c : CoreId) (key : Nat) (seq : BitVec 24),
    let acts := fun (o : SeqOp) (t : State) (ans : OpAnswer) => actAt c key seq (.seq o) s = (t, some ans)
    let gives := fun (o : SeqOp) (t : State) (r : Word) => acts o t (.done ⟨r, 0, 0, false, false⟩)
    (∀ (a : Word) (z n : Nat), let k := a.toNat
      k ≤ 11 → (∀ j < n, (getSlot (getStore s k) j).isOpen = true) → n < 4096 → (getSlot (getStore s k) n).isOpen = false →
      ∃ t, let g := (getSlot (getStore s k) n).gen + 1
        gives (.open_ a z) t (BitVec.ofNat 64 (k * 2 ^ 24 + g.toNat * 2 ^ 12 + n)) ∧ t.mem = s.mem ∧ t.ag = s.ag ∧
        getSlot (getStore t k) n = ⟨true, false, g, s.ag.ctx, z, List.replicate (z / 4096) 0, [], 0⟩ ∧
        ∀ j, j ≠ n → getSlot (getStore t k) j = getSlot (getStore s k) j) ∧
    (∀ (h p : Word), handleSlot s s.ag.ctx h = none → ∀ b t tr cd, ∀ o ∈ [SeqOp.close h, .fork h p, .roll h p tr, .snap h cd p, .load h p,
      .store h p b t], acts o s (.trapped cSeqBad h)) ∧
    ∀ (h p : Word) (x : SeqSlot), handleSlot s s.ag.ctx h = some x →
      let k := seqStack h
      let n := seqNum h
      let slot := fun (t : State) => getSlot (getStore t k) n
      (p.toNat < x.size → acts (.load h p) s (.done ⟨0, (headGet (getStore s k) x p.toNat).1, (headGet (getStore s k) x p.toNat).2,
        false, true⟩)) ∧
      (x.size ≤ p.toNat → ∀ b t, acts (.load h p) s (.trapped cBounds p) ∧ acts (.store h p b t) s (.trapped cBounds p)) ∧
      (p.toNat < x.size → x.head.length = x.size / 4096 → x.size % 4096 = 0 →
        let st := getStore s k
        let g := x.head.getD (p.toNat / 4096) 0
        (g = 0 ∨ 2 ≤ granuleCount st g → st.granules.length < granuleCap s k) →
        (g ≠ 0 → granuleCount st g < 2 → ∃ y ∈ st.granules, y.num = g) →
        ∀ b tag, ∃ t, gives (.store h p b tag) t 0 ∧ t.mem = s.mem ∧ t.ag = s.ag ∧
          headGet (getStore t k) (slot t) p.toNat = (b, tag)) ∧
      (x.ring = [] ∨ x.latest.toNat < p.toNat → x.ring.length < 16 → ∀ pin, ∃ t,
        gives (.snap h (if pin then .pin else .record) p) t (BitVec.allOnes 64) ∧
        slot t = { x with ring := x.ring ++ [⟨p, x.head, pin⟩], latest := p, active := true }) ∧
      (x.ring ≠ [] → p.toNat ≤ x.latest.toNat → ∀ cd ∈ [SnapCode.record, .pin], acts (.snap h cd p) s (.trapped cSeqBad p)) ∧
      (snapAt x p = none → ∀ cd ∈ [SnapCode.unpin, .repin], ∃ t, gives (.snap h cd p) t 1 ∧ t.ag = s.ag ∧ t.mem = s.mem) ∧
      (∀ r, snapAt x p = some r → ∀ pin, ∃ t, gives (.snap h (if pin then .repin else .unpin) p) t 0 ∧
        slot t = { x with ring := x.ring.map fun y => if y.pos = p then { y with pinned := pin } else y }) ∧
      (∀ r tr, snapAt x p = some r → ∃ t, gives (.roll h p tr) t 0 ∧
        slot t = { x with head := r.head, ring := x.ring.filter fun y => y.pos.toNat ≤ p.toNat, latest := p }) ∧
      (snapAt x p = none → gives (.roll h p false) s 1 ∧ acts (.roll h p true) s (.trapped cSeqBad p) ∧
        acts (.fork h p) s (.trapped cSeqBad p)) ∧
      (∀ r m, snapAt x p = some r → (∀ j < m, (getSlot (getStore s k) j).isOpen = true) → m < 4096 →
        (getSlot (getStore s k) m).isOpen = false → ∃ t, let g := (getSlot (getStore s k) m).gen + 1
          gives (.fork h p) t (BitVec.ofNat 64 (k * 2 ^ 24 + g.toNat * 2 ^ 12 + m)) ∧
          getSlot (getStore t k) m = ⟨true, true, g, s.ag.ctx, x.size, r.head, [⟨p, r.head, false⟩], p⟩ ∧ slot t = x) ∧
      ∃ t, gives (.close h) t 0 ∧ t.ag = s.ag ∧ (slot t).isOpen = false ∧ (slot t).gen = x.gen

/-! ## Kernels, traps' return, sleep, migration -/

/-- LAUNCH sends its step and patched parameters to the distributor, which accepts it and answers with the new instance's number;
HINTSUCC sends a hint, which marks pending successors EARLY; WAITPRED goes on once every predecessor is DONE; RTE returns from a
handler; HALT ends the agent; SLEEP and WAKE meet through the wake-pending bit, at the core of the place that WAKE names. That a patch
table lies at window addresses, and that HINTSUCC and WAITPRED pass over launched instances, is log 26; that a request follows the
agent's own earlier packets is log 25; that a WAKE goes on over a forwarding entry is log 23: the model's choices. -/
def Obligations.ProgramControl : Prop :=
  (∀ (s : State) (d a b : Reg) (st : Step), Free [.s d, .s a, .s b] s → Fresh s → stepOf s (getS s a).toNat = some st →
    let sc := if st.kd.level = 4 then Scope.fabric else .package
    let posts := fun (k : Vector Word 16) (f : Sticky) => ∃ t, exec (.launch d a b) s = .next t ∧
      Asks culmId (.launch (getS s a).toNat k) (publishNow sc (orStatus f s)) t
    (Handles s → getS s b ≠ 0 → Aligned 8 (getS s b) → (getS s b).toNat / 2 ^ 48 ≠ 0xFE →
      ∃ t, exec (.launch d a b) s = .next t ∧ Traps cBounds (getS s b) s t) ∧
    (getS s b = 0 → quiet s = false → exec (.launch d a b) s = .next (blockOn .quiet s)) ∧
    (quiet s = true → farDue sc s = [] → (∀ f, Near (publishNow sc (orStatus f s)) culmId) →
      (getS s b = 0 → posts s.core.kparam 0) ∧
      ∀ l0 ls n, getS s b ≠ 0 → Aligned 8 (getS s b) → (getS s b).toNat / 2 ^ 48 = 0xFE →
        let reached := gotReads s = none ∧ Reaches s false .read [] [(getS s b, 8)] [l0] ∧ agNat s l0 = n ∧ n ≤ 16 ∧
          Reaches s false .read [] ((List.range (2 * n)).map fun i => (getS s b + BitVec.ofNat 64 (8 * (i + 1)), 8)) ls
        (reached → remoteBlocks s (l0 :: ls) ≠ [] → exec (.launch d a b) s =
          .next (blockOn (.reads s.draws (remoteBlocks s (l0 :: ls)).length false (l0 :: ls))
            (askBlocks s.draws (remoteBlocks s (l0 :: ls)) s))) ∧
        (gotReads s = some (l0 :: ls) ∨ (reached ∧ remoteBlocks s (l0 :: ls) = []) →
          let ps := pairsOf (ls.map fun xs => BitVec.ofNat 64 (agNat s xs))
          ((∀ p ∈ ps, p.1 ≤ 15) → ∃ k f, posts k f ∧ ∀ j < 16, k.toList.getD j 0 = lastOf ps j (s.core.kparam.toList.getD j 0)) ∧
          ((∃ p ∈ ps, 15 < p.1) → Handles s → ∃ t, exec (.launch d a b) s = .next t ∧ Traps cBounds (getS s b) s t)))) ∧
  (∀ (s : State) (d a b : Reg), Free [.s d, .s a, .s b] s →
    (Handles s → Fresh s → stepOf s (getS s a).toNat = none → ∃ t, exec (.launch d a b) s = .next t ∧ Traps cBounds (getS s a) s t) ∧
    ∀ z, Answered s z → exec (.launch d a b) s = .next (advance 4 (setS d z.value s))) ∧
  (∀ (s : State) (c : CoreId) (key n : Nat) (seq : BitVec 24) (k : Vector Word 16), actAt c key seq (.launch n k) s =
    ({ s with launches := s.launches ++ [⟨s.ag.aid, key, seq, s.ag.ctx, n, k⟩] }, none)) ∧
  (∀ (s : State) (r : LaunchReq) (x : Ctx) (a : Agent), s.launches.find? (fun q => ctxRuns s q.ctx) = some r →
    findCtx s r.ctx = some x → findAgent s r.aid = some a → a.place ≠ culmId → ∃ t i m, exec .launchAccept s = .next t ∧
      t.insts = s.insts ++ [i] ∧ i.ctx = x.num ∧ i.num = x.created ∧ i.step = r.step ∧ i.launched = true ∧ i.state = .ready ∧
      i.kparam = r.kparam ∧ t.net = s.net ++ [m] ∧ m.src = culmId ∧ m.dst = a.place ∧ m.seq = r.seq ∧
      m.body = .result r.aid r.key true (.done ⟨x.created.setWidth 64, 0, 0, false, false⟩)) ∧
  (∀ (s : State) (a : Reg), Free [.s a] s →
    let n := (getS s a).toNat % 2 ^ 16
    (∀ st, stepOf s n = some st → ∃ t m, exec (.hintsucc a) s = .next t ∧ t.ag.pc = s.ag.pc + 4 ∧ t.ag.s = s.ag.s ∧
      t.ag.reqseq = s.ag.reqseq + 1 ∧ t.mem = s.mem ∧ t.insts = s.insts ∧ t.net = s.net ++ [m] ∧ m.dst = culmId ∧
      m.ctx = s.ag.ctx ∧ m.body = .hint s.ag.inst n) ∧
    (stepOf s n = none → Handles s → ∃ t, exec (.hintsucc a) s = .next t ∧ Traps cBounds (openA s) s t)) ∧
  (∀ (s : State) (i n : Nat) (m : Msg) (inst : BitVec 32) (x : Ctx) (st : Step) (own : Inst),
    s.net.find? (fun q => q.id == i) = some m → deliverable s m = true → forNobody s m = false → m.dst = culmId →
    m.body = .hint inst n → findCtx s m.ctx = some x → x.plan[n]? = some st → findInst s m.ctx inst = some own →
    ∃ t, exec (.packetDelivery i) s = .next t ∧ t.insts = s.insts.map fun i =>
      if i.ctx = own.ctx ∧ i.replay = own.replay ∧ i.step = n ∧ i.state = .pending ∧ own.launched = false ∧ own.step ∈ st.preds
      then { i with state := .early, early := true, age := s.draws } else i) ∧
  (∀ (s : State), let done := ∃ t, exec .waitpred s = .next t ∧ t.ag.pc = s.ag.pc + 4 ∧ t.ag.s = s.ag.s ∧ t.ag.v = s.ag.v ∧
      t.mem = s.mem ∧ t.net = s.net
    (∀ z, Answered s z → done) ∧ (Fresh s → ownInst s = none → done) ∧
    ∀ own, Fresh s → ownInst s = some own →
      let ready := ∀ j ∈ s.insts, own.launched = false → j.ctx = own.ctx → j.replay = own.replay → j.launched = false →
        j.step ∈ predsOf s own → j.state = .done
      (ready → Near s culmId → ∃ t, exec .waitpred s = .next t ∧ Asks culmId .preds s t) ∧
      (¬ ready → exec .waitpred s = .next (blockOn .predecessors s))) ∧
  (∀ (s : State), s.ag.handler = true → s.ag.trappc.toNat % 4 = 0 →
    exec .rte s = .next { s with ag := { s.ag with handler := false, pc := s.ag.trappc, run := .running, inhand := none } }) ∧
  (∀ (s : State), Handles s → ∃ t, exec .rte s = .next t ∧ Traps cIllegalOp (word0 .rte) s t) ∧
  (∀ (s : State), s.ag.handler = false → s.ag.trapvec.toNat / 4 = 0 → ∃ t, exec .rte s = .next t ∧ t.ag.run = .dead ∧
    t.ag.trapc = 0x01 ∧ t.ag.trapa = word0 .rte ∧ t.ag.trappc = s.ag.pc) ∧
  (∀ (s : State), s.ag.handler = true → s.ag.trappc.toNat % 4 ≠ 0 → ∃ t, exec .rte s = .next t ∧ t.ag.run = .dead ∧
    t.ag.trapc = 0x04 ∧ t.ag.trapa = s.ag.trappc ∧ t.ag.trappc = s.ag.pc ∧ (s.ag.ctx, s.ag.inst) ∈ t.faultReports) ∧
  (∀ (s : State), (∀ e ∈ s.core.coq, e.aid ≠ s.ag.aid) →
    let due := farDue (levelScope s.core.kd) s
    (s.ag.outreq = 0 → s.ag.tokens = [] → due = [] → ∃ t, exec .halt s = .next t ∧ t.ag.run = .halted ∧ t.ag.hrec = none ∧
      t.ag.t = Vector.replicate 8 Tile.zero ∧ t.ag.tdirty = 0 ∧ t.ag.s = s.ag.s ∧
      ∀ k < 64, t.core.oclaim.toList.getD k none =
        if s.core.oclaim.toList.getD k none = some s.ag.num then none else s.core.oclaim.toList.getD k none) ∧
    (s.ag.outreq ≠ 0 ∨ s.ag.tokens ≠ [] ∨ due ≠ [] → ∃ t, exec .halt s = .next t ∧ t.ag.run = .blocked .quietTokens)) ∧
  (∀ (s : State) (d a : Reg), Free [.s d, .s a] s → s.ag.run = .running →
    let n := (getS s a).toNat
    (s.ag.wake = true → exec (.sleep d a) s =
      .next (advance 4 (setS d 0 { s with ag := { s.ag with wake := false } }))) ∧
    (s.ag.wake = false → exec (.sleep d a) s =
      .next (blockOn (.sleep (if n = 0 then none else some (s.cycle.toNat + n))) s))) ∧
  (∀ (s : State) (d a : Reg) (x : Word), Free [.s d, .s a] s → s.ag.run = .blocked (.slept x) →
    ∃ t, exec (.sleep d a) s = .next t ∧ WritesScalar d x 0 4 s t) ∧
  (∀ (s : State) (aid : Nat) (a : Agent) (n : Nat), findAgent s aid = some a → a.run = .blocked (.sleep (some n)) →
    (2 ^ 64 ≤ n → exec (.sleepTimeout aid) s = .next s) ∧
    (n < 2 ^ 64 → ∃ t b, exec (.sleepTimeout aid) s = .next t ∧ findAgent t aid = some b ∧ b.run = .blocked (.slept 1) ∧
      b.s = a.s ∧ n ≤ t.cycle.toNat ∧ s.cycle.toNat ≤ t.cycle.toNat)) ∧
  (∀ (s : State) (x : Word) (c : CoreId), let target := wakeTarget s s.ag.ctx c (BitVec.ofNat 3 x.toNat)
    let woke := fun (g : Agent) (t : State) =>
      (g.place = c → s.ag.run ≠ .free → (∀ n, s.ag.run ≠ .blocked (.sleep n)) → ∃ b, findAgent t g.aid = some b ∧
        (b.wake = true ∨ b.run = .blocked (.slept 0))) ∧
      (g.place ≠ c → ∃ m ∈ t.net, m.src = c ∧ m.dst = g.place ∧ m.body = .wake g.aid)
    (∀ key seq, (target = none → actAt c key seq (.wake c x) s = (s, some (.done ⟨0, 0, 0, false, false⟩))) ∧
      ∀ g, target = some g → ∃ t, actAt c key seq (.wake c x) s = (t, some (.done ⟨1, 0, 0, false, false⟩)) ∧ woke g t) ∧
    ∀ d a, Free [.s d, .s a] s → Fresh s → getS s a = x → placeBad x = false → c = coreNear s.ag.place (x.toNat / 2 ^ 22) →
      (c ≠ s.ag.place → Near s c → ∃ t, exec (.wake d a) s = .next t ∧ Asks c (.wake c x) s t) ∧
      (c = s.ag.place → target = none → ∃ t, exec (.wake d a) s = .next t ∧ WritesScalar d 0 0 4 s t) ∧
      (c = s.ag.place → ∀ g, target = some g → ∃ t, exec (.wake d a) s = .next t ∧ t.ag.pc = s.ag.pc + 4 ∧
        getS t d = (if d = 0 then 0 else 1) ∧ woke g t)) ∧
  (∀ (s : State) (d a : Reg), Free [.s d, .s a] s →
    (Fresh s → Handles s → placeBad (getS s a) = true → ∃ t, exec (.wake d a) s = .next t ∧ Traps cBounds (getS s a) s t) ∧
    ∀ z, Answered s z → exec (.wake d a) s = .next (advance 4 (setS d z.value s))) ∧
  ∀ (s : State) (aid : Nat) (m : Msg) (a : Agent), findAgent s aid = some a → wakeFor s a = some m →
    ∃ t b, exec (.wakeArrival aid) s = .next t ∧ findAgent t aid = some b ∧ (b.wake = true ∨ b.run = .blocked (.slept 0)) ∧
      m ∉ t.net

/-- Live migration. MIGRATE reserves a target agent, or answers at once; the capture moves the agent with its registers in a
stream to the target and leaves a forwarding entry, or refuses where the slots it claims are taken by then; the agent resumes on
the target in its instruction, and the entry is freed then or expires; a message that meets neither goes back; an agent that
lacks an extension finds a core that has it, one of its own group first. That a halted agent keeps its number, that a slot which
another migration is to bring counts as claimed, that the slots are tested again at the capture, and that a message which finds neither
goes back to its sender are log 23, the model's choices. -/
def Obligations.Migration : Prop :=
  (∀ (s : State) (d a : Reg), Free [.s d, .s a] s →
    let x := getS s a
    let c := coreNear s.ag.place (x.toNat / 2 ^ 22)
    let good := placeBad x = false ∧ sameKernel s c s.ag.place = true
    (Handles s → ¬ good → ∃ t, exec (.migrate d a) s = .next t ∧ Traps cBounds x s t) ∧
    (good → c = s.ag.place → ∃ t, exec (.migrate d a) s = .next t ∧ WritesScalar d 1 0 4 s t) ∧
    (Handles s → good → c ≠ s.ag.place → holdsSlots s = true → isVectorCore c = true →
      ∃ t, exec (.migrate d a) s = .next t ∧ Traps cMigrateFail (word0 (.migrate d a)) s t) ∧
    (good → c ≠ s.ag.place → (holdsSlots s = true → isVectorCore c = false) →
      (slotsMeet s s.ag c = true ∨ freeNums s c = [] → ∃ t, exec (.migrate d a) s = .next t ∧ WritesScalar d 0 0 4 s t) ∧
      (slotsMeet s s.ag c = false → freeNums s c ≠ [] → ∃ t m, exec (.migrate d a) s = .next t ∧ t.ag.run = .blocked .migration ∧
        t.ag.pc = s.ag.pc ∧ t.moves = s.moves ++ [m] ∧ m.aid = s.ag.aid ∧ m.target = c ∧ m.num ∈ freeNums s c ∧
        m.captured = false ∧ m.ret = some d))) ∧
  (∀ (s : State) (aid : Nat) (a : Agent) (m : Move), findAgent s aid = some a → moveOf s aid = some m → m.captured = false →
    mayCapture s a = true → (getCore s a.place).stopped = false → m.target ≠ a.place →
    (slotsMeet s a m.target = true → ∀ d, m.ret = some d → ∃ t, exec (.migrationCapture aid) s = .next t ∧
      moveOf t aid = none ∧ t.ag.aid = aid ∧ getS t d = 0 ∧ t.ag.pc = a.pc + 4) ∧
    (slotsMeet s a m.target = false → ∃ t b, exec (.migrationCapture aid) s = .next t ∧ findAgent t aid = some b ∧ b.place = m.target ∧ b.num = m.num ∧
      b.s = a.s ∧ b.v = a.v ∧ b.vtag = a.vtag ∧ b.p = a.p ∧ b.pc = a.pc ∧ b.status = a.status ∧ b.tdirty = 0 ∧
      b.trest = configuredTiles a ∧ (∃ f ∈ (getCore t a.place).fwd, f.aid = aid ∧ f.target = m.target) ∧
      (getCore t a.place).fwd.length = (getCore s a.place).fwd.length + 1 ∧
      (∃ x ∈ t.net, x.body = .stream aid ∧ x.src = a.place ∧ x.dst = m.target) ∧
      ∃ n, moveOf t aid = some n ∧ n.captured = true)) ∧
  (∀ (s : State) (aid : Nat) (a : Agent) (m : Move) (x : Msg), findAgent s aid = some a → moveOf s aid = some m →
    m.captured = true → streamFor s aid = some x →
    ∃ t, exec (.migrationResume aid) s = .next t ∧ t.ag.aid = aid ∧ moveOf t aid = none ∧
      (∀ d, m.ret = some d → t.ag.run = .running ∧ t.ag.pc = a.pc + 4 ∧ getS t d = if d = 0 then 0 else 1) ∧
      (m.ret = none → t.ag.pc = a.pc ∧ t.ag.s = a.s ∧
        let again := a.run = .blocked .extension ∨ (∃ q n, a.run = .blocked (.queueEntry q n) ∨ a.run = .blocked (.queueRoom q n)) ∨
          ∃ q k n, a.run = .blocked (.tileRestore q k n)
        (again → t.ag.run = .running) ∧ (¬ again → t.ag.run = a.run)) ∧
      ∀ c, forwards (getCore t c) aid = false) ∧
  (∀ (s : State) (c : CoreId), ∃ t, exec (.forwardingExpiry c) s = .next t ∧
    (getCore t c).fwd = (getCore s c).fwd.drop 1 ∧ (∀ e, e ≠ c → getCore t e = getCore s e) ∧ t.mem = s.mem) ∧
  (∀ (s : State) (i : Nat) (m : Msg) (a : Agent), s.net.find? (fun x => x.id == i) = some m → isStray s m = true →
    (bodyAgent m.body).bind (findAgent s) = some a → ∃ t x, exec (.messageReturn i) s = .next t ∧ t.net.find? (fun x => x.id == i) = some x ∧
      x.dst = a.place ∧ x.src = m.src ∧ x.arrived = false ∧ x.site = .start ∧ x.body = m.body) ∧
  (∀ (s : State) (aid : Nat) (a : Agent) (c : CoreId), findAgent s aid = some a → a.run = .blocked .extension →
    moveOf s aid = none → (getCore s a.place).stopped = false → extTarget s a = some c →
    ∃ t m, exec (.extensionTargetFree aid) s = .next t ∧ t.moves = s.moves ++ [m] ∧ m.aid = aid ∧ m.target = c ∧
      m.captured = false ∧ m.ret = none) ∧
  ∀ (s : State) (a : Agent) (x : CoreId), extTarget s a = some x → isVectorCore x ≠ isVectorCore a.place ∧
    sameKernel s x a.place = true ∧ (getCore s x).prepared = true ∧ freeNums s x ≠ [] ∧
    ∀ y ∈ otherKind a.place, y ∈ groupOf s a → canReceive s a.place y = true → x ∈ groupOf s a

/-! ## Host, contexts, distributor, fabrics -/

/-- The host's commands. A command is answered in STATUS: busy until step 6 of bring-up, unknown by its OPCODE, refused by its version,
refused by its arguments with nothing done, or done with its effect; the commands of a teff core and READ_COUNTERS go to the party that
performs them, and its answer brings STATUS and the data. What GET_VERSION, READ_INSTANCE, READ_COUNTERS and TELEMETRY return byte by
byte, and how their arguments are given, is the model's choice (log 14). -/
def Obligations.HostCommands : Prop :=
  (∀ (s : State) (v : CmdVer) (b : Block) (c : BitVec 6) (asid : BitVec 16) (x y z : Word) (f : Bool) (p : BitVec 3)
    (n : BitVec 8) (die : BitVec 2) (num : BitVec 32) (k : CoreId),
    let answers := fun (i : Instr) (st : Nat) => ∃ t, exec i s = .next t ∧ t.mailbox.toNat / 2 ^ 32 % 2 ^ 32 = st ∧
      t = { s with mailbox := t.mailbox, hostOut := t.hostOut }
    (∀ i ∈ [Instr.create v c asid x f p n y z, .destroy v c, .stop v c, .resume v c, .switchOut v c, .switchIn v c,
        .evacuate v die, .uploadPlan v c x, .readInstance v c num, .readCounters v k, .telemetry v],
      (s.boot.reached < 7 → answers i 4) ∧ (7 ≤ s.boot.reached → v ≠ ⟨0, 1⟩ → answers i 2)) ∧
    (∀ i ∈ [Instr.tagWrite b, .faultRead b, .map b, .refuse b, .replay b, .flush b, .invalidate b],
      (s.boot.reached < 7 → answers i 4) ∧ (7 ≤ s.boot.reached → blkVer b ≠ ⟨0, 1⟩ → answers i 2)) ∧
    (v = ⟨0, 1⟩ → 7 ≤ s.boot.reached → findCtx s c.toNat = none → ∀ i ∈ [Instr.destroy v c, .stop v c, .resume v c,
      .switchOut v c, .switchIn v c, .uploadPlan v c x], answers i 3) ∧
    (v ≠ ⟨0, 1⟩ → answers (.getVersion v) 2)) ∧
  (∀ (s : State) (c : BitVec 6) (num : BitVec 32) (plan : Word) (k : CoreId) (b : Block), 7 ≤ s.boot.reached →
    let v : CmdVer := ⟨0, 1⟩
    let does := fun (i : Instr) (st : Nat) (P : State → Prop) =>
      ∃ t, exec i s = .next t ∧ t.mailbox.toNat / 2 ^ 32 % 2 ^ 32 = st ∧ P t
    let cl := blkByte b 16
    let only := fun (l : List Nat) => ∀ j < 64, 8 ≤ j → j ∉ l → blkByte b j = 0
    let sends := fun (i : Instr) (dst : CoreId) (op : Nat) (x : Block) => ∃ t m, exec i s = .next t ∧ t.mailbox = s.mailbox ∧
      t.net = s.net ++ [m] ∧ m.src = serviceId 0 ∧ m.dst = dst ∧ m.body = .command op x ∧ t.mem = s.mem
    does (.getVersion v) 0 (fun t => t.hostOut = versionData s.boot ∧ t.mem = s.mem) ∧
    (∀ x, findCtx s c.toNat = some x → (inReplay x = true → does (.uploadPlan v c plan) 3 fun t => t.ctxs = s.ctxs) ∧
      (inReplay x = false → planBad s x plan.toNat = none → does (.uploadPlan v c plan) 0 fun t => ∃ y,
        findCtx t c.toNat = some y ∧ y.plan = planSteps s x plan.toNat ∧ y.replayed = false ∧ y.state = x.state) ∧
      ∀ a, inReplay x = false → planBad s x plan.toNat = some a →
        does (.uploadPlan v c plan) 3 fun t => t.ctxs = s.ctxs ∧ t.hostOut = natToBytes 8 a) ∧
    (∀ i, findInst s c.toNat num = some i →
      does (.readInstance v c num) 0 fun t => t.hostOut = [BitVec.ofNat 8 (stateCode i.state)]) ∧
    (∀ x l es, blkVer b = v → findCtx s (blkArg b 20 1) = some x → 1 ≤ blkArg b 16 4 → blkArg b 16 4 ≤ 65536 →
      l = 2 ^ 51 + blkArg b 8 8 → l + 16 * blkArg b 16 4 ≤ 2 ^ 52 → es = (List.range (blkArg b 16 4)).map (fun i =>
        (l + 16 * i, memNat s.mem (l + 16 * i) 8, memNat s.mem (l + 16 * i + 8) 8)) → tagsBad s x es = none →
      does (.tagWrite b) 0 fun t => t.mem = memSetTags s.mem (tagWrites s x es)) ∧
    (blkVer b = v → only (byteRange 8 9) → cl ≤ 23 → (hostBuf (blkArg b 8 8) 8200).isSome = true →
      sends (.faultRead b) (teffName cl) 0x30 b) ∧
    (blkVer b = v → cl ≤ 23 → (only (byteRange 16 4) → sends (.map b) (teffName cl) 0x31 b ∧ sends (.refuse b) (teffName cl) 0x32 b) ∧
      (only (byteRange 16 2) → sends (.replay b) (teffName cl) 0x33 b ∧ sends (.flush b) (teffName cl) 0x34 b)) ∧
    (blkVer b = v → 23 < cl → ∀ i ∈ [Instr.faultRead b, .map b, .refuse b, .replay b, .flush b], does i 3 fun t => t.net = s.net) ∧
    (let va := blkArg b 24 8
      let n := blkArg b 32 8
      blkVer b = v → only (byteRange 8 2 ++ byteRange 24 16) → va % 65536 = 0 → n ≠ 0 → n % 65536 = 0 →
      va + n ≤ 0xF0 * 2 ^ 48 → ∃ t, exec (.invalidate b) s = .next t ∧ t.mailbox = s.mailbox ∧ t.net.length = s.net.length + 24 ∧
        ∀ j < 24, ∃ m ∈ t.net, m.dst = teffName j ∧ m.body = .command 0x35 b) ∧
    (k.toNat < 1024 → isComputeCore k = true → sends (.readCounters v k) k 0x40 (verBlock v)) ∧
    does (.telemetry v) 0 (fun t => t.mem = s.mem ∧ t.hostOut = natToBytes 8 s.power.window ++
      (s.power.temps.toList.map fun t => natToBytes 2 t.toNat).flatten ++ natToBytes 8 s.power.withheld.toNat) ∧
    (∀ l, blkVer b = v → failedEarly s.boot = false → hostBuf (blkArg b 8 8) 424 = some l → only (byteRange 8 9) →
      cl = 0xFF ∨ (findCtx s cl).isSome = true →
      does (.attest b) 0 fun t => ∃ r : List Byte, r.length = 424 ∧ t.mem = memSetBytes s.mem (placed l r) ∧
        r.take 48 = (List.range 48).map fun i => memByte s.mem (l + i))) ∧
  (∀ (s : State) (i op : Nat) (m : Msg) (b : Block), s.net.find? (fun x => x.id == i) = some m → commandDue s m = true →
    m.body = .command op b →
    let t := takeCommand i s
    let cl := clusterIdx m.dst
    let x := getTeff s cl
    let y := getTeff t cl
    let rec_ := blkArg b 18 2
    let held := ∃ r ∈ x.records, r.idx = rec_
    let now := blkByte b 17 = x.gen.toNat
    let answers := fun (st : Nat) (buf : Option Nat) (data : List Byte) => ∃ q ∈ t.net, q.src = m.dst ∧ q.dst = m.src ∧
      q.body = .commanded op b st buf data
    t.mem = s.mem ∧ t.mailbox = s.mailbox ∧
    (coreNumOf m.dst ≠ 16 → op = 0x40 → answers 0 none (counterData s m.dst) ∧ (counterData s m.dst).length = 328) ∧
    (coreNumOf m.dst = 16 → cl < 24 →
      (op = 0x30 → answers 0 (hostBuf (blkArg b 8 8) 8200) (bufferBytes x) ∧ (bufferBytes x).length = 8200 ∧ t.teffs = s.teffs) ∧
      (op = 0x31 → held → now → answers 0 none [] ∧ y.records = x.records ∧ y.parked = x.parked.map fun a =>
        if a.record = some rec_ then { a with stage := 1 } else a) ∧
      (op = 0x32 → held → now → answers 0 none [] ∧ y.records = x.records.filter (fun r => r.idx != rec_) ∧
        y.parked = x.parked.filter fun a => a.record != some rec_) ∧
      (op = 0x31 ∨ op = 0x32 → ¬ held ∨ ¬ now → answers 3 none [] ∧ t.teffs = s.teffs) ∧
      (op = 0x33 → now → answers 0 none [] ∧ y.records = [] ∧ y.gen = x.gen ∧ ∀ a ∈ y.parked, a.record = none ∧ a.stage ≤ 1) ∧
      (op = 0x34 → now → answers 0 none [] ∧ y.records = [] ∧ y.gen = x.gen + 1 ∧ y.full = false) ∧
      (op = 0x33 ∨ op = 0x34 → ¬ now → answers 3 none [] ∧ t.teffs = s.teffs) ∧
      (op = 0x35 → answers 0 none [] ∧ ∀ q ∈ allCores t, clusterIdx q.phys = cl → ∀ e ∈ q.tlb,
        inRange (BitVec.ofNat 16 (blkArg b 8 2)) (blkArg b 24 8) (blkArg b 24 8 + blkArg b 32 8) e = false))) ∧
  (∀ (s : State) (i op st : Nat) (m : Msg) (b : Block) (buf : Option Nat) (data : List Byte),
    s.net.find? (fun x => x.id == i) = some m → commandDue s m = true → m.body = .commanded op b st buf data →
    let t := takeCommand i s
    let status := t.mailbox.toNat / 2 ^ 32 % 2 ^ 32
    (op ≠ 0x35 → st < 5 → status = st ∧ (∀ l, buf = some l → t.mem = memSetBytes s.mem (placed l data)) ∧
      (buf = none → t.mem = s.mem ∧ t.hostOut = data)) ∧
    (op = 0x35 → (∃ q ∈ s.net, q.id ≠ i ∧ ofCommand q.body = true) → t.mailbox = s.mailbox ∧ t.mem = s.mem) ∧
    (op = 0x35 → (∀ q ∈ s.net, q.id ≠ i → ofCommand q.body = false) → status = 0 ∧ ∀ q ∈ allCores t, ∀ e ∈ q.tlb,
      inRange (BitVec.ofNat 16 (blkArg b 8 2)) (blkArg b 24 8) (blkArg b 24 8 + blkArg b 32 8) e = false)) ∧
  (∀ (s : State) (data : List Byte), data.length = 64 → bytesToNat data % 256 ∉ opcodes → ∃ t,
    exec (.hostRegisterWrite 0 data) s = .next t ∧
    t.mailbox.toNat / 2 ^ 32 % 2 ^ 32 = (if 7 ≤ s.boot.reached then 1 else 4) ∧ t = { s with mailbox := t.mailbox }) ∧
  ∀ (s : State) (b : Block),
    let answers := fun (st : Nat) => ∃ t, exec (.attest b) s = .next t ∧ t.mailbox.toNat / 2 ^ 32 % 2 ^ 32 = st ∧ t.mem = s.mem
    (failedEarly s.boot = true → answers 3) ∧ (failedEarly s.boot = false → s.boot.reached < 3 → answers 4)

/-- The life of a context, and the launch ports. CREATE makes a PARKED context and raises its ASID's generation; STOP, RESUME,
SWITCH_OUT and SWITCH_IN move it between its states; DESTROY leaves nothing of it; a kick starts a replay of a parked context
or is latched, and a ninth sets OVERRUN; a launch port keeps PATCHV, which CREATE clears, shows PROGRESS, and reads 0 elsewhere, and all
ones until bring-up is complete; CXL.mem sends its reads and writes to the homes of their blocks, which perform them. How CREATE's limits
are read is log 21, and what the host writes beside them log 14: the model's choices. -/
def Obligations.Contexts : Prop :=
  (∀ (s : State) (c : BitVec 6) (x : Ctx), 7 ≤ s.boot.reached → findCtx s c.toNat = some x →
    let v : CmdVer := ⟨0, 1⟩
    let does := fun (i : Instr) (st : Nat) (P : State → Prop) =>
      ∃ t, exec i s = .next t ∧ t.mailbox.toNat / 2 ^ 32 % 2 ^ 32 = st ∧ P t
    let becomes := fun (t : State) (P : Ctx → Prop) => ∃ y, findCtx t c.toNat = some y ∧ P y
    let back := fun (y : Ctx) => (x.wasRunning = true → y.state = .running) ∧
      (x.wasRunning = false → x.latch = [] → y.state = .parked)
    let live := x.state = .running ∨ x.state = .parked
    (live → does (.stop v c) 0 fun t => becomes t fun y =>
      y = { x with state := .stopped, wasRunning := x.state = .running, stops := x.stops + 1 }) ∧
    (¬ live → does (.stop v c) 3 fun t => t.ctxs = s.ctxs) ∧
    (x.state = .stopped → does (.resume v c) 0 fun t => becomes t back ∧
      ∀ k ∈ allCores t, k.ctx = some c.toNat → k.stopped = false) ∧
    (x.state ≠ .stopped → does (.resume v c) 3 (fun t => t.ctxs = s.ctxs) ∧ does (.switchOut v c) 3 fun t => t.ctxs = s.ctxs) ∧
    (x.state = .stopped → consistent s x = true → does (.switchOut v c) 0 fun t => becomes t fun y =>
      y.state = .out ∧ y.savedProg = progressLow x) ∧
    (x.state = .stopped → consistent s x = false → ∃ t, exec (.switchOut v c) s = .next t ∧ t.mailbox = s.mailbox ∧
      t.pendingOut = some c.toNat ∧ t.ctxs = s.ctxs) ∧
    (x.state = .stopped → s.pendingOut = some c.toNat → consistent s x = true →
      does (.switchOutProceed c) 0 fun t => t.pendingOut = none ∧ becomes t fun y => y.state = .out) ∧
    (x.state = .out → (seatAll c.toNat (coresOf s c.toNat) { s with hostOut := [] }).isSome = true → does (.switchIn v c) 0 fun t => becomes t back) ∧
    (x.state = .out → seatAll c.toNat (coresOf s c.toNat) { s with hostOut := [] } = none →
      seatsFor { s with hostOut := [] } x = none → does (.switchIn v c) 3 fun t => t.ctxs = s.ctxs) ∧
    (x.state = .out → seatAll c.toNat (coresOf s c.toNat) { s with hostOut := [] } = none →
      (seatsFor { s with hostOut := [] } x).isSome = true → ∃ t, exec (.switchIn v c) s = .next t ∧ t.pendingIn = some c.toNat ∧
        t.mailbox = s.mailbox) ∧
    (x.state ≠ .out → does (.switchIn v c) 3 fun t => t.ctxs = s.ctxs) ∧
    (does (.destroy v c) 0 fun t => t.ctxs.map (·.num) = (s.ctxs.map (·.num)).filter (fun n => n != c.toNat) ∧
      t.insts = s.insts.filter (fun i => i.ctx != c.toNat) ∧ ∀ a ∈ allAgents t, a.ctx ≠ c.toNat)) ∧
  (∀ (s : State) (c : BitVec 6) (asid : BitVec 16) (root : Word) (topx : Bool) (prio : BitVec 3) (n : BitVec 8)
    (save len : Word), 7 ≤ s.boot.reached →
    let i := Instr.create ⟨0, 1⟩ c asid root topx prio n save len
    (createBad s c asid root n.toNat save len = false → ∃ t x, exec i s = .next t ∧
      t.mailbox.toNat / 2 ^ 32 % 2 ^ 32 = 0 ∧ t.ctxs = s.ctxs ++ [x] ∧ x.num = c.toNat ∧ x.state = .parked ∧ x.asid = asid ∧
      x.root = root ∧ x.topx = topx ∧ x.prio = prio ∧ x.plan = [] ∧ x.latch = [] ∧ x.reserve.length = n.toNat ∧
      asidGenOf t asid = asidGenOf s asid + 1 ∧ patchOf t c.toNat = Vector.replicate 16 0) ∧
    (createBad s c asid root n.toNat save len = true → ∃ t, exec i s = .next t ∧ t.mailbox.toNat / 2 ^ 32 % 2 ^ 32 = 3 ∧
      t.ctxs = s.ctxs)) ∧
  (∀ (s : State) (die : BitVec 2) (n p : CoreId), 7 ≤ s.boot.reached →
    ((allCores s).filter fun k => k.ctx.isSome && !k.out && dieOf k.phys == die.toNat).map (·.id) = [n] →
    p ∈ physCores → isSpare s p = true → physFree s p = true → dieOf p ≠ die.toNat → dieOf p ∉ s.evacuated → isVectorCore p = isVectorCore n →
    ∃ t, exec (.evacuate ⟨0, 1⟩ die) s = .next t ∧ t.mailbox.toNat / 2 ^ 32 % 2 ^ 32 = 0 ∧
      isSpare s (getCore t n).phys = true ∧ dieOf (getCore t n).phys ≠ die.toNat ∧ die.toNat ∈ t.evacuated) ∧
  (∀ (s : State) (c : CoreId), stopDue s (getCore s c) = true → ∃ t, exec (.gangStopArrival c) s = .next t ∧
    (getCore t c).stopped = true ∧ (getCore t c).stopcnt = (getCore s c).stopcnt + 1 ∧ t.mem = s.mem) ∧
  (∀ (s : State) (c : BitVec 6) (val : Word) (x : Ctx), 7 ≤ s.boot.reached → findCtx s c.toNat = some x →
    let becomes := fun (i : Instr) (P : State → Ctx → Prop) =>
      ∃ t y, exec i s = .next t ∧ findCtx t c.toNat = some y ∧ t.mem = s.mem ∧ P t y
    let kick : Kick := ⟨BitVec.ofNat 16 val.toNat, BitVec.ofNat 16 (val.toNat / 2 ^ 16), patchOf s c.toNat⟩
    (2 ^ 32 ≤ val.toNat ∨ 8 ≤ x.latch.length → x.state ≠ .parked →
      becomes (.kick c val) fun _ y => y = { x with overrun := true }) ∧
    (val.toNat < 2 ^ 32 → x.latch.length < 8 → x.state ≠ .parked →
      becomes (.kick c val) fun _ y => y = { x with latch := x.latch ++ [kick] }) ∧
    (val.toNat < 2 ^ 32 → x.latch = [] → x.state = .parked → (∃ st ∈ x.plan, st.device = false) →
      becomes (.kick c val) fun t y => y.state = .running ∧ y.curseq = kick.seq ∧ y.replays = x.replays + 1 ∧ y.latch = [] ∧
        t.insts.length = s.insts.length + (x.plan.filter fun st => !st.device).length ∧
        ∀ j < 16, y.kparam.toList.getD j 0 = if kick.mask.getLsbD j then (patchOf s c.toNat).toList.getD j 0
          else (if x.replayed then x.kparam else x.planSlots).toList.getD j 0) ∧
    (val.getLsbD 62 = true → becomes (.progressWrite c val) fun _ y => y = { x with overrun := false }) ∧
    (x.state ≠ .out → x.latch.length ≤ 8 → portRead s (0x1000 * c.toNat + 8) 8 = x.done.setWidth 64 ||| (x.lastseq.setWidth 64 <<< 32) |||
      (BitVec.ofNat 64 x.latch.length <<< 48) ||| (if x.overrun then (1 : Word) <<< 62 else 0))) ∧
  (∀ (s : State) (c : BitVec 6) (data : List Byte) (j : Nat), 7 ≤ s.boot.reached → j < 16 →
    let reg := 0x1000 * c.toNat + 0x80 + 8 * j
    ∃ t, exec (.hostRegisterWrite (BitVec.ofNat 64 (0x100000 + reg)) data) s = .next t ∧ t = { s with patchv := t.patchv } ∧
      portRead t reg 8 = (if data.length = 8 then BitVec.ofNat 64 (bytesToNat data) else portRead s reg 8) ∧
      ∀ (d : BitVec 6), ∀ i < 16, d ≠ c ∨ i ≠ j →
        portRead t (0x1000 * d.toNat + 0x80 + 8 * i) 8 = portRead s (0x1000 * d.toNat + 0x80 + 8 * i) 8) ∧
  (∀ (s : State) (off n : Nat),
    (7 ≤ s.boot.reached → n ≠ 8 ∨ off % 0x1000 < 8 ∨ (16 ≤ off % 0x1000 ∧ off % 0x1000 < 0x80) ∨ 0x100 ≤ off % 0x1000 →
      portRead s off n = 0) ∧
    (s.boot.reached < 7 → portRead s off n = BitVec.ofNat 64 (2 ^ (8 * n) - 1) ∧
      ∀ data, exec (.hostRegisterWrite (BitVec.ofNat 64 (0x100000 + off % 0x40000)) data) s = .next s)) ∧
  (∀ (s : State) (pa : Word) (data : List Byte) (n : Nat),
    (isHostLoc pa.toNat = true → ∃ t, exec (.cxlMemWrite pa data) s = .next t ∧ (∀ l, memTag t.mem l = memTag s.mem l) ∧
      ∀ j, isHostLoc j = true → memByte t.mem j =
        if pa.toNat ≤ j then data.getD (j - pa.toNat) (memByte s.mem j) else memByte s.mem j) ∧
    (isHostLoc pa.toNat = true → ∃ t, exec (.cxlMemRead pa n) s = .next t ∧ t.mem = s.mem ∧ t.hostOut = List.replicate n 0xFF) ∧
    (isHostLoc pa.toNat = false → pa.toNat + data.length ≤ 12 * 2 ^ 36 → ∃ t, exec (.cxlMemWrite pa data) s = .next t ∧
      t.mem = s.mem ∧ ∀ j < data.length, ∃ m ∈ t.net, ∃ l bs, m.body = .hostWrite l bs ∧ m.src = serviceId (serviceOf (pa.toNat + j)) ∧
        m.dst = homeName (pa.toNat + j) ∧ l ≤ pa.toNat + j ∧ bs[pa.toNat + j - l]? = data[j]?) ∧
    (isHostLoc pa.toNat = false → pa.toNat + n ≤ 12 * 2 ^ 36 → ∃ t, exec (.cxlMemRead pa n) s = .next t ∧ t.mem = s.mem ∧
      t.hostOut = List.replicate n 0xFF ∧ ∀ j < n, ∃ m ∈ t.net, ∃ l k off, m.body = .hostRead l k off ∧
        m.src = serviceId (serviceOf (pa.toNat + j)) ∧ m.dst = homeName (pa.toNat + j) ∧ l ≤ pa.toNat + j ∧ pa.toNat + j < l + k ∧
        l = pa.toNat + off)) ∧
  (∀ (s : State) (stack : BitVec 4) (culm : Bool) (m : Msg) (l : Nat),
    homeDue s (stackId stack.toNat) (fun x => atCulmPort s stack.toNat x.src == culm) = [m] →
    (∀ bytes, m.body = .hostWrite l bytes → m.bad = false → ∃ t, exec (.stackRequest stack culm) s = .next t ∧
      (∀ k, memTag t.mem k = memTag s.mem k) ∧
      (∀ j, paOk s j = true → memByte t.mem j = if l ≤ j then bytes.getD (j - l) (memByte s.mem j) else memByte s.mem j) ∧
      ∃ q ∈ t.net, q.src = m.dst ∧ q.dst = m.src ∧ q.body = .answer .nobody false) ∧
    ∀ n off, m.body = .hostRead l n off → ∃ t, exec (.stackRequest stack culm) s = .next t ∧ t.mem = s.mem ∧
      ∃ q ∈ t.net, q.src = m.dst ∧ q.dst = m.src ∧ ∃ bytes, q.body = .hostData off bytes ∧ bytes.length = n ∧
        ∀ j < n, bytes.getD j 0 = if isHostLoc (l + j) = false ∧ paOk s (l + j) = true then memByte s.mem (l + j) else 0xFF) ∧
  ∀ (s : State) (i off : Nat) (m : Msg) (bytes : List Byte), s.net.find? (fun x => x.id == i) = some m → deliverable s m = true →
    forNobody s m = false → m.dst = serviceId (coreNumOf m.dst) → m.body = .hostData off bytes →
    ∃ t, exec (.packetDelivery i) s = .next t ∧ t.mem = s.mem ∧
      t.hostOut = s.hostOut.take off ++ bytes ++ s.hostOut.drop (off + bytes.length)

/-- The master distributor, and what reaches the agents of the package. The distributor places the first instance of its pool
that fits, prepares and starts it, declares termination after two agreeing waves, and counts down the successors of a
finished one; a die's report goes to it by a message; homes perform requests and answer, and each answer lowers OUTREQ where the
request counts there; a late trap is delivered at an instruction boundary outside a handler; the teff cores take fault messages, walk,
record and answer by messages. That the refusal of a fetch from which the agent has gone on is dropped is log 26, and under which names
an instance takes its cores log 21: the model's choices. -/
def Obligations.DistributorAndArrivals : Prop :=
  (∀ (s : State) (c : BitVec 6) (num : BitVec 32) (i : Inst), findInst s c.toNat num = some i →
    let becomes := fun (e : Instr) (P : State → Inst → Prop) =>
      ∃ t j, exec e s = .next t ∧ findInst t c.toNat num = some j ∧ P t j
    let sent := sumWords ((instCores s i).map (·.sentcnt))
    let rcvd := sumWords ((instCores s i).map (·.rcvdcnt))
    let idle := (∀ k ∈ instCores s i, coreIdle s k = true) ∧ sent = rcvd
    let alive := i.state = .running ∧ i.started = true ∧ ctxRuns s i.ctx = true ∧ i.terminated = false
    (alive → ¬ idle → becomes (.terminationWave c num) fun t j => j = { i with wave := none } ∧ t.ag = s.ag) ∧
    (alive → idle → i.wave ≠ some (sent, rcvd) → becomes (.terminationWave c num) fun t j =>
      j = { i with wave := some (sent, rcvd) } ∧ t.ag = s.ag) ∧
    (alive → idle → i.wave = some (sent, rcvd) → becomes (.terminationWave c num) fun _ j => j.terminated = true) ∧
    ((c.toNat, num) ∈ s.faultReports → becomes (.instanceFault c num) fun t j =>
      (c.toNat, num) ∉ t.faultReports ∧ j.state = if i.state = .running then .faulted else i.state) ∧
    (∀ x st, mayPrepare s i = true → i.cores ≠ [] → (∀ k ∈ i.cores, (getCore s k).prepared = true) →
      instStep s i = some (x, st) → becomes (.instancePrepare c num) fun t j => j.state = .running ∧ j.started = true ∧
        t.agents.length = s.agents.length +
          ((i.cores.zipIdx).map fun p => agentsOn (getCore s p.1).kd (groupsHere s st) p.2).sum) ∧
    (instEnded s i = true → ∀ x, findCtx s i.ctx = some x →
      becomes (.instanceDone c num) fun t j => j.state = .done ∧ j.cores = [] ∧
        ∀ a ∈ allAgents t, ¬ (a.ctx = c.toNat ∧ a.inst = num))) ∧
  (∀ (s : State) (i : Inst) (is : List Inst) (x : Ctx) (st : Step) (ps : List CoreId), readyPool s = i :: is →
    placementOf s i = some (x, st, ps) → (∀ p ∈ ps, reportedFree s x p = true ∧ physFree s p = true) →
    (∀ k ∈ is, ∀ (y : Ctx × Step) (qs : List CoreId), placementOf s k = some (y.1, y.2, qs) → ∀ p ∈ qs, physFree s p = true) →
    ∃ t j, exec .instancePlacement s = .next t ∧ findInst t i.ctx i.num = some j ∧ j.state = .running ∧
      j.cores = ps.map fun p => nameOf s x p) ∧
  (∀ (s : State) (x : Ctx) (p : CoreId), nameFree s x p = true → nameOf s x p = ctxCore x.num (coreName p)) ∧
  (∀ (s : State) (i : Inst) (is : List Inst),
    sortBy (fun i j => i.age ≤ j.age) ((readyPool s).filter fun i => !i.overdue) = i :: is →
    ∃ t j, exec .placementAgeLimit s = .next t ∧ findInst t i.ctx i.num = some j ∧ j.overdue = true) ∧
  (∀ (s : State) (die : BitVec 2), let d := die.toNat
    (∃ t m, exec (.freeCountReport die) s = .next t ∧ t.net = s.net ++ [m] ∧ m.src = dieId d ∧ m.dst = culmId ∧
      m.body = .report d (freeOn s d) (agentReport s d) ∧ t.reports = s.reports ∧ t.insts = s.insts ∧ t.mem = s.mem) ∧
    (∀ p, p ∈ freeOn s d ↔ d ∉ s.evacuated ∧ p ∈ physCores ∧ dieOf p = d ∧ physFree s p = true) ∧
    ∀ k ∈ allCores s, k.ctx.isSome = true → k.out = false → dieOf k.phys = d → k.kd.level = 0 →
      (k.id.toNat, (freeNums s k.id).length) ∈ agentReport s d) ∧
  (∀ (s : State) (i d : Nat) (m : Msg) (free : List CoreId) (agents : List (Nat × Nat)),
    s.net.find? (fun x => x.id == i) = some m → deliverable s m = true → forNobody s m = false → m.dst = culmId →
    m.body = .report d free agents → ∃ t, exec (.packetDelivery i) s = .next t ∧ t.insts = s.insts ∧ t.mem = s.mem ∧
      (∀ p, p ∈ t.reports ↔ (p ∈ s.reports ∧ dieOf p ≠ d) ∨ p ∈ free) ∧
      ∀ k n, (k, n) ∈ agents → (agents.map (·.1)).Nodup → alGet 0 t.freeAgents k = n) ∧
  (∀ (s : State) (a : Agent) (w : PWrite) (m : Msg), findAgent s a.aid = some a → m.body = .write a.aid w.id →
    a.posted.find? (fun x => x.id == w.id) = some w →
    let done := fun (e : Instr) => ∃ t r, exec e s = .next t ∧ r ∈ t.net ∧ r.body = .reply a.aid ∧ r.src = m.dst ∧
      r.dst = a.place ∧ r.seq = w.seq ∧ (∃ b, findAgent t a.aid = some b ∧ ∀ x ∈ b.posted, x.id ≠ w.id) ∧
      (∀ l, memByte t.mem l = memByte (memSetBytes s.mem w.bytes) l) ∧
      (m.bad = false → t.mem = memSetTags (memSetBytes s.mem w.bytes) w.tags) ∧
      (m.bad = true → ∀ l ∈ writeBlocks w, isHostLoc l = false → poisoned (memTag t.mem l) = true)
    (∀ c, homeDue s c (fun _ => true) = [m] → done (.remoteImmediateOp c)) ∧
    ∀ (k : BitVec 4) (culm : Bool), homeDue s (stackId k.toNat) (fun x => atCulmPort s k.toNat x.src == culm) = [m] →
      done (.stackRequest k culm)) ∧
  (∀ (s : State) (m : Msg) (c : CoreId), homeDue s c (fun _ => true) = [m] →
    let serves := fun (P : State → Prop) => ∃ t, exec (.remoteImmediateOp c) s = .next t ∧ P t
    let answers := fun (t : State) (b : Body) => ∃ r ∈ t.net, r.body = b ∧ r.src = m.dst ∧ r.dst = m.src ∧ r.seq = m.seq
    (∀ aid key up down, m.body = .request (.agent aid key) up down →
      serves fun t => t.mem = s.mem ∧ answers t (.answer (.agent aid key) down)) ∧
    (∀ core id up down, m.body = .request (.engine core id) up down → serves fun t => t.mem = s.mem ∧
      answers t (.answer (.engine core id) down) ∧ ∃ n, getCore t core =
        { onAsked id (fillBlock (performed m s)) (getCore (performed m s) core) with sentcnt := n }) ∧
    (∀ core id chain q bytes tags, m.body = .store core id chain q bytes tags → m.bad = false →
      serves fun t => t.mem = memSetTags (memSetBytes s.mem bytes) tags ∧ answers t (.answer (.engine core id) false)) ∧
    ∀ aid key o u a, m.body = .op aid key o → (findAgent (performed m s) aid).isSome = true →
      (∀ ans, actAt m.dst key m.seq (spoiledOp m.bad o) (checkout aid (performed m s)) = (u, some ans) →
        findAgent u aid = some a → a.place ≠ m.dst → serves fun t => t.mem = u.mem ∧ ∃ r, t.net = u.net ++ [r] ∧
          r.body = .result aid key (countsOut o) ans ∧ r.src = m.dst ∧ r.dst = a.place ∧ r.seq = m.seq) ∧
      (actAt m.dst key m.seq (spoiledOp m.bad o) (checkout aid (performed m s)) = (u, none) → serves fun t => t = u)) ∧
  (∀ (s : State) (a : Agent), findAgent s a.aid = some a → a.run ≠ .free →
    (∀ m, replyFor s a = some m →
      let lowered := { a with outreq := a.outreq - 1 }
      let gets := fun (b : Agent) => ∃ t, exec (.replyArrival a.aid) s = .next t ∧ findAgent t a.aid = some b ∧ t.mem = s.mem ∧
        (m.dst = a.place → t.net = s.net.filter fun x => x.id != m.id)
      (m.body = .reply a.aid → gets lowered) ∧
      (∀ key block, m.body = .answer (.agent a.aid key) block →
        (∀ n bad ls, a.run = .blocked (.reads key n bad ls) →
          gets { lowered with run := .blocked (.reads key (n - 1) (bad || m.bad) ls) }) ∧
        ((∀ n bad ls, a.run ≠ .blocked (.reads key n bad ls)) → gets lowered)) ∧
      ∀ key counts ans, m.body = .result a.aid key counts ans →
        let b := if counts then lowered else a
        (a.run ≠ .blocked (.op key none) → gets b) ∧
        (a.run = .blocked (.op key none) →
          (∀ d, ans = .done d → m.bad = false → gets { b with run := .blocked (.op key (some d)) }) ∧
          (ans = .tableFull → gets { b with run := .blocked .waitTable }) ∧
          (ans = .ringFull → gets { b with run := .blocked .engineRoom }) ∧
          (∀ c x, ans = .trapped c x → a.handler = false → a.trapvec.toNat / 4 ≠ 0 →
            (a.late = [] → gets { b with trapc := c.setWidth 64, trappc := a.pc, trapa := x, trapseq := 0, handler := true,
                                         pc := a.trapvec &&& ~~~3, run := .running, inhand := none }) ∧
            (a.late ≠ [] → gets { b with run := .running }))))  ∧
    (∀ m l, refusalFor s a = some (m, l) →
      let gets := fun (P : Agent → Prop) => ∃ t, exec (.refusalArrival a.aid) s = .next t ∧ P t.ag
      let trapped := fun (b : Agent) => b.trappc = a.pc ∧ b.trapa = l.trapa ∧ b.handler = true ∧
        b.pc = a.trapvec &&& ~~~3 ∧ b.run = .running
      (blockedOn a.run l.seq = false → gets fun b => b =
        { a with outreq := a.outreq - 1, late := if l.cause = cFetch then a.late else a.late ++ [l] }) ∧
      (blockedOn a.run l.seq = true → a.handler = false → a.trapvec.toNat / 4 ≠ 0 →
        (l.cause ≠ cFetch → gets fun b => trapped b ∧ b.trapc = l.cause.setWidth 64 ∧ b.trapseq = l.seq.setWidth 64) ∧
        (l.cause = cFetch → a.late = [] → gets fun b => trapped b ∧ b.trapseq = 0 ∧
          b.trapc = if l.trapa = a.pc then 0x0B else 0x10B) ∧
        (l.cause = cFetch → a.late ≠ [] → gets fun b => b = { a with outreq := a.outreq - 1, run := .running }))) ∧
    ∀ l, lateDue s a = true → firstLate a.late = some l → a.run = .running → a.trapvec.toNat / 4 ≠ 0 →
      ∃ t, exec (.lateTrapDelivery a.aid) s = .next t ∧ t.ag.trapc = l.cause.setWidth 64 ∧ t.ag.trappc = a.pc ∧
        t.ag.trapa = l.trapa ∧ t.ag.trapseq = l.seq.setWidth 64 ∧ t.ag.handler = true ∧ t.ag.pc = a.trapvec &&& ~~~3 ∧
        t.ag.late = a.late.erase l) ∧
  (∀ (ts : List LateTrap) (l : LateTrap), firstLate ts = some l → l ∈ ts ∧ ∀ u ∈ ts, l.seq.toNat ≤ u.seq.toNat) ∧
  (∀ (s : State) (k : BitVec 5), k.toNat < 24 →
    let teff := fun (t : State) => getTeff t k.toNat
    (∀ m a, faultFor s k.toNat = some (m, a) → ∃ t, exec (.faultMessage k) s = .next t ∧ t.mem = s.mem ∧
      (teff t).parked = (teff s).parked ++ [{ a with stage := 1, record := none }] ∧ t.net = s.net.filter fun x => x.id != m.id) ∧
    ∀ a, (teff s).parked = [a] → a.stage = 1 → ∃ t, exec (.pageWalkResult k) s = .next t ∧ t.mem = s.mem ∧
      (walk s a.root a.va.toNat = .absent → ∃ b, (teff t).parked = [b] ∧ b.who = a.who ∧ b.va = a.va ∧ 2 ≤ b.stage) ∧
      ∀ e, walk s a.root a.va.toNat = .leaf e → (teff t).parked = [] ∧ ∀ aid g, a.who = .agent aid → findAgent s aid = some g →
        ∃ m, t.net = s.net ++ [m] ∧ m.src = teffName k.toNat ∧ m.dst = g.place ∧ m.seq = a.seq ∧
          m.body = if tlbAllows e a.kind then .mapped ⟨a.who, a.va, a.report, a.kind, a.seq, true⟩
            else .refusal aid ⟨if a.kind = .fetch then cFetch else cRefused, a.report, a.seq⟩) ∧
  ∀ (s : State) (k : BitVec 5) (m : Msg) (x : Answer) (g : Agent), answerFrom s k.toNat = some (m, x) →
    findAgent s g.aid = some g → x.who = .agent g.aid →
    ∃ t b, exec (.translationAnswer k) s = .next t ∧ m ∉ t.net ∧ findAgent t g.aid = some b ∧
      b.outreq = g.outreq - 1 ∧ (g.run = .blocked (.translation x.seq) → b.run = .running) ∧
      ∀ since, g.run = .blocked (.nodePage since x.seq) → b.run = .blocked (.retire since)

/-- The fabrics, bring-up and power. A flit crosses a ring link into the next stop's buffer; free counts travel upstream; a
packet enters the mesh; a die-to-die receiver takes a good flit and discards after a bad one until the flits come again; a packet
is delivered in order; a Svailaet port sends groups of 8 of its flits in order, or IDLE ones, takes the expected group, goes on
only with a fitting peer, and returns; from step 5 of bring-up on a scrub poisons what it cannot correct, and an error in SRAM its block,
row or accumulator; one in a reorder buffer strikes the oldest block there; a register-file parity error stops its agent; a reset leaves
the spec's state, bring-up goes step by step and needs a valid identity blob; power stays at or below the limit, and a junction of
110 °C resets the package. Zero flits in a short group, an IDLE group without a number, what is sent again and the report of a peer that
does not fit are log 17, and that a parity error leaves the trap registers is log 2: the model's choices. -/
def Obligations.FabricsAndBringUp : Prop :=
  (∀ (s : State) (k : BitVec 5) (n : BitVec 3) (d : Dir), k.toNat < 24 →
    (ringChoice s k.toNat n.toNat d = none → ∃ t, exec (.ringHop k n d true) s = .next t ∧ t.net = s.net ∧
      (getIn t k.toNat n.toNat d).buf = (getIn s k.toNat n.toNat d).buf) ∧
    (∀ f c sh, ringChoice s k.toNat n.toNat d = some (.passing f) →
      slotFor (getIn s k.toNat n.toNat d) (getIn s k.toNat (nextStop n.toNat d) d).seen n.toNat d f = some (c, sh) →
      ∃ t, exec (.ringHop k n d true) s = .next t ∧ t.net = s.net ∧
        (getIn t k.toNat n.toNat d).buf = (getIn s k.toNat n.toNat d).buf.erase f ∧
        (getIn t k.toNat (nextStop n.toNat d) d).buf =
          (getIn s k.toNat (nextStop n.toNat d) d).buf ++ [{ f with chan := c, shared := sh, age := 0 }]) ∧
    (let x := getIn s k.toNat n.toNat d
      let older := fun (l : List Flit) => l.map fun f => { f with age := f.age + 1 }
      (landed n.toNat x = [] → ∃ t, exec (.ringFreeCounts k n d) s = .next t ∧ t.net = s.net ∧
        (getIn t k.toNat n.toNat d).seen = freeNow x ∧ (getIn t k.toNat n.toNat d).buf = older x.buf) ∧
      ∀ f, landed n.toNat x = [f] → ∃ t, exec (.ringFreeCounts k n d) s = .next t ∧
        (getIn t k.toNat n.toNat d).seen = freeNow { x with buf := x.buf.erase f } ∧
        (getIn t k.toNat n.toNat d).buf = older (x.buf.erase f) ∧
        ∀ m, f.last = true → s.net.find? (fun y => y.id == f.pkt) = some m →
          { m with site := ejected k.toNat n.toNat (partyOf s m.dst), order := s.draws } ∈ t.net)) ∧
  (∀ (s : State) (die : BitVec 2) (r : BitVec 3) (rep : Bool) (g : Nat) (f : Flit) (fs : List (Nat × Flit)), r.toNat < 6 →
    g < 6 → meshEntry s die.toNat r.toNat rep = none → routerQ rep (getRouter s die.toNat r.toNat) = (g, f) :: fs →
    meshNext r.toNat g ≠ g → g ≠ r.toNat → ∃ t, exec (.meshHop die r rep true) s = .next t ∧ t.net = s.net ∧
      routerQ rep (getRouter t die.toNat r.toNat) = fs ∧
      routerQ rep (getRouter t die.toNat (meshNext r.toNat g)) =
        routerQ rep (getRouter s die.toNat (meshNext r.toNat g)) ++ [(g, f)]) ∧
  (∀ (f : Flit) (crcOk : Bool), (crc16 f = wireCrc crcOk (onWire f).2) ↔ crcOk = true) ∧
  (∀ (s : State) (die : BitVec 2) (up crcOk : Bool), linkEntry s die.toNat up = none →
    let x := getLink s die.toNat up
    let becomes := fun (y : D2dLink) => ∃ t, exec (.d2dFlitReceive die up crcOk) s = .next t ∧ getLink t die.toNat up = y
    (∀ f c fs, x.wire = (f, c) :: fs →
      (x.discarding = true → becomes { x with wire := fs }) ∧
      (x.discarding = false → crc16 f = wireCrc crcOk c → becomes { x with wire := fs, replay := x.replay.drop 1 }) ∧
      (x.discarding = false → crc16 f ≠ wireCrc crcOk c → becomes { x with wire := fs, discarding := true })) ∧
    (x.wire = [] → becomes { x with wire := if x.discarding then x.replay.map onWire else [], discarding := false })) ∧
  (∀ (s : State) (m : Msg), s.net.find? (fun x => x.id == m.id) = some m → deliverable s m = true →
    (forNobody s m = true → ∃ t, exec (.packetDelivery m.id) s = .next t ∧ t.net = s.net.filter fun x => x.id != m.id) ∧
    (forNobody s m = false → atDelivery m = false → ∃ t x, exec (.packetDelivery m.id) s = .next t ∧ x ∈ t.net ∧
      x = { m with arrived := true, order := s.draws } ∧ t.net.length = s.net.length)) ∧
  (∀ (s : State) (p : BitVec 3),
    let x := getPort s p
    let becomes := fun (e : Instr) (P : Port → Prop) => ∃ t, exec e s = .next t ∧ P (getPort t p)
    let whole := fun (l : List (BitVec 256)) => packetsIn s.cfg.position l.length l
    let fitting := fun (h : Hello) => h.major = 1 ∧ h.partition = s.cfg.identity
    let halted := fun (t : State) => ∀ c ∈ t.ctxs, c.state ≠ .running ∧ c.state ≠ .parked
    (x.up = true → x.retraining = false → x.resend = 0 →
      (x.tosend ≠ [] → x.replay.length < 128 → becomes (.svailaetGroupSend p) fun y => ∃ fs, fs.length = 8 ∧
        fs.take (min 8 x.tosend.length) = x.tosend.take 8 ∧ (∀ f ∈ fs.drop x.tosend.length, f.2 = 0) ∧
        y.tosend = x.tosend.drop 8 ∧ y.gseq = x.gseq + 1 ∧ y.replay = x.replay ++ [(x.gseq, fs)] ∧
        y.line = some (trailer x.gseq x.ackseq x.discarding false (fs.map (·.2)), fs.map (·.2))) ∧
      (x.tosend = [] → becomes (.svailaetGroupSend p) fun y =>
        y = { x with line := some (trailer x.gseq x.ackseq x.discarding true (List.replicate 8 0), List.replicate 8 0) })) ∧
    (∀ q a nak fs, x.up = true → x.retraining = false →
      (fs ≠ [] → q = x.ackseq + 1 → becomes (.svailaetGroupReceive p q a true nak fs) fun y =>
        y.received = (whole (x.received ++ fs)).2 ∧ y.ackseq = q ∧ y.discarding = false ∧ y.failures = 0) ∧
      (x.discarding = false → becomes (.svailaetGroupReceive p q a false nak fs) fun y => y.received = (whole x.received).2 ∧
        y.ackseq = x.ackseq ∧ y.discarding = true ∧ y.retraining = (x.failures == 7))) ∧
    (∀ major minor part pos, x.retraining = true →
      let h : Hello := ⟨major, minor, part, pos⟩
      (fitting h → becomes (.svailaetRetrainDone p true major minor ⟨part, pos⟩) fun y => y.up = true ∧
        y.retraining = false ∧ y.resend = y.replay.length ∧ y.replay = x.replay ∧ y.peerHello = some h ∧
        y.sentHello = some ⟨1, 0, s.cfg.identity, s.cfg.position⟩) ∧
      (¬ fitting h → ∃ t, exec (.svailaetRetrainDone p true major minor ⟨part, pos⟩) s = .next t ∧ (getPort t p).up = false ∧
        (getPort t p).reported = true ∧ (getPort t p).peerHello = some h ∧ halted t) ∧
      (x.failedTrains = 2 → ∃ t, exec (.svailaetRetrainDone p false major minor ⟨part, pos⟩) s = .next t ∧
        (getPort t p).up = false ∧ (getPort t p).reported = true ∧ halted t)) ∧
    (x.up = false → (∀ h, x.peerHello = some h → fitting h) → x.failedTrains = 3 →
      becomes (.svailaetPortReturns p) fun y => y.up = true ∧ y.resend = x.replay.length ∧ y.replay = x.replay) ∧
    (x.up = false → (∃ h, x.peerHello = some h ∧ ¬ fitting h) → exec (.svailaetPortReturns p) s = .next s)) ∧
  (∀ (s : State) (k : BitVec 4) (pa : Word), k.toNat < 12 →
    let l := k.toNat * 2 ^ 36 + pa.toNat % 2 ^ 36
    let counts := fun (t : State) => t.hbmErr.toList.getD k.toNat (0, 0)
    let off := pa.toNat % 2 ^ 36 - stackEnd s k.toNat
    (s.boot.reached < 6 → ∀ bad, exec (.patrolScrub k pa bad) s = .next s) ∧
    (6 ≤ s.boot.reached → ∃ t, exec (.patrolScrub k pa false) s = .next t ∧ t.mem = s.mem ∧ t.stores = s.stores ∧
      counts t = ((counts s).1 + 1, (counts s).2)) ∧
    (6 ≤ s.boot.reached → ∃ t, exec (.patrolScrub k pa true) s = .next t ∧ counts t = ((counts s).1, (counts s).2 + 1) ∧
      (∀ j, memByte t.mem j = memByte s.mem j) ∧ (paOk s l = true → poisoned (memTag t.mem l) = true) ∧
      (stackEnd s k.toNat ≤ pa.toNat % 2 ^ 36 → ∀ g ∈ (getStore s k.toNat).granules, g.num = off / 4096 + 1 →
        ∃ h ∈ (getStore t k.toNat).granules, h.num = g.num ∧ poisoned (alGet zeroBlock h.blocks (off % 4096 / 64)).2 = true))) ∧
  (∀ (s : State) (p : CoreId) (off : BitVec 20),
    let c := counterCore s p
    p.toNat < 1024 → isComputeCore p = true → c.phys = p → c.out = false →
      (softError (.sram p off false) s).mem = s.mem ∧
      (∀ l, memByte (softError (.sram p off true) s).mem l = memByte s.mem l) ∧
      poisoned (memTag (softError (.sram p off true) s).mem (sliceBase c.id + off.toNat / 64 * 64)) = true ∧
      (∀ slot row, slot < 64 → row < 32 → let t := softError (.operand p slot row true) s
        t.mem = s.mem ∧ ∃ x : OSlot, (getCore t c.id).oslots.toList[slot]? = some x ∧ poisoned (x.tags.toList.getD row 0) = true) ∧
      ∀ slot, slot < 16 → let t := softError (.accumulator p slot true) s
        t.mem = s.mem ∧ ∃ x : ASlot, (getCore t c.id).aslots.toList[slot]? = some x ∧ x.bad = true) ∧
  (∀ (s : State) (core : CoreId) (hdr : Nat) (ch : Chain), findChain (getCore s core) hdr = some ch → ch.kind = 2 →
    let t := softError (.reorder core hdr) s
    t.mem = s.mem ∧ ∃ y, findChain (getCore t core) hdr = some y ∧ y.cmd = ch.cmd.map strikeReorder) ∧
  (∀ (s : State) (n : Nat) (a : Agent), findAgent s n = some a → a.run = .running →
    let t := softError (.registerFile n) s
    (∃ b, findAgent t n = some b ∧ b = { a with run := .dead }) ∧ t.mem = s.mem ∧
      t.faultReports = s.faultReports ++ [(a.ctx, a.inst)]) ∧
  (∀ (s : State), ∃ t, exec .packageReset s = .next t ∧ exec .thermalReset s = .next t ∧ t.ctxs = [] ∧ t.insts = [] ∧
    t.agents = [] ∧ t.net = [] ∧ t.boot.reached = 0 ∧ t.boot.failed = none ∧ t.mem = s.mem ∧ t.boot.flash = s.boot.flash ∧
    t.boot.recorded = s.boot.recorded) ∧
  (∀ (s : State), let t := bootStep s
    (s.boot.failed.isSome = true ∨ 7 ≤ s.boot.reached → t = s) ∧
    (s.boot.failed = none → s.boot.reached = 0 → t.boot.reached = 1 ∧ t.boot.derivation = s.boot.keySram ∧ t.mem = s.mem) ∧
    (s.boot.failed = none → s.boot.reached = 1 → t.boot.reached = 2 ∧ t.boot.keySram = 0 ∧ t.struck = [] ∧
      (∀ l, memByte t.mem l = if isHostLoc l then memByte s.mem l else 0) ∧ ∀ l, memTag t.mem l = 0x7FC0) ∧
    (s.boot.failed = none → s.boot.reached = 2 → ∀ bs, flashBlob s.boot 1 = some bs →
      if blobOk 1 rootKey (s.boot.recorded.toList.getD 0 0) bs then t.boot.reached = 3 ∧ t.boot.derivation = 0 ∧ t.boot.failed = none
      else t.boot.failed = some 2 ∧ t.boot.reached = 2) ∧
    (s.boot.failed = none → s.boot.reached = 2 → flashBlob s.boot 1 = none → t.boot.failed = some 2 ∧ t.boot.reached = 2)) ∧
  ∀ (s : State),
    ((∀ i < 17, (Config.temperature s.draws i).toNat < 1100) → ∃ t, exec .powerWindow s = .next t ∧ t.mem = s.mem ∧
      t.ctxs = s.ctxs ∧ t.power.window ≤ 1000 * s.cfg.powerLimit) ∧
    ((∃ i < 17, 1100 ≤ (Config.temperature s.draws i).toNat) → exec .powerWindow s = exec .packageReset s)
end

