-- ==== Sys2Proof/Laws/Memory.lean ====
section
/-! SUPPORT. Memory: reading after writing, and the canonical form, which every memory operation keeps. -/

namespace Sys2Proof.Machine

variable {α : Type} [DecidableEq α]

/-! ## Sparse tables -/

/-- A lower bound below which every key of a table lies. -/
def Above (lo : Option Nat) (k : Nat) : Prop := match lo with | none => True | some l => l < k

omit [DecidableEq α] in
theorem above_trans {lo : Option Nat} {k j : Nat} (h : Above lo k) (hj : k < j) : Above lo j := by
  cases lo with
  | none => trivial
  | some l => exact Nat.lt_trans h hj

theorem alWfFrom_cons {d : α} {lo : Option Nat} {k : Nat} {v : α} {r : List (Nat × α)} :
    alWfFrom d lo ((k, v) :: r) = true ↔ Above lo k ∧ v ≠ d ∧ alWfFrom d (some k) r = true := by
  cases lo <;> simp [alWfFrom, Above, and_assoc]

theorem alWfFrom_weaken {d : α} {l : List (Nat × α)} {lo lo' : Option Nat} (h : ∀ k, Above lo k → Above lo' k)
    (hw : alWfFrom d lo l = true) : alWfFrom d lo' l = true := by
  cases l with
  | nil => rfl
  | cons p r => rw [alWfFrom_cons] at *; exact ⟨h _ hw.1, hw.2⟩

theorem alWfFrom_alPut {d : α} {k : Nat} {v : α} (hv : v ≠ d) : ∀ {l : List (Nat × α)} {lo : Option Nat}, Above lo k →
    alWfFrom d lo l = true → alWfFrom d lo (alPut l k v) = true
  | [], lo, hk, _ => by rw [alPut, alWfFrom_cons]; exact ⟨hk, hv, rfl⟩
  | (k', v') :: r, lo, hk, hw => by
    rw [alWfFrom_cons] at hw
    unfold alPut; split
    · rw [alWfFrom_cons, alWfFrom_cons]; exact ⟨hk, hv, ‹_›, hw.2⟩
    · split
      · rename_i h; subst h
        rw [alWfFrom_cons]; exact ⟨hw.1, hv, hw.2.2⟩
      · rw [alWfFrom_cons]
        exact ⟨hw.1, hw.2.1, alWfFrom_alPut hv (lo := some k') (by simp only [Above]; omega) hw.2.2⟩

theorem alWfFrom_filter {d : α} (f : Nat × α → Bool) : ∀ {l : List (Nat × α)} {lo : Option Nat}, alWfFrom d lo l = true →
    alWfFrom d lo (l.filter f) = true
  | [], _, _ => rfl
  | (k, v) :: r, lo, hw => by
    rw [alWfFrom_cons] at hw
    simp only [List.filter_cons]
    split
    · rw [alWfFrom_cons]; exact ⟨hw.1, hw.2.1, alWfFrom_filter f hw.2.2⟩
    · exact alWfFrom_filter f (alWfFrom_weaken (lo := some k) (fun _ hj => above_trans hw.1 hj) hw.2.2)

theorem alWf_filter {d : α} (f : Nat × α → Bool) {l : List (Nat × α)} (h : alWf d l = true) : alWf d (l.filter f) = true :=
  alWfFrom_filter f h

theorem alWf_alSet {d : α} {l : List (Nat × α)} (k : Nat) (v : α) (h : alWf d l = true) : alWf d (alSet d l k v) = true := by
  unfold alSet; split
  · exact alWf_filter _ h
  · exact alWfFrom_alPut ‹_› trivial h

omit [DecidableEq α] in
theorem alGet_alPut {d : α} {k j : Nat} {v : α} : ∀ {l : List (Nat × α)},
    alGet d (alPut l k v) j = if j = k then v else alGet d l j
  | [] => rfl
  | (k', v') :: r => by
    unfold alPut; split
    · rfl
    · split
      · rename_i h; subst h; simp only [alGet]; split <;> rfl
      · simp only [alGet, alGet_alPut]; split
        · rename_i h h'; subst h'; rw [if_neg (fun e => h e.symm)]
        · rfl

omit [DecidableEq α] in
theorem alGet_filter_ne {d : α} {k j : Nat} : ∀ {l : List (Nat × α)},
    alGet d (l.filter fun p => p.1 != k) j = if j = k then d else alGet d l j
  | [] => by simp [alGet]
  | (k', v') :: r => by
    simp only [List.filter_cons, bne_iff_ne]; split
    · simp only [alGet, alGet_filter_ne]; split
      · rename_i h h'; subst h'; rw [if_neg h]
      · rfl
    · rename_i h; simp only [Decidable.not_not] at h; subst h
      rw [alGet_filter_ne, alGet]; split
      · rfl
      · rfl

theorem alGet_alSet {d : α} {k j : Nat} {v : α} {l : List (Nat × α)} :
    alGet d (alSet d l k v) j = if j = k then v else alGet d l j := by
  unfold alSet; split
  · rename_i h; rw [alGet_filter_ne, h]
  · exact alGet_alPut

theorem alGet_alSet_same {d : α} {k : Nat} {v : α} {l : List (Nat × α)} : alGet d (alSet d l k v) k = v := by
  rw [alGet_alSet, if_pos rfl]

theorem alGet_alSet_other {d : α} {k j : Nat} {v : α} (hj : j ≠ k) {l : List (Nat × α)} :
    alGet d (alSet d l k v) j = alGet d l j := by
  rw [alGet_alSet, if_neg hj]

/-! ## Reading after writing -/

theorem wf_bytes {m : Mem} (h : Memory.wf m = true) : alWf unlistedByte m.bytes = true := by
  simp [Memory.wf] at h; exact h.1
theorem wf_tags {m : Mem} (h : Memory.wf m = true) : alWf unlistedTag m.tags = true := by
  simp [Memory.wf] at h; exact h.2

theorem memByte_memSetByte_same (m : Mem) (l : Nat) (b : Byte) : memByte (memSetByte m l b) l = b :=
  alGet_alSet_same

theorem memByte_memSetByte_other {l k : Nat} (h : k ≠ l) (m : Mem) (b : Byte) :
    memByte (memSetByte m l b) k = memByte m k := alGet_alSet_other h

theorem memByte_memSetTag (m : Mem) (l k : Nat) (t : Tag) : memByte (memSetTag m l t) k = memByte m k := by
  unfold memSetTag; split <;> rfl

theorem memTag_memSetByte (m : Mem) (l k : Nat) (b : Byte) : memTag (memSetByte m l b) k = memTag m k := rfl

theorem memTag_memSetTag_same (m : Mem) (l : Nat) (hl : isHostLoc l = false) (t : Tag) :
    memTag (memSetTag m l t) l = t := by
  simp only [memTag, memSetTag, hl]
  exact alGet_alSet_same

theorem memByte_memSetBytes_other : ∀ {ws : List (Nat × Byte)} {k : Nat}, k ∉ ws.map (·.1) → ∀ m : Mem,
    memByte (memSetBytes m ws) k = memByte m k
  | [], _, _, _ => rfl
  | (l, b) :: ws, k, h, m => by
    simp only [List.map_cons, List.mem_cons, not_or] at h
    rw [memSetBytes, memByte_memSetBytes_other h.2, memByte_memSetByte_other h.1]

theorem memByte_memSetTags (ts : List (Nat × Tag)) (m : Mem) (k : Nat) : memByte (memSetTags m ts) k = memByte m k := by
  induction ts generalizing m with
  | nil => rfl
  | cons p ts ih => obtain ⟨l, t⟩ := p; rw [memSetTags, ih, memByte_memSetTag]

/-! ## The canonical form -/

theorem wf_empty : Memory.wf ⟨[], []⟩ = true := rfl

theorem wf_memSetByte {m : Mem} (l : Nat) (b : Byte) (h : Memory.wf m = true) : Memory.wf (memSetByte m l b) = true := by
  simp only [Memory.wf, memSetByte, alWf_alSet l b (wf_bytes h), wf_tags h, Bool.and_self]

theorem wf_memSetTag {m : Mem} (l : Nat) (t : Tag) (h : Memory.wf m = true) : Memory.wf (memSetTag m l t) = true := by
  unfold memSetTag; split
  · exact h
  · simp only [Memory.wf, alWf_alSet _ t (wf_tags h), wf_bytes h, Bool.and_self]

theorem wf_memSetBytes (ws : List (Nat × Byte)) {m : Mem} (h : Memory.wf m = true) : Memory.wf (memSetBytes m ws) = true := by
  induction ws generalizing m with
  | nil => exact h
  | cons p ws ih => obtain ⟨l, b⟩ := p; exact ih (wf_memSetByte l b h)

theorem wf_memSetTags (ts : List (Nat × Tag)) {m : Mem} (h : Memory.wf m = true) : Memory.wf (memSetTags m ts) = true := by
  induction ts generalizing m with
  | nil => exact h
  | cons p ts ih => obtain ⟨l, t⟩ := p; exact ih (wf_memSetTag l t h)

theorem wf_memSetNat (l n x : Nat) {m : Mem} (h : Memory.wf m = true) : Memory.wf (memSetNat m l n x) = true :=
  wf_memSetBytes _ h
theorem wf_memSetWord (l : Nat) (x : Word) {m : Mem} (h : Memory.wf m = true) : Memory.wf (memSetWord m l x) = true :=
  wf_memSetNat _ _ _ h
theorem wf_memSetBlock (l : Nat) (b : Block) (t : Tag) {m : Mem} (h : Memory.wf m = true) :
    Memory.wf (memSetBlock m l b t) = true := wf_memSetTag _ _ (wf_memSetNat _ _ _ h)

theorem wf_takeKey (m : Mem) (a : Agent) (k : Nat) {v : Mem} (h : Memory.wf v = true) : Memory.wf (takeKey m a k v) = true := by
  unfold takeKey; dsimp only
  split
  · split
    · exact h
    · exact wf_memSetByte _ _ h
  · split
    · exact h
    · exact wf_memSetTag _ _ h

theorem wf_takeEach (m : Mem) (a : Agent) (ks : List Nat) {v : Mem} (h : Memory.wf v = true) :
    Memory.wf (takeEach m a ks v) = true := by
  induction ks generalizing v with
  | nil => exact h
  | cons k ks ih => exact ih (wf_takeKey m a k h)

theorem wf_takeKeys (m : Mem) (a : Agent) (ks : List Nat) {v : Mem} (h : Memory.wf v = true) :
    Memory.wf (takeKeys m a ks v) = true := by
  induction ks generalizing v with
  | nil => exact h
  | cons k ks ih => exact ih (wf_takeEach m a (takenWith k) h)

theorem wf_keepKeys (m : Mem) (a : Agent) (ks : List Nat) {v : Mem} (h : Memory.wf v = true) :
    Memory.wf (keepKeys m a ks v) = true := by
  induction ks generalizing v with
  | nil => exact h
  | cons k ks ih => exact ih (wf_takeKey m a k h)

theorem wf_overlay (ws : List PWrite) {m : Mem} (h : Memory.wf m = true) : Memory.wf (overlay ws m) = true := by
  induction ws generalizing m with
  | nil => exact h
  | cons w ws ih =>
    refine ih ?_
    split
    · exact wf_memSetTags _ (wf_memSetBytes _ h)
    · exact h

theorem wf_foldl {β : Type} (f : Mem → β → Mem) (hf : ∀ m b, Memory.wf m = true → Memory.wf (f m b) = true) (bs : List β)
    {m : Mem} (h : Memory.wf m = true) : Memory.wf (bs.foldl f m) = true := by
  induction bs generalizing m with
  | nil => exact h
  | cons b bs ih => exact ih (hf m b h)

theorem wf_writeOvf (c : CoreId) (bs xs : List Nat) {m : Mem} (h : Memory.wf m = true) : Memory.wf (writeOvf c bs xs m) = true :=
  wf_foldl _ (fun _ _ => wf_memSetBlock _ _ _) _ h

theorem wf_placeNodes (c : Core) (bs : List Block) {m : Mem} (h : Memory.wf m = true) : Memory.wf (placeNodes c bs m) = true :=
  wf_foldl _ (fun _ _ => wf_memSetNat _ _ _) _ h

theorem wf_clearRange (lo hi : Nat) {m : Mem} (h : Memory.wf m = true) : Memory.wf (clearRange lo hi m) = true := by
  simp only [Memory.wf, clearRange, alWf_filter _ (wf_bytes h), alWf_filter _ (wf_tags h), Bool.and_self]

end Sys2Proof.Machine
end

