-- ==== Sys2Proof/Laws/State.lean ====
section
/-! SUPPORT. One lemma per field for each update of the current agent: which fields it leaves as they were, and what it
writes. -/

namespace Sys2Proof.Machine

/-! ## setS -/

@[simp] theorem setS_core (r : Reg) (x : Word) (s : State) : (setS r x s).core = s.core := by unfold setS; split <;> rfl
@[simp] theorem setS_agents (r : Reg) (x : Word) (s : State) : (setS r x s).agents = s.agents := by unfold setS; split <;> rfl
@[simp] theorem setS_cores (r : Reg) (x : Word) (s : State) : (setS r x s).cores = s.cores := by unfold setS; split <;> rfl
@[simp] theorem setS_mem (r : Reg) (x : Word) (s : State) : (setS r x s).mem = s.mem := by unfold setS; split <;> rfl
@[simp] theorem setS_cycle (r : Reg) (x : Word) (s : State) : (setS r x s).cycle = s.cycle := by unfold setS; split <;> rfl
@[simp] theorem setS_draws (r : Reg) (x : Word) (s : State) : (setS r x s).draws = s.draws := by unfold setS; split <;> rfl
@[simp] theorem setS_inputs (r : Reg) (x : Word) (s : State) : (setS r x s).inputs = s.inputs := by unfold setS; split <;> rfl
@[simp] theorem setS_softErrors (r : Reg) (x : Word) (s : State) : (setS r x s).softErrors = s.softErrors := by unfold setS; split <;> rfl
@[simp] theorem setS_struck (r : Reg) (x : Word) (s : State) : (setS r x s).struck = s.struck := by unfold setS; split <;> rfl
@[simp] theorem setS_ctxs (r : Reg) (x : Word) (s : State) : (setS r x s).ctxs = s.ctxs := by unfold setS; split <;> rfl
@[simp] theorem setS_patchv (r : Reg) (x : Word) (s : State) : (setS r x s).patchv = s.patchv := by unfold setS; split <;> rfl
@[simp] theorem setS_insts (r : Reg) (x : Word) (s : State) : (setS r x s).insts = s.insts := by unfold setS; split <;> rfl
@[simp] theorem setS_launches (r : Reg) (x : Word) (s : State) : (setS r x s).launches = s.launches := by unfold setS; split <;> rfl
@[simp] theorem setS_moves (r : Reg) (x : Word) (s : State) : (setS r x s).moves = s.moves := by unfold setS; split <;> rfl
@[simp] theorem setS_faultReports (r : Reg) (x : Word) (s : State) : (setS r x s).faultReports = s.faultReports := by unfold setS; split <;> rfl
@[simp] theorem setS_reports (r : Reg) (x : Word) (s : State) : (setS r x s).reports = s.reports := by unfold setS; split <;> rfl
@[simp] theorem setS_freeAgents (r : Reg) (x : Word) (s : State) : (setS r x s).freeAgents = s.freeAgents := by unfold setS; split <;> rfl
@[simp] theorem setS_teffs (r : Reg) (x : Word) (s : State) : (setS r x s).teffs = s.teffs := by unfold setS; split <;> rfl
@[simp] theorem setS_asidGen (r : Reg) (x : Word) (s : State) : (setS r x s).asidGen = s.asidGen := by unfold setS; split <;> rfl
@[simp] theorem setS_stores (r : Reg) (x : Word) (s : State) : (setS r x s).stores = s.stores := by unfold setS; split <;> rfl
@[simp] theorem setS_net (r : Reg) (x : Word) (s : State) : (setS r x s).net = s.net := by unfold setS; split <;> rfl
@[simp] theorem setS_msgs (r : Reg) (x : Word) (s : State) : (setS r x s).msgs = s.msgs := by unfold setS; split <;> rfl
@[simp] theorem setS_farOut (r : Reg) (x : Word) (s : State) : (setS r x s).farOut = s.farOut := by unfold setS; split <;> rfl
@[simp] theorem setS_cfg (r : Reg) (x : Word) (s : State) : (setS r x s).cfg = s.cfg := by unfold setS; split <;> rfl
@[simp] theorem setS_boot (r : Reg) (x : Word) (s : State) : (setS r x s).boot = s.boot := by unfold setS; split <;> rfl
@[simp] theorem setS_mailbox (r : Reg) (x : Word) (s : State) : (setS r x s).mailbox = s.mailbox := by unfold setS; split <;> rfl
@[simp] theorem setS_hostOut (r : Reg) (x : Word) (s : State) : (setS r x s).hostOut = s.hostOut := by unfold setS; split <;> rfl
@[simp] theorem setS_pendingOut (r : Reg) (x : Word) (s : State) : (setS r x s).pendingOut = s.pendingOut := by unfold setS; split <;> rfl
@[simp] theorem setS_fabric (r : Reg) (x : Word) (s : State) : (setS r x s).fabric = s.fabric := by unfold setS; split <;> rfl
@[simp] theorem setS_power (r : Reg) (x : Word) (s : State) : (setS r x s).power = s.power := by unfold setS; split <;> rfl
@[simp] theorem setS_hbmErr (r : Reg) (x : Word) (s : State) : (setS r x s).hbmErr = s.hbmErr := by unfold setS; split <;> rfl
@[simp] theorem setS_evacuated (r : Reg) (x : Word) (s : State) : (setS r x s).evacuated = s.evacuated := by unfold setS; split <;> rfl
@[simp] theorem setS_pendingIn (r : Reg) (x : Word) (s : State) : (setS r x s).pendingIn = s.pendingIn := by unfold setS; split <;> rfl
@[simp] theorem setS_farWait (r : Reg) (x : Word) (s : State) : (setS r x s).farWait = s.farWait := by unfold setS; split <;> rfl
@[simp] theorem setS_farWrote (r : Reg) (x : Word) (s : State) : (setS r x s).farWrote = s.farWrote := by unfold setS; split <;> rfl
@[simp] theorem setS_ag_place (r : Reg) (x : Word) (s : State) : (setS r x s).ag.place = s.ag.place := by unfold setS; split <;> rfl
@[simp] theorem setS_ag_num (r : Reg) (x : Word) (s : State) : (setS r x s).ag.num = s.ag.num := by unfold setS; split <;> rfl
@[simp] theorem setS_ag_aid (r : Reg) (x : Word) (s : State) : (setS r x s).ag.aid = s.ag.aid := by unfold setS; split <;> rfl
@[simp] theorem setS_ag_ctx (r : Reg) (x : Word) (s : State) : (setS r x s).ag.ctx = s.ag.ctx := by unfold setS; split <;> rfl
@[simp] theorem setS_ag_inst (r : Reg) (x : Word) (s : State) : (setS r x s).ag.inst = s.ag.inst := by unfold setS; split <;> rfl
@[simp] theorem setS_ag_run (r : Reg) (x : Word) (s : State) : (setS r x s).ag.run = s.ag.run := by unfold setS; split <;> rfl
@[simp] theorem setS_ag_lastIssue (r : Reg) (x : Word) (s : State) : (setS r x s).ag.lastIssue = s.ag.lastIssue := by unfold setS; split <;> rfl
@[simp] theorem setS_ag_inhand (r : Reg) (x : Word) (s : State) : (setS r x s).ag.inhand = s.ag.inhand := by unfold setS; split <;> rfl
@[simp] theorem setS_ag_begun (r : Reg) (x : Word) (s : State) : (setS r x s).ag.begun = s.ag.begun := by unfold setS; split <;> rfl
@[simp] theorem setS_ag_farSeen (r : Reg) (x : Word) (s : State) : (setS r x s).ag.farSeen = s.ag.farSeen := by unfold setS; split <;> rfl
@[simp] theorem setS_ag_farDirty (r : Reg) (x : Word) (s : State) : (setS r x s).ag.farDirty = s.ag.farDirty := by unfold setS; split <;> rfl
@[simp] theorem setS_ag_v (r : Reg) (x : Word) (s : State) : (setS r x s).ag.v = s.ag.v := by unfold setS; split <;> rfl
@[simp] theorem setS_ag_vtag (r : Reg) (x : Word) (s : State) : (setS r x s).ag.vtag = s.ag.vtag := by unfold setS; split <;> rfl
@[simp] theorem setS_ag_p (r : Reg) (x : Word) (s : State) : (setS r x s).ag.p = s.ag.p := by unfold setS; split <;> rfl
@[simp] theorem setS_ag_t (r : Reg) (x : Word) (s : State) : (setS r x s).ag.t = s.ag.t := by unfold setS; split <;> rfl
@[simp] theorem setS_ag_timg (r : Reg) (x : Word) (s : State) : (setS r x s).ag.timg = s.ag.timg := by unfold setS; split <;> rfl
@[simp] theorem setS_ag_trest (r : Reg) (x : Word) (s : State) : (setS r x s).ag.trest = s.ag.trest := by unfold setS; split <;> rfl
@[simp] theorem setS_ag_tmma (r : Reg) (x : Word) (s : State) : (setS r x s).ag.tmma = s.ag.tmma := by unfold setS; split <;> rfl
@[simp] theorem setS_ag_pc (r : Reg) (x : Word) (s : State) : (setS r x s).ag.pc = s.ag.pc := by unfold setS; split <;> rfl
@[simp] theorem setS_ag_status (r : Reg) (x : Word) (s : State) : (setS r x s).ag.status = s.ag.status := by unfold setS; split <;> rfl
@[simp] theorem setS_ag_tshape (r : Reg) (x : Word) (s : State) : (setS r x s).ag.tshape = s.ag.tshape := by unfold setS; split <;> rfl
@[simp] theorem setS_ag_tdirty (r : Reg) (x : Word) (s : State) : (setS r x s).ag.tdirty = s.ag.tdirty := by unfold setS; split <;> rfl
@[simp] theorem setS_ag_groupid (r : Reg) (x : Word) (s : State) : (setS r x s).ag.groupid = s.ag.groupid := by unfold setS; split <;> rfl
@[simp] theorem setS_ag_trapc (r : Reg) (x : Word) (s : State) : (setS r x s).ag.trapc = s.ag.trapc := by unfold setS; split <;> rfl
@[simp] theorem setS_ag_trappc (r : Reg) (x : Word) (s : State) : (setS r x s).ag.trappc = s.ag.trappc := by unfold setS; split <;> rfl
@[simp] theorem setS_ag_trapa (r : Reg) (x : Word) (s : State) : (setS r x s).ag.trapa = s.ag.trapa := by unfold setS; split <;> rfl
@[simp] theorem setS_ag_trapseq (r : Reg) (x : Word) (s : State) : (setS r x s).ag.trapseq = s.ag.trapseq := by unfold setS; split <;> rfl
@[simp] theorem setS_ag_trapvec (r : Reg) (x : Word) (s : State) : (setS r x s).ag.trapvec = s.ag.trapvec := by unfold setS; split <;> rfl
@[simp] theorem setS_ag_outreq (r : Reg) (x : Word) (s : State) : (setS r x s).ag.outreq = s.ag.outreq := by unfold setS; split <;> rfl
@[simp] theorem setS_ag_phasen (r : Reg) (x : Word) (s : State) : (setS r x s).ag.phasen = s.ag.phasen := by unfold setS; split <;> rfl
@[simp] theorem setS_ag_rngkey (r : Reg) (x : Word) (s : State) : (setS r x s).ag.rngkey = s.ag.rngkey := by unfold setS; split <;> rfl
@[simp] theorem setS_ag_handler (r : Reg) (x : Word) (s : State) : (setS r x s).ag.handler = s.ag.handler := by unfold setS; split <;> rfl
@[simp] theorem setS_ag_late (r : Reg) (x : Word) (s : State) : (setS r x s).ag.late = s.ag.late := by unfold setS; split <;> rfl
@[simp] theorem setS_ag_reqseq (r : Reg) (x : Word) (s : State) : (setS r x s).ag.reqseq = s.ag.reqseq := by unfold setS; split <;> rfl
@[simp] theorem setS_ag_tokens (r : Reg) (x : Word) (s : State) : (setS r x s).ag.tokens = s.ag.tokens := by unfold setS; split <;> rfl
@[simp] theorem setS_ag_wake (r : Reg) (x : Word) (s : State) : (setS r x s).ag.wake = s.ag.wake := by unfold setS; split <;> rfl
@[simp] theorem setS_ag_waitAt (r : Reg) (x : Word) (s : State) : (setS r x s).ag.waitAt = s.ag.waitAt := by unfold setS; split <;> rfl
@[simp] theorem setS_ag_hrec (r : Reg) (x : Word) (s : State) : (setS r x s).ag.hrec = s.ag.hrec := by unfold setS; split <;> rfl
@[simp] theorem setS_ag_young (r : Reg) (x : Word) (s : State) : (setS r x s).ag.young = s.ag.young := by unfold setS; split <;> rfl
@[simp] theorem setS_ag_view (r : Reg) (x : Word) (s : State) : (setS r x s).ag.view = s.ag.view := by unfold setS; split <;> rfl
@[simp] theorem setS_ag_posted (r : Reg) (x : Word) (s : State) : (setS r x s).ag.posted = s.ag.posted := by unfold setS; split <;> rfl
@[simp] theorem setS_ag_written (r : Reg) (x : Word) (s : State) : (setS r x s).ag.written = s.ag.written := by unfold setS; split <;> rfl
@[simp] theorem setS_ag_cmdKeys (r : Reg) (x : Word) (s : State) : (setS r x s).ag.cmdKeys = s.ag.cmdKeys := by unfold setS; split <;> rfl
@[simp] theorem setS_ag_incoming (r : Reg) (x : Word) (s : State) : (setS r x s).ag.incoming = s.ag.incoming := by unfold setS; split <;> rfl
@[simp] theorem setS_ag_redirects (r : Reg) (x : Word) (s : State) : (setS r x s).ag.redirects = s.ag.redirects := by unfold setS; split <;> rfl
@[simp] theorem setS_ag_ns (r : Reg) (x : Word) (s : State) : (setS r x s).ag.ns = s.ag.ns := by unfold setS; split <;> rfl
@[simp] theorem setS_ag_nv (r : Reg) (x : Word) (s : State) : (setS r x s).ag.nv = s.ag.nv := by unfold setS; split <;> rfl
@[simp] theorem setS_ag_np (r : Reg) (x : Word) (s : State) : (setS r x s).ag.np = s.ag.np := by unfold setS; split <;> rfl
@[simp] theorem setS_ag_nt (r : Reg) (x : Word) (s : State) : (setS r x s).ag.nt = s.ag.nt := by unfold setS; split <;> rfl

/-! ## setV -/

@[simp] theorem setV_core (r : Reg) (x : Block) (t : Tag) (s : State) : (setV r x t s).core = s.core := rfl
@[simp] theorem setV_agents (r : Reg) (x : Block) (t : Tag) (s : State) : (setV r x t s).agents = s.agents := rfl
@[simp] theorem setV_cores (r : Reg) (x : Block) (t : Tag) (s : State) : (setV r x t s).cores = s.cores := rfl
@[simp] theorem setV_mem (r : Reg) (x : Block) (t : Tag) (s : State) : (setV r x t s).mem = s.mem := rfl
@[simp] theorem setV_cycle (r : Reg) (x : Block) (t : Tag) (s : State) : (setV r x t s).cycle = s.cycle := rfl
@[simp] theorem setV_draws (r : Reg) (x : Block) (t : Tag) (s : State) : (setV r x t s).draws = s.draws := rfl
@[simp] theorem setV_inputs (r : Reg) (x : Block) (t : Tag) (s : State) : (setV r x t s).inputs = s.inputs := rfl
@[simp] theorem setV_softErrors (r : Reg) (x : Block) (t : Tag) (s : State) : (setV r x t s).softErrors = s.softErrors := rfl
@[simp] theorem setV_struck (r : Reg) (x : Block) (t : Tag) (s : State) : (setV r x t s).struck = s.struck := rfl
@[simp] theorem setV_ctxs (r : Reg) (x : Block) (t : Tag) (s : State) : (setV r x t s).ctxs = s.ctxs := rfl
@[simp] theorem setV_patchv (r : Reg) (x : Block) (t : Tag) (s : State) : (setV r x t s).patchv = s.patchv := rfl
@[simp] theorem setV_insts (r : Reg) (x : Block) (t : Tag) (s : State) : (setV r x t s).insts = s.insts := rfl
@[simp] theorem setV_launches (r : Reg) (x : Block) (t : Tag) (s : State) : (setV r x t s).launches = s.launches := rfl
@[simp] theorem setV_moves (r : Reg) (x : Block) (t : Tag) (s : State) : (setV r x t s).moves = s.moves := rfl
@[simp] theorem setV_faultReports (r : Reg) (x : Block) (t : Tag) (s : State) : (setV r x t s).faultReports = s.faultReports := rfl
@[simp] theorem setV_reports (r : Reg) (x : Block) (t : Tag) (s : State) : (setV r x t s).reports = s.reports := rfl
@[simp] theorem setV_freeAgents (r : Reg) (x : Block) (t : Tag) (s : State) : (setV r x t s).freeAgents = s.freeAgents := rfl
@[simp] theorem setV_teffs (r : Reg) (x : Block) (t : Tag) (s : State) : (setV r x t s).teffs = s.teffs := rfl
@[simp] theorem setV_asidGen (r : Reg) (x : Block) (t : Tag) (s : State) : (setV r x t s).asidGen = s.asidGen := rfl
@[simp] theorem setV_stores (r : Reg) (x : Block) (t : Tag) (s : State) : (setV r x t s).stores = s.stores := rfl
@[simp] theorem setV_net (r : Reg) (x : Block) (t : Tag) (s : State) : (setV r x t s).net = s.net := rfl
@[simp] theorem setV_msgs (r : Reg) (x : Block) (t : Tag) (s : State) : (setV r x t s).msgs = s.msgs := rfl
@[simp] theorem setV_farOut (r : Reg) (x : Block) (t : Tag) (s : State) : (setV r x t s).farOut = s.farOut := rfl
@[simp] theorem setV_cfg (r : Reg) (x : Block) (t : Tag) (s : State) : (setV r x t s).cfg = s.cfg := rfl
@[simp] theorem setV_boot (r : Reg) (x : Block) (t : Tag) (s : State) : (setV r x t s).boot = s.boot := rfl
@[simp] theorem setV_mailbox (r : Reg) (x : Block) (t : Tag) (s : State) : (setV r x t s).mailbox = s.mailbox := rfl
@[simp] theorem setV_hostOut (r : Reg) (x : Block) (t : Tag) (s : State) : (setV r x t s).hostOut = s.hostOut := rfl
@[simp] theorem setV_pendingOut (r : Reg) (x : Block) (t : Tag) (s : State) : (setV r x t s).pendingOut = s.pendingOut := rfl
@[simp] theorem setV_fabric (r : Reg) (x : Block) (t : Tag) (s : State) : (setV r x t s).fabric = s.fabric := rfl
@[simp] theorem setV_power (r : Reg) (x : Block) (t : Tag) (s : State) : (setV r x t s).power = s.power := rfl
@[simp] theorem setV_hbmErr (r : Reg) (x : Block) (t : Tag) (s : State) : (setV r x t s).hbmErr = s.hbmErr := rfl
@[simp] theorem setV_evacuated (r : Reg) (x : Block) (t : Tag) (s : State) : (setV r x t s).evacuated = s.evacuated := rfl
@[simp] theorem setV_pendingIn (r : Reg) (x : Block) (t : Tag) (s : State) : (setV r x t s).pendingIn = s.pendingIn := rfl
@[simp] theorem setV_farWait (r : Reg) (x : Block) (t : Tag) (s : State) : (setV r x t s).farWait = s.farWait := rfl
@[simp] theorem setV_farWrote (r : Reg) (x : Block) (t : Tag) (s : State) : (setV r x t s).farWrote = s.farWrote := rfl
@[simp] theorem setV_ag_place (r : Reg) (x : Block) (t : Tag) (s : State) : (setV r x t s).ag.place = s.ag.place := rfl
@[simp] theorem setV_ag_num (r : Reg) (x : Block) (t : Tag) (s : State) : (setV r x t s).ag.num = s.ag.num := rfl
@[simp] theorem setV_ag_aid (r : Reg) (x : Block) (t : Tag) (s : State) : (setV r x t s).ag.aid = s.ag.aid := rfl
@[simp] theorem setV_ag_ctx (r : Reg) (x : Block) (t : Tag) (s : State) : (setV r x t s).ag.ctx = s.ag.ctx := rfl
@[simp] theorem setV_ag_inst (r : Reg) (x : Block) (t : Tag) (s : State) : (setV r x t s).ag.inst = s.ag.inst := rfl
@[simp] theorem setV_ag_run (r : Reg) (x : Block) (t : Tag) (s : State) : (setV r x t s).ag.run = s.ag.run := rfl
@[simp] theorem setV_ag_lastIssue (r : Reg) (x : Block) (t : Tag) (s : State) : (setV r x t s).ag.lastIssue = s.ag.lastIssue := rfl
@[simp] theorem setV_ag_inhand (r : Reg) (x : Block) (t : Tag) (s : State) : (setV r x t s).ag.inhand = s.ag.inhand := rfl
@[simp] theorem setV_ag_begun (r : Reg) (x : Block) (t : Tag) (s : State) : (setV r x t s).ag.begun = s.ag.begun := rfl
@[simp] theorem setV_ag_farSeen (r : Reg) (x : Block) (t : Tag) (s : State) : (setV r x t s).ag.farSeen = s.ag.farSeen := rfl
@[simp] theorem setV_ag_farDirty (r : Reg) (x : Block) (t : Tag) (s : State) : (setV r x t s).ag.farDirty = s.ag.farDirty := rfl
@[simp] theorem setV_ag_s (r : Reg) (x : Block) (t : Tag) (s : State) : (setV r x t s).ag.s = s.ag.s := rfl
@[simp] theorem setV_ag_p (r : Reg) (x : Block) (t : Tag) (s : State) : (setV r x t s).ag.p = s.ag.p := rfl
@[simp] theorem setV_ag_t (r : Reg) (x : Block) (t : Tag) (s : State) : (setV r x t s).ag.t = s.ag.t := rfl
@[simp] theorem setV_ag_timg (r : Reg) (x : Block) (t : Tag) (s : State) : (setV r x t s).ag.timg = s.ag.timg := rfl
@[simp] theorem setV_ag_trest (r : Reg) (x : Block) (t : Tag) (s : State) : (setV r x t s).ag.trest = s.ag.trest := rfl
@[simp] theorem setV_ag_tmma (r : Reg) (x : Block) (t : Tag) (s : State) : (setV r x t s).ag.tmma = s.ag.tmma := rfl
@[simp] theorem setV_ag_pc (r : Reg) (x : Block) (t : Tag) (s : State) : (setV r x t s).ag.pc = s.ag.pc := rfl
@[simp] theorem setV_ag_status (r : Reg) (x : Block) (t : Tag) (s : State) : (setV r x t s).ag.status = s.ag.status := rfl
@[simp] theorem setV_ag_tshape (r : Reg) (x : Block) (t : Tag) (s : State) : (setV r x t s).ag.tshape = s.ag.tshape := rfl
@[simp] theorem setV_ag_tdirty (r : Reg) (x : Block) (t : Tag) (s : State) : (setV r x t s).ag.tdirty = s.ag.tdirty := rfl
@[simp] theorem setV_ag_groupid (r : Reg) (x : Block) (t : Tag) (s : State) : (setV r x t s).ag.groupid = s.ag.groupid := rfl
@[simp] theorem setV_ag_trapc (r : Reg) (x : Block) (t : Tag) (s : State) : (setV r x t s).ag.trapc = s.ag.trapc := rfl
@[simp] theorem setV_ag_trappc (r : Reg) (x : Block) (t : Tag) (s : State) : (setV r x t s).ag.trappc = s.ag.trappc := rfl
@[simp] theorem setV_ag_trapa (r : Reg) (x : Block) (t : Tag) (s : State) : (setV r x t s).ag.trapa = s.ag.trapa := rfl
@[simp] theorem setV_ag_trapseq (r : Reg) (x : Block) (t : Tag) (s : State) : (setV r x t s).ag.trapseq = s.ag.trapseq := rfl
@[simp] theorem setV_ag_trapvec (r : Reg) (x : Block) (t : Tag) (s : State) : (setV r x t s).ag.trapvec = s.ag.trapvec := rfl
@[simp] theorem setV_ag_outreq (r : Reg) (x : Block) (t : Tag) (s : State) : (setV r x t s).ag.outreq = s.ag.outreq := rfl
@[simp] theorem setV_ag_phasen (r : Reg) (x : Block) (t : Tag) (s : State) : (setV r x t s).ag.phasen = s.ag.phasen := rfl
@[simp] theorem setV_ag_rngkey (r : Reg) (x : Block) (t : Tag) (s : State) : (setV r x t s).ag.rngkey = s.ag.rngkey := rfl
@[simp] theorem setV_ag_handler (r : Reg) (x : Block) (t : Tag) (s : State) : (setV r x t s).ag.handler = s.ag.handler := rfl
@[simp] theorem setV_ag_late (r : Reg) (x : Block) (t : Tag) (s : State) : (setV r x t s).ag.late = s.ag.late := rfl
@[simp] theorem setV_ag_reqseq (r : Reg) (x : Block) (t : Tag) (s : State) : (setV r x t s).ag.reqseq = s.ag.reqseq := rfl
@[simp] theorem setV_ag_tokens (r : Reg) (x : Block) (t : Tag) (s : State) : (setV r x t s).ag.tokens = s.ag.tokens := rfl
@[simp] theorem setV_ag_wake (r : Reg) (x : Block) (t : Tag) (s : State) : (setV r x t s).ag.wake = s.ag.wake := rfl
@[simp] theorem setV_ag_waitAt (r : Reg) (x : Block) (t : Tag) (s : State) : (setV r x t s).ag.waitAt = s.ag.waitAt := rfl
@[simp] theorem setV_ag_hrec (r : Reg) (x : Block) (t : Tag) (s : State) : (setV r x t s).ag.hrec = s.ag.hrec := rfl
@[simp] theorem setV_ag_young (r : Reg) (x : Block) (t : Tag) (s : State) : (setV r x t s).ag.young = s.ag.young := rfl
@[simp] theorem setV_ag_view (r : Reg) (x : Block) (t : Tag) (s : State) : (setV r x t s).ag.view = s.ag.view := rfl
@[simp] theorem setV_ag_posted (r : Reg) (x : Block) (t : Tag) (s : State) : (setV r x t s).ag.posted = s.ag.posted := rfl
@[simp] theorem setV_ag_written (r : Reg) (x : Block) (t : Tag) (s : State) : (setV r x t s).ag.written = s.ag.written := rfl
@[simp] theorem setV_ag_cmdKeys (r : Reg) (x : Block) (t : Tag) (s : State) : (setV r x t s).ag.cmdKeys = s.ag.cmdKeys := rfl
@[simp] theorem setV_ag_incoming (r : Reg) (x : Block) (t : Tag) (s : State) : (setV r x t s).ag.incoming = s.ag.incoming := rfl
@[simp] theorem setV_ag_redirects (r : Reg) (x : Block) (t : Tag) (s : State) : (setV r x t s).ag.redirects = s.ag.redirects := rfl
@[simp] theorem setV_ag_ns (r : Reg) (x : Block) (t : Tag) (s : State) : (setV r x t s).ag.ns = s.ag.ns := rfl
@[simp] theorem setV_ag_nv (r : Reg) (x : Block) (t : Tag) (s : State) : (setV r x t s).ag.nv = s.ag.nv := rfl
@[simp] theorem setV_ag_np (r : Reg) (x : Block) (t : Tag) (s : State) : (setV r x t s).ag.np = s.ag.np := rfl
@[simp] theorem setV_ag_nt (r : Reg) (x : Block) (t : Tag) (s : State) : (setV r x t s).ag.nt = s.ag.nt := rfl

/-! ## setP -/

@[simp] theorem setP_core (k : Nat) (x : Word) (s : State) : (setP k x s).core = s.core := by unfold setP; split <;> rfl
@[simp] theorem setP_agents (k : Nat) (x : Word) (s : State) : (setP k x s).agents = s.agents := by unfold setP; split <;> rfl
@[simp] theorem setP_cores (k : Nat) (x : Word) (s : State) : (setP k x s).cores = s.cores := by unfold setP; split <;> rfl
@[simp] theorem setP_mem (k : Nat) (x : Word) (s : State) : (setP k x s).mem = s.mem := by unfold setP; split <;> rfl
@[simp] theorem setP_cycle (k : Nat) (x : Word) (s : State) : (setP k x s).cycle = s.cycle := by unfold setP; split <;> rfl
@[simp] theorem setP_draws (k : Nat) (x : Word) (s : State) : (setP k x s).draws = s.draws := by unfold setP; split <;> rfl
@[simp] theorem setP_inputs (k : Nat) (x : Word) (s : State) : (setP k x s).inputs = s.inputs := by unfold setP; split <;> rfl
@[simp] theorem setP_softErrors (k : Nat) (x : Word) (s : State) : (setP k x s).softErrors = s.softErrors := by unfold setP; split <;> rfl
@[simp] theorem setP_struck (k : Nat) (x : Word) (s : State) : (setP k x s).struck = s.struck := by unfold setP; split <;> rfl
@[simp] theorem setP_ctxs (k : Nat) (x : Word) (s : State) : (setP k x s).ctxs = s.ctxs := by unfold setP; split <;> rfl
@[simp] theorem setP_patchv (k : Nat) (x : Word) (s : State) : (setP k x s).patchv = s.patchv := by unfold setP; split <;> rfl
@[simp] theorem setP_insts (k : Nat) (x : Word) (s : State) : (setP k x s).insts = s.insts := by unfold setP; split <;> rfl
@[simp] theorem setP_launches (k : Nat) (x : Word) (s : State) : (setP k x s).launches = s.launches := by unfold setP; split <;> rfl
@[simp] theorem setP_moves (k : Nat) (x : Word) (s : State) : (setP k x s).moves = s.moves := by unfold setP; split <;> rfl
@[simp] theorem setP_faultReports (k : Nat) (x : Word) (s : State) : (setP k x s).faultReports = s.faultReports := by unfold setP; split <;> rfl
@[simp] theorem setP_reports (k : Nat) (x : Word) (s : State) : (setP k x s).reports = s.reports := by unfold setP; split <;> rfl
@[simp] theorem setP_freeAgents (k : Nat) (x : Word) (s : State) : (setP k x s).freeAgents = s.freeAgents := by unfold setP; split <;> rfl
@[simp] theorem setP_teffs (k : Nat) (x : Word) (s : State) : (setP k x s).teffs = s.teffs := by unfold setP; split <;> rfl
@[simp] theorem setP_asidGen (k : Nat) (x : Word) (s : State) : (setP k x s).asidGen = s.asidGen := by unfold setP; split <;> rfl
@[simp] theorem setP_stores (k : Nat) (x : Word) (s : State) : (setP k x s).stores = s.stores := by unfold setP; split <;> rfl
@[simp] theorem setP_net (k : Nat) (x : Word) (s : State) : (setP k x s).net = s.net := by unfold setP; split <;> rfl
@[simp] theorem setP_msgs (k : Nat) (x : Word) (s : State) : (setP k x s).msgs = s.msgs := by unfold setP; split <;> rfl
@[simp] theorem setP_farOut (k : Nat) (x : Word) (s : State) : (setP k x s).farOut = s.farOut := by unfold setP; split <;> rfl
@[simp] theorem setP_cfg (k : Nat) (x : Word) (s : State) : (setP k x s).cfg = s.cfg := by unfold setP; split <;> rfl
@[simp] theorem setP_boot (k : Nat) (x : Word) (s : State) : (setP k x s).boot = s.boot := by unfold setP; split <;> rfl
@[simp] theorem setP_mailbox (k : Nat) (x : Word) (s : State) : (setP k x s).mailbox = s.mailbox := by unfold setP; split <;> rfl
@[simp] theorem setP_hostOut (k : Nat) (x : Word) (s : State) : (setP k x s).hostOut = s.hostOut := by unfold setP; split <;> rfl
@[simp] theorem setP_pendingOut (k : Nat) (x : Word) (s : State) : (setP k x s).pendingOut = s.pendingOut := by unfold setP; split <;> rfl
@[simp] theorem setP_fabric (k : Nat) (x : Word) (s : State) : (setP k x s).fabric = s.fabric := by unfold setP; split <;> rfl
@[simp] theorem setP_power (k : Nat) (x : Word) (s : State) : (setP k x s).power = s.power := by unfold setP; split <;> rfl
@[simp] theorem setP_hbmErr (k : Nat) (x : Word) (s : State) : (setP k x s).hbmErr = s.hbmErr := by unfold setP; split <;> rfl
@[simp] theorem setP_evacuated (k : Nat) (x : Word) (s : State) : (setP k x s).evacuated = s.evacuated := by unfold setP; split <;> rfl
@[simp] theorem setP_pendingIn (k : Nat) (x : Word) (s : State) : (setP k x s).pendingIn = s.pendingIn := by unfold setP; split <;> rfl
@[simp] theorem setP_farWait (k : Nat) (x : Word) (s : State) : (setP k x s).farWait = s.farWait := by unfold setP; split <;> rfl
@[simp] theorem setP_farWrote (k : Nat) (x : Word) (s : State) : (setP k x s).farWrote = s.farWrote := by unfold setP; split <;> rfl
@[simp] theorem setP_ag_place (k : Nat) (x : Word) (s : State) : (setP k x s).ag.place = s.ag.place := by unfold setP; split <;> rfl
@[simp] theorem setP_ag_num (k : Nat) (x : Word) (s : State) : (setP k x s).ag.num = s.ag.num := by unfold setP; split <;> rfl
@[simp] theorem setP_ag_aid (k : Nat) (x : Word) (s : State) : (setP k x s).ag.aid = s.ag.aid := by unfold setP; split <;> rfl
@[simp] theorem setP_ag_ctx (k : Nat) (x : Word) (s : State) : (setP k x s).ag.ctx = s.ag.ctx := by unfold setP; split <;> rfl
@[simp] theorem setP_ag_inst (k : Nat) (x : Word) (s : State) : (setP k x s).ag.inst = s.ag.inst := by unfold setP; split <;> rfl
@[simp] theorem setP_ag_run (k : Nat) (x : Word) (s : State) : (setP k x s).ag.run = s.ag.run := by unfold setP; split <;> rfl
@[simp] theorem setP_ag_lastIssue (k : Nat) (x : Word) (s : State) : (setP k x s).ag.lastIssue = s.ag.lastIssue := by unfold setP; split <;> rfl
@[simp] theorem setP_ag_inhand (k : Nat) (x : Word) (s : State) : (setP k x s).ag.inhand = s.ag.inhand := by unfold setP; split <;> rfl
@[simp] theorem setP_ag_begun (k : Nat) (x : Word) (s : State) : (setP k x s).ag.begun = s.ag.begun := by unfold setP; split <;> rfl
@[simp] theorem setP_ag_farSeen (k : Nat) (x : Word) (s : State) : (setP k x s).ag.farSeen = s.ag.farSeen := by unfold setP; split <;> rfl
@[simp] theorem setP_ag_farDirty (k : Nat) (x : Word) (s : State) : (setP k x s).ag.farDirty = s.ag.farDirty := by unfold setP; split <;> rfl
@[simp] theorem setP_ag_s (k : Nat) (x : Word) (s : State) : (setP k x s).ag.s = s.ag.s := by unfold setP; split <;> rfl
@[simp] theorem setP_ag_v (k : Nat) (x : Word) (s : State) : (setP k x s).ag.v = s.ag.v := by unfold setP; split <;> rfl
@[simp] theorem setP_ag_vtag (k : Nat) (x : Word) (s : State) : (setP k x s).ag.vtag = s.ag.vtag := by unfold setP; split <;> rfl
@[simp] theorem setP_ag_t (k : Nat) (x : Word) (s : State) : (setP k x s).ag.t = s.ag.t := by unfold setP; split <;> rfl
@[simp] theorem setP_ag_timg (k : Nat) (x : Word) (s : State) : (setP k x s).ag.timg = s.ag.timg := by unfold setP; split <;> rfl
@[simp] theorem setP_ag_trest (k : Nat) (x : Word) (s : State) : (setP k x s).ag.trest = s.ag.trest := by unfold setP; split <;> rfl
@[simp] theorem setP_ag_tmma (k : Nat) (x : Word) (s : State) : (setP k x s).ag.tmma = s.ag.tmma := by unfold setP; split <;> rfl
@[simp] theorem setP_ag_pc (k : Nat) (x : Word) (s : State) : (setP k x s).ag.pc = s.ag.pc := by unfold setP; split <;> rfl
@[simp] theorem setP_ag_status (k : Nat) (x : Word) (s : State) : (setP k x s).ag.status = s.ag.status := by unfold setP; split <;> rfl
@[simp] theorem setP_ag_tshape (k : Nat) (x : Word) (s : State) : (setP k x s).ag.tshape = s.ag.tshape := by unfold setP; split <;> rfl
@[simp] theorem setP_ag_tdirty (k : Nat) (x : Word) (s : State) : (setP k x s).ag.tdirty = s.ag.tdirty := by unfold setP; split <;> rfl
@[simp] theorem setP_ag_groupid (k : Nat) (x : Word) (s : State) : (setP k x s).ag.groupid = s.ag.groupid := by unfold setP; split <;> rfl
@[simp] theorem setP_ag_trapc (k : Nat) (x : Word) (s : State) : (setP k x s).ag.trapc = s.ag.trapc := by unfold setP; split <;> rfl
@[simp] theorem setP_ag_trappc (k : Nat) (x : Word) (s : State) : (setP k x s).ag.trappc = s.ag.trappc := by unfold setP; split <;> rfl
@[simp] theorem setP_ag_trapa (k : Nat) (x : Word) (s : State) : (setP k x s).ag.trapa = s.ag.trapa := by unfold setP; split <;> rfl
@[simp] theorem setP_ag_trapseq (k : Nat) (x : Word) (s : State) : (setP k x s).ag.trapseq = s.ag.trapseq := by unfold setP; split <;> rfl
@[simp] theorem setP_ag_trapvec (k : Nat) (x : Word) (s : State) : (setP k x s).ag.trapvec = s.ag.trapvec := by unfold setP; split <;> rfl
@[simp] theorem setP_ag_outreq (k : Nat) (x : Word) (s : State) : (setP k x s).ag.outreq = s.ag.outreq := by unfold setP; split <;> rfl
@[simp] theorem setP_ag_phasen (k : Nat) (x : Word) (s : State) : (setP k x s).ag.phasen = s.ag.phasen := by unfold setP; split <;> rfl
@[simp] theorem setP_ag_rngkey (k : Nat) (x : Word) (s : State) : (setP k x s).ag.rngkey = s.ag.rngkey := by unfold setP; split <;> rfl
@[simp] theorem setP_ag_handler (k : Nat) (x : Word) (s : State) : (setP k x s).ag.handler = s.ag.handler := by unfold setP; split <;> rfl
@[simp] theorem setP_ag_late (k : Nat) (x : Word) (s : State) : (setP k x s).ag.late = s.ag.late := by unfold setP; split <;> rfl
@[simp] theorem setP_ag_reqseq (k : Nat) (x : Word) (s : State) : (setP k x s).ag.reqseq = s.ag.reqseq := by unfold setP; split <;> rfl
@[simp] theorem setP_ag_tokens (k : Nat) (x : Word) (s : State) : (setP k x s).ag.tokens = s.ag.tokens := by unfold setP; split <;> rfl
@[simp] theorem setP_ag_wake (k : Nat) (x : Word) (s : State) : (setP k x s).ag.wake = s.ag.wake := by unfold setP; split <;> rfl
@[simp] theorem setP_ag_waitAt (k : Nat) (x : Word) (s : State) : (setP k x s).ag.waitAt = s.ag.waitAt := by unfold setP; split <;> rfl
@[simp] theorem setP_ag_hrec (k : Nat) (x : Word) (s : State) : (setP k x s).ag.hrec = s.ag.hrec := by unfold setP; split <;> rfl
@[simp] theorem setP_ag_young (k : Nat) (x : Word) (s : State) : (setP k x s).ag.young = s.ag.young := by unfold setP; split <;> rfl
@[simp] theorem setP_ag_view (k : Nat) (x : Word) (s : State) : (setP k x s).ag.view = s.ag.view := by unfold setP; split <;> rfl
@[simp] theorem setP_ag_posted (k : Nat) (x : Word) (s : State) : (setP k x s).ag.posted = s.ag.posted := by unfold setP; split <;> rfl
@[simp] theorem setP_ag_written (k : Nat) (x : Word) (s : State) : (setP k x s).ag.written = s.ag.written := by unfold setP; split <;> rfl
@[simp] theorem setP_ag_cmdKeys (k : Nat) (x : Word) (s : State) : (setP k x s).ag.cmdKeys = s.ag.cmdKeys := by unfold setP; split <;> rfl
@[simp] theorem setP_ag_incoming (k : Nat) (x : Word) (s : State) : (setP k x s).ag.incoming = s.ag.incoming := by unfold setP; split <;> rfl
@[simp] theorem setP_ag_redirects (k : Nat) (x : Word) (s : State) : (setP k x s).ag.redirects = s.ag.redirects := by unfold setP; split <;> rfl
@[simp] theorem setP_ag_ns (k : Nat) (x : Word) (s : State) : (setP k x s).ag.ns = s.ag.ns := by unfold setP; split <;> rfl
@[simp] theorem setP_ag_nv (k : Nat) (x : Word) (s : State) : (setP k x s).ag.nv = s.ag.nv := by unfold setP; split <;> rfl
@[simp] theorem setP_ag_np (k : Nat) (x : Word) (s : State) : (setP k x s).ag.np = s.ag.np := by unfold setP; split <;> rfl
@[simp] theorem setP_ag_nt (k : Nat) (x : Word) (s : State) : (setP k x s).ag.nt = s.ag.nt := by unfold setP; split <;> rfl

/-! ## orStatus -/

@[simp] theorem orStatus_core (f : Sticky) (s : State) : (orStatus f s).core = s.core := rfl
@[simp] theorem orStatus_agents (f : Sticky) (s : State) : (orStatus f s).agents = s.agents := rfl
@[simp] theorem orStatus_cores (f : Sticky) (s : State) : (orStatus f s).cores = s.cores := rfl
@[simp] theorem orStatus_mem (f : Sticky) (s : State) : (orStatus f s).mem = s.mem := rfl
@[simp] theorem orStatus_cycle (f : Sticky) (s : State) : (orStatus f s).cycle = s.cycle := rfl
@[simp] theorem orStatus_draws (f : Sticky) (s : State) : (orStatus f s).draws = s.draws := rfl
@[simp] theorem orStatus_inputs (f : Sticky) (s : State) : (orStatus f s).inputs = s.inputs := rfl
@[simp] theorem orStatus_softErrors (f : Sticky) (s : State) : (orStatus f s).softErrors = s.softErrors := rfl
@[simp] theorem orStatus_struck (f : Sticky) (s : State) : (orStatus f s).struck = s.struck := rfl
@[simp] theorem orStatus_ctxs (f : Sticky) (s : State) : (orStatus f s).ctxs = s.ctxs := rfl
@[simp] theorem orStatus_patchv (f : Sticky) (s : State) : (orStatus f s).patchv = s.patchv := rfl
@[simp] theorem orStatus_insts (f : Sticky) (s : State) : (orStatus f s).insts = s.insts := rfl
@[simp] theorem orStatus_launches (f : Sticky) (s : State) : (orStatus f s).launches = s.launches := rfl
@[simp] theorem orStatus_moves (f : Sticky) (s : State) : (orStatus f s).moves = s.moves := rfl
@[simp] theorem orStatus_faultReports (f : Sticky) (s : State) : (orStatus f s).faultReports = s.faultReports := rfl
@[simp] theorem orStatus_reports (f : Sticky) (s : State) : (orStatus f s).reports = s.reports := rfl
@[simp] theorem orStatus_freeAgents (f : Sticky) (s : State) : (orStatus f s).freeAgents = s.freeAgents := rfl
@[simp] theorem orStatus_teffs (f : Sticky) (s : State) : (orStatus f s).teffs = s.teffs := rfl
@[simp] theorem orStatus_asidGen (f : Sticky) (s : State) : (orStatus f s).asidGen = s.asidGen := rfl
@[simp] theorem orStatus_stores (f : Sticky) (s : State) : (orStatus f s).stores = s.stores := rfl
@[simp] theorem orStatus_net (f : Sticky) (s : State) : (orStatus f s).net = s.net := rfl
@[simp] theorem orStatus_msgs (f : Sticky) (s : State) : (orStatus f s).msgs = s.msgs := rfl
@[simp] theorem orStatus_farOut (f : Sticky) (s : State) : (orStatus f s).farOut = s.farOut := rfl
@[simp] theorem orStatus_cfg (f : Sticky) (s : State) : (orStatus f s).cfg = s.cfg := rfl
@[simp] theorem orStatus_boot (f : Sticky) (s : State) : (orStatus f s).boot = s.boot := rfl
@[simp] theorem orStatus_mailbox (f : Sticky) (s : State) : (orStatus f s).mailbox = s.mailbox := rfl
@[simp] theorem orStatus_hostOut (f : Sticky) (s : State) : (orStatus f s).hostOut = s.hostOut := rfl
@[simp] theorem orStatus_pendingOut (f : Sticky) (s : State) : (orStatus f s).pendingOut = s.pendingOut := rfl
@[simp] theorem orStatus_fabric (f : Sticky) (s : State) : (orStatus f s).fabric = s.fabric := rfl
@[simp] theorem orStatus_power (f : Sticky) (s : State) : (orStatus f s).power = s.power := rfl
@[simp] theorem orStatus_hbmErr (f : Sticky) (s : State) : (orStatus f s).hbmErr = s.hbmErr := rfl
@[simp] theorem orStatus_evacuated (f : Sticky) (s : State) : (orStatus f s).evacuated = s.evacuated := rfl
@[simp] theorem orStatus_pendingIn (f : Sticky) (s : State) : (orStatus f s).pendingIn = s.pendingIn := rfl
@[simp] theorem orStatus_farWait (f : Sticky) (s : State) : (orStatus f s).farWait = s.farWait := rfl
@[simp] theorem orStatus_farWrote (f : Sticky) (s : State) : (orStatus f s).farWrote = s.farWrote := rfl
@[simp] theorem orStatus_ag_place (f : Sticky) (s : State) : (orStatus f s).ag.place = s.ag.place := rfl
@[simp] theorem orStatus_ag_num (f : Sticky) (s : State) : (orStatus f s).ag.num = s.ag.num := rfl
@[simp] theorem orStatus_ag_aid (f : Sticky) (s : State) : (orStatus f s).ag.aid = s.ag.aid := rfl
@[simp] theorem orStatus_ag_ctx (f : Sticky) (s : State) : (orStatus f s).ag.ctx = s.ag.ctx := rfl
@[simp] theorem orStatus_ag_inst (f : Sticky) (s : State) : (orStatus f s).ag.inst = s.ag.inst := rfl
@[simp] theorem orStatus_ag_run (f : Sticky) (s : State) : (orStatus f s).ag.run = s.ag.run := rfl
@[simp] theorem orStatus_ag_lastIssue (f : Sticky) (s : State) : (orStatus f s).ag.lastIssue = s.ag.lastIssue := rfl
@[simp] theorem orStatus_ag_inhand (f : Sticky) (s : State) : (orStatus f s).ag.inhand = s.ag.inhand := rfl
@[simp] theorem orStatus_ag_begun (f : Sticky) (s : State) : (orStatus f s).ag.begun = s.ag.begun := rfl
@[simp] theorem orStatus_ag_farSeen (f : Sticky) (s : State) : (orStatus f s).ag.farSeen = s.ag.farSeen := rfl
@[simp] theorem orStatus_ag_farDirty (f : Sticky) (s : State) : (orStatus f s).ag.farDirty = s.ag.farDirty := rfl
@[simp] theorem orStatus_ag_s (f : Sticky) (s : State) : (orStatus f s).ag.s = s.ag.s := rfl
@[simp] theorem orStatus_ag_v (f : Sticky) (s : State) : (orStatus f s).ag.v = s.ag.v := rfl
@[simp] theorem orStatus_ag_vtag (f : Sticky) (s : State) : (orStatus f s).ag.vtag = s.ag.vtag := rfl
@[simp] theorem orStatus_ag_p (f : Sticky) (s : State) : (orStatus f s).ag.p = s.ag.p := rfl
@[simp] theorem orStatus_ag_t (f : Sticky) (s : State) : (orStatus f s).ag.t = s.ag.t := rfl
@[simp] theorem orStatus_ag_timg (f : Sticky) (s : State) : (orStatus f s).ag.timg = s.ag.timg := rfl
@[simp] theorem orStatus_ag_trest (f : Sticky) (s : State) : (orStatus f s).ag.trest = s.ag.trest := rfl
@[simp] theorem orStatus_ag_tmma (f : Sticky) (s : State) : (orStatus f s).ag.tmma = s.ag.tmma := rfl
@[simp] theorem orStatus_ag_pc (f : Sticky) (s : State) : (orStatus f s).ag.pc = s.ag.pc := rfl
@[simp] theorem orStatus_ag_tshape (f : Sticky) (s : State) : (orStatus f s).ag.tshape = s.ag.tshape := rfl
@[simp] theorem orStatus_ag_tdirty (f : Sticky) (s : State) : (orStatus f s).ag.tdirty = s.ag.tdirty := rfl
@[simp] theorem orStatus_ag_groupid (f : Sticky) (s : State) : (orStatus f s).ag.groupid = s.ag.groupid := rfl
@[simp] theorem orStatus_ag_trapc (f : Sticky) (s : State) : (orStatus f s).ag.trapc = s.ag.trapc := rfl
@[simp] theorem orStatus_ag_trappc (f : Sticky) (s : State) : (orStatus f s).ag.trappc = s.ag.trappc := rfl
@[simp] theorem orStatus_ag_trapa (f : Sticky) (s : State) : (orStatus f s).ag.trapa = s.ag.trapa := rfl
@[simp] theorem orStatus_ag_trapseq (f : Sticky) (s : State) : (orStatus f s).ag.trapseq = s.ag.trapseq := rfl
@[simp] theorem orStatus_ag_trapvec (f : Sticky) (s : State) : (orStatus f s).ag.trapvec = s.ag.trapvec := rfl
@[simp] theorem orStatus_ag_outreq (f : Sticky) (s : State) : (orStatus f s).ag.outreq = s.ag.outreq := rfl
@[simp] theorem orStatus_ag_phasen (f : Sticky) (s : State) : (orStatus f s).ag.phasen = s.ag.phasen := rfl
@[simp] theorem orStatus_ag_rngkey (f : Sticky) (s : State) : (orStatus f s).ag.rngkey = s.ag.rngkey := rfl
@[simp] theorem orStatus_ag_handler (f : Sticky) (s : State) : (orStatus f s).ag.handler = s.ag.handler := rfl
@[simp] theorem orStatus_ag_late (f : Sticky) (s : State) : (orStatus f s).ag.late = s.ag.late := rfl
@[simp] theorem orStatus_ag_reqseq (f : Sticky) (s : State) : (orStatus f s).ag.reqseq = s.ag.reqseq := rfl
@[simp] theorem orStatus_ag_tokens (f : Sticky) (s : State) : (orStatus f s).ag.tokens = s.ag.tokens := rfl
@[simp] theorem orStatus_ag_wake (f : Sticky) (s : State) : (orStatus f s).ag.wake = s.ag.wake := rfl
@[simp] theorem orStatus_ag_waitAt (f : Sticky) (s : State) : (orStatus f s).ag.waitAt = s.ag.waitAt := rfl
@[simp] theorem orStatus_ag_hrec (f : Sticky) (s : State) : (orStatus f s).ag.hrec = s.ag.hrec := rfl
@[simp] theorem orStatus_ag_young (f : Sticky) (s : State) : (orStatus f s).ag.young = s.ag.young := rfl
@[simp] theorem orStatus_ag_view (f : Sticky) (s : State) : (orStatus f s).ag.view = s.ag.view := rfl
@[simp] theorem orStatus_ag_posted (f : Sticky) (s : State) : (orStatus f s).ag.posted = s.ag.posted := rfl
@[simp] theorem orStatus_ag_written (f : Sticky) (s : State) : (orStatus f s).ag.written = s.ag.written := rfl
@[simp] theorem orStatus_ag_cmdKeys (f : Sticky) (s : State) : (orStatus f s).ag.cmdKeys = s.ag.cmdKeys := rfl
@[simp] theorem orStatus_ag_incoming (f : Sticky) (s : State) : (orStatus f s).ag.incoming = s.ag.incoming := rfl
@[simp] theorem orStatus_ag_redirects (f : Sticky) (s : State) : (orStatus f s).ag.redirects = s.ag.redirects := rfl
@[simp] theorem orStatus_ag_ns (f : Sticky) (s : State) : (orStatus f s).ag.ns = s.ag.ns := rfl
@[simp] theorem orStatus_ag_nv (f : Sticky) (s : State) : (orStatus f s).ag.nv = s.ag.nv := rfl
@[simp] theorem orStatus_ag_np (f : Sticky) (s : State) : (orStatus f s).ag.np = s.ag.np := rfl
@[simp] theorem orStatus_ag_nt (f : Sticky) (s : State) : (orStatus f s).ag.nt = s.ag.nt := rfl

/-! ## advance -/

@[simp] theorem advance_core (n : Nat) (s : State) : (advance n s).core = s.core := rfl
@[simp] theorem advance_agents (n : Nat) (s : State) : (advance n s).agents = s.agents := rfl
@[simp] theorem advance_cores (n : Nat) (s : State) : (advance n s).cores = s.cores := rfl
@[simp] theorem advance_mem (n : Nat) (s : State) : (advance n s).mem = s.mem := rfl
@[simp] theorem advance_cycle (n : Nat) (s : State) : (advance n s).cycle = s.cycle := rfl
@[simp] theorem advance_draws (n : Nat) (s : State) : (advance n s).draws = s.draws := rfl
@[simp] theorem advance_inputs (n : Nat) (s : State) : (advance n s).inputs = s.inputs := rfl
@[simp] theorem advance_softErrors (n : Nat) (s : State) : (advance n s).softErrors = s.softErrors := rfl
@[simp] theorem advance_struck (n : Nat) (s : State) : (advance n s).struck = s.struck := rfl
@[simp] theorem advance_ctxs (n : Nat) (s : State) : (advance n s).ctxs = s.ctxs := rfl
@[simp] theorem advance_patchv (n : Nat) (s : State) : (advance n s).patchv = s.patchv := rfl
@[simp] theorem advance_insts (n : Nat) (s : State) : (advance n s).insts = s.insts := rfl
@[simp] theorem advance_launches (n : Nat) (s : State) : (advance n s).launches = s.launches := rfl
@[simp] theorem advance_moves (n : Nat) (s : State) : (advance n s).moves = s.moves := rfl
@[simp] theorem advance_faultReports (n : Nat) (s : State) : (advance n s).faultReports = s.faultReports := rfl
@[simp] theorem advance_reports (n : Nat) (s : State) : (advance n s).reports = s.reports := rfl
@[simp] theorem advance_freeAgents (n : Nat) (s : State) : (advance n s).freeAgents = s.freeAgents := rfl
@[simp] theorem advance_teffs (n : Nat) (s : State) : (advance n s).teffs = s.teffs := rfl
@[simp] theorem advance_asidGen (n : Nat) (s : State) : (advance n s).asidGen = s.asidGen := rfl
@[simp] theorem advance_stores (n : Nat) (s : State) : (advance n s).stores = s.stores := rfl
@[simp] theorem advance_net (n : Nat) (s : State) : (advance n s).net = s.net := rfl
@[simp] theorem advance_msgs (n : Nat) (s : State) : (advance n s).msgs = s.msgs := rfl
@[simp] theorem advance_farOut (n : Nat) (s : State) : (advance n s).farOut = s.farOut := rfl
@[simp] theorem advance_cfg (n : Nat) (s : State) : (advance n s).cfg = s.cfg := rfl
@[simp] theorem advance_boot (n : Nat) (s : State) : (advance n s).boot = s.boot := rfl
@[simp] theorem advance_mailbox (n : Nat) (s : State) : (advance n s).mailbox = s.mailbox := rfl
@[simp] theorem advance_hostOut (n : Nat) (s : State) : (advance n s).hostOut = s.hostOut := rfl
@[simp] theorem advance_pendingOut (n : Nat) (s : State) : (advance n s).pendingOut = s.pendingOut := rfl
@[simp] theorem advance_fabric (n : Nat) (s : State) : (advance n s).fabric = s.fabric := rfl
@[simp] theorem advance_power (n : Nat) (s : State) : (advance n s).power = s.power := rfl
@[simp] theorem advance_hbmErr (n : Nat) (s : State) : (advance n s).hbmErr = s.hbmErr := rfl
@[simp] theorem advance_evacuated (n : Nat) (s : State) : (advance n s).evacuated = s.evacuated := rfl
@[simp] theorem advance_pendingIn (n : Nat) (s : State) : (advance n s).pendingIn = s.pendingIn := rfl
@[simp] theorem advance_farWait (n : Nat) (s : State) : (advance n s).farWait = s.farWait := rfl
@[simp] theorem advance_farWrote (n : Nat) (s : State) : (advance n s).farWrote = s.farWrote := rfl
@[simp] theorem advance_ag_place (n : Nat) (s : State) : (advance n s).ag.place = s.ag.place := rfl
@[simp] theorem advance_ag_num (n : Nat) (s : State) : (advance n s).ag.num = s.ag.num := rfl
@[simp] theorem advance_ag_aid (n : Nat) (s : State) : (advance n s).ag.aid = s.ag.aid := rfl
@[simp] theorem advance_ag_ctx (n : Nat) (s : State) : (advance n s).ag.ctx = s.ag.ctx := rfl
@[simp] theorem advance_ag_inst (n : Nat) (s : State) : (advance n s).ag.inst = s.ag.inst := rfl
@[simp] theorem advance_ag_lastIssue (n : Nat) (s : State) : (advance n s).ag.lastIssue = s.ag.lastIssue := rfl
@[simp] theorem advance_ag_begun (n : Nat) (s : State) : (advance n s).ag.begun = s.ag.begun := rfl
@[simp] theorem advance_ag_farSeen (n : Nat) (s : State) : (advance n s).ag.farSeen = s.ag.farSeen := rfl
@[simp] theorem advance_ag_farDirty (n : Nat) (s : State) : (advance n s).ag.farDirty = s.ag.farDirty := rfl
@[simp] theorem advance_ag_s (n : Nat) (s : State) : (advance n s).ag.s = s.ag.s := rfl
@[simp] theorem advance_ag_v (n : Nat) (s : State) : (advance n s).ag.v = s.ag.v := rfl
@[simp] theorem advance_ag_vtag (n : Nat) (s : State) : (advance n s).ag.vtag = s.ag.vtag := rfl
@[simp] theorem advance_ag_p (n : Nat) (s : State) : (advance n s).ag.p = s.ag.p := rfl
@[simp] theorem advance_ag_t (n : Nat) (s : State) : (advance n s).ag.t = s.ag.t := rfl
@[simp] theorem advance_ag_timg (n : Nat) (s : State) : (advance n s).ag.timg = s.ag.timg := rfl
@[simp] theorem advance_ag_trest (n : Nat) (s : State) : (advance n s).ag.trest = s.ag.trest := rfl
@[simp] theorem advance_ag_tmma (n : Nat) (s : State) : (advance n s).ag.tmma = s.ag.tmma := rfl
@[simp] theorem advance_ag_status (n : Nat) (s : State) : (advance n s).ag.status = s.ag.status := rfl
@[simp] theorem advance_ag_tshape (n : Nat) (s : State) : (advance n s).ag.tshape = s.ag.tshape := rfl
@[simp] theorem advance_ag_tdirty (n : Nat) (s : State) : (advance n s).ag.tdirty = s.ag.tdirty := rfl
@[simp] theorem advance_ag_groupid (n : Nat) (s : State) : (advance n s).ag.groupid = s.ag.groupid := rfl
@[simp] theorem advance_ag_trapc (n : Nat) (s : State) : (advance n s).ag.trapc = s.ag.trapc := rfl
@[simp] theorem advance_ag_trappc (n : Nat) (s : State) : (advance n s).ag.trappc = s.ag.trappc := rfl
@[simp] theorem advance_ag_trapa (n : Nat) (s : State) : (advance n s).ag.trapa = s.ag.trapa := rfl
@[simp] theorem advance_ag_trapseq (n : Nat) (s : State) : (advance n s).ag.trapseq = s.ag.trapseq := rfl
@[simp] theorem advance_ag_trapvec (n : Nat) (s : State) : (advance n s).ag.trapvec = s.ag.trapvec := rfl
@[simp] theorem advance_ag_outreq (n : Nat) (s : State) : (advance n s).ag.outreq = s.ag.outreq := rfl
@[simp] theorem advance_ag_phasen (n : Nat) (s : State) : (advance n s).ag.phasen = s.ag.phasen := rfl
@[simp] theorem advance_ag_rngkey (n : Nat) (s : State) : (advance n s).ag.rngkey = s.ag.rngkey := rfl
@[simp] theorem advance_ag_handler (n : Nat) (s : State) : (advance n s).ag.handler = s.ag.handler := rfl
@[simp] theorem advance_ag_late (n : Nat) (s : State) : (advance n s).ag.late = s.ag.late := rfl
@[simp] theorem advance_ag_reqseq (n : Nat) (s : State) : (advance n s).ag.reqseq = s.ag.reqseq := rfl
@[simp] theorem advance_ag_tokens (n : Nat) (s : State) : (advance n s).ag.tokens = s.ag.tokens := rfl
@[simp] theorem advance_ag_wake (n : Nat) (s : State) : (advance n s).ag.wake = s.ag.wake := rfl
@[simp] theorem advance_ag_waitAt (n : Nat) (s : State) : (advance n s).ag.waitAt = s.ag.waitAt := rfl
@[simp] theorem advance_ag_hrec (n : Nat) (s : State) : (advance n s).ag.hrec = s.ag.hrec := rfl
@[simp] theorem advance_ag_young (n : Nat) (s : State) : (advance n s).ag.young = s.ag.young := rfl
@[simp] theorem advance_ag_view (n : Nat) (s : State) : (advance n s).ag.view = s.ag.view := rfl
@[simp] theorem advance_ag_posted (n : Nat) (s : State) : (advance n s).ag.posted = s.ag.posted := rfl
@[simp] theorem advance_ag_written (n : Nat) (s : State) : (advance n s).ag.written = s.ag.written := rfl
@[simp] theorem advance_ag_cmdKeys (n : Nat) (s : State) : (advance n s).ag.cmdKeys = s.ag.cmdKeys := rfl
@[simp] theorem advance_ag_incoming (n : Nat) (s : State) : (advance n s).ag.incoming = s.ag.incoming := rfl
@[simp] theorem advance_ag_redirects (n : Nat) (s : State) : (advance n s).ag.redirects = s.ag.redirects := rfl
@[simp] theorem advance_ag_ns (n : Nat) (s : State) : (advance n s).ag.ns = s.ag.ns := rfl
@[simp] theorem advance_ag_nv (n : Nat) (s : State) : (advance n s).ag.nv = s.ag.nv := rfl
@[simp] theorem advance_ag_np (n : Nat) (s : State) : (advance n s).ag.np = s.ag.np := rfl
@[simp] theorem advance_ag_nt (n : Nat) (s : State) : (advance n s).ag.nt = s.ag.nt := rfl

/-! ## jumpTo -/

@[simp] theorem jumpTo_core (x : Word) (s : State) : (jumpTo x s).core = s.core := rfl
@[simp] theorem jumpTo_agents (x : Word) (s : State) : (jumpTo x s).agents = s.agents := rfl
@[simp] theorem jumpTo_cores (x : Word) (s : State) : (jumpTo x s).cores = s.cores := rfl
@[simp] theorem jumpTo_mem (x : Word) (s : State) : (jumpTo x s).mem = s.mem := rfl
@[simp] theorem jumpTo_cycle (x : Word) (s : State) : (jumpTo x s).cycle = s.cycle := rfl
@[simp] theorem jumpTo_draws (x : Word) (s : State) : (jumpTo x s).draws = s.draws := rfl
@[simp] theorem jumpTo_inputs (x : Word) (s : State) : (jumpTo x s).inputs = s.inputs := rfl
@[simp] theorem jumpTo_softErrors (x : Word) (s : State) : (jumpTo x s).softErrors = s.softErrors := rfl
@[simp] theorem jumpTo_struck (x : Word) (s : State) : (jumpTo x s).struck = s.struck := rfl
@[simp] theorem jumpTo_ctxs (x : Word) (s : State) : (jumpTo x s).ctxs = s.ctxs := rfl
@[simp] theorem jumpTo_patchv (x : Word) (s : State) : (jumpTo x s).patchv = s.patchv := rfl
@[simp] theorem jumpTo_insts (x : Word) (s : State) : (jumpTo x s).insts = s.insts := rfl
@[simp] theorem jumpTo_launches (x : Word) (s : State) : (jumpTo x s).launches = s.launches := rfl
@[simp] theorem jumpTo_moves (x : Word) (s : State) : (jumpTo x s).moves = s.moves := rfl
@[simp] theorem jumpTo_faultReports (x : Word) (s : State) : (jumpTo x s).faultReports = s.faultReports := rfl
@[simp] theorem jumpTo_reports (x : Word) (s : State) : (jumpTo x s).reports = s.reports := rfl
@[simp] theorem jumpTo_freeAgents (x : Word) (s : State) : (jumpTo x s).freeAgents = s.freeAgents := rfl
@[simp] theorem jumpTo_teffs (x : Word) (s : State) : (jumpTo x s).teffs = s.teffs := rfl
@[simp] theorem jumpTo_asidGen (x : Word) (s : State) : (jumpTo x s).asidGen = s.asidGen := rfl
@[simp] theorem jumpTo_stores (x : Word) (s : State) : (jumpTo x s).stores = s.stores := rfl
@[simp] theorem jumpTo_net (x : Word) (s : State) : (jumpTo x s).net = s.net := rfl
@[simp] theorem jumpTo_msgs (x : Word) (s : State) : (jumpTo x s).msgs = s.msgs := rfl
@[simp] theorem jumpTo_farOut (x : Word) (s : State) : (jumpTo x s).farOut = s.farOut := rfl
@[simp] theorem jumpTo_cfg (x : Word) (s : State) : (jumpTo x s).cfg = s.cfg := rfl
@[simp] theorem jumpTo_boot (x : Word) (s : State) : (jumpTo x s).boot = s.boot := rfl
@[simp] theorem jumpTo_mailbox (x : Word) (s : State) : (jumpTo x s).mailbox = s.mailbox := rfl
@[simp] theorem jumpTo_hostOut (x : Word) (s : State) : (jumpTo x s).hostOut = s.hostOut := rfl
@[simp] theorem jumpTo_pendingOut (x : Word) (s : State) : (jumpTo x s).pendingOut = s.pendingOut := rfl
@[simp] theorem jumpTo_fabric (x : Word) (s : State) : (jumpTo x s).fabric = s.fabric := rfl
@[simp] theorem jumpTo_power (x : Word) (s : State) : (jumpTo x s).power = s.power := rfl
@[simp] theorem jumpTo_hbmErr (x : Word) (s : State) : (jumpTo x s).hbmErr = s.hbmErr := rfl
@[simp] theorem jumpTo_evacuated (x : Word) (s : State) : (jumpTo x s).evacuated = s.evacuated := rfl
@[simp] theorem jumpTo_pendingIn (x : Word) (s : State) : (jumpTo x s).pendingIn = s.pendingIn := rfl
@[simp] theorem jumpTo_farWait (x : Word) (s : State) : (jumpTo x s).farWait = s.farWait := rfl
@[simp] theorem jumpTo_farWrote (x : Word) (s : State) : (jumpTo x s).farWrote = s.farWrote := rfl
@[simp] theorem jumpTo_ag_place (x : Word) (s : State) : (jumpTo x s).ag.place = s.ag.place := rfl
@[simp] theorem jumpTo_ag_num (x : Word) (s : State) : (jumpTo x s).ag.num = s.ag.num := rfl
@[simp] theorem jumpTo_ag_aid (x : Word) (s : State) : (jumpTo x s).ag.aid = s.ag.aid := rfl
@[simp] theorem jumpTo_ag_ctx (x : Word) (s : State) : (jumpTo x s).ag.ctx = s.ag.ctx := rfl
@[simp] theorem jumpTo_ag_inst (x : Word) (s : State) : (jumpTo x s).ag.inst = s.ag.inst := rfl
@[simp] theorem jumpTo_ag_lastIssue (x : Word) (s : State) : (jumpTo x s).ag.lastIssue = s.ag.lastIssue := rfl
@[simp] theorem jumpTo_ag_begun (x : Word) (s : State) : (jumpTo x s).ag.begun = s.ag.begun := rfl
@[simp] theorem jumpTo_ag_farSeen (x : Word) (s : State) : (jumpTo x s).ag.farSeen = s.ag.farSeen := rfl
@[simp] theorem jumpTo_ag_farDirty (x : Word) (s : State) : (jumpTo x s).ag.farDirty = s.ag.farDirty := rfl
@[simp] theorem jumpTo_ag_s (x : Word) (s : State) : (jumpTo x s).ag.s = s.ag.s := rfl
@[simp] theorem jumpTo_ag_v (x : Word) (s : State) : (jumpTo x s).ag.v = s.ag.v := rfl
@[simp] theorem jumpTo_ag_vtag (x : Word) (s : State) : (jumpTo x s).ag.vtag = s.ag.vtag := rfl
@[simp] theorem jumpTo_ag_p (x : Word) (s : State) : (jumpTo x s).ag.p = s.ag.p := rfl
@[simp] theorem jumpTo_ag_t (x : Word) (s : State) : (jumpTo x s).ag.t = s.ag.t := rfl
@[simp] theorem jumpTo_ag_timg (x : Word) (s : State) : (jumpTo x s).ag.timg = s.ag.timg := rfl
@[simp] theorem jumpTo_ag_trest (x : Word) (s : State) : (jumpTo x s).ag.trest = s.ag.trest := rfl
@[simp] theorem jumpTo_ag_tmma (x : Word) (s : State) : (jumpTo x s).ag.tmma = s.ag.tmma := rfl
@[simp] theorem jumpTo_ag_status (x : Word) (s : State) : (jumpTo x s).ag.status = s.ag.status := rfl
@[simp] theorem jumpTo_ag_tshape (x : Word) (s : State) : (jumpTo x s).ag.tshape = s.ag.tshape := rfl
@[simp] theorem jumpTo_ag_tdirty (x : Word) (s : State) : (jumpTo x s).ag.tdirty = s.ag.tdirty := rfl
@[simp] theorem jumpTo_ag_groupid (x : Word) (s : State) : (jumpTo x s).ag.groupid = s.ag.groupid := rfl
@[simp] theorem jumpTo_ag_trapc (x : Word) (s : State) : (jumpTo x s).ag.trapc = s.ag.trapc := rfl
@[simp] theorem jumpTo_ag_trappc (x : Word) (s : State) : (jumpTo x s).ag.trappc = s.ag.trappc := rfl
@[simp] theorem jumpTo_ag_trapa (x : Word) (s : State) : (jumpTo x s).ag.trapa = s.ag.trapa := rfl
@[simp] theorem jumpTo_ag_trapseq (x : Word) (s : State) : (jumpTo x s).ag.trapseq = s.ag.trapseq := rfl
@[simp] theorem jumpTo_ag_trapvec (x : Word) (s : State) : (jumpTo x s).ag.trapvec = s.ag.trapvec := rfl
@[simp] theorem jumpTo_ag_outreq (x : Word) (s : State) : (jumpTo x s).ag.outreq = s.ag.outreq := rfl
@[simp] theorem jumpTo_ag_phasen (x : Word) (s : State) : (jumpTo x s).ag.phasen = s.ag.phasen := rfl
@[simp] theorem jumpTo_ag_rngkey (x : Word) (s : State) : (jumpTo x s).ag.rngkey = s.ag.rngkey := rfl
@[simp] theorem jumpTo_ag_handler (x : Word) (s : State) : (jumpTo x s).ag.handler = s.ag.handler := rfl
@[simp] theorem jumpTo_ag_late (x : Word) (s : State) : (jumpTo x s).ag.late = s.ag.late := rfl
@[simp] theorem jumpTo_ag_reqseq (x : Word) (s : State) : (jumpTo x s).ag.reqseq = s.ag.reqseq := rfl
@[simp] theorem jumpTo_ag_tokens (x : Word) (s : State) : (jumpTo x s).ag.tokens = s.ag.tokens := rfl
@[simp] theorem jumpTo_ag_wake (x : Word) (s : State) : (jumpTo x s).ag.wake = s.ag.wake := rfl
@[simp] theorem jumpTo_ag_waitAt (x : Word) (s : State) : (jumpTo x s).ag.waitAt = s.ag.waitAt := rfl
@[simp] theorem jumpTo_ag_hrec (x : Word) (s : State) : (jumpTo x s).ag.hrec = s.ag.hrec := rfl
@[simp] theorem jumpTo_ag_young (x : Word) (s : State) : (jumpTo x s).ag.young = s.ag.young := rfl
@[simp] theorem jumpTo_ag_view (x : Word) (s : State) : (jumpTo x s).ag.view = s.ag.view := rfl
@[simp] theorem jumpTo_ag_posted (x : Word) (s : State) : (jumpTo x s).ag.posted = s.ag.posted := rfl
@[simp] theorem jumpTo_ag_written (x : Word) (s : State) : (jumpTo x s).ag.written = s.ag.written := rfl
@[simp] theorem jumpTo_ag_cmdKeys (x : Word) (s : State) : (jumpTo x s).ag.cmdKeys = s.ag.cmdKeys := rfl
@[simp] theorem jumpTo_ag_incoming (x : Word) (s : State) : (jumpTo x s).ag.incoming = s.ag.incoming := rfl
@[simp] theorem jumpTo_ag_redirects (x : Word) (s : State) : (jumpTo x s).ag.redirects = s.ag.redirects := rfl
@[simp] theorem jumpTo_ag_ns (x : Word) (s : State) : (jumpTo x s).ag.ns = s.ag.ns := rfl
@[simp] theorem jumpTo_ag_nv (x : Word) (s : State) : (jumpTo x s).ag.nv = s.ag.nv := rfl
@[simp] theorem jumpTo_ag_np (x : Word) (s : State) : (jumpTo x s).ag.np = s.ag.np := rfl
@[simp] theorem jumpTo_ag_nt (x : Word) (s : State) : (jumpTo x s).ag.nt = s.ag.nt := rfl

/-! ## blockOn -/

@[simp] theorem blockOn_core (w : Wait) (s : State) : (blockOn w s).core = s.core := rfl
@[simp] theorem blockOn_agents (w : Wait) (s : State) : (blockOn w s).agents = s.agents := rfl
@[simp] theorem blockOn_cores (w : Wait) (s : State) : (blockOn w s).cores = s.cores := rfl
@[simp] theorem blockOn_mem (w : Wait) (s : State) : (blockOn w s).mem = s.mem := rfl
@[simp] theorem blockOn_cycle (w : Wait) (s : State) : (blockOn w s).cycle = s.cycle := rfl
@[simp] theorem blockOn_draws (w : Wait) (s : State) : (blockOn w s).draws = s.draws := rfl
@[simp] theorem blockOn_inputs (w : Wait) (s : State) : (blockOn w s).inputs = s.inputs := rfl
@[simp] theorem blockOn_softErrors (w : Wait) (s : State) : (blockOn w s).softErrors = s.softErrors := rfl
@[simp] theorem blockOn_struck (w : Wait) (s : State) : (blockOn w s).struck = s.struck := rfl
@[simp] theorem blockOn_ctxs (w : Wait) (s : State) : (blockOn w s).ctxs = s.ctxs := rfl
@[simp] theorem blockOn_patchv (w : Wait) (s : State) : (blockOn w s).patchv = s.patchv := rfl
@[simp] theorem blockOn_insts (w : Wait) (s : State) : (blockOn w s).insts = s.insts := rfl
@[simp] theorem blockOn_launches (w : Wait) (s : State) : (blockOn w s).launches = s.launches := rfl
@[simp] theorem blockOn_moves (w : Wait) (s : State) : (blockOn w s).moves = s.moves := rfl
@[simp] theorem blockOn_faultReports (w : Wait) (s : State) : (blockOn w s).faultReports = s.faultReports := rfl
@[simp] theorem blockOn_reports (w : Wait) (s : State) : (blockOn w s).reports = s.reports := rfl
@[simp] theorem blockOn_freeAgents (w : Wait) (s : State) : (blockOn w s).freeAgents = s.freeAgents := rfl
@[simp] theorem blockOn_teffs (w : Wait) (s : State) : (blockOn w s).teffs = s.teffs := rfl
@[simp] theorem blockOn_asidGen (w : Wait) (s : State) : (blockOn w s).asidGen = s.asidGen := rfl
@[simp] theorem blockOn_stores (w : Wait) (s : State) : (blockOn w s).stores = s.stores := rfl
@[simp] theorem blockOn_net (w : Wait) (s : State) : (blockOn w s).net = s.net := rfl
@[simp] theorem blockOn_msgs (w : Wait) (s : State) : (blockOn w s).msgs = s.msgs := rfl
@[simp] theorem blockOn_farOut (w : Wait) (s : State) : (blockOn w s).farOut = s.farOut := rfl
@[simp] theorem blockOn_cfg (w : Wait) (s : State) : (blockOn w s).cfg = s.cfg := rfl
@[simp] theorem blockOn_boot (w : Wait) (s : State) : (blockOn w s).boot = s.boot := rfl
@[simp] theorem blockOn_mailbox (w : Wait) (s : State) : (blockOn w s).mailbox = s.mailbox := rfl
@[simp] theorem blockOn_hostOut (w : Wait) (s : State) : (blockOn w s).hostOut = s.hostOut := rfl
@[simp] theorem blockOn_pendingOut (w : Wait) (s : State) : (blockOn w s).pendingOut = s.pendingOut := rfl
@[simp] theorem blockOn_fabric (w : Wait) (s : State) : (blockOn w s).fabric = s.fabric := rfl
@[simp] theorem blockOn_power (w : Wait) (s : State) : (blockOn w s).power = s.power := rfl
@[simp] theorem blockOn_hbmErr (w : Wait) (s : State) : (blockOn w s).hbmErr = s.hbmErr := rfl
@[simp] theorem blockOn_evacuated (w : Wait) (s : State) : (blockOn w s).evacuated = s.evacuated := rfl
@[simp] theorem blockOn_pendingIn (w : Wait) (s : State) : (blockOn w s).pendingIn = s.pendingIn := rfl
@[simp] theorem blockOn_farWait (w : Wait) (s : State) : (blockOn w s).farWait = s.farWait := rfl
@[simp] theorem blockOn_farWrote (w : Wait) (s : State) : (blockOn w s).farWrote = s.farWrote := rfl
@[simp] theorem blockOn_ag_place (w : Wait) (s : State) : (blockOn w s).ag.place = s.ag.place := rfl
@[simp] theorem blockOn_ag_num (w : Wait) (s : State) : (blockOn w s).ag.num = s.ag.num := rfl
@[simp] theorem blockOn_ag_aid (w : Wait) (s : State) : (blockOn w s).ag.aid = s.ag.aid := rfl
@[simp] theorem blockOn_ag_ctx (w : Wait) (s : State) : (blockOn w s).ag.ctx = s.ag.ctx := rfl
@[simp] theorem blockOn_ag_inst (w : Wait) (s : State) : (blockOn w s).ag.inst = s.ag.inst := rfl
@[simp] theorem blockOn_ag_lastIssue (w : Wait) (s : State) : (blockOn w s).ag.lastIssue = s.ag.lastIssue := rfl
@[simp] theorem blockOn_ag_inhand (w : Wait) (s : State) : (blockOn w s).ag.inhand = s.ag.inhand := rfl
@[simp] theorem blockOn_ag_begun (w : Wait) (s : State) : (blockOn w s).ag.begun = s.ag.begun := rfl
@[simp] theorem blockOn_ag_farSeen (w : Wait) (s : State) : (blockOn w s).ag.farSeen = s.ag.farSeen := rfl
@[simp] theorem blockOn_ag_farDirty (w : Wait) (s : State) : (blockOn w s).ag.farDirty = s.ag.farDirty := rfl
@[simp] theorem blockOn_ag_s (w : Wait) (s : State) : (blockOn w s).ag.s = s.ag.s := rfl
@[simp] theorem blockOn_ag_v (w : Wait) (s : State) : (blockOn w s).ag.v = s.ag.v := rfl
@[simp] theorem blockOn_ag_vtag (w : Wait) (s : State) : (blockOn w s).ag.vtag = s.ag.vtag := rfl
@[simp] theorem blockOn_ag_p (w : Wait) (s : State) : (blockOn w s).ag.p = s.ag.p := rfl
@[simp] theorem blockOn_ag_t (w : Wait) (s : State) : (blockOn w s).ag.t = s.ag.t := rfl
@[simp] theorem blockOn_ag_timg (w : Wait) (s : State) : (blockOn w s).ag.timg = s.ag.timg := rfl
@[simp] theorem blockOn_ag_trest (w : Wait) (s : State) : (blockOn w s).ag.trest = s.ag.trest := rfl
@[simp] theorem blockOn_ag_tmma (w : Wait) (s : State) : (blockOn w s).ag.tmma = s.ag.tmma := rfl
@[simp] theorem blockOn_ag_pc (w : Wait) (s : State) : (blockOn w s).ag.pc = s.ag.pc := rfl
@[simp] theorem blockOn_ag_status (w : Wait) (s : State) : (blockOn w s).ag.status = s.ag.status := rfl
@[simp] theorem blockOn_ag_tshape (w : Wait) (s : State) : (blockOn w s).ag.tshape = s.ag.tshape := rfl
@[simp] theorem blockOn_ag_tdirty (w : Wait) (s : State) : (blockOn w s).ag.tdirty = s.ag.tdirty := rfl
@[simp] theorem blockOn_ag_groupid (w : Wait) (s : State) : (blockOn w s).ag.groupid = s.ag.groupid := rfl
@[simp] theorem blockOn_ag_trapc (w : Wait) (s : State) : (blockOn w s).ag.trapc = s.ag.trapc := rfl
@[simp] theorem blockOn_ag_trappc (w : Wait) (s : State) : (blockOn w s).ag.trappc = s.ag.trappc := rfl
@[simp] theorem blockOn_ag_trapa (w : Wait) (s : State) : (blockOn w s).ag.trapa = s.ag.trapa := rfl
@[simp] theorem blockOn_ag_trapseq (w : Wait) (s : State) : (blockOn w s).ag.trapseq = s.ag.trapseq := rfl
@[simp] theorem blockOn_ag_trapvec (w : Wait) (s : State) : (blockOn w s).ag.trapvec = s.ag.trapvec := rfl
@[simp] theorem blockOn_ag_outreq (w : Wait) (s : State) : (blockOn w s).ag.outreq = s.ag.outreq := rfl
@[simp] theorem blockOn_ag_phasen (w : Wait) (s : State) : (blockOn w s).ag.phasen = s.ag.phasen := rfl
@[simp] theorem blockOn_ag_rngkey (w : Wait) (s : State) : (blockOn w s).ag.rngkey = s.ag.rngkey := rfl
@[simp] theorem blockOn_ag_handler (w : Wait) (s : State) : (blockOn w s).ag.handler = s.ag.handler := rfl
@[simp] theorem blockOn_ag_late (w : Wait) (s : State) : (blockOn w s).ag.late = s.ag.late := rfl
@[simp] theorem blockOn_ag_reqseq (w : Wait) (s : State) : (blockOn w s).ag.reqseq = s.ag.reqseq := rfl
@[simp] theorem blockOn_ag_tokens (w : Wait) (s : State) : (blockOn w s).ag.tokens = s.ag.tokens := rfl
@[simp] theorem blockOn_ag_wake (w : Wait) (s : State) : (blockOn w s).ag.wake = s.ag.wake := rfl
@[simp] theorem blockOn_ag_waitAt (w : Wait) (s : State) : (blockOn w s).ag.waitAt = s.ag.waitAt := rfl
@[simp] theorem blockOn_ag_hrec (w : Wait) (s : State) : (blockOn w s).ag.hrec = s.ag.hrec := rfl
@[simp] theorem blockOn_ag_young (w : Wait) (s : State) : (blockOn w s).ag.young = s.ag.young := rfl
@[simp] theorem blockOn_ag_view (w : Wait) (s : State) : (blockOn w s).ag.view = s.ag.view := rfl
@[simp] theorem blockOn_ag_posted (w : Wait) (s : State) : (blockOn w s).ag.posted = s.ag.posted := rfl
@[simp] theorem blockOn_ag_written (w : Wait) (s : State) : (blockOn w s).ag.written = s.ag.written := rfl
@[simp] theorem blockOn_ag_cmdKeys (w : Wait) (s : State) : (blockOn w s).ag.cmdKeys = s.ag.cmdKeys := rfl
@[simp] theorem blockOn_ag_incoming (w : Wait) (s : State) : (blockOn w s).ag.incoming = s.ag.incoming := rfl
@[simp] theorem blockOn_ag_redirects (w : Wait) (s : State) : (blockOn w s).ag.redirects = s.ag.redirects := rfl
@[simp] theorem blockOn_ag_ns (w : Wait) (s : State) : (blockOn w s).ag.ns = s.ag.ns := rfl
@[simp] theorem blockOn_ag_nv (w : Wait) (s : State) : (blockOn w s).ag.nv = s.ag.nv := rfl
@[simp] theorem blockOn_ag_np (w : Wait) (s : State) : (blockOn w s).ag.np = s.ag.np := rfl
@[simp] theorem blockOn_ag_nt (w : Wait) (s : State) : (blockOn w s).ag.nt = s.ag.nt := rfl

/-! ## What the updates write -/

@[simp] theorem orStatus_ag_status (f : Sticky) (s : State) :
    (orStatus f s).ag.status = s.ag.status ||| (f &&& 0xFF00).setWidth 64 := rfl
@[simp] theorem advance_ag_pc (n : Nat) (s : State) : (advance n s).ag.pc = s.ag.pc + BitVec.ofNat 64 n := rfl
@[simp] theorem advance_ag_run (n : Nat) (s : State) : (advance n s).ag.run = .running := rfl
@[simp] theorem jumpTo_ag_pc (x : Word) (s : State) : (jumpTo x s).ag.pc = x := rfl
@[simp] theorem advance_ag_inhand (n : Nat) (s : State) : (advance n s).ag.inhand = none := rfl
@[simp] theorem jumpTo_ag_inhand (x : Word) (s : State) : (jumpTo x s).ag.inhand = none := rfl
@[simp] theorem jumpTo_ag_run (x : Word) (s : State) : (jumpTo x s).ag.run = .running := rfl
@[simp] theorem blockOn_ag_run (w : Wait) (s : State) : (blockOn w s).ag.run = .blocked w := rfl

end Sys2Proof.Machine
end

