-- ==== Sys2Proof/Laws/Ops.lean ====
section
/-! SUPPORT. What each shared operation does, once: the checks an instruction makes, reaching memory, register and
predicate writes with their frames, and sending a message with its frame. -/

namespace Sys2Proof.Machine

/-! ## Checks that pass -/

theorem free_mono {us us' : List RegUse} {s : State} (h : Free us s) (hs : ∀ u ∈ us', u ∈ us) : Free us' s :=
  fun u hu => h u (hs u hu)

theorem firstBad_free {us : List RegUse} {s : State} (h : Free us s) : firstBad s.ag us = none := by
  induction us with
  | nil => rfl
  | cons u us ih =>
    simp only [firstBad, (h u List.mem_cons_self).1]
    exact ih fun v hv => h v (List.mem_cons_of_mem u hv)

theorem regsReady_free {us : List RegUse} {s : State} (h : Free us s) (k : Outc) : regsReady us s k = k := by
  have h1 : us.filterMap (usePending s.ag) = [] := List.filterMap_eq_nil_iff.2 fun u hu => (h u hu).2.1
  have h2 : us.filterMap (useTmma s.ag) = [] := List.filterMap_eq_nil_iff.2 fun u hu => (h u hu).2.2.1
  simp [regsReady, firstBad_free h, h1, h2]

theorem guarded_free {w : Word} {e : Ext} {us : List RegUse} {s : State} (he : Has e s) (h : Free us s) (k : Outc) :
    guarded w e us s k = k := by
  have he' : lacksExt s e = false := he
  have h3 : us.findSome? (useRestoring s.ag) = none := List.findSome?_eq_none_iff.2 fun u hu => (h u hu).2.2.2
  simp [guarded, he', regsReady_free h, h3]

theorem checked_free {us : List RegUse} {s : State} (h : Free us s) (k : Outc) : checked us s k = k :=
  guarded_free (w := 0) (e := .none_) rfl h k

theorem legal_wf {i : Instr} {s : State} (h : i.wf = true) (k : Outc) : legal i s k = k := by simp [legal, h]

theorem unpoisoned_clean {rs : List Reg} {s : State} (h : Clean rs s) (k : Outc) : unpoisoned rs s k = k := by
  have : rs.find? (fun r => poisoned (getVT s r)) = none := by
    rw [List.find?_eq_none]; intro r hr; simp [h r hr]
  simp [unpoisoned, this]

theorem aligned_nil (s : State) (n : Nat) (k : Outc) : aligned s n [] k = k := rfl

theorem aligned_of {s : State} {n : Nat} {lanes : List Lane} (h : ∀ l ∈ lanes, Aligned n l.1) (k : Outc) :
    aligned s n lanes k = k := by
  have : lanes.find? (fun l => l.1.toNat % n != 0) = none := by
    rw [List.find?_eq_none]; intro l hl; have := h l hl; simp only [Aligned] at this; simp [this]
  simp [aligned, this]

theorem trap_handles {c : BitVec 8} {a : Word} {s : State} (h : Handles s) :
    ∃ t, trap c a s = .next t ∧ Traps c a s t := by
  refine ⟨_, rfl, ?_⟩
  simp [Traps, deliver, h.1, h.2]

/-! ## Reaching memory -/

/-- mapM of an Except list that answers ok answers ok at each element. -/
theorem mapM_ok {α β ε : Type} {f : α → Except ε β} : ∀ {l : List α} {r : List β}, l.mapM f = .ok r →
    ∀ x ∈ l, ∃ y, f x = .ok y
  | [], _, _, x, hx => by simp at hx
  | a :: as, r, h, x, hx => by
    rw [List.mapM_cons] at h
    cases hf : f a with
    | error e => rw [hf] at h; simp [bind, Except.bind] at h
    | ok y =>
      rw [hf] at h
      cases hg : as.mapM f with
      | error e => simp [bind, Except.bind, hg] at h
      | ok ys =>
        rcases List.mem_cons.1 hx with rfl | hx
        · exact ⟨y, hf⟩
        · exact mapM_ok hg x hx

/-- No byte of a lane that is translated ends in a failure. -/
theorem byteFails_ok {s : State} {b : Bool} {k : FKind} {o : List Nat} {l : Lane} {xs : List XOk}
    (h : xlateLane s b k o l = .ok xs) (e : XErr) : ∀ i < l.2, byteFails s b k o e (l.1 + BitVec.ofNat 64 i) = false := by
  intro i hi
  obtain ⟨y, hy⟩ := mapM_ok h i (List.mem_range.2 hi)
  simp [byteFails, hy]

theorem laneBounds_ok {s : State} {b : Bool} {k : FKind} {o : List Nat} {l : Lane} {xs : List XOk}
    (h : xlateLane s b k o l = .ok xs) : laneBounds s b k o l = false := by
  rw [laneBounds, List.any_eq_false]
  intro i hi
  simp [byteFails_ok h .bounds i (List.mem_range.1 hi)]

theorem laneMiss_ok {s : State} {b : Bool} {k : FKind} {o : List Nat} {l : Lane} {xs : List XOk}
    (h : xlateLane s b k o l = .ok xs) : laneMiss s b k o l = none := by
  rw [laneMiss, Option.map_eq_none_iff, List.find?_eq_none]
  intro i hi
  simp [byteFails_ok h .miss i (List.mem_range.1 hi)]

theorem accessAt_reaches {rep : Option Word} {s : State} {b : Bool} {k : FKind} {o : List Nat} {lanes : List Lane}
    {ls : List (List XOk)} (h : Reaches s b k o lanes ls) (f : List (List XOk) → Outc) :
    accessAt rep s b k o lanes f = f ls := by
  have hx : ∀ l ∈ lanes, ∃ y, xlateLane s b k o l = .ok y := mapM_ok h.1
  have hb : lanes.find? (laneBounds s b k o) = none := by
    rw [List.find?_eq_none]; intro l hl; obtain ⟨y, hy⟩ := hx l hl; simp [laneBounds_ok hy]
  have hm : lanes.findSome? (laneMiss s b k o) = none := by
    rw [List.findSome?_eq_none_iff]; intro l hl; obtain ⟨y, hy⟩ := hx l hl; exact laneMiss_ok hy
  simp [accessAt, hb, hm, h.1, h.2]

theorem access_reaches {s : State} {b : Bool} {k : FKind} {o : List Nat} {lanes : List Lane} {ls : List (List XOk)}
    (h : Reaches s b k o lanes ls) (f : List (List XOk) → Outc) : access s b k o lanes f = f ls := accessAt_reaches h f

theorem readingOn_reads {rep : Option Word} {s : State} {b : Bool} {o : List Nat} {lanes : List Lane} {ls : List (List XOk)}
    (h : Reads s b o lanes ls) (f : List (List XOk) → Outc) : readingOn rep id s b o lanes f = f ls := by
  rcases h with h | ⟨h, hr, hb⟩
  · simp [readingOn, h]
  · simp [readingOn, h, accessAt_reaches hr, fetching, hb]

theorem readingAt_reads {rep : Option Word} {s : State} {b : Bool} {o : List Nat} {lanes : List Lane} {ls : List (List XOk)}
    (h : Reads s b o lanes ls) (f : List (List XOk) → Outc) : readingAt rep s b o lanes f = f ls := readingOn_reads h f

theorem reading_reads {s : State} {b : Bool} {o : List Nat} {lanes : List Lane} {ls : List (List XOk)}
    (h : Reads s b o lanes ls) (f : List (List XOk) → Outc) : reading s b o lanes f = f ls := readingAt_reads h f

/-- A read that passes its checks and has blocks beyond the core sends its requests and waits for the replies. -/
theorem reading_asks {s : State} {b : Bool} {o : List Nat} {lanes : List Lane} {ls : List (List XOk)}
    (h : Reaches s b .read o lanes ls) (hb : remoteBlocks s ls ≠ []) (hr : gotReads s = none) (f : List (List XOk) → Outc) :
    reading s b o lanes f = .next (blockOn (.reads s.draws (remoteBlocks s ls).length false ls)
      (askBlocks s.draws (remoteBlocks s ls) s)) := by
  rw [reading, readingAt, readingOn, hr, accessAt_reaches h, id, fetching]
  cases hl : remoteBlocks s ls with
  | nil => exact absurd hl hb
  | cons x xs => simp

/-- An operation whose request leaves: the agent waits for the answer. -/
theorem ask_leaves {dst : CoreId} {o : HomeOp} {s : State} (h : Near s dst) :
    ask dst o s = .next (blockOn (.op s.draws none)
      (raiseOut (countsOut o) (takeSeq (sendAs s.ag.place dst s.ag.ctx s.ag.reqseq (.op s.ag.aid s.draws o) s)))) := by
  unfold ask; simp [show heldBack s dst = false from h]

/-- An operation at the own core acts at once, elsewhere its request leaves. -/
theorem atParty_own {dst : CoreId} {o : HomeOp} {act : State → State × Option OpAnswer} {fin : OpData → State → Outc} {s : State}
    (h : dst = s.ag.place) : atParty dst o act fin s = actedHere fin (act s) := by simp [atParty, h]

theorem atParty_far {dst : CoreId} {o : HomeOp} {act : State → State × Option OpAnswer} {fin : OpData → State → Outc} {s : State}
    (h : dst ≠ s.ag.place) : atParty dst o act fin s = ask dst o s := by simp [atParty, h]

/-- An instruction begins where no answer has come for it, and goes on with the answer where one has. -/
theorem completing_fresh {fin : OpData → State → Outc} {s : State} (h : Fresh s) (k : Outc) : completing fin s k = k := by
  unfold completing; split
  · rename_i k d hr; exact absurd hr (h k d)
  · rfl

theorem completing_answered {fin : OpData → State → Outc} {s : State} {d : OpData} (h : Answered s d) (k : Outc) :
    completing fin s k = fin d s := by
  obtain ⟨n, h⟩ := h
  simp [completing, h]

theorem guardedBufs_nil {s : State} : ∀ {ls : List Nat}, (ls.map (aliasLoc s.ag)).findSome? (guardedBuf s) = none →
    guardedBufs s ls = []
  | [], _ => rfl
  | l :: ls, h => by
    simp only [List.map_cons, List.findSome?_cons] at h
    cases hg : guardedBuf s (aliasLoc s.ag l) with
    | some b => simp [hg] at h
    | none => simp only [hg] at h; simp [guardedBufs, hg, guardedBufs_nil h]

theorem storingAt_reaches {rep : Option Word} {s : State} {b : Bool} {k : FKind} {lanes : List Lane} {ls : List (List XOk)}
    (h : Reaches s b k [] lanes ls) (hg : Unguarded s ls) (f : List (List Nat) → State → Outc) :
    storingAt rep s b k lanes f = f (locsOf s ls) s := by
  simp only [storingAt, storingOn, id, accessAt_reaches h, guardedBufs_nil hg, guardAll, locsOf]

theorem storing_reaches {s : State} {b : Bool} {k : FKind} {lanes : List Lane} {ls : List (List XOk)}
    (h : Reaches s b k [] lanes ls) (hg : Unguarded s ls) (f : List (List Nat) → State → Outc) :
    storing s b k lanes f = f (locsOf s ls) s := storingAt_reaches h hg f

/-! ## Registers -/

theorem getS_zero (s : State) : getS s 0 = 0 := rfl

theorem getS_setS_same (d : Reg) (x : Word) (s : State) : getS (setS d x s) d = if d = 0 then 0 else x := by
  unfold getS setS
  split
  · rfl
  · simp

theorem getS_setS_other {d r : Reg} (h : r ≠ d) (x : Word) (s : State) : getS (setS d x s) r = getS s r := by
  have hn : d.toNat ≠ r.toNat := fun e => h (BitVec.eq_of_toNat_eq e.symm)
  unfold getS setS
  split
  · rfl
  · split
    · rfl
    · simp [hn]

@[simp] theorem getS_orStatus (r : Reg) (f : Sticky) (s : State) : getS (orStatus f s) r = getS s r := rfl
@[simp] theorem getS_advance (r : Reg) (n : Nat) (s : State) : getS (advance n s) r = getS s r := rfl
@[simp] theorem getS_jumpTo (r : Reg) (x : Word) (s : State) : getS (jumpTo x s) r = getS s r := rfl

theorem setS_only (d : Reg) (x : Word) (s : State) :
    setS d x s = { s with ag := { s.ag with s := (setS d x s).ag.s } } := by
  unfold setS; split <;> rfl

theorem writeS_writes (d : Reg) (r : Word × Sticky) (n : Nat) (s : State) :
    WritesScalar d r.1 r.2 n s (writeS d r n s) := by
  refine ⟨?_, ?_, ?_, ?_, ?_⟩
  · unfold OnlyScalars writeS
    rw [setS_only]; rfl
  · simp only [writeS, getS_advance, getS_setS_same]
  · intro r' h; simp only [writeS, getS_advance]; rw [getS_setS_other h]; rfl
  · simp [writeS]
  · simp [writeS]

theorem jump_writes (x : Word) (d : Reg) (y : Word) (s : State) : JumpsTo x d y s (jumpTo x (setS d y s)) := by
  refine ⟨?_, ?_, ?_, ?_, ?_⟩
  · unfold OnlyScalars; rw [setS_only]; rfl
  · simp only [getS_jumpTo, getS_setS_same]
  · intro r h; simp only [getS_jumpTo]; rw [getS_setS_other h]
  · simp
  · rfl

theorem getP_setP_same {k : Nat} (hk : k < 8) (x : Word) (s : State) :
    getP (setP k x s) k = if k = 0 then BitVec.allOnes 64 else x := by
  by_cases h : k = 0
  · subst h; rfl
  · simp [getP, setP, h, hk, List.getD_eq_getElem?_getD]

theorem getP_setP_other {k j : Nat} (h : j ≠ k) (x : Word) (s : State) : getP (setP k x s) j = getP s j := by
  simp only [getP, setP]
  split
  · rfl
  · split
    · rfl
    · simp [List.getD_eq_getElem?_getD, List.getElem?_set_ne (Ne.symm h)]

theorem setP_only (k : Nat) (x : Word) (s : State) :
    setP k x s = { s with ag := { s.ag with p := (setP k x s).ag.p } } := by
  unfold setP; split <;> rfl

theorem writeP_writes {k : Reg} (hk : k.toNat < 8) (r : Bool × Sticky) (n : Nat) (s : State) :
    WritesPred k.toNat (truth r.1) r.2 n s (writeP k r n s) := by
  refine ⟨?_, ?_, ?_⟩
  · unfold writeP; rw [setP_only]; rfl
  · exact getP_setP_same hk (predOf r.1) (orStatus r.2 s)
  · intro j h; exact getP_setP_other h _ (orStatus r.2 s)

theorem getV_setV_same (d : Reg) (x : Block) (t : Tag) (s : State) : getV (setV d x t s) d = x := by simp [getV, setV]
theorem getVT_setV_same (d : Reg) (x : Block) (t : Tag) (s : State) : getVT (setV d x t s) d = t := by simp [getVT, setV]
theorem getV_setV_other {d r : Reg} (h : r ≠ d) (x : Block) (t : Tag) (s : State) : getV (setV d x t s) r = getV s r := by
  have hn : d.toNat ≠ r.toNat := fun e => h (BitVec.eq_of_toNat_eq e.symm)
  simp [getV, setV, hn]
theorem getVT_setV_other {d r : Reg} (h : r ≠ d) (x : Block) (t : Tag) (s : State) : getVT (setV d x t s) r = getVT s r := by
  have hn : d.toNat ≠ r.toNat := fun e => h (BitVec.eq_of_toNat_eq e.symm)
  simp [getVT, setV, hn]

theorem setV_writes (d : Reg) (x : Block) (t : Tag) (f : Sticky) (n : Nat) (s : State) :
    WritesVector d x t f n s (advance n (setV d x t (orStatus f s))) := by
  refine ⟨rfl, ?_, ?_, ?_⟩
  · exact getV_setV_same d x t (orStatus f s)
  · exact getVT_setV_same d x t (orStatus f s)
  · intro r h; exact ⟨getV_setV_other h x t (orStatus f s), getVT_setV_other h x t (orStatus f s)⟩

/-! ## Cores and messages -/

theorem getCore_id (s : State) (c : CoreId) : (getCore s c).id = c := by
  unfold getCore
  split
  · assumption
  · split
    · rename_i x h
      have := List.find?_some h
      simpa using this
    · rfl

theorem find_putCore (x : Core) (c : CoreId) : ∀ l : List Core,
    (putCore x l).find? (fun y => y.id == c) = if x.id = c then some x else l.find? (fun y => y.id == c)
  | [] => by by_cases h : x.id = c <;> simp [putCore, h]
  | y :: ys => by
    unfold putCore
    by_cases h : y.id = x.id
    · rw [if_pos h]
      by_cases hc : x.id = c
      · simp [hc]
      · simp [hc, show y.id ≠ c from fun e => hc (h ▸ e)]
    · rw [if_neg h]
      by_cases hc : x.id = c
      · have : y.id ≠ c := fun e => h (e.trans hc.symm)
        simp [this, find_putCore x c ys, hc]
      · simp only [List.find?_cons, find_putCore x c ys, if_neg hc]

/-- A core that has been stored reads back; every other core is as it was. -/
theorem getCore_setCore (x : Core) (s : State) (d : CoreId) : getCore (setCore x s) d = if d = x.id then x else getCore s d := by
  unfold setCore
  by_cases hc : s.core.id = x.id
  · rw [if_pos hc]
    by_cases hd : d = x.id
    · rw [if_pos hd]; unfold getCore; rw [if_pos hd.symm]
    · rw [if_neg hd]; unfold getCore
      rw [if_neg (fun e : x.id = d => hd e.symm), if_neg (fun e : s.core.id = d => hd (e.symm.trans hc))]
  · rw [if_neg hc]
    unfold getCore
    dsimp only
    rw [find_putCore]
    by_cases hd : d = x.id
    · subst hd; simp [hc]
    · rw [if_neg hd, if_neg (fun e : x.id = d => hd e.symm)]

/-- The core that an update leaves is what the update gives; every other core is as it was. -/
theorem getCore_onCore {c : CoreId} {f : Core → Core} (hf : ∀ x, (f x).id = x.id) (s : State) (d : CoreId) :
    getCore (onCore c f s) d = if d = c then f (getCore s c) else getCore s d := by
  rw [onCore, getCore_setCore, hf, getCore_id]

theorem setCore_only (x : Core) (s : State) :
    setCore x s = { s with core := (setCore x s).core, cores := (setCore x s).cores } := by unfold setCore; split <;> rfl

theorem setCore_core (x : Core) (s : State) : (setCore x s).core = if s.core.id = x.id then x else s.core := by
  unfold setCore; split <;> rfl

theorem findCtx_onCtx {n : Nat} {f : Ctx → Ctx} (hf : ∀ x, (f x).num = x.num) (s : State) (k : Nat) :
    findCtx (onCtx n f s) k = (findCtx s k).map fun x => if x.num = n then f x else x := by
  have h : (fun c : Ctx => c.num == k) ∘ (fun x => if x.num = n then f x else x) = fun c => c.num == k := by
    funext x
    simp only [Function.comp]
    split <;> simp [hf]
  simp only [findCtx, onCtx, List.find?_map, h]

/-- A core counts a message that it sends; nothing else changes (R253). -/
theorem countSent_counts (c : CoreId) (s : State) :
    countSent c s = { s with core := { s.core with sentcnt := (countSent c s).core.sentcnt }, cores := (countSent c s).cores,
                             ctxs := (countSent c s).ctxs } ∧
      (∀ d, getCore (countSent c s) d = { getCore s d with sentcnt := (getCore (countSent c s) d).sentcnt }) ∧
      ∀ n x, findCtx s n = some x → ∃ k, findCtx (countSent c s) n = some { x with sentGone := k } := by
  unfold countSent
  split
  · refine ⟨?_, ?_, ?_⟩
    · have e := getCore_id s c
      unfold onCore setCore
      dsimp only
      split
      · rename_i h
        have : getCore s c = s.core := by unfold getCore; rw [if_pos (h.trans e)]
        rw [this]
      · rfl
    · intro d
      rw [getCore_onCore (f := fun x => { x with sentcnt := x.sentcnt + 1 }) (fun _ => rfl)]
      split
      · subst_vars; rfl
      · rfl
    · intro n x h
      refine ⟨x.sentGone, ?_⟩
      rw [show findCtx (onCore c _ s) n = findCtx s n by unfold onCore setCore; split <;> rfl, h]
  · refine ⟨rfl, fun d => rfl, ?_⟩
    intro n x h
    rw [findCtx_onCtx (f := fun x => { x with sentGone := x.sentGone + 1 }) (fun _ => rfl), h, Option.map_some]
    split
    · exact ⟨_, rfl⟩
    · exact ⟨x.sentGone, rfl⟩

/-- Sending a message puts it on its way and counts it; nothing else changes (R253, R394). -/
theorem sendFor_sends (a b c d : CoreId) (n : Nat) (q : BitVec 24) (x : Body) (s : State) :
    Sends s (sendFor a b c d n q x s) ∧
      ∃ m, (sendFor a b c d n q x s).net = s.net ++ [m] ∧ m.src = c ∧ m.dst = d ∧ m.seq = q ∧ m.body = x := by
  unfold sendFor
  dsimp only
  have hmm : ∃ m, m = newMsg a b c d n q x s ∧ m.src = c ∧ m.dst = d ∧ m.seq = q ∧ m.body = x :=
    ⟨_, rfl, rfl, rfl, rfl, rfl⟩
  obtain ⟨m, hm, hmm⟩ := hmm
  rw [← hm]
  split
  · obtain ⟨h1, h2, h3⟩ := countSent_counts a { s with msgs := s.msgs + 1, net := s.net ++ [m] }
    generalize countSent a { s with msgs := s.msgs + 1, net := s.net ++ [m] } = u at *
    have hn : u.net = s.net ++ [m] := by rw [h1]
    have hk : u.msgs = s.msgs + 1 := by rw [h1]
    refine ⟨⟨?_, ⟨_, hn⟩, h2, h3⟩, m, hn, hmm⟩
    rw [hn, hk]; exact h1
  · exact ⟨⟨rfl, ⟨_, rfl⟩, fun e => rfl, fun k y hy => ⟨y.sentGone, hy⟩⟩, m, rfl, hmm⟩

/-- The request of an operation leaves, and the agent waits. -/
theorem ask_asks {dst : CoreId} {o : HomeOp} {s : State} (h : Near s dst) : ∃ t, ask dst o s = .next t ∧ Asks dst o s t := by
  obtain ⟨⟨h1, ⟨ms, h2⟩, h3, h4⟩, m, h5⟩ :=
    sendFor_sends s.ag.place dst s.ag.place dst s.ag.ctx s.ag.reqseq (.op s.ag.aid s.draws o) s
  rw [ask_leaves h]
  unfold sendAs
  generalize sendFor s.ag.place dst s.ag.place dst s.ag.ctx s.ag.reqseq (.op s.ag.aid s.draws o) s = u at *
  have hag : u.ag = s.ag := by rw [h1]
  refine ⟨_, rfl, ⟨?_, ⟨ms, h2⟩, h3, h4⟩, m, h5⟩
  simp only [blockOn, raiseOut, takeSeq, hag]
  exact congrArg (fun v : State => { v with ag := { s.ag with
    reqseq := s.ag.reqseq + 1
    run := .blocked (.op s.draws none)
    outreq := if countsOut o then s.ag.outreq + 1 else s.ag.outreq } }) h1

end Sys2Proof.Machine
end

