-- ==== Sys2Proof/Tests/Slice0.lean ====
section
/-! SUPPORT. Tests: ill-formed terms, words written out from the spec's encodings, single steps, and for each statement a
state that meets its hypotheses. -/

namespace Sys2Proof

open Sys2Proof.Machine
set_option Elab.async false

/-! ## Ill-formed terms, one for each check of Instr.wf -/

theorem test_wf_float_mode : Instr.wf (.vadd 1 2 (.v 3) .f32 0 .sat) = false := by decide
theorem test_wf_vcvt_mode : Instr.wf (.vcvt 1 2 3 .bf16 0 .wrap) = false := by decide
theorem test_wf_vabs_mode : Instr.wf (.vabs 1 2 .f64 0 .wrap) = false := by decide
theorem test_wf_shift_type : Instr.wf (.vshl 1 2 (.v 3) .f16 0) = false := by decide
theorem test_wf_vpopc_type : Instr.wf (.vpopc 1 2 .f32 0) = false := by decide
theorem test_wf_vidx_type : Instr.wf (.vidx 1 2 .f32 0) = false := by decide
theorem test_wf_vcmp_un : Instr.wf (.vcmp 1 2 (.v 3) .i32 0 .un) = false := by decide
theorem test_wf_vred_bits : Instr.wf (.vred 1 2 .xor .f32 0 .byStatus) = false := by decide
theorem test_wf_vred_mode : Instr.wf (.vred 1 2 .sum .f32 0 .sat) = false := by decide
theorem test_wf_vbcast_lane : Instr.wf (.vbcast 1 (.lane 2 8) .i64 0) = false := by decide
theorem test_wf_vext_lane : Instr.wf (.vext 1 2 (.k 16) .i32) = false := by decide
theorem test_wf_vins_lane : Instr.wf (.vins 1 2 (.k 8) .f64) = false := by decide
theorem test_wf_fcvt_types : Instr.wf (.fcvt 1 2 .rne .i64 .n64) = false := by decide
theorem test_wf_ard_mode : Instr.wf (.ard 1 2 3 .sat false .f32) = false := by decide
theorem test_wf_phase_agent : Instr.wf (.phase .agent) = false := by decide
theorem test_wf_waitf_agent : Instr.wf (.waitf 1 2 false .agent) = false := by decide
theorem test_wf_last_lane : Instr.wf (.vbcast 1 (.lane 2 7) .i64 0) = true ∧ Instr.wf (.ldpair 4 1 4 0) = true := by decide

/-- A word put together from its fields, the highest first, each with its width. -/
def testWord (l : List (Nat × Nat)) : Nat := l.foldl (fun x p => x * 2 ^ p.1 + p.2 % 2 ^ p.1) 0

/-- Each word 0, with its word 1, decodes to the instruction beside it. -/
def testReads (l : List (Nat × Nat × Instr)) : Bool := l.all fun x =>
  match decodeWords x.1 (BitVec.ofNat 32 x.2.1) with
  | .ok i => i == x.2.2
  | .error _ => false

/-- None of the words is an instruction. -/
def testRefuses (l : List Nat) : Bool := l.all fun w =>
  match decodeWords w 0 with
  | .ok _ => false
  | .error _ => true

/-! ## Decoding: words that the spec prints beside its examples -/

/-- Words of the spec's own examples. -/
theorem test_decode_printed_a : testReads [
    (0xC1210000, 0x000186A0, .addl 4 4 .byStatus 100000),
    (0x8531D001, 0, .amo 6 7 8 false false .add),
    (0xD431D001, 0x100, .amol 6 7 8 false false .add 256),
    (0x1610BFF8, 0, .andi 2 2 (BitVec.ofInt 14 (-8))),
    (0x71110A01, 0, .ard 2 4 5 .byStatus false .bf16),
    (0x720A1203, 0, .awr 1 8 9 .i32),
    (0x8A208A02, 0, .bara 4 2 5 .cluster),
    (0x89008600, 0, .bari 2 3),
    (0x8B008802, 0, .barw 2 4 .cluster),
    (0x8631D000, 0, .cas 6 7 8 false false),
    (0x14088602, 0, .cmp 1 2 3 false .lt),
    (0xCC088002, 0x00011170, .cmpl 1 2 false .lt 70000),
    (0xC8388600, 0x1000, .cpy 7 2 3 4096),
    (0x2D100004, 0, .crd 2 4),
    (0x9A388600, 0, .enq 7 2 3),
    (0xC9194000, 1, .enqi 3 5 1),
    (0x87000001, 0, .fence .core),
    (0x8D30C801, 0, .fill 6 3 4 .core),
    (0x93004000, 0, .free 1)] = true := by decide +kernel

/-- Words of the spec's own examples. -/
theorem test_decode_printed_b : testReads [
    (0x9C30C800, 0, .gather 6 3 4),
    (0xAA000000, 0, .halt),
    (0xD3F1C040, 0, .jmpl 30 (some 7) 0),
    (0xA6208000, 0, .launch 4 2 0),
    (0x80190810, 0, .ld 3 4 .i32 16),
    (0xC2288000, 0x10000, .ldl 5 2 .d64 0x10000),
    (0xD6208A00, 0x10, .ldpair 4 2 5 16),
    (0x945A5400, 0, .link 11 9 10),
    (0xAD190000, 0, .migrate 3 4),
    (0x6F115010, 0, .mma 2 5 40 false),
    (0xCF115050, 0x007F0020, .mmal 2 5 40 false true false 0x7F0020),
    (0x9231C001, 0, .new 6 7 true),
    (0, 0, .nop),
    (0x6E188A00, 0, .oload 3 2 5),
    (0x88000005, 0, .phase .package),
    (0x84014200, 0, .pref 5 512),
    (0x9E208000, 0, .publish 4 2),
    (0xCA184000, 2, .pushk 3 1 2),
    (0x96184A00, 0, .pushx 3 1 5)] = true := by decide +kernel

/-- Words of the spec's own examples. -/
theorem test_decode_printed_c : testReads [
    (0x91100000, 0, .qflush 2),
    (0x8F080000, 0, .qget 1 0),
    (0x8E08C000, 0, .qput 1 3),
    (0x2B000000, 0, .ret),
    (0x97000000, 0, .retire),
    (0xAB190000, 0, .sleep 3 4),
    (0xA5014000, 0, .ssclose 5),
    (0xA0114C00, 0, .ssld 2 5 6),
    (0x9F288600, 0, .ssopen 5 2 3),
    (0xA3395000, 0, .ssroll 7 5 8 false),
    (0xA2395000, 0, .sssnap 7 5 8 .record),
    (0xD2394000, 0xC, .sssnapi 7 5 .record 12),
    (0x83188040, 0, .stt 3 2 64),
    (0xAE190001, 0, .take 3 4 true),
    (0xD1080000, 0xF6, .tcfgi 1 0xF6),
    (0x6B280000, 0, .tclean 5),
    (0x99214000, 0, .tdrop 4 5),
    (0x65188040, 0, .tld 3 2 64),
    (0x6A100200, 0, .tmma 2 0 1)] = true := by decide +kernel

/-- Words of the spec's own examples. -/
theorem test_decode_printed_d : testReads [
    (0x2F000005, 0, .trap 5),
    (0x74188F44, 0, .vaccept 3 2 7 1),
    (0xD0100006, 0x3F800000, .vbcasti 2 .f32 0x3F800000),
    (0x4C0886C2, 0, .vcmp 1 2 (.v 3) .f32 0 .lt),
    (0x7628C041, 0, .vcnt 5 3 .i32 true),
    (0x530880C0, 0, .vexp2 1 2 0),
    (0x5A208640, 0, .vext 4 2 (.k 3) .i32),
    (0x43214CC0, 0, .vfma 4 5 (.v 6) .f32 0 .byStatus),
    (0x6010C8C0, 0, .vgath 2 3 4 .f32 0),
    (0xC6188006, 0x1000, .vldl 3 2 .f32 4096),
    (0x4F0880C0, 0, .vred 1 2 .sum .f32 0 .byStatus),
    (0x75181360, 0, .vrng 3 9 0),
    (0x732851C0, 0, .vsmpl 5 1 8),
    (0x5D38B080, 0, .vst 7 2 .f32 128),
    (0x62004DC1, 0, .vtopk 0 1 6 0 true),
    (0x8C28C041, 0, .waitf 5 3 true .core),
    (0x955A5800, 0, .wire 11 9 12)] = true := by decide +kernel

/-! ## Decoding: a word for every other constructor, field by field from the encoding tables -/

/-- R109, R111 to R118. -/
theorem test_decode_integer : testReads [
    (testWord [(8, 0x1), (5, 22), (5, 19), (5, 13), (2, 2), (1, 1), (6, 0)], 0, .add 22 19 13 .sat true),
    (testWord [(8, 0x2), (5, 22), (5, 19), (5, 13), (2, 2), (1, 1), (6, 0)], 0, .sub 22 19 13 .sat true),
    (testWord [(8, 0x3), (5, 22), (5, 19), (5, 13), (2, 2), (1, 1), (6, 0)], 0, .mul 22 19 13 .sat true),
    (testWord [(8, 0x4), (5, 22), (5, 19), (5, 13), (2, 0), (1, 1), (6, 0)], 0, .mulh 22 19 13 true),
    (testWord [(8, 0x5), (5, 22), (5, 19), (5, 13), (2, 2), (1, 1), (6, 0)], 0, .div 22 19 13 .sat true),
    (testWord [(8, 0x6), (5, 22), (5, 19), (5, 13), (2, 0), (1, 1), (6, 0)], 0, .rem 22 19 13 true),
    (testWord [(8, 0x7), (5, 22), (5, 19), (5, 13), (9, 0)], 0, .and 22 19 13),
    (testWord [(8, 0x8), (5, 22), (5, 19), (5, 13), (9, 0)], 0, .or 22 19 13),
    (testWord [(8, 0x9), (5, 22), (5, 19), (5, 13), (9, 0)], 0, .xor 22 19 13),
    (testWord [(8, 0xa), (5, 22), (5, 19), (5, 13), (9, 0)], 0, .andn 22 19 13),
    (testWord [(8, 0xb), (5, 22), (5, 19), (5, 13), (9, 0)], 0, .shl 22 19 13),
    (testWord [(8, 0xc), (5, 22), (5, 19), (5, 13), (9, 0)], 0, .shr 22 19 13),
    (testWord [(8, 0xd), (5, 22), (5, 19), (5, 13), (9, 0)], 0, .sar 22 19 13),
    (testWord [(8, 0xe), (5, 22), (5, 19), (5, 13), (9, 0)], 0, .rot 22 19 13),
    (testWord [(8, 0xf), (5, 22), (5, 19), (5, 13), (2, 0), (1, 1), (6, 0)], 0, .min 22 19 13 true),
    (testWord [(8, 0x10), (5, 22), (5, 19), (5, 13), (2, 0), (1, 1), (6, 0)], 0, .max 22 19 13 true),
    (testWord [(8, 0x11), (5, 22), (5, 19), (14, 0)], 0, .clz 22 19),
    (testWord [(8, 0x12), (5, 22), (5, 19), (14, 0)], 0, .popc 22 19),
    (testWord [(8, 0x13), (5, 22), (5, 19), (5, 13), (6, 0), (3, 5)], 0, .sel 22 19 13 5),
    (testWord [(8, 0x15), (5, 22), (5, 19), (14, 10843)], 0, .addi 22 19 0x2a5b),
    (testWord [(8, 0x17), (5, 22), (5, 19), (14, 10843)], 0, .ori 22 19 0x2a5b),
    (testWord [(8, 0x18), (5, 22), (5, 19), (14, 10843)], 0, .xori 22 19 0x2a5b),
    (testWord [(8, 0x19), (5, 22), (5, 19), (8, 0), (6, 27)], 0, .shli 22 19 0x1b),
    (testWord [(8, 0x1a), (5, 22), (5, 19), (8, 0), (6, 27)], 0, .shri 22 19 0x1b),
    (testWord [(8, 0x1b), (5, 22), (5, 19), (8, 0), (6, 27)], 0, .sari 22 19 0x1b),
    (testWord [(8, 0x1c), (5, 22), (5, 19), (3, 4), (1, 1), (10, 603)], 0, .cmpi 22 19 .le true 0x25b)] = true := by decide +kernel

/-- R110, R119 to R128. -/
theorem test_decode_float_control : testReads [
    (testWord [(8, 0x1d), (5, 22), (5, 19), (5, 13), (3, 4), (5, 0), (1, 1)], 0, .fadd 22 19 13 .rdn true),
    (testWord [(8, 0x1e), (5, 22), (5, 19), (5, 13), (3, 4), (5, 0), (1, 1)], 0, .fsub 22 19 13 .rdn true),
    (testWord [(8, 0x1f), (5, 22), (5, 19), (5, 13), (3, 4), (5, 0), (1, 1)], 0, .fmul 22 19 13 .rdn true),
    (testWord [(8, 0x20), (5, 22), (5, 19), (5, 13), (3, 4), (5, 0), (1, 1)], 0, .fdiv 22 19 13 .rdn true),
    (testWord [(8, 0x21), (5, 22), (5, 19), (5, 0), (3, 4), (5, 0), (1, 1)], 0, .fsqrt 22 19 .rdn true),
    (testWord [(8, 0x22), (5, 22), (5, 19), (5, 13), (3, 4), (5, 0), (1, 1)], 0, .fma 22 19 13 .rdn true),
    (testWord [(8, 0x23), (5, 22), (5, 19), (5, 13), (5, 0), (3, 3), (1, 1)], 0, .fcmp 22 19 13 .un true),
    (testWord [(8, 0x24), (5, 22), (5, 19), (5, 0), (3, 4), (3, 1), (3, 5)], 0, .fcvt 22 19 .rdn .i16 .f16),
    (testWord [(8, 0x25), (5, 22), (5, 19), (5, 13), (8, 0), (1, 1)], 0, .fmin 22 19 13 true),
    (testWord [(8, 0x26), (5, 22), (5, 19), (5, 13), (8, 0), (1, 1)], 0, .fmax 22 19 13 true),
    (testWord [(8, 0x27), (5, 22), (5, 19), (13, 0), (1, 1)], 0, .fclass 22 19 true),
    (testWord [(8, 0x28), (3, 5), (21, 10843)], 0, .br 5 0x2a5b),
    (testWord [(8, 0x29), (5, 0), (5, 19), (14, 0)], 0, .jmp 19),
    (testWord [(8, 0x2a), (3, 0), (21, 10843)], 0, .call 0x2a5b),
    (testWord [(8, 0x2c), (5, 22), (5, 0), (14, 10843)], 0, .loop 22 0x2a5b),
    (testWord [(8, 0x2e), (5, 0), (5, 19), (2, 0), (12, 2651)], 0, .cwr 0xa5b 19)] = true := by decide +kernel

/-- R90, R133 to R135. -/
theorem test_decode_vector_a : testReads [
    (testWord [(8, 0x40), (5, 22), (5, 19), (5, 13), (1, 1), (3, 3), (3, 5), (2, 2)], 0, .vadd 22 19 (.s 13) .i64 5 .sat),
    (testWord [(8, 0x41), (5, 22), (5, 19), (5, 13), (1, 1), (3, 3), (3, 5), (2, 2)], 0, .vsub 22 19 (.s 13) .i64 5 .sat),
    (testWord [(8, 0x42), (5, 22), (5, 19), (5, 13), (1, 1), (3, 3), (3, 5), (2, 2)], 0, .vmul 22 19 (.s 13) .i64 5 .sat),
    (testWord [(8, 0x44), (5, 22), (5, 19), (5, 13), (1, 1), (3, 5), (3, 5), (2, 0)], 0, .vmin 22 19 (.s 13) .f16 5),
    (testWord [(8, 0x45), (5, 22), (5, 19), (5, 13), (1, 1), (3, 5), (3, 5), (2, 0)], 0, .vmax 22 19 (.s 13) .f16 5),
    (testWord [(8, 0x46), (5, 22), (5, 19), (5, 13), (1, 1), (3, 5), (3, 5), (2, 0)], 0, .vand 22 19 (.s 13) .f16 5),
    (testWord [(8, 0x47), (5, 22), (5, 19), (5, 13), (1, 1), (3, 5), (3, 5), (2, 0)], 0, .vor 22 19 (.s 13) .f16 5),
    (testWord [(8, 0x48), (5, 22), (5, 19), (5, 13), (1, 1), (3, 5), (3, 5), (2, 0)], 0, .vxor 22 19 (.s 13) .f16 5),
    (testWord [(8, 0x49), (5, 22), (5, 19), (5, 13), (1, 1), (3, 3), (3, 5), (2, 0)], 0, .vshl 22 19 (.s 13) .i64 5),
    (testWord [(8, 0x4a), (5, 22), (5, 19), (5, 13), (1, 1), (3, 3), (3, 5), (2, 0)], 0, .vshr 22 19 (.s 13) .i64 5),
    (testWord [(8, 0x4b), (5, 22), (5, 19), (5, 13), (1, 1), (3, 3), (3, 5), (2, 0)], 0, .vsar 22 19 (.s 13) .i64 5),
    (testWord [(8, 0x4d), (5, 22), (5, 19), (5, 13), (1, 1), (3, 5), (3, 5), (2, 0)], 0, .vsel 22 19 (.s 13) .f16 5)] = true := by decide +kernel

/-- R136 to R149. -/
theorem test_decode_vector_b : testReads [
    (testWord [(8, 0x4e), (5, 22), (5, 19), (5, 13), (1, 1), (3, 3), (3, 5), (2, 2)], 0, .vcvt 22 19 13 .i64 5 .sat),
    (testWord [(8, 0x50), (5, 22), (5, 19), (5, 4), (1, 0), (3, 3), (3, 5), (2, 2)], 0, .vscan 22 19 .or .i64 5 .sat),
    (testWord [(8, 0x51), (5, 22), (5, 19), (5, 13), (1, 1), (3, 5), (3, 5), (2, 0)], 0, .vperm 22 19 (.s 13) .f16 5),
    (testWord [(8, 0x52), (5, 22), (5, 0), (5, 13), (1, 1), (3, 5), (3, 5), (2, 0)], 0, .vbcast 22 (.s 13) .f16 5),
    (testWord [(8, 0x54), (5, 22), (5, 19), (6, 0), (3, 6), (3, 5), (2, 0)], 0, .vlog2 22 19 5),
    (testWord [(8, 0x55), (5, 22), (5, 19), (6, 0), (3, 6), (3, 5), (2, 0)], 0, .vrcp 22 19 5),
    (testWord [(8, 0x56), (5, 22), (5, 19), (6, 0), (3, 6), (3, 5), (2, 0)], 0, .vrsqrt 22 19 5),
    (testWord [(8, 0x57), (5, 22), (5, 19), (6, 0), (3, 3), (3, 5), (2, 2)], 0, .vabs 22 19 .i64 5 .sat),
    (testWord [(8, 0x58), (5, 22), (5, 19), (6, 0), (3, 3), (3, 5), (2, 2)], 0, .vneg 22 19 .i64 5 .sat),
    (testWord [(8, 0x59), (5, 22), (5, 19), (6, 0), (3, 5), (3, 5), (2, 0)], 0, .vmov 22 19 .f16 5),
    (testWord [(8, 0x5b), (5, 22), (5, 19), (5, 13), (1, 1), (3, 5), (5, 0)], 0, .vins 22 19 (.s 13) .f16),
    (testWord [(8, 0x5c), (5, 22), (5, 19), (3, 5), (11, 603)], 0, .vld 22 19 .f16 0x25b),
    (testWord [(8, 0x5e), (5, 22), (5, 19), (5, 13), (1, 1), (3, 5), (3, 5), (2, 0)], 0, .vlds 22 19 13 .f16 5),
    (testWord [(8, 0x5f), (5, 22), (5, 19), (5, 13), (1, 1), (3, 5), (3, 5), (2, 0)], 0, .vsts 22 19 13 .f16 5),
    (testWord [(8, 0x61), (5, 22), (5, 19), (5, 13), (1, 0), (3, 5), (3, 5), (2, 0)], 0, .vscat 22 19 13 .f16 5),
    (testWord [(8, 0x63), (5, 22), (5, 19), (6, 0), (3, 3), (3, 5), (2, 0)], 0, .vpopc 22 19 .i64 5)] = true := by decide +kernel

/-- R152 to R165. -/
theorem test_decode_tile_matrix : testReads [
    (testWord [(8, 0x64), (5, 22), (5, 19), (14, 0)], 0, .tcfg 22 19),
    (testWord [(8, 0x66), (5, 22), (5, 19), (3, 0), (11, 603)], 0, .tst 22 19 0x25b),
    (testWord [(8, 0x67), (5, 22), (5, 19), (5, 13), (8, 0), (1, 1)], 0, .trow 22 19 13 true),
    (testWord [(8, 0x68), (5, 22), (5, 19), (5, 13), (8, 0), (1, 1)], 0, .tcol 22 19 13 true),
    (testWord [(8, 0x69), (5, 22), (19, 0)], 0, .tzero 22),
    (testWord [(8, 0x6c), (5, 22), (5, 19), (13, 0), (1, 1)], 0, .oclaim 22 19 true),
    (testWord [(8, 0x6d), (5, 0), (5, 19), (13, 0), (1, 1)], 0, .orel 19 true),
    (testWord [(8, 0x70), (5, 22), (19, 0)], 0, .azero 22),
    (testWord [(8, 0x77), (5, 22), (5, 0), (5, 13), (1, 1), (3, 3), (3, 5), (2, 0)], 0, .vidx 22 13 .i64 5)] = true := by decide +kernel

/-- R91, R92, R170 to R188. -/
theorem test_decode_memory : testReads [
    (testWord [(8, 0x81), (5, 22), (5, 19), (3, 2), (11, 603)], 0, .st 22 19 .h16 0x25b),
    (testWord [(8, 0x82), (5, 22), (5, 19), (3, 0), (11, 603)], 0, .ldt 22 19 0x25b),
    (testWord [(8, 0x90), (5, 22), (5, 19), (14, 0)], 0, .qstream 22 19)] = true := by decide +kernel

/-- R192 to R221. -/
theorem test_decode_system : testReads [
    (testWord [(8, 0x98), (5, 22), (5, 19), (14, 0)], 0, .tshare 22 19),
    (testWord [(8, 0x9b), (5, 0), (5, 19), (5, 13), (9, 0)], 0, .enwait 19 13),
    (testWord [(8, 0x9d), (5, 22), (5, 19), (5, 13), (9, 0)], 0, .scatter 22 19 13),
    (testWord [(8, 0xa1), (5, 22), (5, 19), (5, 13), (9, 0)], 0, .ssst 22 19 13),
    (testWord [(8, 0xa4), (5, 22), (5, 19), (5, 13), (9, 0)], 0, .ssfork 22 19 13),
    (testWord [(8, 0xa7), (5, 0), (5, 19), (14, 0)], 0, .hintsucc 19),
    (testWord [(8, 0xa8), (24, 0)], 0, .waitpred),
    (testWord [(8, 0xa9), (24, 0)], 0, .rte),
    (testWord [(8, 0xac), (5, 22), (5, 19), (14, 0)], 0, .wake 22 19),
    (testWord [(8, 0xaf), (5, 22), (5, 19), (14, 0)], 0, .extq 22 19)] = true := by decide +kernel

/-- R224. -/
theorem test_decode_long : testReads [
    (testWord [(8, 0xC0), (5, 22), (11, 0), (1, 1), (1, 0), (6, 0)], 0xDEADBEEF, .movi 22 .hi 0xDEADBEEF),
    (testWord [(8, 0xC3), (5, 22), (5, 19), (8, 0), (3, 0), (3, 2)], 0xFFFFFFF8, .stl 22 19 .h16 0xFFFFFFF8),
    (testWord [(8, 0xC4), (2, 0), (3, 5), (19, 0)], 0x80000001, .brl 5 0x80000001),
    (testWord [(8, 0xC5), (24, 0)], 0x80000001, .calll 0x80000001),
    (testWord [(8, 0xC7), (5, 22), (5, 19), (8, 0), (3, 0), (3, 5)], 0x40, .vstl 22 19 .f16 0x40),
    (testWord [(8, 0xCB), (5, 22), (5, 19), (5, 0), (2, 0), (1, 1), (6, 0)], 0xF0000000, .andl 22 19 true 0xF0000000),
    (testWord [(8, 0xCD), (5, 22), (5, 19), (5, 0), (2, 0), (1, 1), (6, 0)], 0xF0000000, .orl 22 19 true 0xF0000000),
    (testWord [(8, 0xCE), (5, 22), (5, 19), (5, 0), (2, 0), (1, 0), (6, 0)], 0xF0000000, .xorl 22 19 false 0xF0000000),
    (testWord [(8, 0xD5), (5, 22), (5, 19), (5, 13), (1, 1), (1, 0), (1, 1), (6, 0)], 0x18, .casl 22 19 13 true true 0x18),
    (testWord [(8, 0xD7), (5, 22), (5, 19), (5, 13), (9, 0)], 0x30, .stpair 22 19 13 0x30)] = true := by decide +kernel

/-! ## Words that are no instruction (R94, R95) -/

/-- Unassigned major opcodes of each class. -/
theorem test_decode_unassigned : testRefuses [0x30000000, 0x3F000000, 0x78000000, 0x7F000000, 0xB0000000, 0xD8000000,
    0xFF000000, 0xFFFFFFFF] = true := by decide +kernel

/-- A reserved or unused field that is not zero: a bit of NOP, of CLZ, of the func of ADD, of JMP, of TZERO, of FENCE, of
RETIRE, of MOVI, and a VEXP2 with S. -/
theorem test_decode_reserved : testRefuses [0x00000001, 0x11000200, 0x01000001, 0x29080000, 0x69000001, 0x87000010, 0x97000001,
    0xC0000001, 0x530881C0] = true := by decide +kernel

/-- A value that the entry does not list: mode 3, rounding code 6, condition 7, type f64 of VEXP2, load modifier 4, scope
10, AMO code 7, ARD code 6, MOVI with H and U. -/
theorem test_decode_unlisted : testRefuses [0x01000180, 0x1D000180, 0x14000007, 0x530000E0, 0x80002000, 0x8700000A, 0x85000007,
    0x71000006, 0xC00000C0] = true := by decide +kernel

/-! ## Single steps, with values from the spec's examples -/

/-- An agent at PC 0x400 with every register declared and a trap vector. -/
def testBase : State :=
  let s := State.reset.withFetchWord 32 0
  { s with
    ag := { s.ag with trapvec := 0x1001, pc := 0x400 }
    core := { s.core with kd := { KDesc.none with ns := 32, nv := 32, np := 8, nt := 8 } } }

/-- Scalar registers set. -/
def testS : List (Reg × Word) → State → State
  | [], s => s
  | p :: ps, s => testS ps (setS p.1 p.2 s)

/-- Vector register r holds block b. -/
def testV (r : Reg) (b : Block) (s : State) : State := { s with ag := { s.ag with v := s.ag.v.set r.toNat b r.isLt } }
/-- Predicate register k holds w. -/
def testP (k : PReg) (w : Word) (s : State) : State := { s with ag := { s.ag with p := s.ag.p.set k.toNat w k.isLt } }

/-- The block whose lanes of w bits are these. -/
def testLanes (w : Nat) (l : List Nat) : Block := BitVec.ofNat 512 (l.foldr (fun x y => x + y * 2 ^ w) 0)

/-- The outcome is a next state with a property. -/
def testNext (o : Outc) (p : State → Bool) : Bool :=
  match o with
  | .next t => p t
  | .fault _ => false
  | .refused _ => false

/-- R105, R129: addi s2, s0, 25 is 0x15100019; it is fetched, decoded and run. -/
theorem test_step_addi : testNext (step (State.reset.withFetchWord 32 0x15100019))
    (fun t => getS t 2 == 25 && t.ag.pc == 4) = true := by decide +kernel

/-- R129, step 16: 4274473667143680000 × 10 saturates. -/
theorem test_mul_saturates : testNext (exec (.mul 1 1 2 .sat false) (testS [(1, 4274473667143680000), (2, 10)] testBase))
    (fun t => getS t 1 == 0x7FFFFFFFFFFFFFFF && t.ag.status == 0x0200 && t.ag.pc == 0x404) = true := by decide +kernel

/-- R129, steps 26 and 27. -/
theorem test_div_by_zero : testNext (exec (.div 3 1 0 .byStatus false) (testS [(1, 7)] testBase))
    (fun t => getS t 3 == 0xFFFFFFFFFFFFFFFF && t.ag.status == 0) = true := by decide +kernel
theorem test_rem_by_zero : testNext (exec (.rem 4 1 0 false) (testS [(1, 7)] testBase))
    (fun t => getS t 4 == 7) = true := by decide +kernel

/-- R114: the spec's rotation. -/
theorem test_rot : testNext (exec (.rot 2 2 3) (testS [(2, 0x8000000000000000), (3, 1)] testBase))
    (fun t => getS t 2 == 1) = true := by decide +kernel
/-- R114: a count of 64 shifts by 0. -/
theorem test_shift_by_64 : testNext (exec (.shl 2 2 3) (testS [(2, 5), (3, 64)] testBase))
    (fun t => getS t 2 == 5) = true := by decide +kernel

/-- R117: cmpi.n p1, s2, -1, eq tests all ones. -/
theorem test_cmpi_unsigned : testNext (exec (.cmpi 1 2 .eq true 0x3FF) (testS [(2, 0xFFFFFFFFFFFFFFFF)] testBase))
    (fun t => getP t 1 == 0xFFFFFFFFFFFFFFFF) = true := by decide +kernel

/-- R121: fcvt.i32.f64.rtz of −2.75 is −2, inexact. -/
theorem test_fcvt_rtz : testNext (exec (.fcvt 2 3 .rtz .i32 .f64) (testS [(3, 0xC006000000000000)] testBase))
    (fun t => getS t 2 == 0xFFFFFFFFFFFFFFFE && t.ag.status == stNX.setWidth 64) = true := by decide +kernel

/-- R122: fclass.f32 of +0 is 0x10. -/
theorem test_fclass_zero : testNext (exec (.fclass 6 7 true) testBase) (fun t => getS t 6 == 0x10) = true := by decide +kernel

/-- R105: BR at −3 words, taken from PC 0x1000C, lands at 0x10000. -/
theorem test_br_back : testNext (exec (.br 1 0x1FFFFD)
    (testP 1 1 { testBase with ag := { testBase.ag with pc := 0x1000C } })) (fun t => t.ag.pc == 0x10000) = true := by
  decide +kernel

/-- R125: LOOP at its last turn falls through with 0. -/
theorem test_loop_ends : testNext (exec (.loop 2 0x3FFF) (testS [(2, 1)] testBase))
    (fun t => getS t 2 == 0 && t.ag.pc == 0x404) = true := by decide +kernel

/-- R128: TRAP 5 enters the handler with its code. -/
theorem test_trap_entry : testNext (exec (.trap 5) testBase)
    (fun t => t.ag.trapa == 5 && t.ag.trappc == 0x400 && t.ag.handler && t.ag.pc == 0x1000) = true := by decide +kernel

/-- R150: acceptance at work. -/
theorem test_vaccept : testNext (exec (.vaccept 3 2 7 1) (testP 1 0xFFF (testV 2
    (testLanes 32 [17, 52, 9, 0, 0, 0, 0, 0, 17, 30, 9]) (testS [(7, 48)] testBase))))
    (fun t => getP t 3 == 0x000000F00000000F) = true := by decide +kernel
theorem test_vcnt_lead : testNext (exec (.vcnt 5 3 .i32 true) (testP 3 0x000000F00000000F testBase))
    (fun t => getS t 5 == 1) = true := by decide +kernel

/-- R152: TCFG with 0xF6 makes a 16-row f32 tile; R233: TCFGI with a reserved bit of word 1 does not. -/
theorem test_tcfg : testNext (exec (.tcfg 1 4) (testS [(4, 0xF6)] testBase))
    (fun t => t.ag.tshape == 0xFFFFFFFFFFFFF6FF && t.ag.tdirty == 2) = true := by decide +kernel
theorem test_tcfgi_reserved : testNext (exec (.tcfgi 1 0x1F6) testBase)
    (fun t => t.ag.trapc == 0x01 && t.ag.handler) = true := by decide +kernel

/-- R234: a 64-bit constant in two steps. -/
theorem test_movi_hi : testNext (exec (.movi 3 .hi 0xFEDCBA98) (testS [(3, 0x76543210)] testBase))
    (fun t => getS t 3 == 0xFEDCBA9876543210 && t.ag.pc == 0x408) = true := by decide +kernel
theorem test_movi_sext : testNext (exec (.movi 3 .sext 0xFEDCBA98) testBase)
    (fun t => getS t 3 == 0xFFFFFFFFFEDCBA98) = true := by decide +kernel

/-- R90: S = 1 broadcasts the low bits of sb; R130: lanes that the predicate leaves out keep their value. -/
theorem test_vadd_masked : testNext (exec (.vadd 1 2 (.s 3) .i16 1 .wrap) (testP 1 0x5 (testV 1 (testLanes 16 [9, 9, 9])
    (testV 2 (testLanes 16 [0xFFFF, 2, 3]) (testS [(3, 0x10001)] testBase)))))
    (fun t => getV t 1 == testLanes 16 [0, 3, 9]) = true := by decide +kernel

/-! ## Witnesses: for each statement with hypotheses, states and operands that meet them -/

/-- The instruction that a decoding gives. -/
theorem testOk {ε α : Type} [DecidableEq α] {x : Except ε α} (a : α)
    (h : (match x with | .ok b => decide (b = a) | .error _ => false) = true) : x = .ok a := by
  cases x with
  | ok b => simp at h; rw [h]
  | error e => simp at h

/-- A next state. -/
theorem testGoes {o : Outc} (h : testNext o (fun _ => true) = true) : ∃ t, o = .next t := by
  cases o with
  | next t => exact ⟨t, rfl⟩
  | fault f => cases f
  | refused r => simp [testNext] at h

/-- An access that reaches, at locations with a property. -/
theorem testReach {s : State} {hostOk : Bool} {k : FKind} {ovf : List Nat} {lanes : List Lane} (P : List (List XOk) → Bool)
    (h : (match lanes.mapM (xlateLane s hostOk k ovf) with
      | .ok ls => !overlapsArd s ls && P ls
      | .error _ => false) = true) : ∃ ls, Reaches s hostOk k ovf lanes ls ∧ P ls = true := by
  unfold Reaches
  cases hm : lanes.mapM (xlateLane s hostOk k ovf) with
  | ok ls => rw [hm] at h; exact ⟨ls, by simp_all⟩
  | error e => rw [hm] at h; simp at h

/-- A read whose blocks lie in the own slice. -/
theorem testRead {s : State} {hostOk : Bool} {ovf : List Nat} {lanes : List Lane} (P : List (List XOk) → Bool)
    (h : (match lanes.mapM (xlateLane s hostOk .read ovf) with
      | .ok ls => !overlapsArd s ls && ((gotReads s).isNone && (remoteBlocks s ls == []) && P ls)
      | .error _ => false) = true) : ∃ ls, Reads s hostOk ovf lanes ls ∧ P ls = true := by
  obtain ⟨ls, hr, hp⟩ := testReach (fun ls => (gotReads s).isNone && (remoteBlocks s ls == []) && P ls) h
  simp only [Bool.and_eq_true, Option.isNone_iff_eq_none, beq_iff_eq] at hp
  exact ⟨ls, Or.inr ⟨hp.1.1, hr, hp.1.2⟩, hp.2⟩

/-- The replies to the agent's reads of these locations have come. -/
def testAnswered (ls : List (List XOk)) (s : State) : State :=
  { s with ag := { s.ag with run := .blocked (.reads 5 0 false ls) } }

/-- A read of blocks beyond the core, whose replies have come. -/
theorem testReplied {s : State} {hostOk : Bool} {ovf : List Nat} {lanes : List Lane} (P : List (List XOk) → Bool)
    (h : (match lanes.mapM (xlateLane s hostOk .read ovf) with
      | .ok ls => gotReads (testAnswered ls s) == some ls && (remoteBlocks s ls != [] && P ls)
      | .error _ => false) = true) : ∃ ls, Reads (testAnswered ls s) hostOk ovf lanes ls ∧ P ls = true := by
  cases hm : lanes.mapM (xlateLane s hostOk .read ovf) with
  | ok ls =>
    rw [hm] at h
    simp only [Bool.and_eq_true, beq_iff_eq] at h
    exact ⟨ls, Or.inl h.1, h.2.2⟩
  | error e => rw [hm] at h; simp at h

/-- An answer to an operation of the agent. -/
def testOpAnswer (x : Word) : OpData := ⟨x, 0, 0x7FC0, false, false⟩
/-- The answer x to the agent's operation has come. -/
def testOp (x : Word) (s : State) : State := { s with ag := { s.ag with run := .blocked (.op 5 (some (testOpAnswer x))) } }
theorem testFresh {s : State} (h : (match s.ag.run with | .blocked (.op _ (some _)) => false | _ => true) = true) : Fresh s := by
  intro k d e; rw [e] at h; simp at h
theorem testDone (x : Word) (s : State) : Answered (testOp x s) (testOpAnswer x) := ⟨5, rfl⟩

/-- A message with the number 3, of a context of era 1; it is at its destination or at the interface there. -/
def testMsg (src dst : CoreId) (arrived : Bool) (b : Body) : Msg :=
  ⟨3, src, dst, 0, src, dst, 0, 1, 0, false, false, arrived, 0, false, .there, b⟩

/-- The address of a byte of a core's slice in the window. -/
def testWin (c o : Nat) : Word := BitVec.ofNat 64 (0xFE * 2 ^ 48 + c * 2 ^ 22 + o)

/-- Storage declared: 4 KiB of scratchpad, 16 futures, 8 node records, 4 tile buffers, 4 barriers, 4 agents. -/
def testKd : KDesc := { KDesc.none with
  ns := 32, nv := 32, np := 8, nt := 8, tiles := 4, futures := 16, spad := 4096, arena := 8, barriers := 4, agents := 4 }

/-- Core 1 of the context. -/
def testCore1 : Core := { Core.fresh (ctxCore 0 1) with ctx := some 0, kd := testKd, prepared := true }

/-- The TLB maps HBM pages at 0 and 0x10000 and a host page at 0x20000; 0x50000 misses. -/
def testMem : State :=
  { testBase with
    core := { testBase.core with
      kd := testKd
      tlb := [⟨0, 0, 0, 16, 0, true, false, true, false⟩, ⟨0, 0, 0x10000, 16, 0x10000, true, true, false, false⟩,
        ⟨0, 0, 0x20000, 16, 2 ^ 51 + 0x30000, true, true, false, false⟩] }
    cores := [testCore1] }

/-- A vector register with a tag. -/
def testVT (r : Reg) (t : Tag) (s : State) : State := { s with ag := { s.ag with vtag := s.ag.vtag.set r.toNat t r.isLt } }

theorem test_witness_EncodeThenDecode : Instr.isEvent (.ldpair 4 2 5 16) = false ∧ Instr.wf (.ldpair 4 2 5 16) = true := by
  decide

theorem test_witness_DecodeThenEncode : 0xFFFFFFFF < 2 ^ 32 ∧ decodeWords 0xC1210000 0x000186A0 = .ok (.addl 4 4 .byStatus 100000) :=
  ⟨by decide, testOk _ (by decide +kernel)⟩

/-- One agent may issue, and nothing else may happen. -/
def testStart (w : Nat) : State := State.reset.withFetchWord 32 w
/-- A long form. -/
def testStart2 (w : Nat) : State := State.reset.withFetchWord 64 w

theorem test_witness_StepRunsTheDecodedInstruction_short :
    pickOne (testStart 0x15100019).draws (candidates (testStart 0x15100019)) = some (.agent 0) ∧
    inHand (atIssue 0 (testStart 0x15100019)).ag = none ∧
    fetchWord (atIssue 0 (testStart 0x15100019)) (atIssue 0 (testStart 0x15100019)).ag.pc = .word 0x15100019 ∧
    longWord 0x15100019 = false := by decide +kernel
theorem test_witness_StepRunsTheDecodedInstruction_long :
    let s := testStart2 0xFEDCBA98C0180080
    pickOne s.draws (candidates s) = some (.agent 0) ∧ inHand (atIssue 0 s).ag = none ∧
    fetchWord (atIssue 0 s) (atIssue 0 s).ag.pc = .word 0xC0180080 ∧
    longWord 0xC0180080 = true ∧ fetchWord (atIssue 0 s) ((atIssue 0 s).ag.pc + 4) = .word 0xFEDCBA98 := by decide +kernel
/-- An agent that is blocked in an instruction and goes on with it. -/
theorem test_witness_StepRunsTheDecodedInstruction_inHand :
    let s := testStart 0x15100019
    let r := { s with ag := { s.ag with run := .blocked .quiet, inhand := some (.fence .system) } }
    pickOne r.draws (candidates r) = some (.agent 0) ∧ inHand (atIssue 0 r).ag = some (.fence .system) := by decide +kernel
/-- A package whose bring-up is complete. -/
def testUp : State := { State.reset with boot := { State.reset.boot with reached := 7 } }
/-- A report of a fault, and nothing else to do. -/
theorem test_witness_StepRunsTheDecodedInstruction_event :
    let s := { testUp with faultReports := [(0, 0)] }
    pickOne s.draws (candidates s) = some (.event (.instanceFault 0 0)) := by decide +kernel
/-- A request of the host, and nothing else to do. -/
theorem test_witness_StepRunsTheDecodedInstruction_input :
    let s := { testUp with inputs := [.packageReset] }
    pickOne s.draws (candidates s) = some (.input 0) ∧ s.inputs[0]? = some .packageReset := by decide +kernel
/-- An error from outside, and nothing else to do. -/
theorem test_witness_StepRunsTheDecodedInstruction_soft :
    let s := { testUp with softErrors := [.registerFile 3] }
    pickOne s.draws (candidates s) = some (.soft 0) ∧ s.softErrors[0]? = some (.registerFile 3) := by decide +kernel
theorem test_witness_UndecodableWordsTrap :
    let s := { testStart 0x30000000 with ag := { (testStart 0x30000000).ag with trapvec := 0x1000 } }
    pickOne s.draws (candidates s) = some (.agent 0) ∧
    inHand (atIssue 0 s).ag = none ∧
    fetchWord (atIssue 0 s) (atIssue 0 s).ag.pc = .word 0x30000000 ∧ Handles (issued (atIssue 0 s)) := by
  unfold Handles; decide +kernel

theorem test_witness_StepsKeepMemoryCanonical : Canonical (testStart 0x15100019) ∧ ∃ t, step (testStart 0x15100019) = .next t :=
  ⟨by unfold Canonical; decide +kernel, testGoes (by decide +kernel)⟩

theorem test_witness_MemoryReadAfterWrite : Memory.wf testMem.mem = true ∧ 1 ≠ 0 := by decide +kernel

/-- Every register of an agent of 32, 32 and 8 registers, and s0 as destination. -/
theorem test_witness_IntegerArithmetic : Free [.s 31, .s 30, .s 29] testBase ∧ Free [.s 0, .s 0, .s 0] testBase := by
  unfold Free; decide +kernel
/-- A divisor that is zero, and one that is not. -/
theorem test_witness_IntegerArithmetic_divide : getS testBase 2 = 0 ∧ getS (testS [(2, 1)] testBase) 2 ≠ 0 := by decide +kernel
theorem test_witness_LogicAndShifts : Free [.s 31, .s 30] testBase ∧ Free [.s 31, .s 30, .s 29] testBase := by
  unfold Free; decide +kernel
theorem test_witness_ConstantForms : Free [.s 31, .s 30, .s 29, .p 7] testBase := by unfold Free; decide +kernel
theorem test_witness_IntegerCompare : (7 : Reg).toNat < 8 ∧ Free [.p 7, .s 1, .s 2] testBase := by unfold Free; decide +kernel
theorem test_witness_FloatArithmetic : Free [.s 1, .s 2, .s 3] testBase := by unfold Free; decide +kernel
theorem test_witness_FloatConversion : Free [.s 1, .s 2] testBase := by unfold Free; decide +kernel
theorem test_witness_FloatCompare : (0 : Reg).toNat < 8 ∧ Free [.p 0, .s 1, .s 2] testBase := by unfold Free; decide +kernel
theorem test_witness_Rounding : 0x7F7F < 2 ^ fmtWidth fmtBF16 ∧ fvIsNan (fvDecode fmtBF16 0x7F7F) = false ∧
    fvIsNan (fvDecode fmtBF16 0xFF80) = false ∧ 2 * (3 % 2 ^ 1) = 2 ^ 1 := by decide +kernel

theorem test_witness_ControlFlow_branch : Free [.p 1] testBase ∧ (getP testBase 1).getLsbD 0 = false ∧
    (getP (testP 1 1 testBase) 1).getLsbD 0 = true := by unfold Free; decide +kernel
theorem test_witness_ControlFlow_jumps : Free [.s 31] testBase ∧ Aligned 4 (getS testBase 31) ∧
    Aligned 4 (getS (testS [(31, 0xFFFFFFFFFFFFFFFC)] testBase) 31) := by unfold Free Aligned; decide +kernel
theorem test_witness_ControlFlow_loop : Free [.s 2] testBase ∧ (getS (testS [(2, 1)] testBase) 2).toNat ≤ 1 ∧
    1 < (getS (testS [(2, 2)] testBase) 2).toNat := by unfold Free; decide +kernel
theorem test_witness_ControlFlow_traps : Handles testBase ∧ ¬ Aligned 4 (getS (testS [(31, 2), (1, 3)] testBase) 31) ∧
    ¬ Aligned 4 (getS (testS [(1, 3)] testBase) 1 + 4 * (0 : BitVec 32).signExtend 64) ∧
    ¬ Aligned 4 (({ testBase with ag := { testBase.ag with pc := 2 } } : State).ag.pc + 4 * (0 : BitVec 32).signExtend 64) := by
  unfold Handles Aligned; decide +kernel

theorem test_witness_RegistersBeyondTheirCountTrap :
    let s := { testBase with ag := { testBase.ag with ns := 15, nv := 15, np := 7, nt := 7 } }
    Handles s ∧ s.ag.ns ≤ (15 : Reg).toNat ∧ (14 : Reg).toNat < s.ag.ns ∧ s.ag.nv ≤ (15 : Reg).toNat ∧
      s.ag.np ≤ (7 : PReg).toNat ∧ s.ag.nt ≤ (7 : Reg).toNat ∧ 8 ≤ (8 : Reg).toNat ∧ 16 ≤ (16 : Reg).toNat ∧
      isVectorCore s.ag.place = false := by unfold Handles; decide +kernel
theorem test_witness_ControlRegisters : Free [.s 31] testBase ∧ enginesBusy testBase = false ∧ Handles testBase := by
  unfold Free Handles; decide +kernel
/-- An entry of the coprocessor queue keeps the engines busy. -/
theorem test_witness_ControlRegisters_waits :
    let s := { testBase with core := { testBase.core with coq := [⟨0, .azero 0⟩] } }
    Free [.s 31] s ∧ enginesBusy s = true := by unfold Free; decide +kernel
theorem test_witness_TakingATrap : Handles testBase ∧ ¬ Handles State.reset ∧
    ¬ Handles { testBase with ag := { testBase.ag with handler := true } } := by unfold Handles; decide +kernel

/-! ### Vectors -/

/-- Vector registers 1 and 2 hold 0x3F800000 lanes; p1 is all ones. -/
def testVec : State := testP 1 0xFFFFFFFFFFFFFFFF
  (testV 1 (testLanes 32 (List.replicate 16 0x3F800000)) (testV 2 (testLanes 32 (List.replicate 16 0x40000000)) testBase))

theorem test_witness_LaneArithmetic : Free [.v 31, .v 1, srcUse (.v 2), .p 7] testVec ∧ Clean (1 :: srcVecs (.v 2)) testVec ∧
    Free [.v 31, .v 1, srcUse (.s 31), .p 0] testVec ∧ Clean [31] testVec ∧
    laneKind .f32 (tagFormat (getVT testVec 1)) = some (.flt fmtF32) ∧ VTy.modeOk .b8 .sat = true := by
  unfold Free Clean; decide +kernel
theorem test_witness_LaneResults : 0 < 8 ∧ 0xFF < 2 ^ 8 ∧ VCond.gt ≠ .un ∧ fvIsNan (fvDecode fmtF32 0x7FC00000) = true := by
  decide +kernel
theorem test_witness_LaneBits : Free [.v 31, .v 1, srcUse (.s 31), .p 7] testVec ∧ Clean (1 :: srcVecs (.s 31)) testVec ∧
    VTy.isFloat .i64 = false := by unfold Free Clean; decide +kernel
theorem test_witness_LaneMoves : Free [.v 31, .v 1, srcUse (.v 2), .p 7] testVec ∧ Clean (1 :: srcVecs (.v 2)) testVec ∧
    Free [.v 31, .s 31, .p 7] testVec ∧ Free [.v 31] testVec ∧ Free [.v 31, .s 1, .s 2] testVec ∧
    Free [.s 31, .v 1, .s 2] testVec ∧ Clean [1] testVec ∧ (15 : Reg).toNat < VTy.lanes .f32 ∧ (31 : Reg).toNat < VTy.lanes .b8 ∧
    VTy.isFloat .i32 = false := by unfold Free Clean; decide +kernel
theorem test_witness_VectorCompare : Free [.p 7, .v 1, srcUse (.v 2), .p 1] testVec ∧ Clean (1 :: srcVecs (.v 2)) testVec ∧
    laneKind .f32 (tagFormat (getVT testVec 1)) = some (.flt fmtF32) ∧ VTy.isFloat .f32 = true ∧ Free [.s 31, .p 7] testVec := by
  unfold Free Clean; decide +kernel
theorem test_witness_Reductions : Free [.v 31, .v 1, .p 1] testVec ∧ Clean [1] testVec ∧
    laneKind .i16 (tagFormat (getVT testVec 1)) = some (.int true) ∧ VTy.modeOk .i16 .sat = true ∧ RedOp.isBitwise .xor = true ∧
    VTy.isFloat .i16 = false := by unfold Free Clean; decide +kernel
theorem test_witness_WrappingReduction : (List.range (VTy.lanes .i64)).filter (fun i => (0 : Word).getLsbD (i * VTy.bytes .i64)) = [] := by
  decide +kernel
theorem test_witness_TranscendentalLanes : Free [.v 31, .v 1, .p 1] testVec ∧ Clean [1] testVec := by
  unfold Free Clean; decide +kernel

/-- Lanes of one count: f32 read as i32. -/
theorem test_witness_VectorConversion_lanes : VTy.modeOk .f32 .byStatus = true ∧ Free [.v 31, .v 1, .s 31, .p 1] testVec ∧
    Clean [1] testVec ∧ VTy.bytes .f32 = VTy.bytes .i32 ∧
    getS (testS [(31, 0x20000)] testVec) 31 = BitVec.ofNat 64 (VTy.code .i32 * 2 ^ 16) := by unfold Free Clean; decide +kernel
/-- The descriptor 0 reads i8 elements of a block tagged 0x8020, from element 0, into f32. -/
theorem test_witness_VectorConversion_elements :
    let s := testVT 1 0x8020 testVec
    (getS s 31).toNat / 2 ^ 16 % 256 = VTy.code .b8 ∧ ∃ el, elemsOf s.core.topx (getVT s 1) (getV s 1) = .ok el ∧
      0 + min el.count (VTy.lanes .f32) ≤ max el.count (VTy.lanes .f32) ∧ el.count = 64 := by
  intro s
  refine ⟨by decide +kernel, ?_⟩
  have h : (match elemsOf s.core.topx (getVT s 1) (getV s 1) with
      | .ok el => decide (0 + min el.count (VTy.lanes .f32) ≤ max el.count (VTy.lanes .f32) ∧ el.count = 64)
      | .error _ => false) = true := by decide +kernel
  cases hm : elemsOf s.core.topx (getVT s 1) (getV s 1) with
  | ok el => rw [hm] at h; exact ⟨el, rfl, of_decide_eq_true h⟩
  | error e => rw [hm] at h; simp at h
theorem test_witness_VectorConversion_bad : Handles testVec ∧ (getS (testS [(31, 0x100000000)] testVec) 31).toNat / 2 ^ 32 ≠ 0 ∧
    (getS (testS [(31, 0x80000)] testVec) 31).toNat / 2 ^ 19 % 32 ≠ 0 ∧ VTy.f32 ≠ .b8 ∧
    (BitVec.ofNat 16 (getS (testS [(31, 0x20001)] testVec) 31).toNat : Tag) ≠ 0 := by unfold Handles; decide +kernel

/-- A valid slot for VSMPL in block 1: id 5 with logit 1.0 in slot 0. -/
def testSlot : State := testV 1 (testLanes 32 ([0x3F800000] ++ List.replicate 7 0xFF800000 ++ [5] ++ List.replicate 7 0xFFFFFFFF)) testBase
theorem test_witness_GenerationInstructions : Free [.v 31, .v 1, .s 31, .p 1] testVec ∧ Clean [1, 31] testVec ∧
    Free [.v 31, .v 1, .s 31] testSlot ∧ Clean [1] testSlot ∧ Handles testSlot ∧
    (vsmplChoose testSlot.ag.rngkey (getV testSlot 1) (getS testSlot 31)).isSome = true ∧
    vsmplChoose testBase.ag.rngkey (testLanes 32 (List.replicate 16 0xFFFFFFFF)) (getS testBase 31) = none ∧
    Free [.p 7, .v 1, .s 31, .p 1] testVec ∧ (7 : Reg).toNat < 8 ∧ Free [.v 31, .s 31, .p 1] testVec ∧
    (getS (testS [(31, 0x80000000)] testVec) 31).toNat % 2 ^ 32 = 2 ^ 31 ∧
    (getS testVec 31).toNat % 2 ^ 32 = 0 := by unfold Free Clean Handles; decide +kernel

theorem test_witness_PoisonedSourcesTrap :
    let s := testVT 1 0xFF20 testVec
    Free [.v 31, .v 1, .v 3, .s 3, srcUse (.v 2), .p 7] s ∧ Handles s ∧ poisoned (getVT s 1) = true := by
  unfold Free Handles; decide +kernel

/-! ### Memory -/

/-- s1 holds an address. -/
def testAt (x : Word) : State := testS [(1, x)] testMem

/-- A load beyond the core before and after its replies, one of the own slice, and a pair. -/
theorem test_witness_ScalarLoads : Free [.s 31, .s 1] testMem ∧ Free [.s 4, .s 1, .s 5] testMem ∧
    (∃ ls, Reaches (testAt 0x1FFF8) true .read (leasedOverflow testMem) [(0x1FFF8, 8)] ls ∧
      (remoteBlocks (testAt 0x1FFF8) ls != []) = true) ∧ gotReads (testAt 0x1FFF8) = none ∧
    (∃ ls, Reads (testAnswered ls (testAt 0x20000)) true [] [(0x20000, 64)] ls ∧ (ls.length == 1) = true) ∧
    (∃ ls, Reads (testAt (testWin 0 0)) false (leasedOverflow testMem) [(testWin 0 0, 16)] ls ∧ ls.length == 1) ∧
    Aligned 8 0x1FFF8 ∧ Aligned 64 0x20000 ∧ Aligned 16 (testWin 0 0) ∧ Handles testMem :=
  ⟨by unfold Free; decide +kernel, by unfold Free; decide +kernel, testReach _ (by decide +kernel), by decide +kernel, testReplied _ (by decide +kernel),
    testRead _ (by decide +kernel), by unfold Aligned; decide, by unfold Aligned; decide, by unfold Aligned; decide,
    by unfold Handles; decide +kernel⟩

/-- Locations that no shared buffer guards. -/
def testUnguarded (s : State) (ls : List (List XOk)) : Bool :=
  ((ls.flatten.map (·.loc)).map (aliasLoc s.ag)).findSome? (guardedBuf s) == none

theorem test_witness_ScalarStores : Free [.s 31, .s 1] testMem ∧ Free [.s 4, .s 1, .s 5] testMem ∧
    (∃ ls, Reaches (testAt 0x2FFFF) true .write [] [(0x2FFFF, 1)] ls ∧ testUnguarded (testAt 0x2FFFF) ls) ∧
    (∃ ls, Reaches (testAt (testWin 0 4096)) false .write [] [(testWin 0 4096, 64)] ls ∧ testUnguarded (testAt (testWin 0 4096)) ls) ∧
    ∃ ls, Reaches (testAt 0x10000) false .write [] [(0x10000, 16)] ls ∧ testUnguarded (testAt 0x10000) ls :=
  ⟨by unfold Free; decide +kernel, by unfold Free; decide +kernel, testReach _ (by decide +kernel), testReach _ (by decide +kernel),
    testReach _ (by decide +kernel)⟩

/-- In the own slice, and beyond it. -/
theorem test_witness_LoadAfterStore :
    (∃ ls, Reaches (testAt (testWin 0 0)) true .write [] [(testWin 0 0, 8)] ls ∧ (testUnguarded testMem ls &&
      decide ((locsOf testMem ls).headD []).Nodup && inSlice testMem.ag.place (((locsOf testMem ls).headD []).headD 0))) ∧
    (∃ ls, Reaches (testAt 0x10000) true .write [] [(0x10000, 8)] ls ∧ (testUnguarded testMem ls &&
      decide ((locsOf testMem ls).headD []).Nodup && !inSlice testMem.ag.place (((locsOf testMem ls).headD []).headD 0))) ∧
    (∃ t, exec (.st 2 1 .d64 0) (testAt 0x10000) = .next t) ∧ isComputeCore testMem.ag.place = true ∧ testMem.ag.posted = [] :=
  ⟨testReach _ (by decide +kernel), testReach _ (by decide +kernel), testGoes (by decide +kernel), by decide +kernel,
    by decide +kernel⟩

/-- Lanes at a stride, at indices, and the rows of a tile. -/
def testRows (a : Word) (n : Nat) : List Lane := (List.range n).map fun i => (a + BitVec.ofNat 64 (64 * i), 64)
def testTile : State := { testMem with ag := { testMem.ag with tshape := 0x0000000000000FF6 } }
theorem test_witness_VectorLoads :
    Free [.v 31, .s 1] testMem ∧ Free [.v 31, .s 1, .s 2, .p 0] testMem ∧ Free [.v 31, .s 1, .v 2, .p 0] testMem ∧ Clean [2] testMem ∧
    (∃ ls, Reads (testAnswered ls testMem) true (leasedOverflow testMem) [(0x1FFC4, 60), (0x20000, 4)] ls ∧ ls.length == 2) ∧
    (∃ ls, Reads testMem true (leasedOverflow testMem) [(testWin 0 64, 64)] ls ∧ ls.length == 1) ∧
    (∃ ls, Reads (testAnswered ls testMem) true [] ((List.range 16).map fun i => (0x20000 + BitVec.ofNat 64 i * 128, 4)) ls ∧
      ls.length == 16) ∧
    (∃ ls, Reads testMem false [] ((List.range 16).map fun i => (testWin 0 0 + BitVec.ofNat 64 (i * 4), 4)) ls ∧
      ls.length == 16) ∧
    ((List.range 16).all fun i => decide ((testWin 0 (4 * i)).toNat / 2 ^ 48 = 0xFE ∧
      coreNear testMem.ag.place ((testWin 0 (4 * i)).toNat / 2 ^ 22) = testMem.ag.place)) = true ∧
    Free [.t 0, .s 1] testTile ∧ tileType testTile 0 ≠ 15 ∧ tileRows testTile 0 = 15 ∧
    ∃ ls, Reads (testAnswered ls testTile) true [] (testRows 0x20000 16) ls ∧ ls.length == 16 :=
  ⟨by unfold Free; decide +kernel, by unfold Free; decide +kernel, by unfold Free; decide +kernel,
    by unfold Clean; decide +kernel, testReplied _ (by decide +kernel), testRead _ (by decide +kernel), testReplied _ (by decide +kernel),
    testRead _ (by decide +kernel), by decide +kernel, by unfold Free; decide +kernel, by decide +kernel, by decide +kernel,
    testReplied _ (by decide +kernel)⟩
theorem test_witness_VectorStores :
    (∃ ls, Reaches testMem true .write [] [(0x1FFC4, 60), (0x20000, 4)] ls ∧ testUnguarded testMem ls) ∧
    (∃ ls, Reaches testMem true .write [] ((List.range 16).map fun i => (0x20000 + BitVec.ofNat 64 i * 128, 4)) ls ∧
      testUnguarded testMem ls) ∧
    (∃ ls, Reaches testMem false .write [] ((List.range 16).map fun i => (testWin 0 0 + BitVec.ofNat 64 (i * 4), 4)) ls ∧
      testUnguarded testMem ls) ∧
    ∃ ls, Reaches testTile true .write [] (testRows 0x10000 16) ls ∧ testUnguarded testTile ls :=
  ⟨testReach _ (by decide +kernel), testReach _ (by decide +kernel), testReach _ (by decide +kernel), testReach _ (by decide +kernel)⟩

/-- Stores of a poisoned register, at an address, at a stride and at indices of the own slice. -/
theorem test_witness_PoisonedSourcesTrap_stores :
    let s := testVT 1 0xFF20 testMem
    Free [.v 1, .s 1, .s 2, .p 0] s ∧ Free [.v 1, .s 1, .v 3, .p 0] s ∧ poisoned (getVT s 1) = true ∧ Clean [3] s ∧ Handles s ∧ Fresh s ∧
      (∃ ls, Reaches s true .write [] (blockLanes (0x10000 : Word)) ls ∧ true = true) ∧
      (∃ ls, Reaches s true .write [] ((List.range 16).map fun i => (0x10000 + BitVec.ofNat 64 i * 128, 4)) ls ∧ true = true) ∧
      (∃ ls, Reaches s false .write [] ((List.range 16).map fun i => (testWin 0 0 + BitVec.ofNat 64 (i * 4), 4)) ls ∧ true = true) :=
  ⟨by unfold Free; decide +kernel, by unfold Free; decide +kernel, by decide +kernel, by unfold Clean; decide +kernel,
    by unfold Handles; decide +kernel, testFresh (by decide +kernel), testReach _ (by decide +kernel), testReach _ (by decide +kernel),
    testReach _ (by decide +kernel)⟩
/-- A tile with a poisoned row 3. -/
def testIll : Tile := { Tile.zero with tags := Tile.zero.tags.set 3 0xFF20 }
/-- TCOL from it, and into a tile from a poisoned register; and TMMA on a vector core with it as C, as A and as B. -/
theorem test_witness_PoisonedSourcesTrap_tiles :
    let r := testVT 1 0xFF20 testMem
    let s := { r with ag := { r.ag with tshape := 0xFFFFFFFFFFF6F6F6, t := r.ag.t.set 0 testIll } }
    let v := { s with core := { s.core with id := ctxCore 0 3 }, ag := { s.ag with place := ctxCore 0 3 } }
    let ill := fun (n : Reg) => (List.range (tileRows v n + 1)).any fun i => poisoned (tileTag (getT v n) i)
    Free [.v 31, .t 0, .s 31] s ∧ tileType s 0 ≠ 15 ∧ poisoned (getVT s 1) = true ∧ 3 < colLanes (tileTy s 0) ∧
      colRow (tileTy s 0) 0 3 ≤ tileRows s 0 ∧ poisoned (tileTag (getT s 0) (colRow (tileTy s 0) 0 3)) = true ∧ Has .xd v ∧
      Free [.t 0, .t 1, .t 2] v ∧ tileType v 0 = 6 ∧ tileType v 1 = 6 ∧ tileType v 2 = 6 ∧ tileRows v 2 + 1 = 16 ∧ tileRows v 0 + 1 = 16 ∧
      tileRows v 1 = tileRows v 0 ∧ ill 0 = true ∧ ill 1 = false ∧ ill 2 = false := by
  unfold Free Has; decide +kernel
/-- Equal destinations of LDPAIR in the own slice. -/
theorem test_witness_ScalarLoads_pair : Free [.s 4, .s 1, .s 4] testMem ∧ (4 : Reg) ≠ 0 ∧ gotReads testMem = none ∧
    ∃ ls, Reaches testMem false .read (leasedOverflow testMem) [(testWin 0 0, 16)] ls ∧ true = true :=
  ⟨by unfold Free; decide +kernel, by decide, by decide +kernel, testReach _ (by decide +kernel)⟩
/-- A misaligned address, one beyond every region, a host page for an atomic, and a page that misses. -/
theorem test_witness_AccessChecks : Handles testMem ∧ gotReads testMem = none ∧ Fresh testMem ∧ Free [.s 31, .s 1, .s 2] testMem ∧ ¬ Aligned 8 (0x10004 : Word) ∧
    laneBounds testMem true .read [] (0xF000000000000000, 8) = true ∧ laneBounds testMem false .readWrite [] (0x20000, 8) = true ∧
    laneBounds testMem true .write [] (0x50000, 8) = false ∧ laneMiss testMem true .write [] (0x50000, 8) = some 0x50000 :=
  ⟨by unfold Handles; decide +kernel, by decide +kernel, testFresh (by decide +kernel), by unfold Free Aligned; decide +kernel⟩

theorem test_witness_MemoryMap_holes : shadowOf testMem testMem.core (0xFF00000000000000 : Word).toNat = none ∧
    0xF0 ≤ (0xFF00000000000000 : Word).toNat / 2 ^ 48 ∧ (0xFF00000000000000 : Word).toNat / 2 ^ 48 ≠ 0xFE := by decide +kernel
theorem test_witness_MemoryMap_window : isComputeCore (ctxCore 0 (0xFE00000000400000 / 2 ^ 22)) = true ∧
    (getCore testMem (ctxCore 0 (0xFE * 2 ^ 48 / 2 ^ 22))).ctx = some 0 ∧ 8831 < accEnd testMem.core.kd ∧ 8832 ≤ accEnd testMem.core.kd ∧
    accEnd testMem.core.kd ≤ 2 ^ 20 - 1 := by decide +kernel
theorem test_witness_MemoryMap_bad : (getCore testMem (ctxCore 0 7)).ctx ≠ some 0 ∧ 0xFE00000100000000 / 2 ^ 32 % 2 ^ 16 ≠ 0 ∧
    0xFE00000000100000 / 2 ^ 20 % 2 ≠ 0 := by decide +kernel

/-- The first location of an access. -/
def testLoc (ls : List (List XOk)) : Nat := ((ls.headD []).map (·.loc)).headD 0
/-- A write of the agent whose data an ARD has yet to give. -/
def testUnready (l : Nat) (s : State) : State := { s with ag := { s.ag with posted := [⟨1, 2, [(l, 3)], [], true, 0, false, false⟩] } }

/-- An atomic on another slice, on HBM, on the own slice with a store not yet performed there; one that waits for an earlier write
that has still to leave; and one that its answer has reached. -/
theorem test_witness_AtomicOperations : Free [.s 31, .s 1, .s 2] testMem ∧ Aligned 4 (testWin 1 0) ∧ Aligned 8 (testWin 0 0) ∧
    Fresh testMem ∧
    (∃ ls, Reaches (testAt (testWin 1 0)) false .readWrite [] [(testWin 1 0, 4)] ls ∧ (testUnguarded testMem ls &&
      (homeName (testLoc ls) != testMem.ag.place && !heldBack testMem (homeName (testLoc ls))) &&
      decide (settled ((locsOf testMem ls).headD []) (testAt (testWin 1 0)) = some (testAt (testWin 1 0)))) = true) ∧
    (∃ ls, Reaches (testAt (testWin 0 0)) false .readWrite [] [(testWin 0 0, 8)] ls ∧ (testUnguarded testMem ls &&
      homeName (testLoc ls) == testMem.ag.place &&
      (let s := postStore [((((locsOf testMem ls).headD []).headD 0), 7)] [] (testAt (testWin 0 0))
       decide (∃ u ∈ settled ((locsOf testMem ls).headD []) s, u.ag.posted = [] ∧ s.ag.posted ≠ []))) = true) ∧
    (∃ ls, Reaches (testAt (testWin 0 0)) false .readWrite [] [(testWin 0 0, 8)] ls ∧ (testUnguarded testMem ls &&
      settled ((locsOf testMem ls).headD []) (testUnready (testLoc ls) (testAt (testWin 0 0))) == none) = true) ∧
    Answered (testOp 7 testMem) (testOpAnswer 7) ∧ Free [.s 31, .s 1, .s 2] (testOp 7 testMem) :=
  ⟨by unfold Free; decide +kernel, by unfold Aligned; decide, by unfold Aligned; decide, testFresh (by decide +kernel),
    testReach _ (by decide +kernel), testReach _ (by decide +kernel), testReach _ (by decide +kernel), testDone _ _,
    by unfold Free; decide +kernel⟩

theorem test_witness_Fences : Free [.s 31] testMem ∧ testMem.ag.outreq = 0 ∧ (∀ e ∈ testMem.core.coq, e.aid ≠ testMem.ag.aid) ∧
    Scope.system ≠ .agent ∧ Scope.system ≠ .core ∧ Handles testMem ∧
    ({ testMem with ag := { testMem.ag with outreq := 1 } } : State).ag.outreq ≠ 0 ∧ farDue .system testMem = [] ∧
    farDue .system { testMem with ag := { testMem.ag with farDirty := [2 ^ 53] } } ≠ [] := by unfold Free Handles; decide +kernel
/-- Only a store to HBM is pending; and a store to the own slice whose data an ARD has yet to give. -/
theorem test_witness_Fences_pending :
    let w : PWrite := ⟨1, 2, [(64, 3)], [], true, 0, true, true⟩
    let v : PWrite := ⟨1, 2, [(sliceBase testMem.ag.place + 64, 3)], [], false, 0, false, false⟩
    let s := fun (w : PWrite) => { testMem with ag := { testMem.ag with posted := [w] } }
    ((drainAll (s w)).ag.posted.all fun w => !inSlice (s w).ag.place (writeLoc w)) = true ∧
      ((drainAll (s v)).ag.posted.any fun w => inSlice (s v).ag.place (writeLoc w)) = true := by decide +kernel

/-! ### Barriers, futures, queue registers -/

/-- A result of a check. -/
theorem testEx {ε α : Type} {x : Except ε α} (P : α → Bool) (h : (match x with | .ok a => P a | .error _ => false) = true) :
    ∃ a, x = .ok a ∧ P a = true := by
  cases x with
  | ok a => exact ⟨a, rfl, h⟩
  | error e => simp at h
/-- A value that is there. -/
theorem testSome {α : Type} {x : Option α} (P : α → Bool) (h : (match x with | some a => P a | none => false) = true) :
    ∃ a, x = some a ∧ P a = true := by
  cases x with
  | some a => exact ⟨a, rfl, h⟩
  | none => simp at h

/-- Barrier 3 of the own core expects 5 and has counted 4; future 0 is full. -/
def testBar : State :=
  { testAt (testWin 0 3) with core := { testMem.core with bars := [(3, ⟨9, 5, 4⟩)], full := [4096] } }

/-- A barrier of the own core: with an expectation, for one arrival and one too many, and without; and one of another core. -/
theorem test_witness_BarriersAndFutures_barrier : Scope.core ≠ .agent ∧ Free [.s 31, .s 1, .s 2] testBar ∧ quiet testBar = true ∧
    wokenValue testBar = none ∧ Handles testBar ∧ farDue .core testBar = [] ∧ Fresh testBar ∧
    (∃ p, barrierOf testBar (getS testBar 1) = .ok p ∧ (decide (p.1.id = testBar.ag.place) && p.1.waiters.isEmpty && p.2 == 3 &&
      (let w := getBar (getCore (publishNow .core testBar) p.1.id) p.2
       w.expect != 0 && decide (w.count.toNat + 1 ≤ w.expect.toNat) && decide (w.expect.toNat < w.count.toNat + 2) &&
         w.phase == (9 : Word).setWidth 16))) ∧
    ∃ p, barrierOf testBar (testWin 1 0) = .ok p ∧ ((getBar (getCore (publishNow .core testBar) p.1.id) p.2).expect == 0 &&
      decide (p.1.id ≠ testBar.ag.place ∧ heldBack (publishNow .core testBar) p.1.id = false)) :=
  ⟨by decide, by unfold Free; decide +kernel, by decide +kernel, by decide +kernel, by unfold Handles; decide +kernel,
    by decide +kernel, testFresh (by decide +kernel), testEx _ (by decide +kernel), testEx _ (by decide +kernel)⟩
/-- A full and an empty future word of the own core, and one of another core; and a wake and an answer that have come. -/
theorem test_witness_BarriersAndFutures_future : Aligned 8 (testWin 0 4096) ∧ wokenValue testBar = none ∧
    (∃ p, futureOf testBar (testWin 0 4096) = some p ∧ (decide (sliceOff p.2 ∈ p.1.full) && p.1.id == testBar.ag.place &&
      coreOfLoc p.2 == p.1.id && (settled ((List.range 8).map (p.2 + ·)) testBar).isSome)) ∧
    (∃ p, futureOf testBar (testWin 0 4216) = some p ∧ !decide (sliceOff p.2 ∈ p.1.full)) ∧
    (∃ p, futureOf testBar (testWin 1 4096) = some p ∧ (p.1.id != testBar.ag.place && coreOfLoc p.2 == p.1.id &&
      !heldBack testBar p.1.id && settled ((List.range 8).map (p.2 + ·)) testBar == some testBar)) ∧
    ({ testBar with ag := { testBar.ag with run := .blocked (.woken true (some 7)) } } : State).ag.run = .blocked (.woken true (some 7)) ∧
    Answered (testOp 7 testBar) (testOpAnswer 7) :=
  ⟨by unfold Aligned; decide, by decide +kernel, testSome _ (by decide +kernel), testSome _ (by decide +kernel),
    testSome _ (by decide +kernel), by decide +kernel, testDone _ _⟩
/-- What another core does with a request: the barrier of core 0 takes one arrival, and not two. -/
theorem test_witness_BarriersAndFutures_home :
    let w := getBar (getCore testBar testBar.core.id) 3
    w.expect ≠ 0 ∧ w.count.toNat + 1 ≤ w.expect.toNat ∧ ¬ w.count.toNat + 2 ≤ w.expect.toNat ∧
      (getCore testBar testBar.core.id).waiters.length < 64 ∧ ctxCore 0 1 ≠ testBar.ag.place ∧
      coreOfLoc (sliceBase (ctxCore 0 1) + 4096) ≠ testBar.ag.place ∧
      sliceOff (sliceBase (ctxCore 0 1) + 4096) ∉ (getCore testBar (ctxCore 0 1)).full ∧
      sliceOff (sliceBase testBar.core.id + 4096) ∈ (getCore testBar testBar.core.id).full := by decide +kernel
theorem test_witness_BarriersAndFutures_wakes :
    let s := { testMem with
      ag := { testMem.ag with run := .blocked (.woken true none) }
      net := [testMsg (ctxCore 0 1) (ctxCore 0 0) true (.waiter testMem.ag.aid 77)] }
    let r := { testMem with
      ag := { testMem.ag with run := .blocked .waitTable }
      core := { testMem.core with refused := [⟨0, 3, true, false, true⟩] } }
    (∃ p, waiterAt s s.core.id = some p ∧ p.2.2 == 77) ∧ retrying r r.core.id = [⟨0, 3, true, false, true⟩] := by
  intro s r; exact ⟨testSome _ (by decide +kernel), by decide +kernel⟩

/-- A block of an engine that is under way, number 4. -/
def testInflight : Inflight := ⟨0, 4, List.range 64, false, 0, 0x7FC0, false, false, false, false⟩
/-- Queue register 2 with contents. -/
def testQ (es : List QEntry) (st : Option Stream) : State := { testMem with core := setQ 2 ⟨es, st⟩ testMem.core }
def testStream : Stream := ⟨testWin 0 0, 2, 3, 2, 64, 128, 512, 0, false⟩
theorem test_witness_QueueRegisters_put : Free [.q 2, .v 1] testMem ∧ (getQ (testQ [] none).core 2).stream = none ∧
    (getQ (testQ (List.replicate 3 (.data 0 0)) none).core 2).entries.length < 4 ∧ servedLater (testQ [] none) false 2 = false ∧
    4 ≤ (getQ (testQ (List.replicate 4 (.data 0 0)) none).core 2).entries.length ∧ Handles testMem ∧
    (getQ (testQ [] (some testStream)).core 2).stream ≠ none := by unfold Free Handles; decide +kernel
theorem test_witness_QueueRegisters_get : Free [.v 1, .q 2] testMem ∧
    servedLater (testQ [.data 5 0x7FC0, .failed 3 64] none) true 2 = false ∧
    (getQ (testQ [.data 5 0x7FC0, .failed 3 64] none).core 2).entries = [.data 5 0x7FC0, .failed 3 64] ∧
    (getQ (testQ [.failed 3 64] none).core 2).entries = [.failed 3 64] ∧ (getQ (testQ [.coming testInflight] none).core 2).entries = [.coming testInflight] ∧ (getQ (testQ [] none).core 2).entries = [] := by
  unfold Free; decide +kernel
/-- A descriptor that QSTREAM accepts: aligned, counts up to 65536, and its last word 0. -/
def testDesc (b : Block) : Bool :=
  let w := fun (i : Nat) => lane 64 i b % 2 ^ 64
  [0, 4, 5, 6].all (fun i => w i % 64 == 0) && [1, 2, 3].all (fun i => w i ≤ 65536) && w 7 == 0
/-- One strip, and the greatest counts. -/
theorem test_witness_QueueRegisters_stream : Free [.q 2, .v 1] testMem ∧ Free [.q 7] testMem ∧ (drainAll testMem).ag.posted = [] ∧
    testDesc (testLanes 64 [0x10000, 1, 1, 1, 64, 64, 64, 0]) = true ∧
    testDesc (testLanes 64 [0x10000, 65536, 65536, 0, 0, 64, 128, 0]) = true := by
  unfold Free; decide +kernel
theorem test_witness_QueueRegisters_strip :
    let s := testQ [.data 0 0] (some testStream)
    (getQ (getCore s s.core.id) 2).stream = some testStream ∧ testStream.parked = false ∧
    testStream.next < testStream.count1 * testStream.count2 * testStream.count3 ∧ (getCore s s.core.id).stopped = false ∧
    (∃ xs, engLocs s s.core.id true (stripAddr testStream testStream.next) .engRead = .ok xs ∧
      (homeName ((xs.map (·.loc)).headD 0) == s.core.id) = true) ∧ (getQ (getCore s s.core.id) 2).entries = [.data 0 0] ∧
    ∃ xs, engLocs s s.core.id true (stripAddr { testStream with base := 0x10000 } testStream.next) .engRead = .ok xs ∧
      (homeName ((xs.map (·.loc)).headD 0) != s.core.id && !isFarLoc ((xs.map (·.loc)).headD 0)) = true := by
  intro s
  exact ⟨by decide +kernel, by decide, by decide, by decide +kernel, testEx _ (by decide +kernel), by decide +kernel, testEx _ (by decide +kernel)⟩
/-! ### Tiles and the matrix engine -/

/-- t0, t1 and t2 are f32 tiles of 16 rows; t7 is not configured. -/
def testTiles : State := { testMem with ag := { testMem.ag with tshape := 0xFFFFFFFFFFF6F6F6, trest := 4 } }
theorem test_witness_TileRegisters : Free [.t 7, .s 1] testTiles ∧ Free [.t 0] testTiles ∧ Handles testTiles ∧
    (0xF6 % 16 < 8) ∧ ¬ ((8 : Nat) % 16 < 8 ∨ (8 : Nat) % 16 = 15) ∧ tileType testTiles 0 ≠ 15 ∧ tileType testTiles 7 = 15 ∧
    Free [.t 0, .v 31, .s 31] testTiles ∧ (getS testTiles 31).toNat ≤ tileRows testTiles 0 ∧
    getS testTiles 31 = BitVec.ofNat 64 (0 + 64 * 0) ∧ (15 : Word) = BitVec.ofNat 64 (15 + 64 * 0) ∧ 15 < VTy.lanes (tileTy testTiles 0) ∧
    Clean [31] testTiles ∧ tileRows testTiles 0 < (16 : Word).toNat ∧
    (∀ r ≤ tileRows testTiles 0, poisoned (tileTag (getT testTiles 0) r) = false) := by
  unfold Free Handles Clean; decide +kernel
theorem test_witness_TileProducts_queued :
    let s := { testTiles with
      core := { testTiles.core with id := ctxCore 0 3 }, ag := { testTiles.ag with place := ctxCore 0 3, trest := 0 } }
    Has .xd s ∧ Free [.t 0, .t 1, .t 2] s ∧ tileType s 0 = 6 ∧ tileType s 1 = 6 ∧ tileType s 2 = 6 ∧ tileRows s 2 + 1 = 16 ∧
      tileRows s 0 = tileRows s 1 ∧ (∀ n ∈ [(0 : Reg), 1, 2], ∀ r ≤ tileRows s n, poisoned (tileTag (getT s n) r) = false) := by
  unfold Free Has; decide +kernel
theorem test_witness_TileProducts_written :
    let s := { testTiles with ag := { testTiles.ag with tmma := [⟨0, List.replicate 16 5⟩] } }
    let r := { testTiles with ag := { testTiles.ag with run := .blocked (.tileRestore 2 5 0) } }
    s.ag.run ≠ .free ∧ s.ag.tmma = [⟨0, List.replicate 16 5⟩] ∧ (List.replicate 16 (5 : Block)).length ≤ 16 ∧
      r.ag.run = .blocked (.tileRestore (2 : BitVec 3).toNat 5 0) ∧ r.ag.trest.getLsbD (2 : BitVec 3).toNat = true := by
  decide +kernel

/-- A matrix core with slots 0 and 1 of i8 rows and accumulator 0 claimed by agent 0. -/
def testMx : State := { testMem with core := { testMem.core with
  oclaim := ((Vector.replicate 64 none).set 0 (some 0)).set 63 (some 0)
  aclaim := (Vector.replicate 16 none).set 15 (some 0)
  oslots := (Vector.replicate 64 ⟨Vector.replicate 32 0, Vector.replicate 32 0x7F20, 0⟩) } }
theorem test_witness_MatrixEngine_claims : Has .xm testMx ∧ Free [.s 31, .s 1] testMx ∧ Handles testMx ∧
    (∀ k < 64, (getS testMx 1).getLsbD k = true → testMx.core.oclaim.toList.getD k none = none) ∧ slotsComing false testMx 0 = false ∧
    (getS testMx 1).toNat < 2 ^ 16 ∧ 2 ^ 16 ≤ (0x10000 : Word).toNat ∧
    ({ testMx with ag := { testMx.ag with num := 1 } } : State).core.oclaim.toList.getD 63 none ≠ some 1 := by
  unfold Free Has Handles; decide +kernel
theorem test_witness_MatrixEngine_enters : testMx.core.coq.length < 8 ∧ Free [.acc 15] testMx ∧ ownsA testMx 15 = true ∧
    ownsO testMx 0 = true ∧ ownsO testMx 63 = true ∧ Free [.acc 15, .s 1, .s 2] testMx ∧
    mmaOperand (oslotAhead testMx.core 0) none = mmaOperand (oslotAhead testMx.core 63) none ∧
    (mmaOperand (oslotAhead testMx.core 0) none).isSome = true ∧ kindAhead testMx.core 15 = .open_ ∧
    scalesBad (oslotAhead testMx.core 0) (oslotAhead testMx.core 63) none none = false ∧ overrideBad testMx 0x7F20 = none ∧
    narrowDest 0x7F20 ≠ none := by unfold Free; decide +kernel
/-- What repeats a list of accesses that succeed repeats their results. -/
theorem testRepeat {ε α β : Type} {f : α → Except ε β} {l : List α} {m : List β} (h : l.mapM f = .ok m) (n : Nat) :
    (List.replicate n l).flatten.mapM f = .ok (List.replicate n m).flatten := by
  induction n with
  | zero => rfl
  | succ n ih => rw [List.replicate_succ, List.flatten_cons, List.mapM_append, h, ih]; rfl
/-- The same lanes, repeated, reach where no ARD is queued. -/
theorem testReachRepeat {s : State} {hostOk : Bool} {k : FKind} {l lanes : List Lane} (n : Nat)
    (hl : lanes = (List.replicate n l).flatten) (hc : s.ag.posted = [])
    (h : ∃ m, Reaches s hostOk k [] l m ∧ true = true) : ∃ ls, Reaches s hostOk k [] lanes ls := by
  obtain ⟨m, ⟨hm, -⟩, -⟩ := h
  exact ⟨_, by rw [hl]; exact testRepeat hm n, by unfold overlapsArd; rw [hc]; rfl⟩
/-- No location is guarded where no buffer has been declared full. -/
theorem testUnshared {s : State} (hc : s.core.bufs = []) (hs : ∀ c ∈ s.cores, c.bufs = []) (l : Nat) : guardedBuf s l = none := by
  have h : ∀ x, (getCore s x).bufs = [] := by
    intro x
    unfold getCore
    split
    · exact hc
    · cases hf : s.cores.find? (fun c => c.id == x) with
      | none => rfl
      | some c => exact hs c (List.mem_of_find?_eq_some hf)
  unfold guardedBuf
  split <;> simp [bufOf, h, alGet]
theorem testFree {s : State} (hc : s.core.bufs = []) (hs : ∀ c ∈ s.cores, c.bufs = []) (ls : List (List XOk)) : Unguarded s ls := by
  unfold Unguarded
  rw [List.findSome?_eq_none_iff]
  intro x _
  exact testUnshared hc hs x
/-- The replies to a read have come. -/
theorem testHas (s : State) (hostOk : Bool) (ovf : List Nat) (lanes : List Lane) (ls : List (List XOk)) :
    Reads (testAnswered ls s) hostOk ovf lanes ls := Or.inl rfl
/-- An OLOAD of 32 rows and the rows of AWR, with their replies; and the rows of ARD; at a stride of 0. -/
theorem test_witness_MatrixEngine_reads : Free [.s 31, .s 1] testMx ∧ Aligned 64 (testWin 0 0) ∧ Aligned 64 (0 : Word) ∧
    (let lanes : List Lane := (List.range 32).map fun i => (testWin 0 0 + BitVec.ofNat 64 i * 0, 64)
     ∃ ls, Reaches testMx false .read [] lanes ls ∧ Reads (testAnswered ls testMx) false [] lanes ls) ∧
    (∃ ls, Reaches testMx false .read [] (rowLanes (testWin 0 0) 0 (awrBlocks .i32)) ls ∧
      Reads (testAnswered ls testMx) false [] (rowLanes (testWin 0 0) 0 (awrBlocks .i32)) ls) ∧
    ∃ ls, Reaches testMx false .write [] (rowLanes (testWin 0 0) 0 (ardBlocks .bf16)) ls ∧ Unguarded testMx ls :=
  ⟨by unfold Free; decide +kernel, by unfold Aligned; decide, by unfold Aligned; decide,
    (testReachRepeat (l := [(testWin 0 0, 64)]) 32 (by decide +kernel) (by decide +kernel) (testReach _ (by decide +kernel))).imp
      fun ls h => ⟨h, testHas testMx _ _ _ ls⟩,
    (testReachRepeat (l := [(testWin 0 0, 64), (testWin 0 64, 64)]) 32 (by decide +kernel) (by decide +kernel)
      (testReach _ (by decide +kernel))).imp fun ls h => ⟨h, testHas testMx _ _ _ ls⟩,
    (testReachRepeat (l := [(testWin 0 0, 64)]) 32 (by decide +kernel) (by decide +kernel) (testReach _ (by decide +kernel))).imp
      fun ls h => ⟨h, testFree (by decide +kernel) (by decide +kernel) ls⟩⟩
/-- A row that OLOAD takes: its block is tagged 0x7F20. -/
theorem test_witness_MatrixEngine_row :
    let s := { testMx with mem := memSetTag testMx.mem (sliceBase testMx.core.id) 0x7F20 }
    ∃ ls, Reaches s false .read [] [(testWin 0 0, 64)] ls ∧ (ls.all fun xs => tagFormat (agTagOf s xs) == 0x20 &&
      rowBad s 0x20 (agTagOf s xs) (BitVec.ofNat 512 (agNat s xs)) == none) = true := by
  intro s; exact testReach _ (by decide +kernel)
theorem test_witness_MatrixEngine_performed :
    let s := { testMx with core := { testMx.core with coq := [⟨testMx.ag.aid, .azero 15⟩] } }
    s.core.coq = [⟨s.ag.aid, .azero 15⟩] ∧ s.core.id = s.ag.place ∧ s.core.stopped = false ∧ s.ag.run ≠ .free := by decide +kernel
theorem test_witness_IntegerAccumulation : 2 ^ 48 - 1 < 2 ^ 48 ∧ (accInt true 0 (2 ^ 48 - 1) [fvInt 5]).2 = false := by decide +kernel
/-! ### Nodes, tile buffers, pushes, the keyed queue -/

/-- Node i of the own core's arena, and its port j: 0 is the principal. -/
def testNode (i : Nat) : Word := testWin 0 (8320 + 64 * i)
def testPort (i j : Nat) : Word := testNode i + BitVec.ofNat 64 (24 + 8 * j)
/-- Store a word in the own slice. -/
def testPoke (a x : Word) (s : State) : State :=
  { s with mem := memSetWord s.mem (sliceBase s.core.id + a.toNat % 2 ^ 20) x }
/-- A header of kind 16 with two auxiliary ports. -/
def testHdr (dead : Bool) : Word := BitVec.ofNat 64 (16 * 2 ^ 48 + 2 * 2 ^ 46 + (if dead then 2 ^ 43 else 0))
/-- Nodes 0 and 1 live; node 2 DEAD, wired by its port 1 to port 1 of node 1; record 7 free; node records of HBM at 0x30000. -/
def testNet : State :=
  let s := { testMem with core := { testMem.core with
    arena := [0, 1, 2, 3, 4, 5, 6]
    kd := { testKd with hrecs := 4, harena := 0x30000, rules := [(0x400, 0), (0x800, 0x100000)] }
    tlb := ⟨0, 0, 0x30000, 16, 0x20000, true, true, false, false⟩ :: testMem.core.tlb } }
  testPoke (testNode 0) (testHdr false) <| testPoke (testNode 1) (testHdr false) <| testPoke (testNode 2) (testHdr true) <|
    testPoke (testPort 2 1) (wireTo (testPort 1 1)) <| testPoke (testPort 1 1) (wireTo (testPort 2 1)) s

theorem test_witness_NodesAndSharing_new : Free [.s 31, .s 1] testNet ∧ hdrBad (testHdr false) = false ∧
    hdrDead (testHdr false) = false ∧ testNet.core.id = testNet.ag.place ∧ freeRecords testNet.core = [7] ∧
    testNet.core.kd.hrecs ≠ 0 ∧ hbmRecord testNet = some 0 ∧ Handles testNet ∧
    freeRecords { testNet.core with arena := [0, 1, 2, 3, 4, 5, 6, 7] } = [] ∧
    (settled ((List.range 64).map (sliceBase testNet.core.id + arenaBase testNet.core.kd + 64 * 7 + ·)) testNet).isSome = true := by
  unfold Free Handles; decide +kernel
theorem test_witness_NodesAndSharing_reach :
    (∃ ls, Reaches testNet false .readWrite [] [(recordAddr testNet testNet.ag.place (.hbm 0), 64)] ls ∧
      (settled ((List.range 64).map ((((ls.headD []).map (·.loc)).headD 0) + ·)) testNet).isSome = true) ∧
    (∃ ls, Reaches testNet false .readWrite [] [(testNode 4, 1)] ls ∧
      ((settled (nodeLocs (testNode 4) testNet) testNet).any fun u => (settled (nodeLocs (testNode 4) u) u).isSome) = true) ∧
    ∃ ls, Reaches testNet false .readWrite [] [(testPort 0 1, 8), (testPort 1 2, 8)] ls ∧ ls.length == 2 :=
  ⟨testReach _ (by decide +kernel), testReach _ (by decide +kernel), testReach _ (by decide +kernel)⟩
/-- The agent's own stores to the nodes of two ports have been performed. -/
def testSettle (x y : Word) : Option State := (settled (nodeLocs x testNet) testNet).bind fun u => settled (nodeLocs y u) u
/-- The agent may act at a core. -/
def testNear (s : State) (c : CoreId) : Bool := decide (c = s.ag.place) || !heldBack s c
theorem test_witness_NodesAndSharing_wire :
    Free [.s 31, .s 1, .s 2] testNet ∧ Aligned 8 (testPort 0 1) ∧ Aligned 8 (testPort 1 2) ∧
      ((testSettle (testPort 0 1) (testPort 1 2)).any fun s => wireBad s s.ag.place (testPort 0 1) (testPort 1 2) == none &&
        testNear testNet ((homeCore s s.ag.place (lower (testPort 0 1) (testPort 1 2))).getD s.ag.place)) = true ∧
      isPrincipal (testPort 0 1) = false ∧
      ((testSettle (testPort 0 0) (testPort 1 0)).any fun s => wireBad s s.ag.place (testPort 0 0) (testPort 1 0) == none &&
        !fanoutFull s && pairCore s s.ag.place (testPort 0 0) (testPort 1 0) == some (ctxCore 0 0)) = true ∧
      isPrincipal (testPort 0 0) = true ∧ isPrincipal (testPort 1 0) = true := by unfold Free Aligned; decide +kernel
theorem test_witness_NodesAndSharing_link :
    ((testSettle (testPort 0 1) (testPort 2 1)).any fun s => linkBad s s.ag.place (testPort 0 1) (testPort 2 1) == none &&
      portMiss s (farPorts s s.ag.place (testPort 2 1)) == none && testNear testNet ((homeCore s s.ag.place (lockOf s s.ag.place
        (testPort 2 1) (portPartner (netGet s s.ag.place (testPort 2 1))))).getD s.ag.place)) = true ∧ Handles testNet ∧
      ((testSettle (testPort 0 1) (testPort 0 1)).any fun s =>
        linkBad s s.ag.place (testPort 0 1) (testPort 0 1) == some (testPort 0 1)) = true := by unfold Handles; decide +kernel
theorem test_witness_NodesAndSharing_answer :
    let r : LinkReq := ⟨testNet.ag.aid, 31, 0, testPort 0 1, testPort 2 1⟩
    let s := { testNet with core := { testNet.core with linkq := [r] }, ag := { testNet.ag with run := .blocked (.op 31 none) } }
    let s1 := { s with core := { s.core with linkq := [] } }
    s.core.linkq = [r] ∧ s.core.id = s.ag.place ∧ s.core.stopped = false ∧ s.ag.run = .blocked (.op r.key none) ∧ s.ag.aid = r.aid ∧
      portMiss s1 (farPorts s1 s.ag.place r.sa) = none ∧
      portState (netGet s1 s.ag.place r.sa) = 1 ∧
      (homeCore s1 s.ag.place (lockOf s1 s.ag.place r.sa (portPartner (netGet s1 s.ag.place r.sa)))).getD s.ag.place = s.ag.place ∧
      (endOf s1 s.ag.place (portPartner (netGet s1 s.ag.place r.sa)) r.sa).any (fun en => en.live && !en.via) = true ∧
      isPrincipal r.sn = false := by decide +kernel
/-- The same nodes in the slice of core 1. -/
def testFarPort (i j : Nat) : Word := testWin 1 (8320 + 64 * i + 24 + 8 * j)
def testNet1 : State :=
  let put := fun (o : Nat) (x : Word) (s : State) => { s with mem := memSetWord s.mem (sliceBase (ctxCore 0 1) + o) x }
  put (8320 + 64) (testHdr false) <| put (8320 + 128) (testHdr true) <| put (8320 + 128 + 32) (wireTo (testFarPort 1 1)) <|
    put (8320 + 64 + 32) (wireTo (testFarPort 2 1)) { testNet with cores := [{ testCore1 with arena := [0, 1, 2] }] }
/-- WIRE and LINK whose lock lies at core 1, and a buffer there. -/
theorem test_witness_NodesAndSharing_away :
    let s := testNet1
    let e := s.ag.place
    settled (nodeLocs (testFarPort 1 2) s) s = some s ∧ settled (nodeLocs (testFarPort 2 2) s) s = some s ∧
      homeCore s e (lower (testFarPort 1 2) (testFarPort 2 2)) = some (ctxCore 0 1) ∧ ctxCore 0 1 ≠ e ∧
      heldBack s (ctxCore 0 1) = false ∧ linkBad s e (testPort 0 1) (testFarPort 2 1) = none ∧
      portMiss s (farPorts s e (testFarPort 2 1)) = none ∧
      homeCore s e (lockOf s e (testFarPort 2 1) (portPartner (netGet s e (testFarPort 2 1)))) = some (ctxCore 0 1) ∧
      namedBuf s (testWin 1 0) = some (ctxCore 0 1, 0) := by decide +kernel
/-- An answer to NEW, LINK, WIRE, TSHARE, TDROP or PUBLISH has come. -/
theorem test_witness_NodesAndSharing_answered : Answered (testOp 7 testNet) (testOpAnswer 7) ∧ Fresh testNet ∧
    Free [.s 31, .s 1, .s 2] (testOp 7 testNet) := ⟨testDone _ _, testFresh (by decide +kernel), by unfold Free; decide +kernel⟩
theorem test_witness_NodesAndSharing_buffers :
    let s := { testNet with core := { testNet.core with bufs := [(0, ⟨.empty, 0, false⟩), (1, ⟨.full, 255, false⟩), (2, ⟨.full, 254, false⟩)] } }
    Free [.s 31, .s 1] s ∧ (∀ b ∈ [0, 1, 2], Aligned 1024 (testWin 0 (1024 * b)) ∧
      (namedBuf s (testWin 0 (1024 * b))).any (fun p => p.1 == s.core.id && p.2 == b) = true) ∧
      (bufOf s.core 2).share < 255 ∧ 0 < (bufOf s.core 1).share ∧ (bufOf s.core 0).share = 0 ∧ (bufOf s.core 0).waiter = false := by
  unfold Free Aligned; decide +kernel

/-- Instance 0 of context 0, with a shadow pair at the start of the scratchpad. -/
def testInst : Inst := ⟨0, 0, 0, .running, false, 0, false, Vector.replicate 16 0, false, 0, [ctxCore 0 0],
  [⟨testWin 0 4224, 64, 1, ctxCore 0 0, false, 5⟩], none, false, true, none, []⟩
theorem test_witness_NodesAndSharing_publish :
    let s := { testNet with insts := [testInst] }
    Free [.s 31, .s 1] s ∧ labelledPair s (testWin 0 4224) = some ⟨testWin 0 4224, 64, 1, ctxCore 0 0, false, 5⟩ ∧
      s.ag.tokens = [] ∧ quiet s = true ∧ testNear s (ctxCore 0 0) = true ∧ findInst s s.ag.ctx s.ag.inst = some testInst := by unfold Free; decide +kernel

/-- A record of the queue, and one in a spill slot. -/
def testEntry (place : Nat) (key : Word) (state : KState) : KEntry :=
  ⟨place, false, key, 7, 0x7FC0, [], 1, 0, false, false, false, false, false, false, none, state, none, ctxCore 0 0, false, false, 0, 0, none, false, none⟩
/-- The queue holds these. -/
def testKq (es : List KEntry) : State := { testNet with core := { testNet.core with kq := es } }

theorem test_witness_KeyedQueue_push : 1 < testNet.core.kd.rules.length ∧ fanoutFull testNet = false ∧
    queueTarget testNet (testWin 0 1) = some (.here (ctxCore 0 0) 1) ∧ queueTarget testNet 0 = none ∧ Handles testNet ∧
    testNet.core.kd.rules.length ≤ 4095 ∧ queueTarget testNet (testWin 0 4095) = some (.here (ctxCore 0 0) 4095) ∧
    Free [.s 31, .v 1, .s 2] testNet ∧ Free [.s 31, .s 1] testNet ∧ Free [.s 31, .v 1] testNet ∧
    (0xFFF : BitVec 32).toNat < 2 ^ 12 ∧ 2 ^ 12 ≤ (0x1000 : BitVec 32).toNat ∧
    isComputeCore (coreNear testNet.ag.place 0) = true ∧ sameKernel testNet (coreNear testNet.ag.place 0) testNet.ag.place = true := by
  unfold Free Handles; decide +kernel
/-- Package 3 lies behind port 2; whether the kernel has a group there is a free value. -/
theorem test_witness_KeyedQueue_far (h : Config.farGroup 0 0 3 (coreName (ctxCore 0 1)) = true) :
    queueTarget { testNet with cfg := { testNet.cfg with routing := testNet.cfg.routing.set 3 2 } } 0x00FE030100400001 =
      some (.away 3 (ctxCore 0 1) 1) := by
  rw [queueTarget, if_neg (by decide +kernel), if_neg (by decide +kernel), if_pos ⟨by decide +kernel, h⟩]
  decide +kernel
theorem test_witness_KeyedQueue_pushk : ∃ ls, Reaches testNet false .read [] [(testWin 0 4224, 1)] ls ∧
    ((ls.head?.bind (·.head?)).any fun x => sameKernel testNet (coreOf testNet.ag.place x.loc) testNet.ag.place) = true :=
  testReach _ (by decide +kernel)
theorem test_witness_KeyedQueue_retire :
    let s := testKq [testEntry 3 9 .leased]
    let h := { s with ag := { s.ag with hrec := some ⟨9, 1, 1, 0, 4, s.core.id, 3, none, []⟩ } }
    s.ag.run = .running ∧ Free [.s 1, .s 2, .s 3, .s 4, .s 5] s ∧ quiet s = true ∧ farDue (levelScope s.core.kd) s = [] ∧ s.core.id = s.ag.place ∧
      (∀ c ∈ s.core :: s.cores, ∀ e ∈ c.kq, e.state ≠ .staged) ∧ h.ag.hrec = some ⟨9, 1, 1, 0, 4, s.core.id, 3, none, []⟩ := by unfold Free; decide +kernel
theorem test_witness_KeyedQueue_take :
    let s := testS [(1, 9)] (testKq [testEntry 3 9 .waiting])
    Free [.s 31, .s 1, .s 3, .s 4, .s 5] s ∧ (eligible s.core).find? (fun e => e.key == getS s 1) = some (testEntry 3 9 .waiting) ∧
      (eligible s.core).find? (fun e => e.key == getS s 2) = none ∧ topxMismatch s.core (testEntry 3 9 .waiting) = false ∧
      topxMismatch { s.core with topx := true } (testEntry 3 9 .waiting) = true ∧ Handles s := by unfold Free Handles; decide +kernel
theorem test_witness_KeyedQueue_extq : Free [.s 31, .s 1] testNet ∧ (getS testNet 1).toNat = 0 ∧ (7 : Word).toNat = 7 ∧
    3 < testNet.core.kd.tiles ∧ Handles testNet ∧ 8 ≤ (0xFFFF : Word).toNat ∧ (0xFFFF : Word).toNat < 0x10000 ∧
    0x10000 + testNet.core.kd.tiles ≤ (0x10004 : Word).toNat := by unfold Free Handles; decide +kernel
theorem test_witness_KeyedQueue_admit :
    let r : PushRec := ⟨9, 5, 0x7FC0, 1, 1, false, none, false, false, some 0, false, testWin 0 1, 0, none, false⟩
    let m : Msg := testMsg (ctxCore 0 1) (ctxCore 0 0) true (.push r)
    let s := { testKq [{ testEntry 3 9 .waiting with op := 1 }] with net := [m] }
    let q := { testKq [] with net := [{ m with body := .push { r with op := 0 } }] }
    pushesAt s (ctxCore 0 0) = [(m, r)] ∧ opConflict (getCore s (ctxCore 0 0)) r.key r.op = false ∧ r.staged = false ∧ r.nodes = none ∧
      transitBefore s (ctxCore 0 0) r.pusher = false ∧ transitBefore q (ctxCore 0 0) r.pusher = false ∧
      foldTarget (getCore s (ctxCore 0 0)) r.key r.op = some { testEntry 3 9 .waiting with op := 1 } ∧ isList r.op = false ∧
      roomFor q (ctxCore 0 0) = true ∧ (pushesAt q (ctxCore 0 0)).length = 1 := by decide +kernel
theorem test_witness_KeyedQueue_drain :
    let s := testKq [testEntry 512 9 .waiting]
    oldestSpilled (getCore s (ctxCore 0 0)) = some (testEntry 512 9 .waiting) ∧ entryFree (getCore s (ctxCore 0 0)) = true ∧
      foldTarget (getCore s (ctxCore 0 0)) 9 0 = none := by decide +kernel
/-- An agent that waits in RETIRE, and a record that it may take; and a built-in pair for the sequencer. -/
theorem test_witness_KeyedQueue_dispatch :
    let s := { testKq [testEntry 3 9 .waiting] with ag := { testNet.ag with run := .blocked (.retire 1) } }
    let q := testKq [{ testEntry 3 (testNode 0) .waiting with builtin := true, nodes := some (testNode 0, testNode 1) }]
    mayDispatch s (ctxCore 0 0) = true ∧
      (nextDispatch s (ctxCore 0 0)).any (fun p => p.1 == testEntry 3 9 .waiting && p.2 == .agent s.ag && pairMiss s (ctxCore 0 0) p.1.nodes == none) = true ∧
      s.ag.run = .blocked (.retire 1) ∧
      pairMiss s (ctxCore 0 0) (some (0x50000, testNode 1)) = some 0x50000 ∧
      (nextDispatch q (ctxCore 0 0)).any (fun p => p.1.place == 3 && p.2 == .sequencer && pairMiss q (ctxCore 0 0) p.1.nodes == none) = true ∧
      mayDispatch q (ctxCore 0 0) = true ∧
      topxMismatch (getCore s (ctxCore 0 0)) (testEntry 3 9 .waiting) = false ∧
      topxMismatch { getCore s (ctxCore 0 0) with topx := true } (testEntry 3 9 .waiting) = true := by decide +kernel
/-- A built-in pair whose second node lies on a page that misses, and the context of the core. -/
theorem test_witness_KeyedQueue_seqmiss :
    let s := { testKq [{ testEntry 3 (testNode 0) .waiting with builtin := true, nodes := some (testNode 0, 0x50000) }] with
      ctxs := [fetchCtx State.reset] }
    mayDispatch s (ctxCore 0 0) = true ∧ (nextDispatch s (ctxCore 0 0)).any (fun p => p.2 == .sequencer &&
      pairMiss s (ctxCore 0 0) p.1.nodes == some 0x50000) = true ∧
      (getCore s (ctxCore 0 0)).ctx.bind (findCtx s) = some (fetchCtx State.reset) := by decide +kernel
theorem test_witness_KeyedQueue_transit :
    let e := { testEntry 3 9 .transit with target := ctxCore 0 1 }
    let s := testKq [e]
    transits (getCore s (ctxCore 0 0)) = [e] ∧ e.target ≠ ctxCore 0 0 ∧ (getCore s (ctxCore 0 0)).stopped = false ∧ e.retired = false ∧
      roomFor (onCore (ctxCore 0 0) (dropPlace e.place) s) e.target = true ∧ e.far = none ∧
      (let f := { e with far := some 3, origin := some ⟨3, ctxCore 0 0, 0, 5⟩ }
       transits (getCore (testKq [f]) (ctxCore 0 0)) = [f] ∧ f.asking = false) := by decide +kernel
/-- Two ERA nodes with free ports. -/
theorem test_witness_KeyedQueue_rewrite :
    let s := testPoke (testNode 4) 0x0000080000000000 (testPoke (testNode 5) 0x0000080000000000
      { testNet with core := { testNet.core with seq := some ⟨3, testNode 4, testNode 5, 0, false⟩ } })
    (getCore s (ctxCore 0 0)).seq = some ⟨3, testNode 4, testNode 5, 0, false⟩ ∧ (getCore s (ctxCore 0 0)).seqstuck = false ∧
      (getCore s (ctxCore 0 0)).seqpark = false ∧ rewriteMiss s (ctxCore 0 0) ⟨3, testNode 4, testNode 5, 0, false⟩ = none ∧
      seqPushing s (ctxCore 0 0) = false ∧
      ∀ p ∈ [(testNode 4, 4), (testNode 5, 5)], hdrKind (netGet s (ctxCore 0 0) p.1) = 0 ∧
        hdrArity (netGet s (ctxCore 0 0) p.1) = 0 ∧ hdrDead (netGet s (ctxCore 0 0) p.1) = true ∧
        recordOf s (ctxCore 0 0) p.1 = some (.slice (ctxCore 0 0) p.2) ∧ p.2 ∈ (getCore s (ctxCore 0 0)).arena ∧
        p.2 ∉ (getCore s (ctxCore 0 0)).relpend ∧ somePort s (ctxCore 0 0) p.1 1 = false ∧ somePort s (ctxCore 0 0) p.1 2 = false := by
  decide +kernel
/-! ### Engines and the state store -/

/-- A block from fields: offset and size in bytes, and value. -/
def testFields (l : List (Nat × Nat × Nat)) : Block := BitVec.ofNat 512 (l.foldl (fun x p => x + p.2.2 % 2 ^ (8 * p.2.1) * 2 ^ (8 * p.1)) 0)
/-- A chain of a kind with two blocks of ring, its command, and how many are queued. -/
def testChain (kind tail : Nat) (cmd : Option EngCmd) : Chain := ⟨4352, kind, 1, 0, 4608, false, false, tail, 5, cmd, []⟩
def testHdrAt : Word := testWin 0 4352
/-- A command in hand. -/
def testCmd (b : Block) (next : Nat) (inf : List Inflight) : EngCmd := ⟨6, b, false, next, 0, inf, false, 0, false, none, none, []⟩
/-- COPY of one row of two blocks from the scratchpad to HBM; GATHER of two blocks; the state store's commands; COUNTERS. -/
def testCmdBlock : Nat → Block
  | 0 => testFields [(0, 1, 0)]
  | 1 => testFields [(0, 1, 1), (8, 8, (testWin 0 4224).toNat), (16, 8, 0x10000), (24, 2, 2), (26, 2, 1), (28, 2, 1), (30, 2, 1),
      (32, 4, 64), (36, 4, 64), (40, 4, 64), (44, 2, 2), (46, 2, 1), (48, 2, 1)]
  | 2 => testFields [(0, 1, 2), (8, 8, (testWin 0 6080).toNat), (16, 8, 0x10000), (24, 4, 2)]
  | 3 => testFields [(0, 1, 3), (8, 8, 3 * 2 ^ 12), (16, 8, 0x10000), (24, 4, 64), (28, 4, 128)]
  | 4 => testFields [(0, 1, 4), (8, 8, 3 * 2 ^ 12), (16, 8, 0x10000), (24, 4, 64), (28, 4, 128)]
  | _ => testFields [(0, 1, 5), (8, 8, 0x10000)]
/-- The kind of chain that takes a command. -/
def testKind : Nat → Nat
  | 2 => 2
  | 3 => 3
  | 4 => 3
  | _ => 1
/-- An open sequence, generation 3 of slot 0 of stack 0, of 8 KiB, with snapshots at 4 and 7. -/
def testSeq : SeqSlot := ⟨true, true, 3, 0, 8192, [0, 6], [⟨4, [5, 6], false⟩, ⟨7, [0, 6], true⟩], 7⟩
def testStore : StateStore := ⟨[(0, testSeq), (1, ⟨false, false, 9, 0, 0, [], [], 0⟩)], [⟨5, []⟩, ⟨6, []⟩], 0⟩
/-- A chain on the own core, the store of stack 0, and s1 to s3 as the instructions read them. -/
def testEng (ch : Chain) : State :=
  testS [(1, testHdrAt), (2, 0x3000), (3, 64)] { testMem with
    core := { testMem.core with chains := [ch] }
    stores := testMem.stores.set 0 testStore
    cfg := { testMem.cfg with store := testMem.cfg.store.set 0 1 } }

theorem test_witness_EngineInstructions_enq :
    let s := testEng (testChain 1 6 none)
    let f := testEng (testChain 1 7 none)
    Free [.s 31, .s 1, .v 2] s ∧ Handles s ∧ Clean [2] s ∧ ¬ Aligned 64 (testHdrAt + 8) ∧ Aligned 64 (getS s 1) ∧
      headerLoc s (testWin 9 0) = none ∧ ¬ Clean [2] (testVT 2 0xFF20 s) ∧
      (drainAll s).ag.posted = [] ∧ (headerLoc s (getS s 1)).any (fun l => testNear s (coreOfLoc l) &&
        findChain (getCore s (coreOfLoc l)) (blockOf (sliceOff l)) == some (testChain 1 6 none)) ∧
      (headerLoc f (getS f 1)).any (fun l => findChain (getCore f (coreOfLoc l)) (blockOf (sliceOff l)) == some (testChain 1 7 none)) ∧
      chainOf { s with core := { s.core with chains := [] } } s.ag.place 4352 false = none ∧
      6 - 5 ≠ 2 ^ (testChain 1 6 none).ringlog ∧ 7 - 5 = 2 ^ (testChain 1 7 none).ringlog := by
  unfold Free Handles Clean Aligned; decide +kernel
theorem test_witness_EngineInstructions_enwait :
    let s := testEng (testChain 1 6 none)
    Free [.s 1, .s 2] s ∧ Handles s ∧ (testHdrAt + 24).toNat % 64 = 24 ∧ testHdrAt.toNat % 64 ≠ 24 ∧
      headerLoc s (testWin 9 24) = none ∧ (testWin 9 24).toNat % 64 = 24 ∧
      (headerLoc s (testHdrAt + 24)).any (fun l =>
        testNear s (coreOfLoc l) && ((findChain (getCore s (coreOfLoc l)) (blockOf (sliceOff l))).map (·.comp)).getD 0 == 5) = true := by
  unfold Free Handles; decide +kernel
/-- A chain of core 1 that ENQ and ENWAIT reach by a request; and an answer that has come. -/
theorem test_witness_EngineInstructions_away :
    let s := { testEng (testChain 1 6 none) with cores := [{ testCore1 with chains := [testChain 1 6 none] }] }
    Fresh s ∧ (headerLoc s (testWin 1 4352)).any (fun l => coreOfLoc l == ctxCore 0 1 && !ringFull s l &&
      !heldBack s (coreOfLoc l) && (findChain (getCore s (coreOfLoc l)) (blockOf (sliceOff l))).any (fun c => c.comp == 5)) = true ∧
      ctxCore 0 1 ≠ s.ag.place ∧ Answered (testOp 0 s) (testOpAnswer 0) ∧ Free [.s 1, .s 2] (testOp 0 s) :=
  ⟨testFresh (by decide +kernel), by decide +kernel, by decide +kernel, testDone _ _, by unfold Free; decide +kernel⟩
theorem test_witness_EngineInstructions_cpy :
    Free [.s 31, .s 1, .s 2] testMem ∧ Aligned 64 (0x10000 : Word) ∧ (0xFFFFFFC0 : BitVec 32).toNat % 64 = 0 ∧ (0xFFFFFFC0 : BitVec 32) ≠ 0 ∧
      Handles testMem ∧ (0xFFFFFFFF : BitVec 32).toNat % 64 ≠ 0 ∧ (drainAll testMem).ag.posted = [] := by unfold Free Handles Aligned; decide +kernel
/-- Lane 7 of v2 is an address of the own slice, and the destination is in it. -/
def testGather : State := testV 2 (testLanes 64 [0, 0, 0, 0, 0, 0, 0, (testWin 0 8192).toNat]) (testS [(1, testWin 0 4224)] testMem)
theorem test_witness_EngineInstructions_gather_regs :
    Free [.s 31, .s 1, .v 2] testGather ∧ Clean [2] testGather ∧ getS testGather 1 = testWin 0 4224 ∧ (drainAll testGather).ag.posted = [] ∧ Aligned 64 (testWin 0 4224) ∧
      Aligned 64 (testWin 0 8192) := by unfold Free Clean Aligned; decide +kernel
theorem test_witness_EngineInstructions_gather :
    ((List.range 8).map fun i => (i, (BitVec.ofNat 64 (lane 64 i (getV testGather 2)) : Word))).filter (fun p => p.2 != 0) =
        [(7, testWin 0 8192)] ∧
      [testWin 0 4224, testWin 0 4672].all (fun x => (headerLoc testGather x).any (inSlice testGather.ag.place)) = true ∧
      (headerLoc testGather (testWin 0 8192)).isSome = true := by decide +kernel

/-- Each command passes its checks and is the next of a chain of its kind. -/
theorem test_witness_EngineEvents_start : (List.range 6).all (fun op =>
    let ch := testChain (testKind op) 6 none
    let s := testEng ch
    let s := { s with mem := memSetNat s.mem (sliceBase s.core.id + ringOff ch 6) 64 (ringBlock (testCmdBlock op) 6 false).toNat }
    let b := ringCmd s s.core.id ch 6
    findChain (getCore s s.core.id) (sliceOff testHdrAt.toNat) == some ch && ch.cmd.isNone && decide (ch.comp < ch.tail) &&
      !(getCore s s.core.id).stopped && isTurn s s.core.id ch && cmdOp b == op && cmdCheck s s.core.id ch b == 0) = true := by decide +kernel
/-- What each command reads next. -/
theorem test_witness_EngineEvents_reads :
    let s := fun (op next : Nat) => testEng (testChain (testKind op) 6 (some (testCmd (testCmdBlock op) next [])))
    let g := testPoke (testWin 0 6088) (testWin 0 4224) (s 2 1)
    cmdOp (testCmdBlock 0) = 0 ∧ cmdOp (testCmdBlock 1) = 1 ∧ cmdPost (testCmdBlock 1) = false ∧ 1 < copyTotal (testCmdBlock 1) ∧ copyPer (testCmdBlock 1) ≠ 16 ∧
      copySrc (testCmdBlock 1) 1 = some (testWin 0 4288) ∧ (∃ xs, engLocs (s 1 1) (ctxCore 0 0) true (testWin 0 4288) .engRead = .ok xs) ∧
      0 < 1 ∧ 1 < blkNat (testCmdBlock 2) 24 4 ∧ testWin 0 4224 ≠ 0 ∧ (∃ va, gatherEntry g (ctxCore 0 0) (testCmdBlock 2) 1 = .ok va ∧
        decide (va = testWin 0 4224) = true) ∧
      1 < blkNat (testCmdBlock 3) 28 4 / 64 ∧ handleSlot (s 3 1) ((getCore (s 3 1) (ctxCore 0 0)).ctx.getD 0) (blkWord (testCmdBlock 3) 8) =
        some testSeq ∧ 1 < blkNat (testCmdBlock 4) 28 4 / 64 ∧
      (∃ xs, engLocs (s 4 1) (ctxCore 0 0) true (blkWord (testCmdBlock 4) 16 + BitVec.ofNat 64 (64 * 1)) .engRead = .ok xs ∧ true = true) ∧
      cmdOp (testCmdBlock 5) = 5 := by
  intro s g
  refine ⟨by decide +kernel, by decide +kernel, by decide +kernel, by decide +kernel, by decide +kernel, by decide +kernel, ?_,
    by decide, by decide +kernel, by decide, ?_, by decide +kernel, by decide +kernel, by decide +kernel, ?_, by decide +kernel⟩
  · obtain ⟨xs, h, -⟩ : ∃ xs, engLocs (s 1 1) (ctxCore 0 0) true (testWin 0 4288) .engRead = .ok xs ∧ true = true :=
      testEx _ (by decide +kernel)
    exact ⟨xs, h⟩
  all_goals exact testEx _ (by decide +kernel)
/-- Each of these is in its turn, and has work. -/
theorem test_witness_EngineEvents_turns : [(0, 0), (1, 1), (2, 1), (3, 1), (4, 1), (5, 0)].all (fun p =>
    let w := testCmd (testCmdBlock p.1) p.2 []
    let ch := testChain (testKind p.1) 6 (some w)
    let s := testEng ch
    findChain (getCore s (ctxCore 0 0)) (sliceOff testHdrAt.toNat) == some ch && w.fail.isNone && w.fill.isNone && chainWorks s (ctxCore 0 0) ch &&
      isTurn s (ctxCore 0 0) ch && !(getCore s (ctxCore 0 0)).stopped && cmdOp w.cmd == p.1) = true ∧
    beginsFill (testCmdBlock 1) 1 = false := by decide +kernel
/-- A COPY of two units of which the second lies outside its bound. -/
theorem test_witness_EngineEvents_fill : copySrc (testFields [(0, 1, 1), (8, 8, (testWin 0 4224).toNat), (16, 8, 0x10000), (24, 2, 1),
    (26, 2, 2), (28, 2, 1), (30, 2, 1), (32, 4, 64), (44, 2, 1), (46, 2, 1), (48, 2, 1)]) 1 = none := by decide +kernel
/-- The home of an engine's access. -/
def testHome (xs : List XOk) : CoreId := homeName ((xs.map (·.loc)).headD 0)
/-- A block that has come; its write lies beyond the own core (COPY), or at the party itself (a state store command); one with an
error; and one whose write has left and been acknowledged. -/
theorem test_witness_EngineEvents_reply :
    let x : Inflight := ⟨0, 0, [], false, 5, 0x7FC0, true, false, false, false⟩
    let w := fun (op : Nat) (x : Inflight) => testCmd (testCmdBlock op) 1 [x]
    let s := fun (op : Nat) (x : Inflight) => testEng (testChain (testKind op) 6 (some (w op x)))
    [(1, x), (3, x), (4, x), (1, { x with bad := true }), (1, { x with out := true }), (1, { x with out := true, acked := true })].all
        (fun p => findChain (getCore (s p.1 p.2) (ctxCore 0 0)) (sliceOff testHdrAt.toNat) ==
          some (testChain (testKind p.1) 6 (some (w p.1 p.2))) && cmdOp (w p.1 p.2).cmd == p.1) = true ∧
      (w 1 x).parked = false ∧ (w 1 x).inflight = [x] ∧
      (∃ ys, engLocs (s 1 x) (ctxCore 0 0) true (copyDst (testCmdBlock 1) 0) .engWrite = .ok ys ∧ (testHome ys != ctxCore 0 0) = true) ∧
      (∃ ys, engLocs (s 3 x) (ctxCore 0 0) true (blkWord (testCmdBlock 3) 16 + BitVec.ofNat 64 (64 * 0)) .engWrite = .ok ys ∧
        (testHome ys == stackId 0) = true) ∧
      handleSlot (s 4 x) ((getCore (s 4 x) (ctxCore 0 0)).ctx.getD 0) (blkWord (testCmdBlock 4) 8) = some testSeq ∧
      (headSet (granuleCap (s 4 x) 0) (seqNum (blkWord (testCmdBlock 4) 8)) (blkNat (testCmdBlock 4) 24 4 + 64 * 0) (x.data, x.outTag)
        (getStore (s 4 x) 0)).isSome = true := by
  intro x w s
  exact ⟨by decide +kernel, by decide +kernel, by decide +kernel, testEx _ (by decide +kernel), testEx _ (by decide +kernel),
    by decide +kernel, by decide +kernel⟩
theorem test_witness_EngineEvents_post :
    let ch := testChain 1 6 (some { testCmd (testCmdBlock 1) 1 [] with posting := true })
    let s := { testEng ch with net := [testMsg (ctxCore 0 0) (ctxCore 0 1) true (.post 3 2 4352)] }
    let s := { s with cores := [{ testCore1 with bars := [(3, ⟨9, 4, 2⟩)] }] }
    (postAt s (ctxCore 0 1) 3 2).any (fun p => p.2 == 4352 && p.1.src == ctxCore 0 0) = true ∧
      findChain (getCore s (ctxCore 0 0)) 4352 = some ch ∧ (3 : BitVec 8).toNat < (getCore s (ctxCore 0 1)).kd.barriers ∧
      (getBar (getCore s (ctxCore 0 1)) 3).expect ≠ 0 ∧
      (getBar (getCore s (ctxCore 0 1)) 3).count.toNat + (2 : BitVec 24).toNat = (getBar (getCore s (ctxCore 0 1)) 3).expect.toNat ∧
      (getBar (getCore s (ctxCore 0 1)) 3).expect.toNat < (getBar (getCore s (ctxCore 0 1)) 3).count.toNat + (3 : BitVec 24).toNat := by
  decide +kernel
theorem test_witness_EngineEvents_cpy :
    let y : CpyCmd := ⟨testMem.ag.aid, 3, 1, 0x10000, testWin 0 4224, 4, 1, [], false, none, []⟩
    let z : CpyCmd := { y with inflight := [⟨1, 0, [], false, 5, 0x7FC0, true, false, false, false⟩] }
    let s := { testMem with core := { testMem.core with cpys := [y] } }
    let t := { testMem with core := { testMem.core with cpys := [z] } }
    isCpyTurn s s.core.id = true ∧ (getCore s s.core.id).cpys = [y] ∧ y.parked = false ∧ y.inflight = [] ∧ 0 < y.done ∧
      (∃ xs, engLocs s s.core.id true (y.src + BitVec.ofNat 64 (64 * y.done)) .engRead = .ok xs ∧ true = true) ∧
      (getCore t t.core.id).cpys = [z] ∧
      (∃ xs, engLocs t t.core.id true (z.dst + BitVec.ofNat 64 (64 * z.done)) .engWrite = .ok xs ∧ (testHome xs != t.core.id) = true) ∧
      ∃ xs, engLocs t t.core.id true (testWin 0 4224 + BitVec.ofNat 64 (64 * z.done)) .engWrite = .ok xs ∧
        (testHome xs == t.core.id) = true := by
  intro y z s t
  exact ⟨by decide +kernel, by decide +kernel, by decide, by decide, by decide, testEx _ (by decide +kernel), by decide +kernel,
    testEx _ (by decide +kernel), testEx _ (by decide +kernel)⟩
theorem test_witness_EngineEvents_gather :
    let g : GatherOp := ⟨testMem.ag.aid, 3, false, testWin 0 4224, [(7, testWin 0 8192)], 0, [⟨7, 0, [], false, 5, 0x7FC0, true, false, false, false⟩], []⟩
    let s := { testMem with core := { testMem.core with gathers := [g] }, ag := { testMem.ag with tokens := [⟨31, 3, true⟩] } }
    let t := { s with core := { s.core with gathers := [{ g with next := 1 }] } }
    (getCore s s.core.id).gathers = [g] ∧ g.lanes[g.next]? = some (7, testWin 0 8192) ∧
      g.inflight.find? (fun x => x.ix == 7 && x.here) = some ⟨7, 0, [], false, 5, 0x7FC0, true, false, false, false⟩ ∧
      (∃ xs, engLocs s s.core.id false (g.base + BitVec.ofNat 64 (64 * 7)) .engWrite = .ok xs ∧ (testHome xs == s.core.id) = true) ∧
      (getCore t t.core.id).gathers = [{ g with next := 1 }] ∧ g.lanes.length ≤ 1 ∧ t.ag.run ≠ .free ∧ t.ag.aid = g.aid ∧
      t.ag.tokens.find? (fun x => x.key == g.key) = some ⟨31, 3, true⟩ := by
  intro g s t
  exact ⟨by decide +kernel, by decide +kernel, by decide +kernel, testEx _ (by decide +kernel), by decide +kernel, by decide,
    by decide +kernel, by decide +kernel, by decide +kernel⟩

theorem test_witness_StateStoreOperations_open :
    let s := testEng (testChain 3 5 none)
    Free [.s 31, .s 1, .s 2] s ∧ Handles s ∧ testNear s (stackId 0) = true ∧ (∀ j < 1, (getSlot (getStore s 0) j).isOpen = true) ∧
      (getSlot (getStore s 0) 1).isOpen = false ∧ (getSlot (getStore s 11) 0).isOpen = false ∧ 11 < (12 : Word).toNat ∧
      1048576 % 4096 = 0 ∧ 1048576 < (1048577 : Word).toNat ∧ (4095 : Word).toNat < 4096 := by unfold Free Handles; decide +kernel
theorem test_witness_StateStoreOperations_blocks :
    let s := testEng (testChain 3 5 none)
    Free [.v 31, .s 2, .s 3] s ∧ Aligned 64 (getS s 3) ∧ handleSlot s s.ag.ctx (getS s 2) = some testSeq ∧ (getS s 3).toNat < testSeq.size ∧
      testSeq.head.length = testSeq.size / 4096 ∧ testSeq.size % 4096 = 0 ∧
      (getStore s 0).granules.length < granuleCap s 0 ∧ testSeq.head.getD 0 0 = 0 ∧ testSeq.head.getD (8128 / 4096) 0 = 6 ∧
      2 ≤ granuleCount (getStore s 0) 6 ∧ Handles s ∧ testSeq.size ≤ (8192 : Word).toNat := by
  unfold Free Handles Aligned; decide +kernel
theorem test_witness_StateStoreOperations_snapshots :
    let s := testEng (testChain 3 5 none)
    Free [.s 31, .s 2, .s 3] s ∧ Free [.s 31, .s 2] s ∧ handleSlot s s.ag.ctx (getS s 2) = some testSeq ∧
      testSeq.latest.toNat < (8 : Word).toNat ∧ testSeq.ring.length < 16 ∧ snapAt testSeq 5 = none ∧
      snapAt testSeq 7 = some ⟨7, [0, 6], true⟩ ∧ testSeq.ring ≠ [] ∧ (7 : Word).toNat ≤ testSeq.latest.toNat ∧ Handles s ∧
      (getSlot (getStore s (seqStack (getS s 2))) 0).isOpen = true ∧ (getSlot (getStore s (seqStack (getS s 2))) 1).isOpen = false := by
  unfold Free Handles; decide +kernel
/-- The stack can be asked, and its answer has come. -/
theorem test_witness_StateStoreOperations_asks :
    let s := testEng (testChain 3 5 none)
    Fresh s ∧ (getS s 2).toNat / 2 ^ 28 = 0 ∧ seqStack (getS s 2) ≤ 11 ∧ heldBack s (stackId 0) = false ∧
      Answered (testOp 7 s) (testOpAnswer 7) ∧ Free [.s 31, .s 1, .s 2] (testOp 7 s) ∧ Free [.v 31, .s 1, .s 2] (testOp 7 s) :=
  ⟨testFresh (by decide +kernel), by decide +kernel, by decide +kernel, by decide +kernel, testDone _ _, by unfold Free; decide +kernel,
    by unfold Free; decide +kernel⟩
theorem test_witness_StateStoreOperations_bad :
    let s := testEng (testChain 3 5 none)
    Handles s ∧ Free [.v 31, .s 2, .s 3] s ∧ Free [.s 1] s ∧ ¬ Aligned 64 (8 : Word) ∧
      [(0x4000 : Word), 0x3001, 0xC003000, 0x10000000].all (fun h => (handleSlot s s.ag.ctx h).isNone) = true := by
  unfold Free Handles Aligned; decide +kernel
/-! ### Kernels, sleep, migration -/

/-- A plan of three steps: 0, then 1 after it, then 2 after both. -/
def testPlan : List Step := [⟨testKd, 1, false, []⟩, ⟨testKd, 1, false, [0]⟩, ⟨testKd, 1, false, [0, 1]⟩]
/-- The context with that plan, in a state. -/
def testCtx (st : CtxState) : Ctx := { fetchCtx State.reset with state := st, plan := testPlan, created := 5, saveLen := 2 ^ 23 }
/-- Instance num of a step. -/
def testInstOf (num : BitVec 32) (step : Nat) (st : InstState) : Inst := { testInst with num := num, step := step, state := st, cores := [] }
/-- Instance 0 runs step 0; 1 and 2 are pending. -/
def testProg (st1 : InstState) : State :=
  { testMem with ctxs := [testCtx .running], insts := [testInst, testInstOf 1 1 st1, testInstOf 2 2 .pending] }
/-- The current agent runs. -/
def testRun (r : Run) (s : State) : State := { s with ag := { s.ag with run := r } }

theorem test_witness_ProgramControl_launch :
    let s := testProg .pending
    Free [.s 31, .s 0, .s 1] s ∧ Fresh s ∧ stepOf s (getS s 0).toNat = some ⟨testKd, 1, false, []⟩ ∧ quiet s = true ∧ getS s 1 = 0 ∧
      Handles s ∧ stepOf s 3 = none ∧ farDue .package s = [] ∧ (∀ f, Near (publishNow .package (orStatus f s)) culmId) ∧
      quiet { s with ag := { s.ag with outreq := 1 } } = false ∧ Answered (testOp 7 s) (testOpAnswer 7) :=
  ⟨by unfold Free; decide +kernel, testFresh (by decide +kernel), by decide +kernel, by decide +kernel, by decide +kernel,
    by unfold Handles; decide +kernel, by decide +kernel, by decide +kernel, fun f => rfl, by decide +kernel, testDone _ _⟩
/-- A patch table of two pairs in the own slice: one for parameter 2, one for 15. -/
def testPatch : State :=
  let s := testS [(1, testWin 0 64)] (testProg .pending)
  { s with mem := memSetNat s.mem (sliceBase s.core.id + 64) 40 (2 + 2 * 2 ^ 64 + 7 * 2 ^ 128 + 15 * 2 ^ 192 + 8 * 2 ^ 256) }
theorem test_witness_ProgramControl_patches :
    getS testPatch 1 ≠ 0 ∧ Aligned 8 (getS testPatch 1) ∧ (getS testPatch 1).toNat / 2 ^ 48 = 0xFE ∧ gotReads testPatch = none ∧
      (0x10000 : Word).toNat / 2 ^ 48 ≠ 0xFE ∧
      (∃ ls, Reaches testPatch false .read [] [(getS testPatch 1, 8)] ls ∧
        (agNat testPatch (ls.headD []) == 2 && remoteBlocks testPatch ls == []) = true) ∧
      (∃ ls, Reaches testPatch false .read []
          ((List.range (2 * 2)).map fun i => (getS testPatch 1 + BitVec.ofNat 64 (8 * (i + 1)), 8)) ls ∧
        ((pairsOf (ls.map fun xs => BitVec.ofNat 64 (agNat testPatch xs))) == [(2, 7), (15, 8)] && remoteBlocks testPatch ls == []) = true) ∧
      (∃ ls, Reaches testPatch false .read [] [(testWin 1 64, 8)] ls ∧ (remoteBlocks testPatch ls != []) = true) ∧
      ∀ ls, gotReads (testAnswered ls testPatch) = some ls :=
  ⟨by decide +kernel, by unfold Aligned; decide +kernel, by decide +kernel, by decide +kernel, by decide, testReach _ (by decide +kernel),
    testReach _ (by decide +kernel), testReach _ (by decide +kernel), fun _ => rfl⟩
theorem test_witness_ProgramControl_accept :
    let r : LaunchReq := ⟨testMem.ag.aid, 31, 0, 0, 1, Vector.replicate 16 0⟩
    let s := testRun (.blocked (.op 31 none)) { testProg .pending with launches := [r] }
    s.launches.find? (fun q => ctxRuns s q.ctx) = some r ∧ findCtx s r.ctx = some (testCtx .running) ∧ findAgent s r.aid = some s.ag ∧
      s.ag.place ≠ culmId := by decide +kernel
theorem test_witness_ProgramControl_hint :
    let s := testS [(1, 1)] (testProg .pending)
    let m := testMsg s.ag.place culmId false (.hint 0 1)
    let r := { s with net := [m] }
    Free [.s 1] s ∧ stepOf s ((getS s 1).toNat % 2 ^ 16) = some ⟨testKd, 1, false, [0]⟩ ∧ stepOf s 3 = none ∧ Handles s ∧
      r.net.find? (fun q => q.id == 3) = some m ∧ deliverable r m = true ∧ forNobody r m = false ∧
      (findCtx r m.ctx).any (fun x => x.plan[1]? == some ⟨testKd, 1, false, [0]⟩) = true ∧ findInst r m.ctx 0 = some testInst ∧
      testInst.launched = false := by
  unfold Free Handles; decide +kernel
/-- The agent's instance is that of step 2: its predecessors are DONE, or the one is not. -/
theorem test_witness_ProgramControl_waitpred :
    let s := fun (st : InstState) => { testProg .pending with
      insts := [{ testInst with step := 2 }, testInstOf 1 0 .done, testInstOf 2 1 st] }
    let ready := fun (x : State) => x.insts.all fun j => decide (j.ctx = 0 ∧ j.replay = 0 ∧ j.launched = false ∧
      (predsOf x { testInst with step := 2 }).contains j.step = true → j.state = .done)
    ownInst (s .done) = some { testInst with step := 2 } ∧ ready (s .done) = true ∧ ready (s .running) = false ∧
      ownInst testMem = none ∧ heldBack (s .done) culmId = false ∧ Fresh (s .done) ∧ Answered (testOp 0 testMem) (testOpAnswer 0) :=
  ⟨by decide +kernel, by decide +kernel, by decide +kernel, by decide +kernel, by decide +kernel, testFresh (by decide +kernel),
    testDone _ _⟩
theorem test_witness_ProgramControl_rte :
    let s := { testMem with ag := { testMem.ag with handler := true, trappc := 0x404 } }
    s.ag.handler = true ∧ s.ag.trappc.toNat % 4 = 0 ∧ Handles testMem ∧
      { testMem.ag with trapvec := 3 }.handler = false ∧ ({ testMem.ag with trapvec := 3 } : Agent).trapvec.toNat / 4 = 0 ∧
      (0x402 : Word).toNat % 4 ≠ 0 := by unfold Handles; decide +kernel
theorem test_witness_ProgramControl_halt : testMem.core.coq = [] ∧ testMem.ag.outreq = 0 ∧ testMem.ag.tokens = [] ∧
    ({ testMem.ag with outreq := 1 } : Agent).outreq ≠ 0 ∧ farDue (levelScope testMem.core.kd) testMem = [] := by decide +kernel
theorem test_witness_ProgramControl_sleep :
    Free [.s 31, .s 1] testMem ∧ testMem.ag.run = .running ∧ testMem.ag.wake = false ∧
      ({ testMem.ag with wake := true } : Agent).wake = true ∧ (testRun (.blocked (.slept 1)) testMem).ag.run = .blocked (.slept 1) ∧
      findAgent (testRun (.blocked (.sleep (some 9))) testMem) testMem.ag.aid =
        some (testRun (.blocked (.sleep (some 9))) testMem).ag ∧ 9 < 2 ^ 64 ∧ 2 ^ 64 ≤ 2 ^ 64 := by unfold Free; decide +kernel
/-- A second agent of the context, on core 1. -/
def testOther : Agent := { Agent.fresh (ctxCore 0 1) 2 with aid := 7, run := .blocked (.sleep none), ns := 32, nv := 32, np := 8, nt := 8 }
def testTwo : State := { testMem with agents := [testOther] }
theorem test_witness_ProgramControl_wake :
    Free [.s 31, .s 1] testTwo ∧ placeBad (testWin 0 0) = false ∧ placeBad (testWin 1 2) = false ∧ placeBad (testWin 16 0) = true ∧
      coreNear testTwo.ag.place ((testWin 0 0).toNat / 2 ^ 22) = testTwo.ag.place ∧
      coreNear testTwo.ag.place ((testWin 1 2).toNat / 2 ^ 22) = ctxCore 0 1 ∧
      wakeTarget testTwo testTwo.ag.ctx (ctxCore 0 1) 2 = some testOther ∧
      wakeTarget testTwo testTwo.ag.ctx testTwo.ag.place 0 = some testTwo.ag ∧
      wakeTarget testTwo testTwo.ag.ctx testTwo.ag.place 5 = none ∧ Handles testTwo ∧ heldBack testTwo (ctxCore 0 1) = false ∧
      Fresh testTwo ∧ Answered (testOp 1 testTwo) (testOpAnswer 1) :=
  ⟨by unfold Free; decide +kernel, by decide +kernel, by decide +kernel, by decide +kernel, by decide +kernel, by decide +kernel,
    by decide +kernel, by decide +kernel, by decide +kernel, by unfold Handles; decide +kernel, by decide +kernel,
    testFresh (by decide +kernel), testDone _ _⟩
theorem test_witness_ProgramControl_wakeArrival :
    let m : Msg := testMsg (ctxCore 0 0) (ctxCore 0 1) true (.wake 7)
    wakeFor { testTwo with net := [m] } testOther = some m := by decide +kernel

/-- Core 1 hosts the instance of the own core. -/
theorem test_witness_Migration_targets :
    let s := testTwo
    let c := ctxCore 0 1
    let claims := { s with core := { s.core with oclaim := s.core.oclaim.set 3 (some s.ag.num) } }
    let meets := { claims with cores := [{ testCore1 with oclaim := testCore1.oclaim.set 3 (some 1) }] }
    Free [.s 31, .s 1] s ∧ Handles s ∧ placeBad (testWin 16 0) = true ∧ sameKernel s c s.ag.place = true ∧
      sameKernel s s.ag.place s.ag.place = true ∧ c ≠ s.ag.place ∧ holdsSlots claims = true ∧ isVectorCore (ctxCore 0 15) = true ∧
      isVectorCore c = false ∧ slotsMeet meets s.ag c = true ∧ slotsMeet s s.ag c = false ∧ freeNums s c ≠ [] := by
  unfold Free Handles; decide +kernel
theorem test_witness_Migration_vector :
    let s := { testTwo with
      core := { testMem.core with oclaim := testMem.core.oclaim.set 3 (some testMem.ag.num) }
      cores := [{ testCore1 with id := ctxCore 0 15 }] }
    sameKernel s (ctxCore 0 15) s.ag.place = true ∧ holdsSlots s = true ∧ isVectorCore (ctxCore 0 15) = true := by decide +kernel
/-- Eight agents on core 1. -/
theorem test_witness_Migration_full :
    freeNums { testMem with agents := (List.range 8).map fun i => { testOther with num := BitVec.ofNat 3 i } } (ctxCore 0 1) = [] := by
  decide +kernel
theorem test_witness_Migration_move :
    let m : Move := ⟨testMem.ag.aid, ctxCore 0 1, 4, false, some 31⟩
    let s := { testTwo with moves := [m] }
    let x := testMsg (ctxCore 0 0) (ctxCore 0 1) true (.stream testMem.ag.aid)
    let t := { testTwo with moves := [{ m with captured := true }], net := [x] }
    findAgent s s.ag.aid = some s.ag ∧ moveOf s s.ag.aid = some m ∧ mayCapture s s.ag = true ∧
      (getCore s s.ag.place).stopped = false ∧ m.target ≠ s.ag.place ∧ slotsMeet s s.ag m.target = false ∧
      moveOf t t.ag.aid = some { m with captured := true } ∧ streamFor t t.ag.aid = some x := by decide +kernel
/-- The agent's claim of slot 3 meets one that core 1 has given meanwhile. -/
theorem test_witness_Migration_met :
    let m : Move := ⟨testMem.ag.aid, ctxCore 0 1, 4, false, some 31⟩
    let s := { testTwo with
      moves := [m], core := { testMem.core with oclaim := testMem.core.oclaim.set 3 (some testMem.ag.num) }
      cores := [{ testCore1 with oclaim := testCore1.oclaim.set 3 (some 1) }] }
    findAgent s s.ag.aid = some s.ag ∧ mayCapture s s.ag = true ∧ slotsMeet s s.ag m.target = true := by decide +kernel
/-- A reply for agent 7, which has left core 0. -/
theorem test_witness_Migration_return :
    let m : Msg := testMsg (ctxCore 0 2) (ctxCore 0 0) true (.reply 7)
    let s := { testTwo with net := [m] }
    s.net.find? (fun x => x.id == 3) = some m ∧ isStray s m = true ∧ (bodyAgent m.body).bind (findAgent s) = some testOther := by
  decide +kernel
/-- A vector core of the cluster runs the same instance. -/
theorem test_witness_Migration_extension :
    let s := testRun (.blocked .extension) { testMem with cores := [{ testCore1 with id := ctxCore 0 15 }] }
    findAgent s s.ag.aid = some s.ag ∧ s.ag.run = .blocked .extension ∧ moveOf s s.ag.aid = none ∧
      (getCore s s.ag.place).stopped = false ∧ (extTarget s s.ag).isSome = true := by decide +kernel

/-! ### Host, contexts -/

/-- Bring-up is complete, and the context has a state. -/
def testHost (st : CtxState) : State :=
  { testMem with boot := { testMem.boot with reached := 7, failed := none }, ctxs := [testCtx st], insts := [testInst] }
/-- A command block of version 1.0. -/
def testVer (l : List (Nat × Nat × Nat)) : Block := testFields ((2, 1, 1) :: l)

theorem test_witness_HostCommands_version : 7 ≤ (testHost .parked).boot.reached ∧ (⟨1, 1⟩ : CmdVer) ≠ ⟨0, 1⟩ ∧
    State.reset.boot.reached < 7 ∧ findCtx (testHost .parked) 9 = none ∧ blkVer (testVer []) = ⟨0, 1⟩ ∧
    blkVer (testFields [(2, 1, 2)]) ≠ ⟨0, 1⟩ ∧ blkVer (testFields [(1, 1, 1), (2, 1, 1)]) ≠ ⟨0, 1⟩ := by decide +kernel
/-- A plan of one step at 0x40000: its tables map HBM for reading, and its kernel at 0x41000 declares one register of each kind. -/
def testUpload : State :=
  { testHost .parked with
    ctxs := [{ testCtx .parked with root := 0x10000 }]
    mem := ⟨[(0x2000, 7), (0x10000, 1), (0x10001, 0x20), (0x40000, 0x50), (0x40001, 0x4C), (0x40002, 0x41), (0x40003, 0x4E),
      (0x40006, 1), (0x40008, 1), (0x40101, 0x10), (0x40102, 4), (0x40108, 1), (0x41000, 0x4B), (0x41001, 0x52), (0x41002, 0x4E),
      (0x41003, 0x4C), (0x41006, 1), (0x41010, 1), (0x41011, 1), (0x41012, 1), (0x41023, 1), (0x41025, 1)], []⟩ }
/-- Its context. -/
def testPlanCtx : Ctx := { testCtx .parked with root := 0x10000 }
/-- The tables map the first 64 GiB. -/
theorem testWalk (va : Nat) (h : va < 2 ^ 36) :
    walk testUpload 0x10000 va = .leaf ⟨0, 0, 0, 36, 0, true, false, false, false⟩ := by
  have h1 : va / 2 ^ 46 % 1024 = 0 := by omega
  have h2 : va / 2 ^ 36 = 0 := by omega
  have e1 : memNat testUpload.mem 65536 8 = 8193 := by decide +kernel
  have e2 : memNat testUpload.mem 8192 8 = 7 := by decide +kernel
  have p1 : isStruck testUpload 65536 = false := by decide +kernel
  have p2 : isStruck testUpload 8192 = false := by decide +kernel
  have hp : paOk testUpload 8192 = true := by decide +kernel
  rw [walk, walkFrom]
  rw [h1, show BitVec.toNat (65536 : Word) + 8 * 0 = 65536 from rfl, e1, p1]
  rw [if_neg (by decide), if_neg (by decide), if_neg (by decide), if_neg (by decide), if_neg (by
      rw [show 8193 / 2 ^ 13 % 2 ^ 39 * 2 ^ 13 = 8192 from rfl, hp]
      decide),
    show 8193 / 2 ^ 13 % 2 ^ 39 * 2 ^ 13 = 8192 from rfl, walkFrom, h2, show 8192 + 8 * (0 % 1024) = 8192 from rfl, e2, p2]
  rw [if_neg (by decide), if_neg (by decide), if_neg (by decide), if_pos (by decide), if_neg (by decide), leafEntry, h2]
  rfl
theorem testVaLoc (va : Nat) (h : va < 2 ^ 36) (hs : va < stackEnd testUpload 0) :
    vaLoc testUpload testPlanCtx va .read = some va := by
  have hq : paOk testUpload va = true := by
    unfold paOk
    simp only [show va / 2 ^ 51 = 0 by omega, show va / 2 ^ 36 = 0 by omega, Nat.mod_eq_of_lt h, hs]
    decide
  have hh : isHostLoc va = false := by unfold isHostLoc; simp; omega
  unfold vaLoc
  rw [if_neg (by omega), show testPlanCtx.root = 0x10000 from rfl, testWalk va h]
  dsimp only
  rw [Nat.mod_eq_of_lt h, Nat.zero_add, hq, hh]
  rfl
theorem testUnreadable (va n : Nat) (h : va + n ≤ 2 ^ 34) : unreadable testUpload testPlanCtx va n = none := by
  have e : stackEnd testUpload 0 = 48 * 2 ^ 30 := by decide +kernel
  have : (List.range n).find? (fun i => (vaLoc testUpload testPlanCtx (va + i) .read).isNone) = none := by
    rw [List.find?_eq_none]
    intro i hi
    rw [testVaLoc _ (by have := List.mem_range.1 hi; omega) (by have := List.mem_range.1 hi; omega)]
    simp
  rw [unreadable, this, Option.map_none]
theorem test_witness_HostCommands_kernel : kernelBad testUpload testPlanCtx 0x41000 = none := by
  unfold kernelBad
  rw [testUnreadable _ _ (by decide)]
  decide +kernel
theorem test_witness_HostCommands_step : stepBad testUpload testPlanCtx 0x40000 0 = none := by
  have h : vaNat testUpload testPlanCtx (stepAddr 0x40000 0) 8 = 0x41000 := by decide +kernel
  unfold stepBad
  dsimp only
  rw [testUnreadable _ _ (by decide), h, test_witness_HostCommands_kernel]
  decide +kernel
theorem test_witness_HostCommands_plan : planBad testUpload testPlanCtx 0x40000 = none := by
  have h : vaNat testUpload testPlanCtx (0x40000 + 8) 2 = 1 := by decide +kernel
  unfold planBad
  dsimp only
  rw [testUnreadable _ _ (by decide), h, show List.range (min 1 1024) = [0] from rfl, List.map_cons, test_witness_HostCommands_step]
  decide +kernel
theorem test_witness_HostCommands_badPlan :
    let x := testPlanCtx
    findCtx testUpload 0 = some x ∧ inReplay x = false ∧ planBad testUpload x 0x40008 = some 0x40008 ∧
      inReplay (testCtx .running) = true := by decide +kernel
theorem test_witness_HostCommands_reads :
    findInst (testHost .running) 0 0 = some testInst ∧ (3 : CoreId).toNat < 1024 ∧ isComputeCore 3 = true := by decide +kernel
/-- One tag entry in host memory, for the block at VA 0x40. -/
theorem test_witness_HostCommands_tags :
    let s0 := testUpload
    let s := { s0 with mem := memSetNat (memSetNat s0.mem 0x2000 8 11) (2 ^ 51 + 0x8000) 16 (0x40 + 0x8001 * 2 ^ 64) }
    let b := testVer [(8, 8, 0x8000), (16, 4, 1)]
    let x := testPlanCtx
    blkVer b = ⟨0, 1⟩ ∧ findCtx s (blkArg b 20 1) = some x ∧ 1 ≤ blkArg b 16 4 ∧ blkArg b 16 4 ≤ 65536 ∧
      2 ^ 51 + blkArg b 8 8 + 16 * blkArg b 16 4 ≤ 2 ^ 52 ∧ tagsBad s x ((List.range (blkArg b 16 4)).map (fun i =>
        let l := 2 ^ 51 + blkArg b 8 8
        (l + 16 * i, memNat s.mem (l + 16 * i) 8, memNat s.mem (l + 16 * i + 8) 8))) = none := by decide +kernel
/-- A command of version 1.0 with an OPCODE that no command has; it lies in the first byte. -/
theorem test_witness_HostCommands_unknown : let b := testFields [(0, 1, 0x7E), (2, 1, 1)]
    (natToBytes 64 b.toNat).length = 64 ∧ bytesToNat (natToBytes 64 b.toNat) % 256 ∉ opcodes := by decide +kernel
/-- A command for the teff core of cluster 2 has come, and its answer has come back; and one of the 24 of INVALIDATE, alone or not. -/
theorem test_witness_HostCommands_arrives :
    let b := testVer [(16, 1, 2), (17, 1, 9), (18, 2, 1)]
    let c := fun (op : Nat) => testMsg (serviceId 0) (teffName 2) true (.command op b)
    let a := fun (op : Nat) => testMsg (teffName 2) (serviceId 0) true (.commanded op b 0 none [])
    let s := fun (l : List Msg) => { testHost .running with net := l }
    let other := { a 0x35 with id := 4 }
    [0x30, 0x31, 0x32, 0x33, 0x34, 0x35].all (fun op => commandDue (s [c op]) (c op) &&
      (s [c op]).net.find? (fun x => x.id == 3) == some (c op)) = true ∧ coreNumOf (teffName 2) = 16 ∧ clusterIdx (teffName 2) = 2 ∧
      commandDue (s [testMsg (serviceId 0) 5 true (.command 0x40 b)]) (testMsg (serviceId 0) 5 true (.command 0x40 b)) = true ∧
      coreNumOf (5 : CoreId) ≠ 16 ∧ commandDue (s [a 0x31]) (a 0x31) = true ∧ commandDue (s [a 0x35, other]) (a 0x35) = true ∧
      ofCommand other.body = true := by decide +kernel
/-- A fault buffer of cluster 2, generation 9, with record 1. -/
def testFault : State :=
  { testHost .running with teffs := (testHost .running).teffs.set 2 ⟨[⟨.agent 0, 0, 0, 0x40000, 0x40000, .read, 0, 5, 2, some 1⟩],
    [⟨1, 0x40000, 0, .read, 1, 0, 5⟩], 9, true⟩ }
theorem test_witness_HostCommands_faults :
    let r := testVer [(8, 8, 0x8000), (16, 1, 2)]
    let b := testVer [(16, 1, 2), (17, 1, 9), (18, 2, 1)]
    let n := testVer [(16, 1, 2), (17, 1, 9)]
    let only := fun (b : Block) (l : List Nat) => (List.range 64).all fun j => decide (8 ≤ j → j ∉ l → blkByte b j = 0)
    hostBuf (blkArg r 8 8) 8200 = some (2 ^ 51 + 0x8000) ∧ only r (byteRange 8 9) = true ∧ blkByte r 16 ≤ 23 ∧
      blkByte b 16 ≤ 23 ∧ blkByte b 17 = (getTeff testFault 2).gen.toNat ∧ only b (byteRange 16 4) = true ∧
      (getTeff testFault 2).records.any (fun q => q.idx == blkArg b 18 2) = true ∧ only n (byteRange 16 2) = true ∧
      (getTeff testFault 2).records.all (fun q => q.idx != 0) = true ∧ blkByte (testVer [(16, 1, 2), (17, 1, 8)]) 17 ≠ 9 := by
  decide +kernel
theorem test_witness_HostCommands_invalidate :
    let b := testVer [(24, 8, 0x10000), (32, 8, 0x10000)]
    ((List.range 64).all fun j => decide (8 ≤ j → j ∉ byteRange 8 2 ++ byteRange 24 16 → blkByte b j = 0)) = true ∧
      blkArg b 24 8 % 65536 = 0 ∧ blkArg b 32 8 ≠ 0 ∧ blkArg b 32 8 % 65536 = 0 ∧ blkArg b 24 8 + blkArg b 32 8 ≤ 0xF0 * 2 ^ 48 := by
  decide +kernel
theorem test_witness_HostCommands_attest :
    let b := testVer [(8, 8, 0x8000), (16, 1, 0xFF)]
    failedEarly (testHost .running).boot = false ∧ hostBuf (blkArg b 8 8) 424 = some (2 ^ 51 + 0x8000) ∧ blkByte b 16 = 0xFF ∧
      ((List.range 64).all fun j => decide (8 ≤ j → j ∉ byteRange 8 9 → blkByte b j = 0)) = true ∧
      failedEarly { (testHost .running).boot with failed := some 2 } = true ∧
      failedEarly State.reset.boot = false ∧ State.reset.boot.reached < 3 := by decide +kernel

/-- The context has stopped, with its cores at one stop; or they have not. -/
def testStop (stopped : Bool) : State :=
  let s := testHost .stopped
  { s with core := { s.core with stopped := stopped }, cores := [{ testCore1 with stopped := stopped }], ag := { s.ag with run := .halted } }
/-- The context is switched out. -/
def testOut : State := { testHost .out with core := { testMem.core with out := true }, cores := [{ testCore1 with out := true }] }
theorem test_witness_Contexts_states :
    (∀ st : CtxState, findCtx (testHost st) 0 = some (testCtx st)) ∧ (testCtx .stopped).state = .stopped ∧
      (testCtx .running).state = .running ∧ consistent (testStop true) (testCtx .stopped) = true ∧ consistent (testStop false) (testCtx .stopped) = false ∧
      { testStop true with pendingOut := some 0 }.pendingOut = some 0 ∧ stopDue (testStop false) (getCore (testStop false) (ctxCore 0 0)) = true ∧
      (seatAll 0 (coresOf testOut 0) { testOut with hostOut := [] }).isSome = true :=
  ⟨fun st => by cases st <;> decide +kernel, by decide +kernel, by decide +kernel, by decide +kernel, by decide +kernel, by decide +kernel,
    by decide +kernel, by decide +kernel⟩
theorem test_witness_Contexts_create :
    let s := testHost .running
    createBad s 1 5 0x100000 1 0x200000 (BitVec.ofNat 64 (saveNeed 1)) = false ∧ createBad s 0 5 0x100000 1 0x200000 0 = true := by
  decide +kernel
/-- Core 1 of the context runs on die 1 alone, and a spare core of die 0 is free. -/
theorem test_witness_Contexts_evacuate :
    let s0 := testHost .running
    let s := { s0 with cores := [{ testCore1 with phys := coreId 1 0 1 }], cfg := { s0.cfg with spare := 2 ^ 5 } }
    ((allCores s).filter fun k => k.ctx.isSome && !k.out && dieOf k.phys == (1 : BitVec 2).toNat).map (·.id) = [ctxCore 0 1] ∧
      coreId 0 0 5 ∈ physCores ∧ isSpare s (coreId 0 0 5) = true ∧ physFree s (coreId 0 0 5) = true ∧ dieOf (coreId 0 0 5) ≠ 1 ∧
      isVectorCore (coreId 0 0 5) = isVectorCore (ctxCore 0 1) := by decide +kernel
theorem test_witness_Contexts_kick :
    (testCtx .parked).latch = [] ∧ (∃ st ∈ (testCtx .parked).plan, st.device = false) ∧ (0xFFFFFFFF : Word).toNat < 2 ^ 32 ∧
      2 ^ 32 ≤ (0x100000000 : Word).toNat ∧ (0x4000000000000000 : Word).getLsbD 62 = true ∧ (testCtx .parked).state ≠ .out := by decide +kernel
/-- A read and a write of HBM, and of host memory; and one of each that has come to its stack, and the data of a read. -/
theorem test_witness_Contexts_cxl :
    let s0 := testHost .running
    let m := fun (b : Body) => testMsg (serviceId 0) (stackId 0) true b
    let s := fun (b : Body) => { s0 with net := [m b] }
    let d := testMsg (stackId 0) (serviceId 0) false (.hostData 0 [1, 2])
    isHostLoc (2 ^ 51) = true ∧ isHostLoc 0x40 = false ∧ 0x40 + 64 ≤ 12 * 2 ^ 36 ∧
      [Body.hostWrite 0x40 [1, 2], .hostRead 0x40 64 0].all (fun b =>
        homeDue (s b) (stackId (0 : BitVec 4).toNat) (fun x => atCulmPort (s b) (0 : BitVec 4).toNat x.src == true) == [m b]) = true ∧
      (m (.hostWrite 0x40 [1, 2])).bad = false ∧ deliverable { s0 with net := [d] } d = true ∧
      forNobody { s0 with net := [d] } d = false ∧ d.dst = serviceId (coreNumOf d.dst) := by decide +kernel
/-- A register's offset; and nothing is done before step 6. -/
theorem test_witness_Contexts_ports : 7 ≤ (testHost .running).boot.reached ∧ State.reset.boot.reached < 7 ∧ 15 < 16 ∧
    (0x1000 : Nat) % 0x1000 < 8 := by decide +kernel
/-- The context has stopped and its cores are out, and no core of the package is free for it. -/
theorem test_witness_Contexts_pending : (testStop true).pendingOut = none ∧
    { testStop true with pendingOut := some 0 }.pendingOut = some 0 ∧ (3 : BitVec 2).toNat ∉ State.reset.evacuated := by decide +kernel

/-! ### Distributor, arrivals, fabrics -/

/-- Instance 0 runs on the two cores with this wave; its one agent waits in RETIRE, and the counts agree. -/
def testWave (w : Option (Word × Word)) (st : InstState) : State :=
  let s := testProg .pending
  { s with
    insts := [{ testInst with wave := w, state := st, cores := [ctxCore 0 0, ctxCore 0 1] }]
    ag := { s.ag with run := .blocked (.retire 3) }
    core := { s.core with sentcnt := 3, rcvdcnt := 2 }
    cores := [{ testCore1 with sentcnt := 4, rcvdcnt := 5 }] }
theorem test_witness_DistributorAndArrivals_waves :
    let s := fun w => testWave w .running
    let sums := fun (w : State) (i : Inst) => (sumWords ((instCores w i).map (·.sentcnt)), sumWords ((instCores w i).map (·.rcvdcnt)))
    let i := { testInst with wave := some (7, 7), cores := [ctxCore 0 0, ctxCore 0 1] }
    findInst (s (some (7, 7))) 0 0 = some i ∧ ctxRuns (s none) 0 = true ∧ sums (s (some (7, 7))) i = (7, 7) ∧
      (instCores (s (some (7, 7))) i).all (coreIdle (s (some (7, 7)))) = true ∧
      (instCores (testProg .pending) testInst).all (coreIdle (testProg .pending)) = false := by decide +kernel
theorem test_witness_DistributorAndArrivals_prepare :
    let i := { testInst with started := false, cores := [ctxCore 0 0, ctxCore 0 1] }
    let s := { testWave none .running with insts := [i] }
    mayPrepare s i = true ∧ i.cores ≠ [] ∧ i.cores.all (fun k => (getCore s k).prepared) = true ∧
      instStep s i = some (testCtx .running, ⟨testKd, 1, false, []⟩) := by decide +kernel
theorem test_witness_DistributorAndArrivals_done :
    let s := testRun .halted (testProg .pending)
    instEnded s testInst = true ∧ findCtx s testInst.ctx = some (testCtx .running) := by decide +kernel
/-- A ready instance, and reports of free cores. -/
theorem test_witness_DistributorAndArrivals_place :
    let i := testInstOf 1 0 .ready
    let s := { testProg .pending with insts := [testInst, i], reports := [coreId 0 0 3, coreId 1 2 4] }
    readyPool s = [i] ∧ placementOf s i = some (testCtx .running, ⟨testKd, 1, false, []⟩, [coreId 0 0 3]) ∧
      reportedFree s (testCtx .running) (coreId 0 0 3) = true ∧ physFree s (coreId 0 0 3) = true ∧
      nameFree s (testCtx .running) (coreId 0 0 3) = true ∧
      sortBy (fun i j => i.age ≤ j.age) ((readyPool s).filter fun i => !i.overdue) = [i] := by decide +kernel
/-- A report of die 1 has come to the distributor. -/
theorem test_witness_DistributorAndArrivals_report :
    let m := testMsg (dieId 1) culmId false (.report 1 [coreId 1 0 3] [(5, 2)])
    let s := { testProg .pending with net := [m] }
    s.net.find? (fun x => x.id == 3) = some m ∧ deliverable s m = true ∧ forNobody s m = false ∧
      (getCore s s.core.id).ctx.isSome = true ∧ s.core.out = false ∧ dieOf s.core.phys = (0 : BitVec 2).toNat ∧
      ([((5 : Nat), 2)].map (·.1)).Nodup := by decide +kernel
/-- A pending write of the agent has reached core 1, or stack 5, good or struck; and a read, an engine's block and an operation have. -/
theorem test_witness_DistributorAndArrivals_writes :
    let w : PWrite := ⟨8, 2, [(sliceBase (ctxCore 0 1) + 4224, 3)], [], true, 4, true, true⟩
    let v : PWrite := ⟨8, 2, [(5 * 2 ^ 36 + 64, 3)], [], true, 4, true, true⟩
    let m := testMsg (ctxCore 0 0) (ctxCore 0 1) true (.write testMem.ag.aid 8)
    let n := { testMsg (ctxCore 0 0) (stackId 5) true (.write testMem.ag.aid 8) with bad := true }
    let to1 := fun (b : Body) => testMsg (ctxCore 0 0) (ctxCore 0 1) true b
    let s := fun w m => { testTwo with ag := { testTwo.ag with posted := [w] }, net := [m], ctxs := [testCtx .running] }
    findAgent (s w m) testMem.ag.aid = some (s w m).ag ∧ (s w m).ag.posted.find? (fun x => x.id == w.id) = some w ∧
      homeDue (s w m) (ctxCore 0 1) (fun _ => true) = [m] ∧
      [Body.request (.agent testMem.ag.aid 6) false true, .request (.engine (ctxCore 0 0) 6) false true,
        .store (ctxCore 0 0) 6 4352 1 [(sliceBase (ctxCore 0 1), 3)] [], .op testMem.ag.aid 6 (.bara (ctxCore 0 1) 3 1 0)].all (fun b =>
          homeDue (s w (to1 b)) (ctxCore 0 1) (fun _ => true) == [to1 b]) = true ∧
      (to1 (.reply 0)).bad = false ∧
      homeDue (s v n) (stackId (5 : BitVec 4).toNat) (fun x => atCulmPort (s v n) (5 : BitVec 4).toNat x.src == true) = [n] := by
  decide +kernel
/-- The two ways in which an operation is performed at core 1: with an answer, and one whose agent then waits in its table. -/
theorem test_witness_DistributorAndArrivals_operations :
    let m := fun (o : HomeOp) => testMsg (ctxCore 0 0) (ctxCore 0 1) true (.op testMem.ag.aid 6 o)
    let s := fun (o : HomeOp) => { testMem with
      net := [m o], ctxs := [testCtx .running], cores := [{ testCore1 with bars := [(3, ⟨9, 5, 4⟩)] }] }
    let at_ := fun (o : HomeOp) => actAt (ctxCore 0 1) 6 0 (spoiledOp false o) (checkout testMem.ag.aid (performed (m o) (s o)))
    [HomeOp.bara (ctxCore 0 1) 3 1 0, .barw (ctxCore 0 1) 3 9].all (fun o =>
      (findAgent (performed (m o) (s o)) testMem.ag.aid).isSome) = true ∧
      (at_ (.bara (ctxCore 0 1) 3 1 0)).2.isSome = true ∧ (at_ (.barw (ctxCore 0 1) 3 9)).2 = none ∧
      (findAgent (at_ (.bara (ctxCore 0 1) 3 1 0)).1 testMem.ag.aid).any (fun a => a.place != ctxCore 0 1) = true := by decide +kernel
/-- Answers for the agent: a reply, the data of its read, the result of its operation, and refusals. -/
theorem test_witness_DistributorAndArrivals_answers :
    let got := fun (r : Run) (b : Body) => testRun r { testMem with
      net := [testMsg (ctxCore 0 1) (ctxCore 0 0) true b], ag := { testMem.ag with reqseq := 5 } }
    let l : LateTrap := ⟨cFetch, 0x400, 4⟩
    let u : LateTrap := ⟨cRefused, 0x10000, 4⟩
    let y := fun (l : LateTrap) => Body.refusal testMem.ag.aid l
    let a := fun (k : Nat) => Body.answer (.agent testMem.ag.aid k) true
    let o := fun (x : OpAnswer) => Body.result testMem.ag.aid 6 true x
    let w := Run.blocked (.translation 4)
    let waits := Run.blocked (.op 6 none)
    [(Run.running, Body.reply testMem.ag.aid), (.blocked (.reads 6 2 false []), a 6), (.running, a 6), (waits, o (.done (testOpAnswer 7))),
        (waits, o .tableFull), (waits, o .ringFull), (waits, o (.trapped 3 0)), (.running, o .tableFull)].all (fun p =>
        replyFor (got p.1 p.2) (got p.1 p.2).ag == some (testMsg (ctxCore 0 1) (ctxCore 0 0) true p.2)) = true ∧
      [(Run.running, l), (.running, u), (w, l), (w, u)].all (fun p =>
        refusalFor (got p.1 (y p.2)) (got p.1 (y p.2)).ag == some (testMsg (ctxCore 0 1) (ctxCore 0 0) true (y p.2), p.2)) = true ∧
      blockedOn w l.seq = true ∧ blockedOn .running l.seq = false ∧ u.cause ≠ cFetch ∧ l.trapa = testMem.ag.pc ∧
      testMem.ag.handler = false ∧ testMem.ag.trapvec.toNat / 4 ≠ 0 ∧ testMem.ag.late = [] := by decide +kernel
theorem test_witness_DistributorAndArrivals_late :
    let l : LateTrap := ⟨3, 0x10000, 4⟩
    let s := { testMem with ag := { testMem.ag with late := [{ l with seq := 6 }, l] } }
    lateDue s s.ag = true ∧ firstLate s.ag.late = some l ∧ s.ag.run = .running ∧ s.ag.trapvec.toNat / 4 ≠ 0 := by decide +kernel
/-- A parked access: the page is absent from one root's table, and a leaf of the other's; a fault message has come, and an answer. -/
theorem test_witness_DistributorAndArrivals_teff :
    let a : Access := ⟨.agent testMem.ag.aid, 0, 0x10000, 0x40000, 0x40000, .read, 0, 5, 1, none⟩
    let x : Answer := ⟨.agent testMem.ag.aid, 0x40000, 0x40000, .read, 5, true⟩
    let s := { testUpload with teffs := testUpload.teffs.set 2 ⟨[a], [], 9, false⟩ }
    let f := testMsg (ctxCore 0 0) (teffName 2) true (.fault a)
    let m := testMsg (teffName 0) (ctxCore 0 0) true (.mapped x)
    (getTeff s 2).parked = [a] ∧ walk s 0x20000 0x40000 = .absent ∧
      (match walk s a.root a.va.toNat with | .leaf e => tlbAllows e a.kind | _ => false) = true ∧
      faultFor { s with net := [f] } 2 = some (f, a) ∧ answerFrom { s with net := [m] } 0 = some (m, x) ∧
      findAgent s s.ag.aid = some s.ag := by decide +kernel

/-- A clockwise flit at stop 0 of cluster 0's ring, and room at the stops. -/
def testFlit : Flit := ⟨3, 0, true, 3, 0, false, 2⟩
def testRing : State :=
  let free := { RingIn.empty with seen := ⟨8, 1, 1, 1⟩ }
  { testMem with fabric := { testMem.fabric with
    rings := testMem.fabric.rings.set 0 ((Vector.replicate 8 ⟨free, free⟩).set 0 ⟨{ free with buf := [testFlit] }, free⟩) } }
theorem test_witness_FabricsAndBringUp_ring :
    ringChoice testRing 0 0 .cw = some (.passing testFlit) ∧ testFlit.dst ≠ nextStop 0 .cw ∧
      (slotFor (getIn testRing 0 0 .cw) (getIn testRing 0 (nextStop 0 .cw) .cw).seen 0 .cw testFlit).isSome = true ∧
      ringChoice testRing 0 1 .cw = none ∧ landed 0 (getIn testRing 0 0 .cw) = [] ∧
      landed 3 { RingIn.empty with buf := [testFlit] } = [testFlit] := by decide +kernel
/-- A flit at router 0 of die 0, for router 2; one on the wire of die 1's link; and a packet at its destination's interface. -/
def testFab : State :=
  { testMem with
    net := [testMsg (ctxCore 0 1) (ctxCore 0 0) false (.reply testMem.ag.aid)]
    fabric := { testMem.fabric with
      meshes := testMem.fabric.meshes.set 0 ((testMem.fabric.meshes.toList.headD (Vector.replicate 6 ⟨[], []⟩)).set 0 ⟨[(2, testFlit)], []⟩)
      d2dUp := testMem.fabric.d2dUp.set 1 ⟨[testFlit], [onWire testFlit], false⟩ } }
theorem test_witness_FabricsAndBringUp_mesh :
    meshEntry testFab 0 0 false = none ∧ routerQ false (getRouter testFab 0 0) = [(2, testFlit)] ∧ meshNext 0 2 ≠ 2 ∧
      linkEntry testFab 1 true = none ∧ (getLink testFab 1 true).discarding = false ∧ (getLink testFab 1 true).wire = [onWire testFlit] :=
  ⟨by decide +kernel, by decide +kernel, by decide +kernel, by decide +kernel, by decide +kernel, rfl⟩
theorem test_witness_FabricsAndBringUp_packet :
    let m := testMsg (ctxCore 0 1) (ctxCore 0 0) false (.reply testMem.ag.aid)
    testFab.net.find? (fun x => x.id == m.id) = some m ∧ deliverable testFab m = true ∧ forNobody testFab m = false ∧
      atDelivery m = false ∧ forNobody { testFab with ctxs := [] } m = true := by decide +kernel
/-- Port 0 sends; port 1 retrains after two failures; port 2 is out. -/
theorem test_witness_FabricsAndBringUp_svailaet :
    let p := { Port.idle with up := true, tosend := [(0, 5)] }
    let q := { Port.idle with up := true, retraining := true, failedTrains := 2 }
    let r := { Port.idle with failedTrains := 3 }
    let s := { testMem with fabric := { testMem.fabric with ports := ((testMem.fabric.ports.set 0 p).set 1 q).set 2 r } }
    getPort s 0 = p ∧ p.retraining = false ∧ p.resend = 0 ∧ p.tosend ≠ [] ∧ p.replay.length < 128 ∧ p.discarding = false ∧
      (0 : BitVec 12) = p.ackseq + 1 ∧ getPort s 1 = q ∧ q.retraining = true ∧ getPort s 2 = r ∧ r.up = false ∧ r.peerHello = none ∧
      Port.idle.tosend = [] ∧ (⟨2, 0, 0, 0⟩ : Hello).major ≠ 1 := by decide +kernel
theorem test_witness_FabricsAndBringUp_scrub : paOk testMem 0x40 = true ∧ (11 : BitVec 4).toNat < 12 := by decide +kernel
/-- A gather engine with a block in its reorder buffer. -/
theorem test_witness_FabricsAndBringUp_reorder :
    let ch := testChain 2 6 (some (testCmd (testCmdBlock 2) 1 [⟨0, 0, [], false, 5, 0x7FC0, true, false, false, false⟩]))
    findChain (getCore (testEng ch) (ctxCore 0 0)) 4352 = some ch ∧ ch.kind = 2 := by decide +kernel
/-- A core whose SRAM is struck, and an agent that runs. -/
theorem test_witness_FabricsAndBringUp_soft : isComputeCore testMem.core.phys = true ∧ testMem.core.phys.toNat < 1024 ∧
    (counterCore testMem testMem.core.phys).phys = testMem.core.phys ∧ (counterCore testMem testMem.core.phys).out = false ∧
    findAgent testMem testMem.ag.aid = some testMem.ag ∧ testMem.ag.run = .running := by decide +kernel
/-- Whatever the temperatures are, one of the two clauses of a power window applies. -/
theorem test_witness_FabricsAndBringUp_power (s : State) :
    (∀ i < 17, (Config.temperature s.draws i).toNat < 1100) ∨ ∃ i < 17, 1100 ≤ (Config.temperature s.draws i).toNat := by
  by_cases h : ∃ i < 17, 1100 ≤ (Config.temperature s.draws i).toNat
  · exact .inr h
  · exact .inl fun i hi => Nat.lt_of_not_le fun hx => h ⟨i, hi, hx⟩
/-- Nothing lies in the flash. -/
theorem test_witness_FabricsAndBringUp_boot : flashBlob State.reset.boot 1 = none ∧ State.reset.boot.failed = none ∧
    State.reset.boot.reached = 0 ∧ 7 ≤ testUp.boot.reached := by decide +kernel
end Sys2Proof
end

section
/-! SUPPORT. The integer operations (R37, R38, R113): the exact result fitted to n64 or i64, division by zero, and the one
write that ends each of them. -/

namespace Sys2Proof.Machine

/-! ## Fitting an exact result (R37) -/

theorem satBy_eq_saturates (s : State) (m : IMode) : satBy s m = saturates s m := by cases m <;> rfl

/-- Taking the end of the range that the exact result lies beyond is clamping it between the two ends. -/
theorem ends_eq_clamped {lo hi : Int} (h : lo ≤ hi) (z : Int) :
    (if z < lo then (BitVec.ofInt 64 lo, stISAT) else if z > hi then (BitVec.ofInt 64 hi, stISAT)
      else (BitVec.ofInt 64 z, 0)) =
      if z < lo || hi < z then (BitVec.ofInt 64 (max lo (min hi z)), stISAT) else (BitVec.ofInt 64 z, 0) := by
  by_cases hlo : z < lo
  · have below : max lo (min hi z) = lo := by omega
    simp [hlo, below]
  · by_cases hhi : hi < z
    · have above : max lo (min hi z) = hi := by omega
      simp [hlo, hhi, above]
    · simp [hlo, hhi]

/-- Wrapping keeps the exact result modulo 2^64 and sets no flag. -/
theorem fit64_wrap (u : Bool) (z : Int) : fit64 u false z = (BitVec.ofInt 64 z, 0) := by cases u <;> rfl

theorem fit64_sat_unsigned (z : Int) : fit64 true true z = fitted true true z := by
  have h := ends_eq_clamped (lo := 0) (hi := 2 ^ 64 - 1) (by omega) z
  simpa only [fit64, fitU, fitted, if_true, Bool.true_and, show BitVec.ofInt 64 0 = 0 from rfl] using h

theorem fit64_sat_signed (z : Int) : fit64 false true z = fitted false true z := by
  have h := ends_eq_clamped (lo := -(2 ^ 63)) (hi := 2 ^ 63 - 1) (by omega) z
  simpa only [fit64, fitS, fitted, if_true, Bool.true_and, Bool.false_eq_true, if_false, Nat.reduceSub] using h

theorem fit64_eq_fitted (u sat : Bool) (z : Int) : fit64 u sat z = fitted u sat z :=
  match u, sat with
  | u, false => fit64_wrap u z
  | true, true => fit64_sat_unsigned z
  | false, true => fit64_sat_signed z

/-! ## Division (R38) -/

/-- A register read as n64 or as i64 is zero exactly when its bits are. -/
theorem val64_eq_zero_iff (u : Bool) (x : Word) : val64 u x = 0 ↔ x = 0 := by
  cases u with
  | true => simp [val64, BitVec.toNat_eq]
  | false => simp [val64, ← BitVec.toInt_inj]

theorem arithOf_div (u sat : Bool) (x y : Word) : arithOf .div u sat x y =
    if y = 0 then (BitVec.allOnes 64, 0) else fitted u sat ((val64 u x).tdiv (val64 u y)) := by
  simp only [arithOf, val64_eq_zero_iff, fit64_eq_fitted]

/-- The remainder belongs to the quotient that truncates, so it has the sign of the dividend. -/
theorem arithOf_rem (u : Bool) (x y : Word) : arithOf .rem u false x y =
    if y = 0 then (x, 0) else (BitVec.ofInt 64 ((val64 u x).tmod (val64 u y)), 0) := by
  simp only [arithOf, val64_eq_zero_iff, fit64_wrap, Int.tmod_def]

/-! ## The instructions (R113) -/

/-- An integer instruction that meets none of its checks writes its result and its sticky bits to d, and nothing else. -/
theorem arith_writes {d a b : Reg} {s : State} (h : Free [.s d, .s a, .s b] s) (op : ArOp) (sat u : Bool)
    {r : Word × Sticky} (hr : arithOf op u sat (getS s a) (getS s b) = r) :
    ∃ t, arith op d a b sat u s = .next t ∧ WritesScalar d r.1 r.2 4 s t := by
  subst hr
  exact ⟨_, checked_free h _, writeS_writes ..⟩

/-- Settles O11: each instruction is arith of its operation, whose result is the exact one fitted to the type (R37), with
the quotient and remainder of R38. -/
theorem integerArithmetic : Obligations.IntegerArithmetic := by
  intro s d a b m u x y gives hfree
  have hfit (z : Int) : fit64 u (satBy s m) z = fitted u (saturates s m) z := by
    rw [fit64_eq_fitted, satBy_eq_saturates]
  refine ⟨?add, ?sub, ?mul, ?mulh, ?div, ?rem, ?min, ?max⟩
  case add => exact arith_writes hfree .add (satBy s m) u (hfit (x + y))
  case sub => exact arith_writes hfree .sub (satBy s m) u (hfit (x - y))
  case mul => exact arith_writes hfree .mul (satBy s m) u (hfit (x * y))
  case mulh => exact arith_writes hfree .mulh false u rfl
  case div => exact arith_writes hfree .div (satBy s m) u (by rw [arithOf_div, satBy_eq_saturates])
  case rem => exact arith_writes hfree .rem false u (arithOf_rem ..)
  case min => exact arith_writes hfree .min false u rfl
  case max => exact arith_writes hfree .max false u rfl

end Sys2Proof.Machine
end

section
/-! SUPPORT. The lane moves (R136, R141, R149, R233): what lane i of a packed block holds, and the one write of a vector
register that ends each of them. -/

namespace Sys2Proof.Machine

/-! ## Lanes of a packed block (R76) -/

theorem packNat_lt (w n : Nat) (f : Nat → Nat) : packNat w n f < 2 ^ (w * n) := by
  induction n with
  | zero => simp [packNat]
  | succ n ih =>
    have top : f n % 2 ^ w + 1 ≤ 2 ^ w := Nat.mod_lt _ (Nat.two_pow_pos w)
    calc packNat w n f + f n % 2 ^ w * 2 ^ (w * n)
        < (f n % 2 ^ w + 1) * 2 ^ (w * n) := by rw [Nat.add_one_mul]; omega
      _ ≤ 2 ^ w * 2 ^ (w * n) := Nat.mul_le_mul_right _ top
      _ = 2 ^ (w * (n + 1)) := by rw [← Nat.pow_add, Nat.mul_add_one, Nat.add_comm]

theorem toNat_ofNat_packNat {w n m : Nat} (f : Nat → Nat) (fits : w * n ≤ m) :
    (BitVec.ofNat m (packNat w n f)).toNat = packNat w n f :=
  Nat.mod_eq_of_lt (Nat.lt_of_lt_of_le (packNat_lt w n f) (Nat.pow_le_pow_right Nat.two_pos fits))

theorem packNat_lane {w n i : Nat} (f : Nat → Nat) (h : i < n) : packNat w n f / 2 ^ (w * i) % 2 ^ w = f i % 2 ^ w := by
  induction n with
  | zero => omega
  | succ n ih =>
    rw [packNat]
    rcases Nat.lt_succ_iff_lt_or_eq.1 h with below | rfl
    case inl =>
      -- The top lane adds a multiple of 2 ^ w above lane i.
      obtain ⟨k, rfl⟩ := Nat.exists_eq_add_of_lt below
      have exponent : w * (i + k + 1) = w * i + (w + w * k) := by
        rw [Nat.mul_add_one, Nat.mul_add, Nat.add_assoc, Nat.add_comm (w * k)]
      rw [exponent, Nat.pow_add, Nat.pow_add, Nat.mul_left_comm _ (2 ^ (w * i)), Nat.mul_left_comm _ (2 ^ w),
        Nat.add_mul_div_left _ _ (Nat.two_pow_pos _), Nat.add_mul_mod_self_left, ih below]
    case inr =>
      rw [Nat.add_mul_div_right _ _ (Nat.two_pow_pos _), Nat.div_eq_of_lt (packNat_lt w i f), Nat.zero_add, Nat.mod_mod]

theorem lane_mkBlock {w n i : Nat} (f : Nat → Nat) (fits : w * n ≤ 512) (h : i < n) :
    lane w i (mkBlock w n f) = f i % 2 ^ w := by
  rw [lane, mkBlock, toNat_ofNat_packNat f fits, packNat_lane f h]

theorem lane_mod (w i : Nat) (b : Block) : lane w i b % 2 ^ w = lane w i b := Nat.mod_mod ..

/-! ## Lanes of a type (R88) -/

theorem laneBits_mul_lanes (t : VTy) : laneBits t * t.lanes = 512 := by cases t <;> rfl

theorem lanes_pos (t : VTy) : 0 < t.lanes := by cases t <;> decide

/-- The lowest byte of every lane has a bit of a predicate. -/
theorem mul_bytes_lt {t : VTy} {i : Nat} (h : i < t.lanes) : i * t.bytes < 64 := by
  have whole : t.lanes * t.bytes = 64 := by cases t <;> rfl
  have pos : 0 < t.bytes := by cases t <;> decide
  calc i * t.bytes < t.lanes * t.bytes := Nat.mul_lt_mul_of_pos_right h pos
    _ = 64 := whole

theorem allOnes_active {t : VTy} {i : Nat} (h : i < t.lanes) : (BitVec.allOnes 64).getLsbD (i * t.bytes) = true := by
  rw [BitVec.getLsbD_allOnes, decide_eq_true (mul_bytes_lt h)]

/-! ## Writing the lanes of a vector register (R130) -/

section
variable {d : Reg} {t : VTy} {n : Nat} {s : State} {f : Nat → Nat}

/-- Lanes computed where active: what is written is right when it is right modulo the lane width. -/
theorem writeV_mapLanes_writes {p : Word} {g : Nat → Nat}
    (hf : ∀ i, f i % 2 ^ laneBits t = g i % 2 ^ laneBits t) :
    WritesLanes d t p (fun i => (g i, 0)) n s (writeV d (mapLanes t p (getV s d) f, 0) n s) := by
  refine ⟨_, 0, setV_writes .., fun i hi => ?_, by simp⟩
  rw [mapLanes, ← laneBits, lane_mkBlock _ (Nat.le_of_eq (laneBits_mul_lanes t)) hi, laneActive]
  split
  · exact hf i
  · exact lane_mod ..

/-- A block of which no lane is kept, each raising the same flags. -/
theorem writeV_mkBlock_writes {fl : Sticky} {g : Nat → Nat × Sticky}
    (hf : ∀ i, f i % 2 ^ laneBits t = (g i).1 % 2 ^ laneBits t) (hfl : ∀ i, (g i).2 = fl) :
    WritesLanes d t (BitVec.allOnes 64) g n s (writeV d (mkBlock (laneBits t) t.lanes f, fl) n s) := by
  refine ⟨_, fl, setV_writes .., fun i hi => ?_, fun b => ⟨fun hb => ?_, ?_⟩⟩
  · rw [← laneBits, lane_mkBlock _ (Nat.le_of_eq (laneBits_mul_lanes t)) hi, allOnes_active hi, if_pos rfl]
    exact hf i
  · exact ⟨0, lanes_pos t, allOnes_active (lanes_pos t), (hfl 0).symm ▸ hb⟩
  · rintro ⟨i, _, _, hb⟩
    exact hfl i ▸ hb

end

/-! ## The instructions -/

theorem clean_mono {rs rs' : List Reg} {s : State} (h : Clean rs s) (hs : ∀ r ∈ rs', r ∈ rs) : Clean rs' s :=
  fun r hr => h r (hs r hr)

section
variable {s : State} {d a r : Reg} {b : VSrc} {t : VTy} {p : PReg}

/-- The instruction completes, having written these lanes where the predicate q is active, without flags. -/
def MovesLanes (i : Instr) (d : Reg) (t : VTy) (q : Word) (f : Nat → Nat) (s : State) : Prop :=
  ∃ u, exec i s = .next u ∧ WritesLanes d t q (fun j => (f j, 0)) 4 s u

/-- R136: the predicate selects, and no lane of vd is kept. -/
theorem vsel_moves (hfree : Free [.v d, .v a, srcUse b, .p p.toNat] s) (hclean : Clean (a :: srcVecs b) s) :
    MovesLanes (.vsel d a b t p) d t (BitVec.allOnes 64)
      (fun i => if laneActive (getP s p.toNat) t i then regLane s t a i else srcLane s t b i) s :=
  ⟨_, (checked_free hfree _).trans (unpoisoned_clean hclean _), writeV_mkBlock_writes (fun _ => rfl) fun _ => rfl⟩

theorem vperm_moves (hfree : Free [.v d, .v a, srcUse b, .p p.toNat] s) (hclean : Clean (a :: srcVecs b) s) :
    MovesLanes (.vperm d a b t p) d t (getP s p.toNat) (fun i => regLane s t a (srcLane s t b i % t.lanes)) s :=
  ⟨_, (checked_free hfree _).trans (unpoisoned_clean hclean _), writeV_mapLanes_writes fun _ => rfl⟩

theorem vmov_moves (hfree : Free [.v d, .v a, .p p.toNat] s) (hclean : Clean [a] s) :
    MovesLanes (.vmov d a t p) d t (getP s p.toNat) (regLane s t a) s :=
  ⟨_, (checked_free hfree _).trans (unpoisoned_clean hclean _), writeV_mapLanes_writes fun _ => rfl⟩

theorem vbcast_lane_moves {k : Reg} (hk : k.toNat < t.lanes) (hfree : Free [.v d, .v a, .p p.toNat] s)
    (hclean : Clean [a] s) :
    MovesLanes (.vbcast d (.lane a k) t p) d t (getP s p.toNat) (fun _ => regLane s t a k.toNat) s := by
  have hwf : (Instr.vbcast d (.lane a k) t p).wf = true := decide_eq_true hk
  exact ⟨_, (legal_wf hwf _).trans ((checked_free hfree _).trans (unpoisoned_clean hclean _)),
    writeV_mapLanes_writes fun _ => rfl⟩

theorem vbcast_scalar_moves (hfree : Free [.v d, .s r, .p p.toNat] s) :
    MovesLanes (.vbcast d (.s r) t p) d t (getP s p.toNat) (fun _ => (getS s r).toNat) s :=
  ⟨_, (legal_wf (i := .vbcast d (.s r) t p) (s := s) rfl _).trans (checked_free hfree _),
    writeV_mapLanes_writes fun _ => Nat.mod_mod ..⟩

theorem vidx_moves (ht : t.isFloat = false) (hfree : Free [.v d, .s r, .p p.toNat] s) :
    MovesLanes (.vidx d r t p) d t (getP s p.toNat) (fun i => (getS s r).toNat + i) s := by
  have hwf : (Instr.vidx d r t p).wf = true := congrArg not ht
  exact ⟨_, (legal_wf hwf _).trans (checked_free hfree _), writeV_mapLanes_writes fun _ => Nat.mod_mod ..⟩

/-- One lane is replaced; the others are the old ones, whatever vd's tag is (log 29). -/
theorem vins_moves {ix : LaneIx} (hix : ix.laneOk t = true) (hfree : Free (.v d :: .s a :: ixUses ix) s) :
    MovesLanes (.vins d a ix t) d t (BitVec.allOnes 64)
      (fun i => if i = laneOf s t ix then (getS s a).toNat else regLane s t d i) s := by
  refine ⟨_, (legal_wf (i := .vins d a ix t) hix _).trans (checked_free hfree _),
    writeV_mkBlock_writes (fun i => ?_) fun _ => rfl⟩
  dsimp only
  split
  · exact Nat.mod_mod ..
  · rfl

/-- A lane narrower than 64 bits of a signed integer type is sign-extended, any other lane zero-extended (R141). -/
theorem extLane_eq (t : VTy) (fmt x : Nat) : extLane t fmt x =
    if t = .i16 ∨ t = .i32 ∨ (t = .b8 ∧ laneKind .b8 fmt = some (.int true))
    then (BitVec.ofNat (laneBits t) x).signExtend 64 else BitVec.ofNat 64 x := by
  cases t with
  | b8 => simp [extLane, laneKind, laneBits, VTy.bytes]
  | i16 | i32 | i64 | bf16 | f16 | f32 | f64 => rfl

theorem vext_writes {ix : LaneIx} (hix : ix.laneOk t = true) (hfree : Free (.s d :: .v a :: ixUses ix) s)
    (hclean : Clean [a] s) : ∃ u, exec (.vext d a ix t) s = .next u ∧
      WritesScalar d (extLane t (tagFormat (getVT s a)) (regLane s t a (laneOf s t ix))) 0 4 s u :=
  ⟨_, (legal_wf (i := .vext d a ix t) hix _).trans ((checked_free hfree _).trans (unpoisoned_clean hclean _)),
    writeS_writes ..⟩

/-- VBCASTI's constant before it is cut to the lane width, and its flags (R233): sign-extended to i64, widened to f64 from
f32, else its own bits. -/
def wideConstant (t : VTy) (c : BitVec 32) : Nat × Sticky :=
  if t = .i64 then ((c.signExtend 64).toNat, 0)
  else if t = .f64 then ((roundTo fmtF64 .rne (fvDecode fmtF32 c.toNat)).1,
    if fvIsNan (fvDecode fmtF32 c.toNat) then stNV else 0)
  else (c.toNat, 0)

theorem bcastLane_value (t : VTy) (c : BitVec 32) :
    (bcastLane t c).1 % 2 ^ laneBits t = (wideConstant t c).1 % 2 ^ laneBits t := by
  cases t with
  | b8 | i16 | bf16 | f16 => exact Nat.mod_mod ..
  | i32 | i64 | f32 | f64 => rfl

theorem bcastLane_flags (t : VTy) (c : BitVec 32) : (wideConstant t c).2 = (bcastLane t c).2 := by cases t <;> rfl

theorem vbcasti_writes {c : BitVec 32} (hfree : Free [.v d] s) : ∃ u, exec (.vbcasti d t c) s = .next u ∧
    WritesLanes d t (BitVec.allOnes 64) (fun _ => wideConstant t c) 8 s u :=
  ⟨_, checked_free hfree _, writeV_mkBlock_writes (fun _ => bcastLane_value t c) fun _ => bcastLane_flags t c⟩

end

/-- Settles O26: each move writes one block lane by lane (VEXT one scalar), and the lanes it takes are those of va, of the
second source, of a scalar register or of the constant. VINS keeps the other lanes of a poisoned vd too (log 29). -/
theorem laneMoves : Obligations.LaneMoves := by
  intro s d a r b t p k c w x y gives all pr
  refine ⟨fun hfree hclean => ?_, fun hfree => ⟨vbcast_scalar_moves hfree, fun ht => vidx_moves ht hfree⟩,
    vbcasti_writes, fun hfree => ⟨fun hk => ?_, vins_moves rfl hfree⟩, fun hfree hclean => ?_⟩
  · have hfree1 : Free [.v d, .v a, .p p.toNat] s := free_mono hfree (by simp)
    have hclean1 : Clean [a] s := clean_mono hclean (by simp)
    exact ⟨vsel_moves hfree hclean, vperm_moves hfree hclean, vmov_moves hfree1 hclean1,
      fun hk => vbcast_lane_moves hk hfree1 hclean1⟩
  · exact vins_moves (ix := .k k) (decide_eq_true hk) (free_mono hfree (by simp [ixUses]))
  · intro ext
    have hext (i : Nat) : extLane t (tagFormat (getVT s a)) (regLane s t a i) = ext i := extLane_eq ..
    refine ⟨fun hk => ?_, ?_⟩
    · rw [← hext]
      exact vext_writes (ix := .k k) (decide_eq_true hk) (free_mono hfree (by simp [ixUses])) hclean
    · rw [← hext]
      exact vext_writes (ix := .s r) rfl hfree hclean

end Sys2Proof.Machine
end
